-- ==== Sys2Proof/Word.lean ====
section
/-! DEFINITION. The word types of the machine and the one shape in which its large tables are kept. -/

namespace Sys2Proof

/-- One byte of memory. -/
abbrev Byte := BitVec 8
/-- A 32-bit register or instruction word. -/
abbrev W32 := BitVec 32
/-- A 64-bit register or doubleword. -/
abbrev W64 := BitVec 64
/-- A 48-bit address (R275, R277). -/
abbrev Addr := BitVec 48
/-- One vector register (R146). -/
abbrev VReg := BitVec 65536
/-- One predicate register (R146). -/
abbrev PReg := BitVec 8192
/-- The lanes of a thread group, one bit each (R223). -/
abbrev Lanes := BitVec 1024
/-- A register number of five bits (R167). -/
abbrev Reg := BitVec 5

/-- A finite map from numbers, kept with strictly rising keys; what an unlisted key reads as is
said where the table is read. -/
abbrev Table (α : Type) := List (Nat × α)

end Sys2Proof
end

