-- ==== Sys2Proof/Syntax.lean ====
section
/-! DEFINITION. The commands of the block: one constructor of `Instr` for each row of the table of operations and
events. A command of a thread names the thread and the operands of its instruction form (R167); an event names what
the spec leaves to the outside of the step. -/

namespace Sys2Proof

/-- A hardware thread: one of eight threads of one of 32 vector processors (R143). -/
structure Tid where
  vp : BitVec 5
  th : BitVec 3
  deriving DecidableEq, Repr

/-- The operand fields of the V form (R167): `pe` and `p` predicate, `et` is the etype. -/
structure VF where
  vd : Reg
  va : Reg
  vb : Reg
  pe : Bool
  p  : BitVec 3
  et : BitVec 2
  deriving DecidableEq, Repr

/-- What a twin digest or verdict is about (R434): a command by its number, or an invocation by die and number. -/
inductive Context where
  | cmd (seq : Nat)
  | inv (die num : Nat)
  deriving DecidableEq, Repr

/-- What a CTRL frame says (R427, R429, R434 to R436): a digest agrees; one does not, with the VERDICT number and the
sessions of the invocation; the pair enters its mode; the lead changes mode; whose keys the twin
holds; a divergence is resolved. -/
inductive CtrlMsg where
  | equal (ctx : Context)
  | diverged (ctx : Context) (number : Nat)
  | enter
  | mode (m : Nat)
  | owner (keys : Option (List Nat))
  | resolve (number : Nat) (follower : Bool)
  deriving DecidableEq, Repr

/-- What SNAP frames carry to a follower (R395, R427, R442): bytes of a block or an image at their device addresses, a
session's descriptor, a queued event by its journal record, a serving plan by its command, a signed record, and the
snapshot's header, which comes last. -/
inductive SnapPart where
  | bytes (addr : Nat) (bs : List (BitVec 8))
  | session (sid : BitVec 20) (desc : BitVec 2048)
  | event (rec : BitVec 1152)
  | plan (seq : Nat) (entry : BitVec 512) (fn : BitVec 5) (tick : Nat)
  | record (kind gen epoch tick : Nat) (body : List Nat) (ed ml : Nat)
  | header (jcut : Nat) (counts : List (Nat × Nat)) (invNext : Nat × Nat)
  deriving DecidableEq, Repr

/-- What a FETCH_REQ asks for (R427): a snapshot unit of a size, the journal segment of a record, or a session. -/
inductive FetchWhat where
  | unit (size : Nat)
  | segment (first : Nat)
  | session (sid : BitVec 20)
  deriving DecidableEq, Repr

/-- What a FETCH_DATA brings (R391, R427, R486): bytes at their device addresses, journal records with the numbers of their
commands, a session's descriptor and block, or a signed record with its signatures. -/
inductive FetchPart where
  | unit (addr : Nat) (bs : List (BitVec 8))
  | segment (recs : List (Nat × BitVec 1152))
  | session (sid : BitVec 20) (desc : BitVec 2048) (block : List (BitVec 8))
  | record (kind gen epoch wtick : Nat) (body : List Nat) (sigEd sigMl : Nat)
  deriving DecidableEq, Repr

/-- A connection of the SPDM responder (R479, R481): the PF's DOE mailbox or the management endpoint, and the session on
it, 0 for none. -/
structure Conn where
  doe     : Bool
  session : Nat
  deriving DecidableEq, Repr

/-- The SPDM requests without a row of their own (R479): GET_CERTIFICATE for a slot, KEY_EXCHANGE that opens a secured
session, its end, and any other. -/
inductive SpdmReq where
  | getCertificate (slot : Nat)
  | keyExchange (session : Nat)
  | endSession (session : Nat)
  | other
  deriving DecidableEq, Repr

/-- What start-up finds (R391, R395, R476, R484): the device secret reconstructs, MRAM works, some copy of the repair record,
of the floor record and of the owner record is valid; channels that fail training, tier banks that fail, dies that fail, the
bank's energy in joules, and journal records and snapshots that no copy holds whole, the twin's among them. -/
structure BootTests where
  puf      : Bool
  mram     : Bool
  repair   : Bool
  floor    : Bool
  channels : List Nat
  banks    : List Nat
  dies     : BitVec 2
  joules   : Nat
  lost     : List Nat
  snaps    : List Nat
  owner    : Bool := true
  deriving DecidableEq, Repr

/-- The commands (opcode_table.json), one constructor a row. -/
inductive Instr where
  /-- ADD (R173): Adds two g registers modulo 2^64 into rd. -/
  | add (t : Tid) (rd : Reg) (ra : Reg) (rb : Reg)
  /-- SUB (R173): Subtracts rb from ra modulo 2^64 into rd. -/
  | sub (t : Tid) (rd : Reg) (ra : Reg) (rb : Reg)
  /-- AND (R173): Bitwise AND of two g registers into rd. -/
  | and (t : Tid) (rd : Reg) (ra : Reg) (rb : Reg)
  /-- OR (R173): Bitwise OR of two g registers into rd. -/
  | or (t : Tid) (rd : Reg) (ra : Reg) (rb : Reg)
  /-- XOR (R173): Bitwise XOR of two g registers into rd. -/
  | xor (t : Tid) (rd : Reg) (ra : Reg) (rb : Reg)
  /-- SHL (R173): Shifts ra left by rb[5:0] into rd. -/
  | shl (t : Tid) (rd : Reg) (ra : Reg) (rb : Reg)
  /-- SHR (R173): Shifts ra right by rb[5:0], filling with zeros, into rd. -/
  | shr (t : Tid) (rd : Reg) (ra : Reg) (rb : Reg)
  /-- SAR (R173): Shifts ra right by rb[5:0], filling with the sign, into rd. -/
  | sar (t : Tid) (rd : Reg) (ra : Reg) (rb : Reg)
  /-- SLT (R173): Sets rd to 1 when ra is less than rb as signed values, otherwise 0. -/
  | slt (t : Tid) (rd : Reg) (ra : Reg) (rb : Reg)
  /-- SLTU (R173): Sets rd to 1 when ra is less than rb as unsigned values, otherwise 0. -/
  | sltu (t : Tid) (rd : Reg) (ra : Reg) (rb : Reg)
  /-- MIN (R173): Writes the signed minimum of ra and rb to rd. -/
  | min (t : Tid) (rd : Reg) (ra : Reg) (rb : Reg)
  /-- MAX (R173): Writes the signed maximum of ra and rb to rd. -/
  | max (t : Tid) (rd : Reg) (ra : Reg) (rb : Reg)
  /-- MINU (R173): Writes the unsigned minimum of ra and rb to rd. -/
  | minu (t : Tid) (rd : Reg) (ra : Reg) (rb : Reg)
  /-- MAXU (R173): Writes the unsigned maximum of ra and rb to rd. -/
  | maxu (t : Tid) (rd : Reg) (ra : Reg) (rb : Reg)
  /-- CLZ (R173): Counts the leading zeros of ra, giving 64 for a zero ra. -/
  | clz (t : Tid) (rd : Reg) (ra : Reg)
  /-- CTZ (R173): Counts the trailing zeros of ra, giving 64 for a zero ra. -/
  | ctz (t : Tid) (rd : Reg) (ra : Reg)
  /-- POPC (R173): Counts the set bits of ra into rd. -/
  | popc (t : Tid) (rd : Reg) (ra : Reg)
  /-- MUL (R173): Writes the low 64 bits of the product of ra and rb to rd. -/
  | mul (t : Tid) (rd : Reg) (ra : Reg) (rb : Reg)
  /-- MULH (R173): Writes the high 64 bits of the signed 128-bit product to rd. -/
  | mulh (t : Tid) (rd : Reg) (ra : Reg) (rb : Reg)
  /-- MULHU (R173): Writes the high 64 bits of the unsigned 128-bit product to rd. -/
  | mulhu (t : Tid) (rd : Reg) (ra : Reg) (rb : Reg)
  /-- DIV (R174): Writes the signed quotient of ra by rb, rounded toward zero, with fixed results for divide by zero and overflow. -/
  | div (t : Tid) (rd : Reg) (ra : Reg) (rb : Reg)
  /-- DIVU (R174): Writes the unsigned quotient of ra by rb, giving all ones on divide by zero. -/
  | divu (t : Tid) (rd : Reg) (ra : Reg) (rb : Reg)
  /-- REM (R174): Writes the signed remainder of ra by rb, with fixed results for the special cases. -/
  | rem (t : Tid) (rd : Reg) (ra : Reg) (rb : Reg)
  /-- REMU (R174): Writes the unsigned remainder of ra by rb; remainder by zero gives the dividend. -/
  | remu (t : Tid) (rd : Reg) (ra : Reg) (rb : Reg)
  /-- ADDI (R173): Adds the sign-extended imm16 to ra into rd. -/
  | addi (t : Tid) (rd : Reg) (ra : Reg) (imm : BitVec 16)
  /-- SLTI (R173): Compares ra with the sign-extended imm16 and writes 1 or 0 to rd. -/
  | slti (t : Tid) (rd : Reg) (ra : Reg) (imm : BitVec 16)
  /-- ANDI (R173): ANDs ra with the zero-extended imm16 into rd. -/
  | andi (t : Tid) (rd : Reg) (ra : Reg) (imm : BitVec 16)
  /-- ORI (R173): ORs ra with the zero-extended imm16 into rd. -/
  | ori (t : Tid) (rd : Reg) (ra : Reg) (imm : BitVec 16)
  /-- XORI (R173): XORs ra with the zero-extended imm16 into rd. -/
  | xori (t : Tid) (rd : Reg) (ra : Reg) (imm : BitVec 16)
  /-- SHI (R173): Shifts ra by an immediate amount in the direction selected by imm16[7:6]. -/
  | shi (t : Tid) (rd : Reg) (ra : Reg) (kind : BitVec 2) (amount : BitVec 6)
  /-- LUI (R173): Writes imm16 shifted left by 16 and sign-extended to rd. -/
  | lui (t : Tid) (rd : Reg) (imm : BitVec 16)
  /-- LI (R173): Long form that writes the sign-extended imm48 to rd. -/
  | li (t : Tid) (rd : Reg) (imm : BitVec 48)
  /-- LA (R173): Long form that writes imm48 plus the address of its first word to rd. -/
  | la (t : Tid) (rd : Reg) (imm : BitVec 48)
  /-- LD (R159): Loads 1 to 8 bytes, sign- or zero-extended, merging bytes from the thread's buffered stores. -/
  | ld (t : Tid) (rd : Reg) (ra : Reg) (width : BitVec 3) (off : BitVec 13)
  /-- ST (R158): Places a 1 to 8 byte store in the thread's store buffer, parking when the buffer is full. -/
  | st (t : Tid) (rd : Reg) (ra : Reg) (width : BitVec 3) (off : BitVec 13)
  /-- FLD (R173): Loads fN as binary32 or binary64 under R147. -/
  | fld (t : Tid) (rd : Reg) (ra : Reg) (width : BitVec 3) (off : BitVec 13)
  /-- FST (R173): Stores fN as binary32 or binary64. -/
  | fst (t : Tid) (rd : Reg) (ra : Reg) (width : BitVec 3) (off : BitVec 13)
  /-- AADD (R175): Atomic 64-bit add at the near-memory controller, returning the old value. -/
  | aadd (t : Tid) (rd : Reg) (ra : Reg) (rb : Reg)
  /-- AAND (R175): Atomic 64-bit AND at the near-memory controller, returning the old value. -/
  | aand (t : Tid) (rd : Reg) (ra : Reg) (rb : Reg)
  /-- AOR (R175): Atomic 64-bit OR at the near-memory controller, returning the old value. -/
  | aor (t : Tid) (rd : Reg) (ra : Reg) (rb : Reg)
  /-- AXOR (R175): Atomic 64-bit XOR at the near-memory controller, returning the old value. -/
  | axor (t : Tid) (rd : Reg) (ra : Reg) (rb : Reg)
  /-- AMIN (R175): Atomic 64-bit minimum at the near-memory controller, returning the old value. -/
  | amin (t : Tid) (rd : Reg) (ra : Reg) (rb : Reg)
  /-- AMAX (R175): Atomic 64-bit maximum at the near-memory controller, returning the old value. -/
  | amax (t : Tid) (rd : Reg) (ra : Reg) (rb : Reg)
  /-- ASWAP (R175): Atomic 64-bit swap at the near-memory controller, returning the old value. -/
  | aswap (t : Tid) (rd : Reg) (ra : Reg) (rb : Reg)
  /-- ACAS (R175): Atomic compare-and-swap that writes rb when the doubleword equals rd, returning the old value. -/
  | acas (t : Tid) (rd : Reg) (ra : Reg) (rb : Reg)
  /-- FAADD (R175): Atomic floating add of an f register into a binary32 or binary64 word, returning the old value. -/
  | faadd (t : Tid) (rd : Reg) (ra : Reg) (rb : Reg) (dbl : Bool)
  /-- BEQ (R173): Branches when ra equals rb. -/
  | beq (t : Tid) (ra : Reg) (rb : Reg) (off : BitVec 16)
  /-- BNE (R173): Branches when ra differs from rb. -/
  | bne (t : Tid) (ra : Reg) (rb : Reg) (off : BitVec 16)
  /-- BLT (R173): Branches when ra is less than rb as signed values. -/
  | blt (t : Tid) (ra : Reg) (rb : Reg) (off : BitVec 16)
  /-- BGE (R173): Branches when ra is at least rb as signed values. -/
  | bge (t : Tid) (ra : Reg) (rb : Reg) (off : BitVec 16)
  /-- BLTU (R173): Branches when ra is less than rb as unsigned values. -/
  | bltu (t : Tid) (ra : Reg) (rb : Reg) (off : BitVec 16)
  /-- BGEU (R173): Branches when ra is at least rb as unsigned values. -/
  | bgeu (t : Tid) (ra : Reg) (rb : Reg) (off : BitVec 16)
  /-- B (R173): Branches unconditionally by a J-form word offset. -/
  | b (t : Tid) (off : BitVec 26)
  /-- CALL (R173): Branches by a J-form offset and sets g30 to the return address. -/
  | call (t : Tid) (off : BitVec 26)
  /-- BR (R173): Branches to the address in ra. -/
  | br (t : Tid) (ra : Reg)
  /-- CALLR (R173): Branches to the address in ra and sets g30 to the return address. -/
  | callr (t : Tid) (ra : Reg)
  /-- RET (R173): Branches to g30. -/
  | ret (t : Tid)
  /-- JL (R173): Long-form branch to imm48. -/
  | jl (t : Tid) (target : BitVec 48)
  /-- CALLL (R173): Long-form call to imm48, setting g30 to the address plus 8. -/
  | calll (t : Tid) (target : BitVec 48)
  /-- CALLM (R178): Writes a register-save frame below g31, sets g30 and calls the target. -/
  | callm (t : Tid) (imm : BitVec 48)
  /-- RETM (R179): Restores the masked registers from the frame at g31, pops it and returns. -/
  | retm (t : Tid) (mask : BitVec 24)
  /-- LOOP (R148): Arms hardware loop level 0 or 1 with its start, end and count. -/
  | loop (t : Tid) (gs : Reg) (level : Bool) (imm : BitVec 12)
  /-- CRR (R171): Reads a numbered control register into a g register. -/
  | crr (t : Tid) (rd : Reg) (num : BitVec 16)
  /-- CRW (R152): Writes a numbered control register, with fetch-steering registers taking effect after CSYNC. -/
  | crw (t : Tid) (rd : Reg) (num : BitVec 16)
  /-- SIGSEND (R270): A CRW of SIGSEND adds one event to the target thread's SIGCNT, or logs SIGNAL_TARGET. -/
  | sigsend (t : Tid) (rd : Reg)
  /-- GTDATA (R263): A CRR or CRW of GTDATA moves one doubleword of the group table and advances the index. -/
  | gtdata (t : Tid) (write : Bool) (rd : Reg)
  /-- NOP (R173): Does nothing for one turn. -/
  | nop (t : Tid)
  /-- TRAP (R264): Retires and is entered through vector 3 with DETAIL n. -/
  | trap (t : Tid) (n : BitVec 8)
  /-- GATE (R265): Checks a call-gate descriptor's arguments and enters the gate routine or a keeper service. -/
  | gate (t : Tid) (n : BitVec 8)
  /-- ERET (R261): Restores PC and status from the newest frame and removes it. -/
  | eret (t : Tid)
  /-- CSYNC (R152): Makes pending control-register writes steer fetch, translation, looping and entry. -/
  | csync (t : Tid)
  /-- ISYNC (R156): Invalidates instruction-cache lines of a range on the issuing VP. -/
  | isync (t : Tid) (ra : Reg) (rb : Reg)
  /-- FENCE (R162): Parks the thread until its earlier stores are visible. -/
  | fence (t : Tid)
  /-- FADD (R176): Scalar floating add rounded RNE. -/
  | fadd (t : Tid) (rd : Reg) (ra : Reg) (rb : Reg) (dbl : Bool)
  /-- FSUB (R176): Scalar floating subtract rounded RNE. -/
  | fsub (t : Tid) (rd : Reg) (ra : Reg) (rb : Reg) (dbl : Bool)
  /-- FMUL (R176): Scalar floating multiply rounded RNE. -/
  | fmul (t : Tid) (rd : Reg) (ra : Reg) (rb : Reg) (dbl : Bool)
  /-- FDIV (R176): Scalar floating divide rounded RNE. -/
  | fdiv (t : Tid) (rd : Reg) (ra : Reg) (rb : Reg) (dbl : Bool)
  /-- FSQRT (R176): Scalar floating square root rounded RNE. -/
  | fsqrt (t : Tid) (rd : Reg) (ra : Reg) (dbl : Bool)
  /-- FMIN (R71): Scalar floating minimum with canonical NaN and signed-zero order. -/
  | fmin (t : Tid) (rd : Reg) (ra : Reg) (rb : Reg) (dbl : Bool)
  /-- FMAX (R71): Scalar floating maximum with canonical NaN and signed-zero order. -/
  | fmax (t : Tid) (rd : Reg) (ra : Reg) (rb : Reg) (dbl : Bool)
  /-- FNEG (R53): Flips the sign bit of fa. -/
  | fneg (t : Tid) (rd : Reg) (ra : Reg) (dbl : Bool)
  /-- FABS (R53): Clears the sign bit of fa. -/
  | fabs (t : Tid) (rd : Reg) (ra : Reg) (dbl : Bool)
  /-- FSGN (R53): Copies fb's sign to fa. -/
  | fsgn (t : Tid) (rd : Reg) (ra : Reg) (rb : Reg) (dbl : Bool)
  /-- FEQ (R72): Writes 1 to a g register when fa equals fb. -/
  | feq (t : Tid) (rd : Reg) (ra : Reg) (rb : Reg) (dbl : Bool)
  /-- FLT (R72): Writes 1 to a g register when fa is less than fb. -/
  | flt (t : Tid) (rd : Reg) (ra : Reg) (rb : Reg) (dbl : Bool)
  /-- FLE (R72): Writes 1 to a g register when fa is at most fb. -/
  | fle (t : Tid) (rd : Reg) (ra : Reg) (rb : Reg) (dbl : Bool)
  /-- FUN (R72): Writes 1 to a g register when either operand is a NaN. -/
  | funord (t : Tid) (rd : Reg) (ra : Reg) (rb : Reg) (dbl : Bool)
  /-- FCVT (R177): Converts between float precisions or between float and 64-bit integer under RM. -/
  | fcvt (t : Tid) (rd : Reg) (ra : Reg) (op : BitVec 5) (dbl : Bool) (rm : BitVec 2)
  /-- FMVGF (R173): Copies bits from a g register to an f register without conversion. -/
  | fmvgf (t : Tid) (rd : Reg) (ra : Reg) (dbl : Bool)
  /-- FMVFG (R173): Copies bits from an f register to a g register without conversion. -/
  | fmvfg (t : Tid) (rd : Reg) (ra : Reg) (dbl : Bool)
  /-- FMA (R176): Fused fa times fb plus fc, rounded once. -/
  | fma (t : Tid) (rd : Reg) (ra : Reg) (rb : Reg) (rc : Reg) (dbl : Bool)
  /-- FMS (R176): Fused fa times fb minus fc, rounded once. -/
  | fms (t : Tid) (rd : Reg) (ra : Reg) (rb : Reg) (rc : Reg) (dbl : Bool)
  /-- FNMA (R176): Fused negated product minus fc, rounded once. -/
  | fnma (t : Tid) (rd : Reg) (ra : Reg) (rb : Reg) (rc : Reg) (dbl : Bool)
  /-- FNMS (R176): Fused negated product plus fc, rounded once. -/
  | fnms (t : Tid) (rd : Reg) (ra : Reg) (rb : Reg) (rc : Reg) (dbl : Bool)
  /-- TCFG (R129): Writes TMAP, releasing tiles whose owner or enable changes. -/
  | tcfg (t : Tid) (ra : Reg)
  /-- TLOAD (R130): Loads tile rows TSTART to 63 from memory, one access per row. -/
  | tload (t : Tid) (tile : BitVec 3) (ra : Reg) (rb : Reg) (hint : BitVec 2) (stop : BitVec 7)
  /-- TSTORE (R130): Stores tile rows TSTART to 63 to memory, one access per row. -/
  | tstore (t : Tid) (tile : BitVec 3) (ra : Reg) (rb : Reg) (hint : BitVec 2) (stop : BitVec 7)
  /-- TREL (R133): Releases the tiles named in its mask, clearing FULL. -/
  | trel (t : Tid) (mask : BitVec 8)
  /-- TILE_ROW_ABSENT (R136): A tile row meets an absent translation; TSTART holds the row and the thread faults. -/
  | tileRowAbsent (t : Tid)
  /-- TILE_TRANSFER_END (R134): A TLOAD or TSTORE completes its last row and TSTART returns to 0. -/
  | tileTransferEnd (t : Tid)
  /-- FOP (R104): Reads a field operation descriptor, checks it and posts it to the field queue by SEQ. -/
  | fop (t : Tid) (ra : Reg)
  /-- FWAIT (R105): Parks the thread until the field step counter reaches the value given. -/
  | fwait (t : Tid) (ra : Reg)
  /-- XFER (R307): Checks a mover descriptor and posts it to the named mover's queue. -/
  | xfer (t : Tid) (ra : Reg)
  /-- XWAIT (R307): Parks the thread until its completed-transfer count reaches the value given. -/
  | xwait (t : Tid) (ra : Reg)
  /-- VSETL (R193): Sets VLN to the lesser of the request and VLMAX and returns the grant. -/
  | vsetl (t : Tid) (rd : Reg) (ra : Reg) (et : BitVec 2)
  /-- VLD (R199): Unit-stride aligned vector load of active elements. -/
  | vld (t : Tid) (x : VF)
  /-- VST (R199): Unit-stride aligned vector store of active elements, bypassing the store buffer. -/
  | vst (t : Tid) (x : VF)
  /-- VLDU (R199): Unit-stride unaligned vector load. -/
  | vldu (t : Tid) (x : VF)
  /-- VSTU (R199): Unit-stride unaligned vector store. -/
  | vstu (t : Tid) (x : VF)
  /-- VFADD (R211): Vector floating add rounded once RNE. -/
  | vfadd (t : Tid) (x : VF) (bf : Bool)
  /-- VFSUB (R211): Vector floating subtract rounded once RNE. -/
  | vfsub (t : Tid) (x : VF) (bf : Bool)
  /-- VFMUL (R211): Vector floating multiply rounded once RNE. -/
  | vfmul (t : Tid) (x : VF) (bf : Bool)
  /-- VFMA (R211): Vector fused va times vb plus vd. -/
  | vfma (t : Tid) (x : VF) (bf : Bool)
  /-- VFMS (R211): Vector fused va times vb minus vd. -/
  | vfms (t : Tid) (x : VF) (bf : Bool)
  /-- VFNMA (R211): Vector fused negated product minus vd. -/
  | vfnma (t : Tid) (x : VF) (bf : Bool)
  /-- VFNMS (R211): Vector fused negated product plus vd. -/
  | vfnms (t : Tid) (x : VF) (bf : Bool)
  /-- VADD (R212): Vector integer add modulo 2^w. -/
  | vadd (t : Tid) (x : VF)
  /-- VSUB (R212): Vector integer subtract modulo 2^w. -/
  | vsub (t : Tid) (x : VF)
  /-- VAND (R212): Vector bitwise AND. -/
  | vand (t : Tid) (x : VF)
  /-- VOR (R212): Vector bitwise OR. -/
  | vor (t : Tid) (x : VF)
  /-- VXOR (R212): Vector bitwise XOR. -/
  | vxor (t : Tid) (x : VF)
  /-- VSHL (R212): Vector shift left by vb modulo w. -/
  | vshl (t : Tid) (x : VF)
  /-- VSHR (R212): Vector logical shift right by vb modulo w. -/
  | vshr (t : Tid) (x : VF)
  /-- VSAR (R212): Vector arithmetic shift right by vb modulo w. -/
  | vsar (t : Tid) (x : VF)
  /-- VMUL (R212): Vector multiply giving the low w bits. -/
  | vmul (t : Tid) (x : VF)
  /-- VMULH (R212): Vector multiply giving the high w bits of the signed product. -/
  | vmulh (t : Tid) (x : VF)
  /-- VDIV (R212): Vector signed divide with defined results for zero and overflow. -/
  | vdiv (t : Tid) (x : VF)
  /-- VDIVU (R212): Vector unsigned divide, all ones on divide by zero. -/
  | vdivu (t : Tid) (x : VF)
  /-- VBCAST (R212): Writes the low w bits of a g register to every active element. -/
  | vbcast (t : Tid) (x : VF)
  /-- VSADD (R213): Signed saturating vector add. -/
  | vsadd (t : Tid) (x : VF)
  /-- VSADDU (R213): Unsigned saturating vector add. -/
  | vsaddu (t : Tid) (x : VF)
  /-- VSSUB (R213): Signed saturating vector subtract. -/
  | vssub (t : Tid) (x : VF)
  /-- VSSUBU (R213): Unsigned saturating vector subtract. -/
  | vssubu (t : Tid) (x : VF)
  /-- VSDMULH_RHU (R213): Saturating doubling high multiply rounded half up. -/
  | vsdmulhRhu (t : Tid) (x : VF)
  /-- VSDMULH_RNE (R213): Saturating doubling high multiply rounded to nearest even. -/
  | vsdmulhRne (t : Tid) (x : VF)
  /-- VRSHR (R213): Rounding arithmetic shift right. -/
  | vrshr (t : Tid) (x : VF)
  /-- VNARROWS (R213): Narrows a 2w-bit source to the signed w-bit range with saturation. -/
  | vnarrows (t : Tid) (x : VF)
  /-- VNARROWU (R213): Narrows a 2w-bit source to the unsigned w-bit range with saturation. -/
  | vnarrowu (t : Tid) (x : VF)
  /-- VCVT (R214): Converts each element between formats, packing or unpacking MX blocks. -/
  | vcvt (t : Tid) (vd : Reg) (va : Reg) (src : BitVec 4) (dst : BitVec 4) (pe : Bool) (p : BitVec 3) (rm : BitVec 2) (sat : Bool)
  /-- VCMP (R215): Signed integer compare writing a predicate. -/
  | vcmp (t : Tid) (x : VF) (cc : BitVec 3)
  /-- VCMPU (R215): Unsigned integer compare writing a predicate. -/
  | vcmpu (t : Tid) (x : VF) (cc : BitVec 3)
  /-- VFCMP (R215): Floating-point compare writing a predicate. -/
  | vfcmp (t : Tid) (x : VF) (cc : BitVec 3)
  /-- VSEL (R198): Selects va or vb per element by a predicate. -/
  | vsel (t : Tid) (x : VF)
  /-- VMIN (R215): Vector signed minimum. -/
  | vmin (t : Tid) (x : VF)
  /-- VMAX (R215): Vector signed maximum. -/
  | vmax (t : Tid) (x : VF)
  /-- VMINU (R215): Vector unsigned minimum. -/
  | vminu (t : Tid) (x : VF)
  /-- VMAXU (R215): Vector unsigned maximum. -/
  | vmaxu (t : Tid) (x : VF)
  /-- VFMIN (R71): Vector floating minimum. -/
  | vfmin (t : Tid) (x : VF)
  /-- VFMAX (R71): Vector floating maximum. -/
  | vfmax (t : Tid) (x : VF)
  /-- VEXP2 (R216): Vector base-2 exponential within the stated bound. -/
  | vexp2 (t : Tid) (x : VF)
  /-- VLOG2 (R216): Vector base-2 logarithm within the stated bound. -/
  | vlog2 (t : Tid) (x : VF)
  /-- VRCP (R216): Vector reciprocal within the stated bound. -/
  | vrcp (t : Tid) (x : VF)
  /-- VRSQRT (R216): Vector reciprocal square root within the stated bound. -/
  | vrsqrt (t : Tid) (x : VF)
  /-- VTANH (R216): Vector hyperbolic tangent within the stated bound. -/
  | vtanh (t : Tid) (x : VF)
  /-- VREDSUM (R218): Integer sum of active elements by a fixed pairwise tree, combined with vb[0]. -/
  | vredsum (t : Tid) (x : VF)
  /-- VFREDSUM (R218): Floating sum of active elements by a fixed pairwise tree, rounded per addition. -/
  | vfredsum (t : Tid) (x : VF)
  /-- VREDMIN (R218): Signed minimum reduction. -/
  | vredmin (t : Tid) (x : VF)
  /-- VREDMAX (R218): Signed maximum reduction. -/
  | vredmax (t : Tid) (x : VF)
  /-- VFREDMIN (R218): Floating minimum reduction. -/
  | vfredmin (t : Tid) (x : VF)
  /-- VFREDMAX (R218): Floating maximum reduction. -/
  | vfredmax (t : Tid) (x : VF)
  /-- VREDAND (R218): Bitwise AND reduction. -/
  | vredand (t : Tid) (x : VF)
  /-- VREDOR (R218): Bitwise OR reduction. -/
  | vredor (t : Tid) (x : VF)
  /-- VSLIDEUP (R220): Slides elements up by the amount in g rb. -/
  | vslideup (t : Tid) (x : VF)
  /-- VSLIDEDN (R220): Slides elements down by the amount in g rb, filling with zero. -/
  | vslidedn (t : Tid) (x : VF)
  /-- VCOMPRESS (R220): Packs the predicate-selected elements to the front. -/
  | vcompress (t : Tid) (x : VF)
  /-- VEXPAND (R220): Spreads leading elements to the predicate-selected positions. -/
  | vexpand (t : Tid) (x : VF)
  /-- VMERGEC (R182): Merges two ascending integer inputs without duplicates and writes the consumed counts. -/
  | vmergec (t : Tid) (x : VF)
  /-- VMERGEC_F (R182): Merges two ascending inputs by totalOrder key without duplicates. -/
  | vmergecF (t : Tid) (x : VF)
  /-- VINTER (R183): Counts common keys of two ascending integer inputs. -/
  | vinter (t : Tid) (x : VF)
  /-- VINTER_F (R183): Counts common totalOrder keys of two ascending inputs. -/
  | vinterF (t : Tid) (x : VF)
  /-- PAND (R197): ANDs two predicates. -/
  | pand (t : Tid) (x : VF)
  /-- POR (R197): ORs two predicates. -/
  | por (t : Tid) (x : VF)
  /-- PXOR (R197): XORs two predicates. -/
  | pxor (t : Tid) (x : VF)
  /-- PNOT (R197): Inverts a predicate. -/
  | pnot (t : Tid) (x : VF)
  /-- PCNT (R197): Counts the set bits of a predicate below VLN. -/
  | pcnt (t : Tid) (x : VF)
  /-- PSET (R197): Sets predicate bits below VLN and clears the rest. -/
  | pset (t : Tid) (x : VF)
  /-- PCLR (R197): Clears all predicate bits. -/
  | pclr (t : Tid) (x : VF)
  /-- VMAC2 (R181): Streams two memory vectors, multiply-accumulates into vd and advances both pointers. -/
  | vmac2 (t : Tid) (x : VF) (int : Bool)
  /-- VCHAIN (R207): Links the next n vector instructions into one chain run at a single cost. -/
  | vchain (t : Tid) (n : BitVec 5) (members : List (BitVec 32))
  /-- GSPAWN (R223): Starts a family of lanes in group mode and parks the normal stream. -/
  | gspawn (t : Tid) (rd : Reg) (ra : Reg) (rb : Reg)
  /-- GEXIT (R226): Ends the active lanes of the group and frees its slot. -/
  | gexit (t : Tid)
  /-- GLOCK (R232): Acquires a lock word atomically for one lane, splitting or parking the rest. -/
  | glock (t : Tid) (ra : Reg)
  /-- GLOCK_RETRY (R232): A group waiting on a lock held from another VP retries every 64 beats. -/
  | glockRetry (t : Tid) (slot : BitVec 4)
  /-- GUNLOCK (R233): Frees a held lock and wakes its waiters, or logs LOCK_NOT_HELD. -/
  | gunlock (t : Tid) (ra : Reg)
  /-- GBAR (R235): Parks the group's lanes at a barrier until it releases. -/
  | gbar (t : Tid) (ra : Reg)
  /-- GBR (R229): Branches per lane by predicate, splitting the group when lanes disagree. -/
  | gbr (t : Tid) (p : BitVec 3) (off : BitVec 16)
  /-- CUSTOM_INSTRUCTION (R188): Runs a decode-table entry's micro-operations at its documented cost. -/
  | customInstruction (t : Tid) (entry : BitVec 6) (rd : Reg) (ra : Reg) (rb : Reg) (imm : BitVec 5)
  /-- UNDEFINED_OP (R169): An undefined word retires as a no-op and logs a violation. -/
  | undefinedOp (t : Tid) (word : BitVec 32)
  /-- STORE_BUFFER_DRAIN (R158): A store-buffer entry drains into the data cache and becomes visible. -/
  | storeBufferDrain (t : Tid)
  /-- DATA_CACHE_FILL (R306): A VP data-cache miss is filled and the parked thread resumes. -/
  | dataCacheFill (t : Tid) (sector : Nat)
  /-- TABLE_WALK (R284): A table walk completes and inserts a possibly merged look-aside entry. -/
  | tableWalk (t : Tid) (va : BitVec 48)
  /-- ATOMIC_APPLY (R356): An ordered atomic is applied once every other thread's horizon passes its key. -/
  | atomicApply (t : Tid)
  /-- HORIZON_STALL (R357): A plan parked for 16 periods with nothing in flight ends FAILED. -/
  | horizonStall (seq : Nat)
  /-- NEAR_MEMORY_CACHE_FILL (R303): Missing sectors arrive from HBM into the near-memory cache, evicting a victim. -/
  | nearMemoryCacheFill (t : Tid) (addr : Nat) (sectors : BitVec 8) (whole : BitVec 8) (hint : BitVec 2) (write : Bool)
  /-- HBM_CHANNEL_RUN (R321): A channel engine serves a queued run, charging its losses. -/
  | hbmChannelRun (ch : BitVec 9)
  /-- HBM_REFRESH (R321): Refresh, refresh management and calibration take their fixed slots. -/
  | hbmRefresh (ch : BitVec 9)
  /-- EXCEPTION_ENTRY (R251): A fault, TRAP or accepted interrupt is entered over three slots. -/
  | exceptionEntry (t : Tid)
  /-- WINDOW_EXPIRY (R260): WLEFT reaches 0 and the WINDOW mask lifts. -/
  | windowExpiry (t : Tid)
  /-- TIMER_COMPARE (R270): The tick reaches a nonzero TMCMP value and its vector becomes pending. -/
  | timerCompare (t : Tid) (second : Bool)
  /-- FIELD_ADMISSION (R107): At an operation boundary the field admits the next operation and charges its class. -/
  | fieldAdmission
  /-- FIELD_COMPLETION (R105): A field operation completes, advancing the field step counter and waking FWAITs. -/
  | fieldCompletion
  /-- FIELD_ABSENT_STOP (R125): The field meets an absent translation and stops the operation, faulting its thread. -/
  | fieldAbsentStop
  /-- COLUMN_FAIL (R122): A column failure inside an operation aborts it and rolls back its command. -/
  | columnFail (plot : BitVec 5) (array : BitVec 2)
  /-- MOVER_TRANSFER_START (R316): A mover starts its next queued transfer and charges its energy. -/
  | moverTransferStart (die : BitVec 1) (mover : BitVec 5)
  /-- MOVER_RUN (R312): A run of a transfer is admitted, translated ahead and moved. -/
  | moverRun (die : BitVec 1) (mover : BitVec 5)
  /-- MOVER_ABSENT_STOP (R286): A transfer reaches a run with no translation and completes with ABSENT. -/
  | moverAbsentStop (die : BitVec 1) (mover : BitVec 5)
  /-- MOVER_TRANSFER_COMPLETE (R314): A transfer completes, writing its digest and completion record and raising its line. -/
  | moverTransferComplete (die : BitVec 1) (mover : BitVec 5)
  /-- GATE_ADMISSION (R39): A waiting request is admitted at a budget gate and charged. -/
  | gateAdmission (res : BitVec 4) (inst : BitVec 6)
  /-- PERIOD_BOUNDARY (R26): A new period begins and every boundary action of the module takes place. -/
  | periodBoundary (beatsA : BitVec 16) (beatsB : BitVec 16) (faults : List Nat)
  /-- ENERGY_WINDOW_END (R513): A 256-period window ends and measured power halves grants when above 2,000 W. -/
  | energyWindowEnd (mj : Nat)
  /-- SHOOTDOWN_DRAIN_REPORT (R290): A unit reports its old-translation uses drained, ending INVALIDATE at the last report. -/
  | shootdownDrainReport (n : Nat) (use : Nat)
  /-- CMD_PCOUNT_WRITE (R453): The host advances a command ring's producer count. -/
  | cmdPcountWrite (fn : BitVec 5) (ring : BitVec 5) (value : BitVec 32) (slots : List (Nat × BitVec 512))
  /-- EVT_PCOUNT_WRITE (R453): The host advances an event ring's producer count. -/
  | evtPcountWrite (fn : BitVec 5) (ring : BitVec 6) (value : BitVec 32) (slots : List (Nat × BitVec 1024))
  /-- RSP_CCOUNT_WRITE (R454): The host returns consumed response slots. -/
  | rspCcountWrite (fn : BitVec 5) (ring : BitVec 6) (value : BitVec 32)
  /-- MSG_PCOUNT_WRITE (R456): The host posts messages on a message channel. -/
  | msgPcountWrite (fn : BitVec 5) (channel : BitVec 4) (value : BitVec 32) (slots : List (Nat × BitVec 512))
  /-- HOST_DOORBELL (R456): A host doorbell write counts one event in the routed VP's XCNT. -/
  | hostDoorbell (fn : BitVec 5) (d : BitVec 3)
  /-- MESSAGE_INTAKE (R456): The keeper takes a message and counts it in the routed VP's XCNT. -/
  | messageIntake (channel : BitVec 4)
  /-- COMMAND_INTAKE (R457): The keeper takes a command entry, numbers and stamps it and sets QUEUED. -/
  | commandIntake (ring : BitVec 5)
  /-- EVENT_INTAKE (R336): The keeper takes an event, stamps it and queues, answers or journals it. -/
  | eventIntake (ring : BitVec 6)
  /-- JOURNAL_COMMIT (R376): A staged journal record is written and read back in MRAM. -/
  | journalCommit
  /-- SEGMENT_DRAIN (R378): A full journal segment is drained to NAND and leaves the ring once checked. -/
  | segmentDrain
  /-- NOP_COMMAND (R458): The NOP command completes with no effect. -/
  | nopCommand (seq : Nat)
  /-- RUN_PLAN (R459): Checks a plan image, digests its inputs and starts the plan. -/
  | runPlan (seq : Nat)
  /-- PLAN_BIND (R526): A waiting plan binds its logical threads and lent threads when enough are free. -/
  | planBind (seq : Nat) (prefs : List Nat)
  /-- CHECKPOINT (R407): A plan checkpoint is taken and PROGRESS advances. -/
  | checkpoint (seq : Nat)
  /-- ROLLBACK (R408): An aborted plan rebinds its threads and resumes at a checkpoint. -/
  | rollback (seq : Nat) (prefs : List Nat)
  /-- PLAN_DONE (R459): A plan's outputs are digested and its status word goes DONE. -/
  | planDone (seq : Nat)
  /-- MOVE (R460): Copies raw bytes as mover COPY pieces between device and host ranges. -/
  | move (seq : Nat)
  /-- PREFETCH (R294): Migrates a virtual range's pages to a new physical range and remaps them. -/
  | prefetch (seq : Nat)
  /-- ADVISE (R295): Attaches placement and access attributes to a virtual range. -/
  | advise (seq : Nat)
  /-- INVALIDATE (R290): Retires old translations of a range from buffers and uses in flight. -/
  | invalidate (seq : Nat)
  /-- SESSION_OPEN (R333): Opens a session, filling its state block and descriptor. -/
  | sessionOpen (seq : Nat)
  /-- SESSION_CLOSE (R334): Retires a session after its earlier events are processed. -/
  | sessionClose (seq : Nat)
  /-- SESSION_PARK (R334): Parks or resumes a session after its earlier events are processed. -/
  | sessionPark (seq : Nat)
  /-- SNAPSHOT (R383): Takes a snapshot at the next boundary. -/
  | snapshot (seq : Nat)
  /-- SNAPSHOT_COMPLETE (R381): A snapshot's header is programmed in NAND and older items are reclaimed. -/
  | snapshotComplete
  /-- REPLAY_TO (R367): Re-runs a plan or session to a target step and writes a dump. -/
  | replayTo (seq : Nat)
  /-- JOURNAL_READ (R460): Writes a range of journal records to a destination. -/
  | journalRead (seq : Nat)
  /-- BUDGET_SET (R37): Validates the staging grant table and installs it at the next boundary. -/
  | budgetSet (seq : Nat)
  /-- DRAIN (R417): UNIT_SERVICE action that takes a unit to DRAINING. -/
  | drain (seq : Nat)
  /-- MOLT (R414): UNIT_SERVICE action that molts a unit in PUPA. -/
  | molt (seq : Nat)
  /-- RETIRE (R411): UNIT_SERVICE action that retires a unit for good. -/
  | retire (seq : Nat)
  /-- UNIT_DRAINED (R411): A draining unit finishes draining and goes to PUPA. -/
  | unitDrained (unit : Nat)
  /-- MOLT_COMPLETE (R414): A molt passes its last step and the unit returns to service. -/
  | moltComplete (unit : Nat) (ok : Bool) (bad : List Nat)
  /-- RELEASE (R460): Returns a range of finished status words to IDLE. -/
  | release (seq : Nat)
  /-- TWIN_PAIR (R442): Pairs two modules, shipping a snapshot and journal to the follower. -/
  | twinPair (seq : Nat)
  /-- TWIN_MODE (R429): Changes the pairing mode at the next boundary. -/
  | twinMode (seq : Nat)
  /-- TWIN_FENCE (R438): Fences the module from the next boundary. -/
  | twinFence (seq : Nat)
  /-- TWIN_TAKEOVER (R439): Makes the follower the lead and opens its rings. -/
  | twinTakeover (seq : Nat)
  /-- TWIN_RESOLVE (R436): Names the good module and ends a divergence. -/
  | twinResolve (seq : Nat)
  /-- INVOCATION_START (R340): An invocation binds a lent thread and enters its kernel. -/
  | invocationStart (die : BitVec 1) (pref : Nat)
  /-- INVOCATION_LIMIT (R344): An invocation's cost sum reaches its limit and its sessions park. -/
  | invocationLimit (t : Tid)
  /-- DECODE_LOAD (R269): Keeper service that accepts a decode-table image for checking. -/
  | decodeLoad (t : Tid)
  /-- DECODE_CHECK (R190): The keeper checks a decode-table image and records its outcome. -/
  | decodeCheck
  /-- DECODE_INSTALL (R191): An accepted decode table is installed when no plan using it is RUNNING. -/
  | decodeInstall
  /-- VIOL_READ (R269): Keeper service that copies violation records and acknowledges the count. -/
  | violRead (t : Tid)
  /-- ERR_READ (R269): Keeper service that copies error records and acknowledges the count. -/
  | errRead (t : Tid)
  /-- XLINV (R288): Keeper service that runs an INVALIDATE for the supervisor. -/
  | xlinv (t : Tid)
  /-- REGISTER_WRITE (R8): A write to a register field without a row of its own acts by its access code. -/
  | registerWrite (fn : BitVec 5) (off : Nat) (n : Nat) (value : BitVec 64)
  /-- ACK_WRITE (R10): A write to an ACK field acknowledges events or is refused. -/
  | ackWrite (fn : BitVec 5) (off : Nat) (value : BitVec 32)
  /-- LO_READ_LATCH (R503): A read of a LO register latches its HI half for the requester. -/
  | loReadLatch (fn : BitVec 5) (off : Nat) (n : Nat)
  /-- DET_WRITE (R352): A write to DCTL.DET is taken for the next boundary. -/
  | detWrite (value : Bool)
  /-- CFGLOCK_WRITE (R507): A write of 1 to CFGLOCK is recorded for the next boundary. -/
  | cfglockWrite (value : Bool)
  /-- DIE_RESET (R421): A die reset takes a die to PUPA and molts it. -/
  | dieReset (dies : BitVec 2)
  /-- DIE_WEDGED (R421): A command front silent for 4 periods is reset under AUTORESET. -/
  | dieWedged (die : BitVec 1)
  /-- TAKE (R101): Moves a probe entry's live sums to its held copy. -/
  | take (die : BitVec 1) (slot : BitVec 12)
  /-- CNT_SNAP (R497): Copies every global counter to its shadow at the next boundary. -/
  | cntSnap (die : BitVec 1)
  /-- CNT_CLEAR (R497): Zeroes every global counter at the next boundary. -/
  | cntClear (die : BitVec 1)
  /-- WEEVIL_START (R326): Starts a weevil run in the selected mode, or refuses it. -/
  | weevilStart (ch : BitVec 9)
  /-- WEEVIL_ABORT (R328): Stops a weevil run after the run in flight. -/
  | weevilAbort (ch : BitVec 9)
  /-- WEEVIL_RUN_END (R326): A weevil run covers its range or stops and sets its status. -/
  | weevilRunEnd (ch : BitVec 9) (part : Nat) (slots : BitVec 32) (errs : List (Nat × Nat × BitVec 288))
  /-- SCRUB_READ (R403): The scrubber reads a granule and acts on its decode. -/
  | scrubRead (addr : Nat) (err : BitVec 288) (cached : Bool)
  /-- REGENERATION_COMPLETE (R410): A regenerated session reaches its prior step and returns to service. -/
  | regenerationComplete (sid : BitVec 20)
  /-- TIER_BANK_COPY_END (R417): A failing tier bank's copy to a spare completes. -/
  | tierBankCopyEnd (unit : Nat)
  /-- RESTRIPE_END (R418): A stack finishes restriping around out-of-service channels. -/
  | restripeEnd (stack : BitVec 4) (lost : List Nat)
  /-- CHANNEL_GRACE_EXPIRY (R418): The grace periods before a planned channel drain expire. -/
  | channelGraceExpiry (ch : BitVec 9)
  /-- VP_DRAIN_EXPIRY (R417): After 64 periods plans still bound to a draining VP roll back. -/
  | vpDrainExpiry (vp : BitVec 5)
  /-- BRIDGE_FLIT_RETRY (R401): A flit with an uncorrectable granule is resent, and a link faults after 8 failures. -/
  | bridgeFlitRetry (path : BitVec 3) (good : Bool)
  /-- TRACE_RECORD_WRITE (R499): A trace record older than 128 ticks is written in merge order. -/
  | traceRecordWrite (buffer : BitVec 2) (record : BitVec 512)
  /-- HOLDUP_MEASURE (R387): The keeper measures the hold-up bank and gates journalled intake. -/
  | holdupMeasure (joules : BitVec 8)
  /-- NAND_RETENTION_REFRESH (R393): Old or weak NAND data is copied to fresh blocks. -/
  | nandRetentionRefresh (used : BitVec 16)
  /-- IDLE (R427): A received IDLE frame carries nothing. -/
  | idle
  /-- LINK (R426): A received LINK frame acknowledges, NAKs and returns credits, and may down the link. -/
  | link (ack : BitVec 32) (nak : Bool) (credits : List Nat) (jseqc : Nat)
  /-- CICADA (R437): A received heartbeat updates twin state and fences on a higher PAIRGEN. -/
  | cicada (tick : Nat) (epoch : BitVec 32) (pairgen : BitVec 32) (jseqc : Nat) (mode : BitVec 2) (role : BitVec 2) (saving : Bool) (dies : BitVec 2) (molt : BitVec 32)
  /-- CUT (R438): A received CUT frame declares the twin silent at once. -/
  | cut (tick : Nat) (epoch : BitVec 32)
  /-- CTRL (R434): A received pairing-control frame carries a digest verdict. -/
  | ctrl (len : BitVec 4) (msg : CtrlMsg)
  /-- JREC (R430): The follower writes and commits shipped journal records. -/
  | jrec (cls : BitVec 6) (recs : List (Nat × BitVec 1152))
  /-- INPUT (R432): The follower takes shipped input bytes in place of host reads. -/
  | input (len : BitVec 4) (cls : BitVec 6) (cmd : Nat) (lthread : BitVec 16) (sstep : BitVec 64) (index : BitVec 32) (bytes : List (BitVec 8))
  /-- DIGEST (R434): The lead compares a follower's result digest and releases or diverges. -/
  | digest (ctx : Context) (digest : BitVec 256)
  /-- SNAP (R442): The follower writes shipped snapshot units and images. -/
  | snap (len : BitVec 4) (part : SnapPart)
  /-- FETCH_REQ (R427): A twin requests units, segments or session blocks. -/
  | fetchReq (len : BitVec 4) (what : FetchWhat)
  /-- FETCH_DATA (R427): Requested units, segments or blocks arrive from the twin. -/
  | fetchData (len : BitVec 4) (part : FetchPart)
  /-- TWIN_SILENT (R438): Eight periods without a cicada declare the twin silent. -/
  | twinSilent
  /-- TWIN_DEGRADED (R435): A missing follower digest after TWIN_LAGMAX drops the lead to SOLO. -/
  | twinDegraded
  /-- TWIN_PRESENT (R424): A mated twin cable starts Neraxo link training. -/
  | twinPresent (mated : Bool)
  /-- LANE_FAILURE (R424): A lane fails and the link retrains on lanes 0 to 7 or goes down. -/
  | laneFailure (down : Bool)
  /-- FUNCTION_LEVEL_RESET (R451): Resets one PCIe function's rings, commands and counters. -/
  | functionLevelReset (fn : BitVec 5)
  /-- PERST (R485): PERST# resets the PCIe endpoint and its configuration space. -/
  | perst (asserted : Bool)
  /-- CONFIGURATION_REQUEST (R485): A configuration request is completed, or retried until step 4 ends. -/
  | configurationRequest (fn : BitVec 5) (ats : Option Bool)
  /-- PCIE_LINK_TRAINING (R446): The link trains at a rate and width that scale PCIe grants. -/
  | pcieLinkTraining (gen : BitVec 3) (width : BitVec 5)
  /-- BAR4_ACCESS (R450): A host access through a BAR4 segment reaches device memory. -/
  | bar4Access (write : Bool) (off : Nat) (n : Nat) (data : List (BitVec 8))
  /-- BAR4_RESIZE (R450): A Resizable BAR write changes BAR4 size and segment size. -/
  | bar4Resize (size : Nat)
  /-- ATS_TRANSLATION_COMPLETION (R298): An ATS translation completion releases a held host-window run. -/
  | atsTranslationCompletion (fn : BitVec 5) (page : Nat) (read : Bool) (write : Bool)
  /-- ATS_INVALIDATE_REQUEST (R299): An ATS invalidate drops cache entries and waits for their users. -/
  | atsInvalidateRequest (fn : BitVec 5) (page : Nat) (pages : Nat)
  /-- INVALIDATE_COMPLETION (R299): The Invalidate Completion is sent once users have drained. -/
  | invalidateCompletion
  /-- IDE_KM (R445): An IDE_KM message sets link encryption keys over DOE. -/
  | ideKm (stream : BitVec 4) (key : BitVec 256)
  /-- MEASUREMENTS (R480): SPDM request that returns signed measurement blocks. -/
  | measurements (conn : Conn) (index : BitVec 8) (signed : Bool)
  /-- CHALLENGE (R479): SPDM challenge answered with a signed CHALLENGE_AUTH. -/
  | challenge (conn : Conn) (slot : BitVec 4)
  /-- SET_CERTIFICATE (R479): Installs an owner-issued chain in certificate slot 1. -/
  | setCertificate (conn : Conn) (slot : BitVec 4) (chain : List (BitVec 8))
  /-- PQ_CERT (R481): Returns the ML-DSA-65 public key and its certificate. -/
  | pqCert (conn : Conn)
  /-- PQ_SIG (R481): Returns the ML-DSA-65 signature over the preceding signed response. -/
  | pqSig (conn : Conn)
  /-- OWNER_ENROLL (R477): Enrols new owner keys after checking the request. -/
  | ownerEnroll (conn : Conn) (keyEd : BitVec 256) (keyMl : BitVec 15616) (sigEd : BitVec 512) (sigMl : BitVec 26472)
  /-- OWNER_RELEASE (R477): Releases the module from its owner after checking signatures. -/
  | ownerRelease (conn : Conn) (sigEd : BitVec 512) (sigMl : BitVec 26472)
  /-- RECORD_SUPPLY (R486): Supplies a signed record, resuming a start-up waiting on FLOOR_MISSING. -/
  | recordSupply (conn : Conn) (kind : BitVec 8) (gen : BitVec 64) (epoch : BitVec 32) (wtick : BitVec 64) (body : List Nat) (sigEd : BitVec 512) (sigMl : BitVec 26472)
  /-- FIRMWARE_TRANSFER (R482): PLDM transfers image data to the slot that is not running. -/
  | firmwareTransfer (comp : BitVec 16) (off : Nat) (data : List (BitVec 8))
  /-- VERIFY_COMPLETE (R482): The keeper checks a transferred image under R472. -/
  | verifyComplete (comp : BitVec 16)
  /-- ACTIVATE_FIRMWARE (R482): Marks the verified slot preferred for the next start-up. -/
  | activateFirmware (comp : BitVec 16)
  /-- PWR_EN_ASSERT (R515): PWR_EN starts power sequencing. -/
  | pwrEnAssert
  /-- PWR_GOOD (R484): PWR_GOOD takes the keeper out of reset and runs start-up. -/
  | pwrGood (tests : BootTests)
  /-- HOLD_OK (R515): The hold-up bank reaches 45 J and HOLD_OK asserts. -/
  | holdOk
  /-- PWR_EN_DEASSERT (R516): PWR_EN low makes an orderly power-off, saving when needed. -/
  | pwrEnDeassert
  /-- POWER_CUT (R386): Input below 40 V stops intake and runs the power-cut save. -/
  | powerCut (mv : Nat)
  /-- OVERVOLTAGE (R512): Input above 60 V for 1 µs, or 80 V at once, isolates it and runs the save. -/
  | overvoltage (mv : Nat) (long : Bool)
  /-- INPUT_TRANSIENT (R512): A short transient is absorbed and its peak recorded. -/
  | inputTransient (peak : Nat)
  /-- INPUT_RETURN (R512): Input within range for 100 ms with PWR_EN restarts the module. -/
  | inputReturn (mv : Nat)
  /-- THERMAL_SHUTDOWN (R521): A junction at 115 °C for 1 ms shuts its die down to PUPA. -/
  | thermalShutdown (die : BitVec 1)
  /-- COOLANT_SHUTDOWN (R521): Hot or low coolant for 1 s shuts both dies down. -/
  | coolantShutdown
  /-- INSTRUCTION_CACHE_FILL (R145): A missing instruction-cache line arrives and the thread parked on the fetch miss resumes. -/
  | instructionCacheFill (t : Tid) (line : Nat)
  /-- NERAXO_LINK_UP (R424): Neraxo training or retraining completes on 16 or 8 lanes, setting LINKUP and LANES8 and releasing frames waiting in the replay buffers. -/
  | neraxoLinkUp (lanes16 : Bool)
  /-- NERAXO_FRAME_REJECT (R426): A received frame with an uncorrectable granule, failed CRC, reserved bit or out-of-order FSEQ is discarded and a NAK is sent. -/
  | neraxoFrameReject
  /-- COMMAND_PARITY_ERROR (R317): An HBM command/address parity error retries the command once, and a second error takes the channel out of service. -/
  | commandParityError (ch : BitVec 9)
  /-- SENSOR_UPDATE (R519): A telemetry sensor updates and, on crossing a warning threshold, sends a PLDM event and asserts ALERT#. -/
  | sensorUpdate (id : BitVec 4) (value : Nat)
  /-- SPDM_REQUEST (R479): An SPDM request such as GET_CERTIFICATE or KEY_EXCHANGE arrives on DOE or MCTP, is answered and discards a pending PQ_SIG message. -/
  | spdmRequest (conn : Conn) (req : SpdmReq)
  /-- UNIT_FAILURE (R411): A unit fails in a way that stops it at once and goes from IN_SERVICE or DRAINING to PUPA, with a die failure re-homing its sessions and failing its commands with DIE_LOST. -/
  | unitFailure (unit : Nat)
  /-- REFCLK_LOSS (R517): REFCLK is removed or restored and the PCIe endpoint switches to or from SRIS on its own oscillator. -/
  | refclkLoss (present : Bool)
  deriving DecidableEq, Repr

end Sys2Proof
end

