-- ==== Sys2Proof/Decode.lean ====
section
/-! DEFINITION. No row of the table gives bits, so no word spells a command. -/

namespace Sys2Proof

/-- The command that a word spells by the bits of the table: no row has bits, so there is none (log 1). -/
def decodeTableWord (_nbits _w : Nat) : Option Instr := none

end Sys2Proof
end

