-- ==== Sys2Proof/Config.lean ====
section
/-! DEFINITION. What the spec leaves open: each value is an opaque constant applied to plain data, so
that nothing can be proved of it (log 5, 6, 7, 9). -/

namespace Sys2Proof.Config

/-- The hardware entropy draw number `n` (R91, R361): a free value. -/
opaque entropy : Nat → BitVec 64

/-- The byte that host memory holds at `addr` for the read numbered `n` (R275): host memory lies outside the
module, so each read is a free value. -/
opaque hostByte : Nat → Nat → BitVec 8

/-- The distance, in units of the last place, of a function-stage result from the correctly rounded one; the model
keeps it within the bound of R216. -/
opaque funcError : Nat → Nat → Nat → Int
/-- The first input, by its place, at which VEXP2, VLOG2 or VTANH reaches a result's place: function, format width, place
(R216, R217). -/
opaque funcStep : Nat → Nat → Int → Int

/-- A choice the spec leaves to timing (which entry is evicted, R282, R305). -/
opaque pick : Nat → Nat

/-- The part numbered by the second argument of a value that the spec leaves unspecified (R106, R135, R209, R308), by
draw. -/
opaque unspecified : Nat → Nat → Nat

/-- The bits above a link element that a wider member of a chain finds there (R206), by draw, place, the two widths and the
element (log 105). -/
opaque linkAbove : Nat → Nat → Nat → Nat → Nat → Nat

/-- The translation root and the address space that the keeper writes into a thread at start-up (R277). -/
opaque threadRoot : Nat → BitVec 64
opaque threadAsid : Nat → BitVec 16

/-- The index that R28 gives a unit within its domain: the numbering is not stated. -/
opaque unitIndex : Nat → BitVec 13

/-- The address in the 2 KiB area of a lent thread (R342). -/
opaque lentArea : Nat → BitVec 48

/-- Where in that area its arrays lie (R342): by thread, 0 the events, 1 the STATE_VA values, 2 the result slots, 3 the
STEP values. -/
opaque lentOffset : Nat → Nat → Nat

/-- The pool slot that a queued event takes (R336), by draw. -/
opaque poolSlot : Nat → BitVec 20

/-- A signature verifies (R470): scheme 0 Ed25519, 1 ML-DSA-65, the public key, the message, the signature. -/
opaque verify : Nat → Nat → Nat → Nat → Bool

/-- Jarrun's release keys in the boot ROM (R469), by scheme. -/
opaque jarrunKey : Nat → Nat

/-- The module's own public keys (R474, R475), by scheme. -/
opaque deviceKey : Nat → Nat

/-- The module's own signature (R474): scheme, message, and the draw that a randomised signature uses. -/
opaque sign : Nat → Nat → Nat → Nat

/-- SHA-256 of the boot ROM (R480): a free value. -/
opaque bootRom : Nat

/-- SHA-256 of the image that a slot holds from manufacture, by type (R471, R480), and its SVN and FLOOR. -/
opaque factoryImage : Nat → Nat
opaque factorySvn : Nat → Nat
opaque factoryFloor : Nat → Nat

/-- The certificate chain of slot 0 (R475), as a length in bytes and a number, and Jarrun's ML-DSA-65 signature over the
module's key (R475, R481). -/
opaque chainLength : Nat
opaque jarrunChain : Nat
opaque pqCertificate : Nat

/-- A chain's leaf certifies the device key and is issued under the owner's (R479): device key, owner key, the chain. -/
opaque chainValid : Nat → Nat → Nat → Bool

/-- The message that DSP0274 defines for a signed response (R481): by draw and by what the response tells. -/
opaque spdmMessage : Nat → Nat → Nat

/-- The bytes over which a signed record's signatures run (R396): kind, GEN, epoch, tick, the body as a number. -/
opaque recordText : Nat → Nat → Nat → Nat → Nat → Nat

end Sys2Proof.Config
end

