-- ==== Sys2Proof/Machine/Table.lean ====
section
/-! DEFINITION. Tables in canonical form, bytes in little-endian order (R6) and bit fields (R5). -/

namespace Sys2Proof.Machine
open Sys2Proof

variable {α : Type}

/-- The entry at `k`, if one is listed. -/
def tget (t : Table α) (k : Nat) : Option α :=
  match t with
  | [] => none
  | (k', v) :: r => if k' = k then some v else tget r k

/-- `t` with `v` at `k`; keys stay in rising order. -/
def tput (t : Table α) (k : Nat) (v : α) : Table α :=
  match t with
  | [] => [(k, v)]
  | (k', v') :: r =>
    if k < k' then (k, v) :: (k', v') :: r
    else if k = k' then (k, v) :: r
    else (k', v') :: tput r k v

/-- `t` without an entry at `k`. -/
def tdel (t : Table α) (k : Nat) : Table α := t.filter fun e => e.1 != k

/-- The value at `k` where unlisted keys read as `d`. -/
def tread (d : α) (t : Table α) (k : Nat) : α := (tget t k).getD d

/-- `t` with `v` at `k`, where unlisted keys read as `d`: a `d` is never listed. -/
def twrite [DecidableEq α] (d : α) (t : Table α) (k : Nat) (v : α) : Table α :=
  if v = d then tdel t k else tput t k v

/-- The canonical form: keys strictly rise and no entry equals what an unlisted key reads as. -/
def twf [DecidableEq α] (d : α) : Table α → Bool
  | [] => true
  | [(_, v)] => decide (v ≠ d)
  | (k, v) :: (k', v') :: r => decide (v ≠ d) && decide (k < k') && twf d ((k', v') :: r)

/-- `n` bytes of a number, lowest first. -/
def toBytes (n v : Nat) : List Byte :=
  match n with
  | 0 => []
  | n + 1 => BitVec.ofNat 8 v :: toBytes n (v / 256)

/-- The number that bytes spell, lowest first. -/
def ofBytes (bs : List Byte) : Nat :=
  match bs with
  | [] => 0
  | b :: r => b.toNat + 256 * ofBytes r

/-- Bits [lo + n - 1:lo] of a number (R5). -/
def bits (v lo n : Nat) : Nat := (v >>> lo) % 2 ^ n

/-- Bit `i` of a number. -/
def bit (v i : Nat) : Bool := v.testBit i

/-- The number of a truth value. -/
def b2n (b : Bool) : Nat := if b then 1 else 0

/-- A number whose bits are read as a signed value of `n` bits. -/
def toSigned (n v : Nat) : Int := if v < 2 ^ (n - 1) then (v : Int) else (v : Int) - 2 ^ n

/-- An integer wrapped into `n` bits. -/
def wrapInt (n : Nat) (i : Int) : Nat := (i % (2 ^ n : Int)).toNat

/-- The quotient rounded up. -/
def ceilDiv (a b : Nat) : Nat := (a + b - 1) / b

/-- `f 0`, `f 1`, … `f (n - 1)` applied in turn. -/
def iterate (n : Nat) (f : Nat → α → α) (a : α) : α := (List.range n).foldl (fun a i => f i a) a

/-- `x` put before the first element of `l` that it precedes. -/
def insertBy (before : α → α → Bool) (x : α) : List α → List α
  | [] => [x]
  | y :: r => if before x y then x :: y :: r else y :: insertBy before x r

/-- The elements of a list in the order of `before`. -/
def sortBy (before : α → α → Bool) (l : List α) : List α := l.foldl (fun r x => insertBy before x r) []

/-- Byte `a` of a memory that lists what is not zero. -/
def memByte (m : List Host.Cell) (a : Nat) : Byte := tread (0 : Byte) m a

/-- The memory with byte `b` at `a`. -/
def memPut (m : List Host.Cell) (a : Nat) (b : Byte) : List Host.Cell := twrite (0 : Byte) m a b

/-- The canonical form of device memory: addresses strictly rise and no byte listed is zero. -/
def memWf (m : List Host.Cell) : Bool := twf (0 : Byte) m

/-- The memory after writes, oldest last in the list (the newest stands first). -/
def memApply (m : List Host.Cell) (wr : List Host.Cell) : List Host.Cell :=
  wr.foldr (fun c m => memPut m c.1 c.2) m

end Sys2Proof.Machine
end

