-- ==== Sys2Proof/Machine/Sha.lean ====
section
/-! DEFINITION. SHA-256 (FIPS 180-4, named in R121, R313, R362), CRC-32C (R374) and the Chitin code (R398, R399). -/

namespace Sys2Proof.Machine
open Sys2Proof

/-! ### SHA-256 -/

/-- The round constants, eight words to a number, the first word highest. -/
def shaRow : Nat → Nat
  | 0 => 0x428a2f9871374491b5c0fbcfe9b5dba53956c25b59f111f1923f82a4ab1c5ed5
  | 1 => 0xd807aa9812835b01243185be550c7dc372be5d7480deb1fe9bdc06a7c19bf174
  | 2 => 0xe49b69c1efbe47860fc19dc6240ca1cc2de92c6f4a7484aa5cb0a9dc76f988da
  | 3 => 0x983e5152a831c66db00327c8bf597fc7c6e00bf3d5a7914706ca635114292967
  | 4 => 0x27b70a852e1b21384d2c6dfc53380d13650a7354766a0abb81c2c92e92722c85
  | 5 => 0xa2bfe8a1a81a664bc24b8b70c76c51a3d192e819d6990624f40e3585106aa070
  | 6 => 0x19a4c1161e376c082748774c34b0bcb5391c0cb34ed8aa4a5b9cca4f682e6ff3
  | _ => 0x748f82ee78a5636f84c878148cc7020890befffaa4506cebbef9a3f7c67178f2

/-- The constant of a round. -/
def shaConst (i : Nat) : W32 := BitVec.ofNat 32 (shaRow (i / 8) >>> (32 * (7 - i % 8)))

/-- The eight working variables. -/
structure ShaVars where
  a : W32
  b : W32
  c : W32
  d : W32
  e : W32
  f : W32
  g : W32
  h : W32
  deriving DecidableEq, Repr

/-- The initial hash value: eight words in one number, the first highest. -/
def shaInit : ShaVars :=
  let w (i : Nat) : W32 := BitVec.ofNat 32 (0x6a09e667bb67ae853c6ef372a54ff53a510e527f9b05688c1f83d9ab5be0cd19 >>> (32 * (7 - i)))
  ⟨w 0, w 1, w 2, w 3, w 4, w 5, w 6, w 7⟩

/-- One round with the sum of its constant and message word. -/
def shaRound (v : ShaVars) (kw : W32) : ShaVars :=
  let s1 := v.e.rotateRight 6 ^^^ v.e.rotateRight 11 ^^^ v.e.rotateRight 25
  let ch := (v.e &&& v.f) ^^^ (~~~v.e &&& v.g)
  let t1 := v.h + s1 + ch + kw
  let s0 := v.a.rotateRight 2 ^^^ v.a.rotateRight 13 ^^^ v.a.rotateRight 22
  let mj := (v.a &&& v.b) ^^^ (v.a &&& v.c) ^^^ (v.b &&& v.c)
  ⟨t1 + s0 + mj, v.a, v.b, v.c, v.d + t1, v.e, v.f, v.g⟩

/-- The message schedule, newest word first, extended by `n` words. -/
def shaExtend : Nat → List W32 → List W32
  | 0, ws => ws
  | n + 1, ws =>
    let w (i : Nat) : W32 := ws.getD i 0
    let s0 := (w 14).rotateRight 7 ^^^ (w 14).rotateRight 18 ^^^ (w 14 >>> 3)
    let s1 := (w 1).rotateRight 17 ^^^ (w 1).rotateRight 19 ^^^ (w 1 >>> 10)
    shaExtend n ((w 15 + s0 + w 6 + s1) :: ws)

/-- A big-endian word of four bytes. -/
def be32 (bs : List Byte) : W32 := BitVec.ofNat 32 (ofBytes (bs.take 4).reverse)

/-- One block of 64 bytes. -/
def shaBlock (v : ShaVars) (bs : List Byte) : ShaVars :=
  let ws := (List.range 16).map fun i => be32 (bs.drop (4 * i))
  let sched := (shaExtend 48 ws.reverse).reverse
  let r := (sched.zip (List.range 64)).foldl (fun v (w, i) => shaRound v (w + shaConst i)) v
  ⟨v.a + r.a, v.b + r.b, v.c + r.c, v.d + r.d, v.e + r.e, v.f + r.f, v.g + r.g, v.h + r.h⟩

/-- The padded message. -/
def shaPad (bs : List Byte) : List Byte :=
  let n := bs.length
  bs ++ [0x80] ++ List.replicate ((119 - n % 64) % 64) 0 ++ (toBytes 8 (8 * n)).reverse

/-- `n` blocks. -/
def shaBlocks : Nat → List Byte → ShaVars → ShaVars
  | 0, _, v => v
  | n + 1, bs, v => shaBlocks n (bs.drop 64) (shaBlock v (bs.take 64))

/-- The SHA-256 digest of bytes: 32 bytes in the standard's order. -/
def sha256 (bs : List Byte) : List Byte :=
  let p := shaPad bs
  let v := shaBlocks (p.length / 64) p shaInit
  [v.a, v.b, v.c, v.d, v.e, v.f, v.g, v.h].flatMap fun x => (toBytes 4 x.toNat).reverse

/-- The first eight bytes of a digest as a little-endian number (R121). -/
def sha8 (bs : List Byte) : Nat := ofBytes ((sha256 bs).take 8)

/-! ### CRC-32C -/

/-- One byte into the reflected register. -/
def crcByte (c : Nat) (b : Byte) : Nat :=
  iterate 8 (fun _ c => if c % 2 = 1 then (c / 2) ^^^ 0x82F63B78 else c / 2) (c ^^^ b.toNat)

/-- CRC-32C (Castagnoli) of bytes (R374). -/
def crc32c (bs : List Byte) : Nat := (bs.foldl crcByte 0xFFFFFFFF) ^^^ 0xFFFFFFFF

/-! ### The Chitin code (R398, R399) -/

/-- Multiplication by α = 0x02 in the field of polynomial 0x11D. -/
def gfX (a : Nat) : Nat := let d := 2 * a; if d ≥ 256 then (d ^^^ 0x11D) % 256 else d

/-- Multiplication in the field. -/
def gfMul (a b : Nat) : Nat :=
  (iterate 8 (fun i (p : Nat × Nat) => (if b.testBit i then p.1 ^^^ p.2 else p.1, gfX p.2)) (0, a)).1

/-- α to the power `n`. -/
def gfPow (n : Nat) : Nat := iterate n (fun _ a => gfX a) 1

/-- The coefficients of g(x), lowest first: (x + 1)(x + α)(x + α²)(x + α³). -/
def chitinG : List Nat :=
  [0, 1, 2, 3].foldl (fun p j =>
    let a := gfPow j
    ((p.map (gfMul a)) ++ [0]).zipWith (· ^^^ ·) (0 :: p)) [1]

/-- The four check bytes of 32 data bytes (R398). -/
def chitinCheck (data : List Byte) : List Byte :=
  let rem := data.reverse.foldl (fun (r : List Nat) b =>
    -- r is the remainder of degree below 4, lowest first; bring in the next coefficient and reduce
    let top := b.toNat ^^^ r.getD 3 0
    let sh := 0 :: r.take 3
    sh.zipWith (fun x g => x ^^^ gfMul top g) chitinG) [0, 0, 0, 0]
  rem.map fun x => BitVec.ofNat 8 x

/-- What a decoder decides of a granule (R399). -/
inductive Chitin where
  | clean
  | corrected (p : Nat) (by_ : Byte)
  | uncorrectable
  deriving DecidableEq, Repr

/-- The codeword of 36 bytes, check bytes first. -/
def chitinDecode (cw : List Byte) : Chitin :=
  let syn (j : Nat) : Nat :=
    (cw.reverse.foldl (fun s b => gfMul s (gfPow j) ^^^ b.toNat) 0)
  let s0 := syn 0
  let s1 := syn 1
  let s2 := syn 2
  let s3 := syn 3
  if s0 = 0 ∧ s1 = 0 ∧ s2 = 0 ∧ s3 = 0 then .clean
  else if s0 = 0 then .uncorrectable
  else
    match (List.range 36).find? fun p =>
        let a := gfPow p
        gfMul s0 a == s1 && gfMul s1 a == s2 && gfMul s2 a == s3 with
    | some p => .corrected p (BitVec.ofNat 8 s0)
    | none => .uncorrectable

end Sys2Proof.Machine
end

