-- ==== Sys2Proof/Machine/State.lean ====
section
/-! DEFINITION. The state of the module: everything the spec gives it, as plain data. A field's default value is its
value right after reset (log 2, 3). -/

namespace Sys2Proof.Machine
open Sys2Proof

/-- Why the machine stops with a fault: nothing in this model does (log 1). -/
inductive Fault where
  /-- Raised by nobody. Safe: a stop claims nothing. -/
  | stuck
  deriving DecidableEq, Repr

/-- Why a command has no effect here. -/
inductive Refusal where
  /-- Raised by the dispatcher for a row that has no meaning yet. Safe: a stop claims nothing. -/
  | notModelled (mnemonic : String)
  deriving DecidableEq, Repr

/-- An ACK field: events seen and events acknowledged, 32 bits each (R8, R10; log 90). -/
structure AckCtr where
  seen : W32 := 0
  ack  : W32 := 0
  deriving DecidableEq, Repr

/-- One frame of a thread's frame bank (R255): `g` holds g1 to g7. -/
structure Frame where
  pc    : Addr := 0
  estat : W64 := 0
  g     : Table W64 := []
  deriving DecidableEq, Repr

/-- One entry of a thread's store buffer (R158): physical address and bytes. A store across a sector makes two that
drain together (`pair`). -/
structure StoreEntry where
  addr  : Nat
  bytes : List Byte
  pair  : Bool := false
  /-- The model's own: how many shoot-downs had gone out when its address was translated (R289, R290). -/
  born  : Nat := 0
  deriving DecidableEq, Repr

/-- A stamp (R28): tick, unit that made it, sequence. -/
structure Stamp where
  tick : Nat := 0
  unit : Nat := 0
  seq  : Nat := 0
  deriving DecidableEq, Repr

/-- What a thread waits for (R145, R249, R356). -/
inductive Park where
  /-- Not parked. -/
  | none
  /-- Data-cache fills of the 64-byte sectors at these physical addresses. -/
  | dataMiss (sectors : List Nat)
  /-- The instruction-cache line of this address (R156). -/
  | fetchMiss (line : Nat)
  /-- A full store buffer: the store stands behind it until `more` entries have drained (R158). -/
  | storeFull (more : Nat)
  /-- FENCE: until the store buffer is empty. -/
  | fence
  /-- FWAIT for a field step value. -/
  | fwait (v : W64)
  /-- XWAIT for a transfer count. -/
  | xwait (v : W64)
  /-- FOP whose field queue is full, or whose SEQ is too far ahead (R104). -/
  | fopQueue (desc : List Byte)
  /-- XFER to a full mover queue (R307). -/
  | xferQueue (desc : List Byte)
  /-- An ordered atomic that waits for horizons (R355, R356): its key's S, the minor code of major 0x0D, or 0x100 for GLOCK, the
  destination register (GLOCK's address register), the physical address where access is granted, and the operand and comparand. -/
  | atomic (at_ : Nat) (op : Nat) (rd : Reg) (addr : Option Nat) (val cmp : W64)
  /-- A keeper service, by number, that has not replied, with the word of its GATE and the stamp of its message (R268). -/
  | service (n : Nat) (word : W32) (stamp : Stamp)
  /-- A tile transfer between rows (R136): the tile and its generation (R129), the next row to move; `zero` for a store
  that reads its tile as zero (R132). -/
  | tile (load zero : Bool) (tile gen next base stride : Nat) (word : W32)
  deriving DecidableEq, Repr

/-- Why a group does not issue (R227, R230, R232, R235). -/
inductive GroupWait where
  /-- The group may issue. -/
  | ready
  /-- Waiting at join address `pc` for the pending lanes. -/
  | join (pending : Lanes)
  /-- Split off at a lock whose holder is `lane` of the same family. -/
  | holder (lane : Nat) (addr : Nat)
  /-- Waiting for the lock word at physical address `addr`, which its GLOCK names in register `ra`. -/
  | lock (ra : Reg) (addr : Nat)
  /-- Arrived at the barrier with this identifier; `next` is the instruction that follows (R149). -/
  | barrier (id : BitVec 16) (next : Addr)
  /-- Waiting on a memory, mover or handshake wait. -/
  | on (p : Park)
  deriving DecidableEq, Repr

/-- One group of a family (R224); `g` is its scalar file, `stamp` the stamp of the event that created it. -/
structure Group where
  mask  : Lanes := 0
  pc    : Addr := 0
  g     : Table W64 := []
  stamp : Stamp := {}
  wait  : GroupWait := .ready
  deriving DecidableEq, Repr

/-- What a thread is bound to (R143, R340, R526). -/
inductive Binding where
  /-- Nothing. -/
  | free
  /-- Logical thread `k` of the plan with this command number. -/
  | plan (cmd k : Nat)
  /-- Lent to the dispatcher by a serving plan, and idle. -/
  | lent (cmd : Nat)
  /-- Running an invocation on a lent thread. -/
  | inv (id cmd : Nat)
  deriving DecidableEq, Repr

/-- An entry that a thread has to make (R251): vector, detail and address, and the program counter to save where it is
not that of the group that issues (R226). -/
structure Cause where
  vec    : Nat
  detail : Nat := 0
  eaddr  : W64 := 0
  pc     : Option Addr := none
  deriving DecidableEq, Repr

/-- One hardware thread (R146, R151, R274, R361, R494). -/
structure Thread where
  g        : Table W64 := []
  v        : Table VReg := []
  p        : Table PReg := []
  vln      : W32 := 0
  pc       : Addr := 0
  lc0      : W64 := 0
  lc1      : W64 := 0
  ls0      : Addr := 0
  ls1      : Addr := 0
  le0      : Addr := 0
  le1      : Addr := 0
  tstart   : BitVec 6 := 0
  seed     : W64 := 0
  cvtSlot  : BitVec 12 := 0
  xlbase   : W64 := 0
  asid     : BitVec 16 := 0
  /-- Values written by CRW that wait for CSYNC, by register number (R152). -/
  pend     : Table W64 := []
  wleft    : BitVec 12 := 0
  rlvl     : BitVec 5 := 0
  gm       : Bool := false
  ie       : Bool := false
  priv     : Bool := true
  /-- The frame bank, newest first (R255). -/
  bank     : List Frame := []
  eaddr    : W64 := 0
  spilled  : BitVec 16 := 0
  fsp      : W64 := 0
  ssp      : W64 := 0
  tmcmp0   : W64 := 0
  tmcmp1   : W64 := 0
  timer0   : Bool := false
  timer1   : Bool := false
  sig      : AckCtr := {}
  gtidx    : BitVec 11 := 0
  rngsel   : Bool := false
  pltid    : BitVec 16 := 0
  ucsel    : W32 := 0
  ucnt     : Table W64 := []
  lopid    : W32 := 0
  step     : W64 := 0
  /-- A family is live (R223): GSTAT.GMODE. -/
  family   : Bool := false
  /-- The count of GSPAWNs since binding, and the live family's identifier. -/
  famCount : Nat := 0
  famVln   : W32 := 0
  /-- Where the normal stream resumes when the family ends (R223). -/
  famPc    : Addr := 0
  /-- Lanes of the family that have not ended. -/
  live     : Lanes := 0
  laneStep : Table Nat := []
  laneBase : Table Nat := []
  groups   : Table Group := []
  /-- The model's own: while a command runs, the group that it ends a wait of, or whose instruction it is. -/
  acting   : Option Nat := none
  ovf      : Bool := false
  barinc   : Bool := false
  missing  : BitVec 11 := 0
  gblim    : W32 := 0
  /-- The store buffer, oldest first: its eight entries, and behind them the stores that wait for room (R158). -/
  sbuf     : List StoreEntry := []
  /-- Transfers posted so far, those completed out of order, and the count that XWAIT reads (R307). -/
  xferPosted : Nat := 0
  xferEnded  : List Nat := []
  xferDone   : Nat := 0
  binding  : Binding := .free
  park     : Park := .none
  /-- Gate requests of this thread that wait (R42). -/
  gateWaits : Nat := 0
  /-- What the thread has asked the gates for and has still to do: an instruction by its PC, else a drain or an atomic. -/
  paid      : List Nat := []
  cause    : Option Cause := none
  stopped  : Bool := false
  /-- A double fault has stopped it: it issues nothing until its die is reset (R246). -/
  dead     : Bool := false
  /-- Energy below one gate unit, in hundredths of a nanojoule (R44). -/
  residue  : Nat := 0
  /-- What the binding command carries: budget class, function, intake tick (R31), DET (R352). -/
  cls      : Nat := 0
  fn       : Nat := 0
  intake   : Nat := 0
  det      : Bool := true
  /-- The cost in beats of the invocation so far (R344). -/
  costSum  : Nat := 0
  /-- The invocation's limit in beats, 0 for none (R344). -/
  costLimit : Nat := 0
  /-- The step at which a replay of kind THREAD stops its plan (R367). -/
  stopAt   : Option W64 := none
  /-- Upper halves latched by reads of LO registers through the control window (R503). -/
  latches  : Table W32 := []
  deriving DecidableEq, Repr

/-- One look-aside entry (R282): a virtual range, what it maps to and bits [6:0] of its leaf. -/
structure TlbEntry where
  va   : Nat
  size : Nat
  pa   : Nat
  asid : BitVec 16
  bits : BitVec 7
  deriving DecidableEq, Repr

/-- One vector processor (R151, R247, R274, R282, R306). -/
structure Vp where
  vecbase    : W64 := 0
  vecbaseW   : W64 := 0
  gatebase   : W64 := 0
  gatebaseW  : W64 := 0
  imode      : Bool := false
  imodeW     : Bool := false
  tmap       : W32 := 0
  full       : BitVec 8 := 0
  /-- How often each tile has been released: what was in use then keeps the contents of its own generation (R129, R133). -/
  gens       : Table Nat := []
  /-- Tile contents by (generation x 8 + tile) x 64 + row (R126). -/
  tiles      : Table (BitVec 2048) := []
  xcnt       : Table AckCtr := []
  alert      : Bool := false
  tlb        : List TlbEntry := []
  /-- Data-cache lines by line address: valid and dirty sectors (R306). -/
  dcache     : Table (BitVec 4 × BitVec 4) := []
  /-- Instruction-cache lines by address space x 2^48 + virtual line address (R156). -/
  icache     : List Nat := []
  deriving DecidableEq, Repr

/-- One violation record (R242). -/
structure ViolRec where
  tick   : Nat
  source : BitVec 16
  seq    : BitVec 16
  code   : BitVec 16
  priv   : Bool
  write  : Bool
  addr   : W64
  detail : W32
  epoch  : W32
  deriving DecidableEq, Repr

/-- A budgeted resource (R35, R36). -/
inductive Res where
  | hbm | tier | brab | brk | pcieIn | pcieOut | nrxOut | nrxIn | field | energy
  deriving DecidableEq, Repr

/-- Who asked at a gate (R42); the keeper for a work of its own, by number, or for what nothing waits for (0). -/
inductive Asker where
  | thread (key : Nat)
  | mover (n : Nat)
  | field
  | keeper (work : Nat)
  deriving DecidableEq, Repr

/-- A run queued at a channel (R321): line within the channel, granules, direction, class and the tag of its events. -/
structure ChRun where
  line  : Nat
  gran  : Nat
  write : Bool
  cls   : Nat
  lopid : W32
  deriving DecidableEq, Repr

/-- What an admission lets go (R42): a run into its channel's queues (R323), or frames onto the Neraxo link, a channel of
it and how many (R426). -/
inductive GateAct where
  | run (channel : Nat) (r : ChRun)
  | frames (vc n : Nat)
  deriving DecidableEq, Repr

/-- The two balances of a class at a gate instance (R39, R40). -/
structure Bal where
  current : Int := 0
  carry   : Int := 0
  deriving DecidableEq, Repr

/-- What a class has had at a gate instance since the module started (R47): granted, taken from surplus, consumed, expired. -/
structure Ledger where
  granted : Int := 0
  taken   : Int := 0
  spent   : Int := 0
  expired : Int := 0
  deriving DecidableEq, Repr

/-- A tally of R47: a link's credits (0 PCIe, 1 and 2 the keeper bridges, 3 the die bridge, 4 Neraxo), a queue's buffers (0 and
1 the dies' event pools, from 64 the command rings, from 128 the event rings, from 192 the response rings, from 512 the
movers by die x 32 + mover), a class's units at a gate, an ACK field's events (by HIF counter), a session's events, the
journal's records. -/
inductive Tally where
  | link (i : Nat)
  | queue (i : Nat)
  | budget (key : Nat)
  | acks (i : Nat)
  | session (sid : Nat)
  | journal
  deriving DecidableEq, Repr

/-- A request that waits at a gate (R42). -/
structure GateReq where
  res  : Res
  inst : Nat
  cls  : Nat
  cost : Nat
  who  : Asker
  act  : Option GateAct
  deriving DecidableEq, Repr

/-- Where an event was counted from (R493): die, class and LOPID. -/
structure Tag where
  die   : Nat := 0
  cls   : Nat := 0
  lopid : W32 := 0
  deriving DecidableEq, Repr

/-- One global counter (R495): the selection in force and the one written. -/
structure CntEntry where
  sel   : W32 := 0
  mat   : W32 := 0
  mask  : W32 := 0
  selW  : W32 := 0
  matW  : W32 := 0
  maskW : W32 := 0
  val   : W64 := 0
  shd   : W64 := 0
  deriving DecidableEq, Repr

/-- The CNT block of a die (R495). -/
structure Cnt where
  run      : Bool := false
  snap     : Bool := false
  clear    : Bool := false
  snapTick : W64 := 0
  entries  : Table CntEntry := []
  deriving DecidableEq, Repr

/-- A budget class's grants (R36): ten grants and the two flags. -/
structure Grant where
  amounts : Table Nat := []
  surplus : Bool := true
  hold    : Bool := false
  deriving DecidableEq, Repr

/-- One range-watch slot (R98): ten counters in the order of its registers. -/
structure RwSlot where
  tag   : W32 := 0
  lost  : Bool := false
  first : W64 := 0
  ctr   : Table AckCtr := []
  deriving DecidableEq, Repr

/-- The sums of one probe entry (R101): fixed point with least significant bit 2^-48, and the largest |d| as binary32. -/
structure ProbeSums where
  n      : Nat := 0
  sumD   : Int := 0
  sumAbs : Int := 0
  sumRef : Int := 0
  maxAbs : W32 := 0
  deriving DecidableEq, Repr

/-- One probe entry (R101): live sums, the held copy and the tick of the last TAKE. -/
structure Probe where
  live  : ProbeSums := {}
  held  : ProbeSums := {}
  taken : W64 := 0
  deriving DecidableEq, Repr

/-- One error record (R422). -/
structure ErrRec where
  tick    : Nat
  source  : BitVec 16
  seq     : BitVec 16
  code    : BitVec 16
  unit    : BitVec 16
  addr    : W64
  epoch   : W32
  cmd     : W32
  step    : W64
  sid     : BitVec 20
  attempt : BitVec 8
  deriving DecidableEq, Repr

/-- One keeper alert record (R468). -/
structure AlertRec where
  tick : Nat
  code : BitVec 16
  unit : BitVec 16
  arg  : W32
  deriving DecidableEq, Repr

/-- One range of advice (R295). -/
structure Advice where
  va         : Nat
  len        : Nat
  asid       : BitVec 16
  readMostly : Bool
  preferred  : BitVec 2
  accessedBy : BitVec 2
  deriving DecidableEq, Repr

/-- Service states of a unit (R411). -/
inductive UState where
  | inService | draining | pupa | molting | retired
  deriving DecidableEq, Repr

/-- One unit of the SERV block (R415). -/
structure UnitRec where
  state  : UState := .inService
  joined : Nat := 0
  deriving DecidableEq, Repr


/-- What owns a field queue (R104): a plan by its command number or an invocation by its number. -/
inductive Owner where
  | plan (cmd : Nat)
  | inv (id : Nat)
  deriving DecidableEq, Repr

/-- Everything a translation depends on: the tables' base, the address space, the privilege (R277, R282). -/
structure Ctx where
  xlbase : W64 := 0
  asid   : BitVec 16 := 0
  priv   : Bool := false
  deriving DecidableEq, Repr

/-- A posted field operation (R104): who issued it, its 128-byte descriptor, and what its issue fixes (R361, R493). -/
structure FieldEntry where
  thr     : Nat := 0
  desc    : Nat := 0
  seed    : W64 := 0
  entropy : Bool := false
  cls     : Nat := 0
  lopid   : W32 := 0
  ctx     : Ctx := {}
  /-- Stopped on an absent translation and not yet restarted (R125). -/
  stopped : Bool := false
  /-- The model's own: how many writes were noted when it was posted or restarted; those after that leave its result open
  (R106, R135; log 91). -/
  mark    : Nat := 0
  /-- What it will ask the gates for, as it stood when it was posted (R41). -/
  asks    : List GateReq := []
  deriving DecidableEq, Repr

/-- The field queue of a plan or invocation (R104): its 64-bit step counter, its descriptors, and the geometry digest
that its command recorded (R123). -/
structure FieldQueue where
  step    : W64 := 0
  entries : List FieldEntry := []
  digest  : W64 := 0
  /-- The model's own: the outputs that no FWAIT covers yet, by step, as physical ranges (R106; log 91). -/
  outs    : List (Nat × List (Nat × Nat)) := []
  deriving DecidableEq, Repr

/-- The admitted operation (R102): whose it is, the plots that read their tile (R139), and the generation of the tile on
each plot (R129). -/
structure FieldRun where
  owner  : Owner
  entry  : FieldEntry
  tile   : Option Nat := none
  plots  : BitVec 32 := 0
  tileOk : BitVec 32 := 0
  gens   : List Nat := []
  cost   : Nat := 0
  /-- The step count it runs under (R90), and the geometry record and the GEOM_PLOT_LO words in force while it runs (R122). -/
  op     : Nat := 0
  geom   : List Byte := []
  lo     : List Nat := []
  deriving DecidableEq, Repr

/-- An installed decode table (R184, R185, R192): entries of 128 bits, micro-operations of 64 bits, and the digest. -/
structure DecodeTab where
  entries : Table Nat := []
  uops    : Table Nat := []
  digest  : W64 := 0
  deriving DecidableEq, Repr

/-! ### Commands and plans (R452 to R465, R526) -/

/-- A status word (R461): `state` 0 IDLE, 1 QUEUED, 2 RUNNING, 3 PARTIAL, 4 DONE, 5 FAILED. -/
structure StatusW where
  seq      : Nat := 0
  state    : Nat := 0
  opcode   : Nat := 0
  error    : Nat := 0
  progress : Nat := 0
  step     : Nat := 0
  tick     : Nat := 0
  epoch    : Nat := 0
  tag      : Nat := 0
  digest   : Nat := 0
  rseq     : Nat := 0
  ring     : Nat := 0
  upd      : Nat := 0
  deriving DecidableEq, Repr

/-- A command taken in (R457): its 64 bytes, its function, ring and ring sequence, its intake stamp, its journal record,
the DET it runs under (R352), and the stage it stands at where its rule has several. -/
structure Cmd where
  entry : Nat := 0
  fn    : Nat := 0
  ring  : Nat := 0
  rseq  : Nat := 0
  tick  : Nat := 0
  src   : BitVec 16 := 0
  sq    : BitVec 16 := 0
  jseq  : Nat := 0
  -- the epoch of its intake tick (R25, R380)
  epoch : Nat := 0
  -- the command front has taken it up: what comes later in its ring need not wait for it (R457)
  begun : Bool := false
  det   : Bool := true
  stage : Nat := 0
  -- input records made so far for this command (R364)
  inputs : Nat := 0
  -- the inputs that a replay or a follower has met so far (R367, R432): kind, logical thread and step of each
  met    : List (Nat × Nat × Nat) := []
  -- what PROGRESS is to show (R462)
  prog   : Nat := 0
  -- the host pages of what it does next that ATS has granted (R298)
  ats    : Nat := 0
  -- a MOVE's pieces: how many are posted, the bytes each has written, and whether one met an absent translation (R460)
  posted : Nat := 0
  parts  : Table (List Byte) := []
  absent : Bool := false
  -- it ended DONE
  ok     : Bool := false
  deriving DecidableEq, Repr

/-- One checkpoint of a plan (R407, R459): field step, output bytes complete, each thread's step and resume address. -/
structure CkPoint where
  f   : Nat
  out : Nat
  thr : List (Nat × Nat)
  deriving DecidableEq, Repr

/-- What a REPLAY_TO of a plan adds to it (R365, R367). -/
structure ReplayOf where
  kind    : Nat
  target  : Nat
  lthread : Nat
  step    : Nat
  /-- It stands at its stop, and whether the target step was reached (R367, R369). -/
  stopped : Bool := false
  reached : Bool := false
  /-- The tick stamp of the stop (R369). -/
  tick    : Nat := 0
  deriving DecidableEq, Repr

/-- A plan (R459, R526), by its command's number: its image's copy held by the command front, and where it stands. -/
structure Plan where
  t        : Nat := 0
  serve    : Bool := false
  die      : Nat := 0
  asid     : BitVec 16 := 0
  cls      : Nat := 0
  outdig   : Bool := false
  seed     : W64 := 0
  geom     : Nat := 0
  dec      : Nat := 0
  entries  : List Nat := []
  cks      : List CkPoint := []
  ins      : List (Nat × Nat) := []
  outs     : List (Nat × Nat) := []
  lend     : Nat := 0
  lopid    : W32 := 0
  intake   : Nat := 0
  /-- The virtual ranges of its image (R409). -/
  image    : List (Nat × Nat) := []
  /-- The image and inputs of a serving plan as snapshots keep them (R382): digest and bytes. -/
  imgKey   : Nat := 0
  imgSize  : Nat := 0
  /-- Threads are bound; an aborted plan waits for its rollback (R406, R408). -/
  bound    : Bool := false
  aborted  : Bool := false
  ended    : Bool := false
  /-- A serving plan that a restart has started again: it runs, although its command ended at the cut (R388, R390). -/
  restarted : Bool := false
  ck       : Nat := 0
  attempts : Nat := 0
  granule  : Option Nat := none
  /-- The granules that have aborted it so far (R408). -/
  seen     : List Nat := []
  /-- Consecutive periods in which it stood stalled, and what its step counters summed to then (R357). -/
  stall    : Nat := 0
  mark     : Option Nat := none
  replay   : Option ReplayOf := none
  deriving DecidableEq, Repr

/-- One journal record (R374). -/
structure JRec where
  typ       : Nat := 0
  ring      : Nat := 0
  rseq      : Nat := 0
  body      : Nat := 0
  tick      : Nat := 0
  src       : BitVec 16 := 0
  sq        : BitVec 16 := 0
  epoch     : Nat := 0
  committed : Bool := false
  /-- The lead's number of a shipped command (R430). -/
  cmd       : Nat := 0
  /-- Committed on the twin too (R431). -/
  twin      : Bool := false
  deriving DecidableEq, Repr

/-! ### Sessions (R330 to R347) -/

/-- A queued event (R335, R336): its pool slot, where it came from, its stamp, its record of 128 bytes; `given` once it
belongs to an invocation. -/
structure QEv where
  slot  : Nat := 0
  ring  : Nat := 0
  jseq  : Nat := 0
  tick  : Nat := 0
  src   : BitVec 16 := 0
  sq    : BitVec 16 := 0
  epoch : Nat := 0
  body  : Nat := 0
  given : Bool := false
  deriving DecidableEq, Repr

/-- A session's descriptor (R330): `state` 0 FREE, 1 IDLE, 2 PENDING, 3 RUNNING, 4 PARKED, 5 RETIRED; its queue, oldest
first. -/
structure Session where
  state   : Nat := 0
  cls     : Nat := 0
  size    : Nat := 0
  gang    : Nat := 0
  parkwhy : Nat := 0
  blim    : Nat := 0
  plan    : Nat := 0
  entry   : Nat := 0
  stateVa : Nat := 0
  asid    : BitVec 16 := 0
  seed    : W64 := 0
  step    : Nat := 0
  ltick   : Nat := 0
  lsrc    : BitVec 16 := 0
  lsq     : BitVec 16 := 0
  epoch   : Nat := 0
  otick   : Nat := 0
  queue   : List QEv := []
  /-- Events taken in, as R47 counts them. -/
  taken   : Nat := 0
  /-- The physical pieces of its block (R332), and the intake tick of the command that retired it, with its epoch (R384). -/
  block   : List (Nat × Nat) := []
  closed  : Nat := 0
  closedEp : Nat := 0
  deriving DecidableEq, Repr

/-- What a session was at a step (R353, R368): its descriptor, its block, and the JSEQ of the event that made the step. -/
structure SessPast where
  desc  : Nat := 0
  block : List Byte := []
  jseq  : Nat := 0
  deriving DecidableEq, Repr

/-- An invocation (R339, R340): its events with their sessions, the boundary or tick that closed its batch (R380), and
the thread that runs it; `ended` while operations that it left behind complete (R344). -/
structure Inv where
  die    : Nat := 0
  evs    : List (Nat × QEv) := []
  plan   : Nat := 0
  entry  : Nat := 0
  cls    : Nat := 0
  det    : Bool := true
  cut    : Nat := 0
  thread : Option Nat := none
  ended  : Bool := false
  /-- It was aborted and runs again with the same events (R410). -/
  again  : Bool := false
  deriving DecidableEq, Repr

/-- Responses that wait for their journal records or for the twin's verdict (R347, R376, R434): die and invocation, and
the records with ring and JSEQ. -/
structure HeldResp where
  die   : Nat := 0
  inv   : Nat := 0
  recs  : List (Nat × Nat × Nat) := []
  ok    : Bool := true
  deriving DecidableEq, Repr

/-! ### Movers (R307 to R316) -/

/-- Who posted a transfer: a thread with the number of its post, or a command with the number of its piece (R307,
R460). -/
inductive XWho where
  | thread (key post : Nat)
  | cmd (seq piece : Nat)
  deriving DecidableEq, Repr

/-- A posted transfer: its descriptor and what its issue fixes (R308, R361). -/
structure XEntry where
  who     : XWho
  desc    : Nat := 0
  seed    : W64 := 0
  entropy : Bool := false
  det     : Bool := true
  cls     : Nat := 0
  fn      : Nat := 0
  lopid   : W32 := 0
  ctx     : Ctx := {}
  cmd     : Nat := 0
  /-- The invocation that posted it (R338, R344). -/
  inv     : Option Nat := none
  lthread : Nat := 0
  step    : W64 := 0
  /-- The model's own: how many writes were noted when it was posted (R308; log 91). -/
  mark    : Nat := 0
  deriving DecidableEq, Repr

/-- The transfer that a mover runs: runs completed, the row and element that the next run begins at, whether that run
has asked at its gates, the bytes written so far by place, with where they lie (R313), and the host bytes read (R362);
the sectors that the run before touched (R316); and the addresses that were translated ahead and found absent (R286). The
model's own: the draw that its index list in host memory has (log 24). -/
structure XRun where
  entry : XEntry
  draw  : Nat := 0
  done  : Nat := 0
  row   : Nat := 0
  off   : Nat := 0
  asked : Bool := false
  out   : Table (Nat × List Byte) := []
  host  : List Byte := []
  touched : List Nat := []
  fails : List Nat := []
  deriving DecidableEq, Repr

/-- The model's own: a completed transfer that nothing has waited for yet, with the physical ranges that it read and wrote
(R308; log 91). -/
structure Moved where
  who    : XWho
  cmd    : Nat := 0
  reads  : List (Nat × Nat) := []
  writes : List (Nat × Nat) := []
  deriving DecidableEq, Repr

/-- The model's own: a write that a posted operation or transfer may be left open by (R106, R135, R308; log 91): bytes
written by a thread or by a mover, or a tile's generation on a plot. -/
inductive WNote where
  | thread (addr len : Nat)
  | mover (who : XWho) (addr len : Nat)
  | tile (vp tile gen : Nat)
  deriving DecidableEq, Repr

/-- One mover (R307, R282). -/
structure Mover where
  queue   : List XEntry := []
  run     : Option XRun := none
  tlb     : List TlbEntry := []
  residue : Nat := 0
  deriving DecidableEq, Repr

/-! ### HBM and the near-memory cache (R302 to R305, R317 to R328) -/

/-- One line in a way of a set, most recent first in its set (R303, R304). -/
structure NmLine where
  way    : Nat
  line   : Nat
  valid  : BitVec 8
  dirty  : BitVec 8
  deriving DecidableEq, Repr

/-- A channel engine (R321, R322): queues, direction, open row by bank, last activate by bank, the granules of the run
before, the slot reached; parity retries (R317); and its weevil. -/
structure Channel where
  queue   : List ChRun := []
  /-- Admitted runs that find no room in the queues (R321). -/
  held    : List ChRun := []
  writing : Bool := false
  wrote   : Nat := 0
  rows    : Table Nat := []
  acts    : Table Nat := []
  last    : Nat := 0
  slot    : Nat := 0
  retried : Bool := false
  trained : Bool := false
  ctl     : W32 := 0
  busy    : Bool := false
  stopped : Bool := false
  done    : Bool := false
  refused : Bool := false
  abort   : Bool := false
  /-- The channel's state when the run began (R328). -/
  began   : Nat := 0
  mix     : W32 := 0
  start   : Nat := 0
  lines   : Nat := 0
  seed    : W64 := 0
  slots   : W32 := 0
  gran    : W32 := 0
  errs    : AckCtr := {}
  corrs   : AckCtr := {}
  first   : W32 := 0
  /-- What its granules hold while the channel has no addresses, by line x 64 + granule (R326). -/
  cells   : Table Nat := []
  deriving DecidableEq, Repr

/-! ### Translation commands (R288 to R299) -/

/-- Uses of translations that a unit had begun when a shoot-down or an ATS invalidation dropped them (R289, R299): a thread's
stores not drained, translated before a shoot-down by its number; an access that waits; a field operation; a mover's run
by its place in its transfer. -/
inductive TUse where
  | stores (key drop : Nat)
  | access (key : Nat) (group : Option Nat) (park : Park)
  | field (owner : Owner) (op : Nat)
  | mover (n : Nat) (who : XWho) (done : Nat)
  deriving DecidableEq, Repr

/-- An ATS Invalidate Request that is not complete (R299): its pages, and the requests in flight that it waits for. -/
structure AtsInv where
  fn    : Nat
  page  : Nat
  pages : Nat
  uses  : List TUse := []
  deriving DecidableEq, Repr

/-- The completion record of a keeper service (R269): its virtual address, under its caller's tables and privilege; the caller
and the word of its GATE; and what it repeats. -/
structure SvcRec where
  va      : Nat := 0
  ctx     : Ctx := {}
  caller  : Nat := 0
  word    : W32 := 0
  tag     : W64 := 0
  service : Nat := 0
  deriving DecidableEq, Repr

/-- A shoot-down (R290), for a command or for the gate service of a thread (R288): its range, its intake, the dies it
goes to, and the uses that have not drained. -/
structure Shoot where
  cmd    : Option Nat := none
  svc    : Option SvcRec := none
  va     : Nat := 0
  len    : Nat := 0
  asid   : Option (BitVec 16) := none
  tick   : Nat := 0
  order  : List Nat := []
  dies   : Nat := 3
  sent   : Bool := false
  uses   : List TUse := []
  /-- Every use has drained; a PREFETCH goes on with its pages (R294). -/
  drained : Bool := false
  deriving DecidableEq, Repr

/-- A page that the keeper moves (R294): its leaf's address, its virtual address, its size, where it was, its bits. -/
structure MovePage where
  ent  : Nat
  va   : Nat
  size : Nat
  pa   : Nat
  bits : BitVec 7
  deriving DecidableEq, Repr

/-- A page of session blocks that moves to another die as under a PREFETCH (R419): where to, and the uses of its old
translation that its copy waits for (R290). -/
structure Relo where
  page : MovePage
  dst  : Nat
  uses : List TUse := []
  deriving DecidableEq, Repr

/-- An entry of the keeper's address translation cache (R298): function, page, grants (log 108). -/
structure AtcEntry where
  fn   : Nat
  page : Nat
  r    : Bool
  w    : Bool
  deriving DecidableEq, Repr

/-! ### The keeping store (R371 to R397) -/

/-- The header of a journal segment in NAND (R378): its first JSEQ, its record count, its epoch, the SHA-256 of its slots. -/
structure SegHead where
  first  : Nat := 0
  count  : Nat := 0
  epoch  : Nat := 0
  digest : Nat := 0
  deriving DecidableEq, Repr

/-- A serving plan's image and named input ranges as NAND keeps them (R382): for each range in order the physical pieces that
it had, and its bytes. -/
structure ImageCopy where
  size  : Nat := 0
  parts : List (List (Nat × Nat) × List Byte) := []
  deriving DecidableEq, Repr

/-- A snapshot (R25, R381, R382): its epoch and cut tick, the sessions, the copied units of their blocks by address / 4096,
the dies' SESS registers, what was queued, the journal cut, the ring counts, the plans and the images that it writes first,
by digest. The model's own: the JSEQs of the session commands under its cut that wait for a PARKED session's events, and the
oldest event that was unanswered at the cut (R380, R389). -/
structure Snap where
  num      : Nat := 0
  full     : Bool := false
  epoch    : Nat := 0
  cut      : Nat := 0
  sessions : Table Session := []
  units    : Table (Table Byte) := []
  regs     : Table Nat := []
  queued   : List Nat := []
  jcut     : Nat := 0
  counts   : Table Nat := []
  plans    : List Nat := []
  images   : Table ImageCopy := []
  waiting  : List Nat := []
  oldest   : Nat := 0
  invNext  : Table Nat := []
  deriving DecidableEq, Repr

/-- A snapshot under way (R380, R383): `cut` 0 until its boundary; its contents once every covered invocation has
ended. -/
structure SnapRun where
  cmd  : Option Nat := none
  full : Bool := false
  -- it goes to a new follower (R442)
  ship : Bool := false
  cut  : Nat := 0
  jcut : Nat := 0
  cnts : Table Nat := []
  -- the oldest event that was unanswered at the cut (R389)
  oldest : Nat := 0
  snap : Option Snap := none
  deriving DecidableEq, Repr

/-- A signed record (R395, R396): `kind` 0 repair, 1 geometry, 2 floor, 3 owner, with its Ed25519 and ML-DSA-65 signatures;
its MAGIC, its body's length and SHA-256 follow from the rest (`Config.recordText`). -/
structure SignedRec where
  kind  : Nat
  gen   : Nat
  epoch : Nat
  tick  : Nat
  body  : List Nat
  ed    : Nat := 0
  ml    : Nat := 0
  deriving DecidableEq, Repr

/-- One image slot in NAND (R471, R482): what its header says, its bytes' digest, whether it has been verified. -/
structure FwSlot where
  bytes    : List Byte := []
  verified : Bool := false
  deriving DecidableEq, Repr

/-- The decode-table image that a DECODE_LOAD has running (R189 to R191): its bytes and its completion record. -/
structure DecodeImg where
  bytes : List Byte := []
  svc   : SvcRec := {}
  deriving DecidableEq, Repr

/-- A die's wait trace (R499). -/
structure TraceBuf where
  ctl  : W32 := 0
  min  : BitVec 16 := 256
  base : Addr := 0
  size : BitVec 16 := 0
  head : W32 := 0
  drop : AckCtr := {}
  last : Nat := 0
  deriving DecidableEq, Repr

/-- One function of the endpoint (R445, R449): ASID range, classes, ATS enable. -/
structure Func where
  asidBase : BitVec 16 := 0
  asidCnt  : BitVec 16 := 0
  classes  : W64 := 0
  ats      : Bool := false
  deriving DecidableEq, Repr

/-- A frame received on the Neraxo link is its operand; this is what the link holds (R424 to R427). -/
structure Link where
  up      : Bool := false
  lanes8  : Bool := false
  retrain : Bool := false
  present : Bool := false
  rxSeq   : Nat := 0
  txSeq   : Nat := 0
  acked   : Nat := 0
  -- a lane has failed: training is on lanes 0 to 7 (R424)
  half    : Bool := false
  -- the last CICADA frame sent, its 336 bytes (R425, R437)
  beat    : List Byte := []
  -- failed resends in a row of the frame after the last one acknowledged (R426)
  resends : Nat := 0
  -- credits held, by channel; frames in the replay buffer, by FSEQ and channel; frames that wait for a place there or for a
  -- control buffer, by channel; credits that a link's going down returned, counted (R46, R426, R427)
  credits : Table Nat := []
  unacked : List (Nat × Nat) := []
  waiting : List Nat := []
  reclaimed : Nat := 0
  naks    : Nat := 0
  deriving DecidableEq, Repr

/-- A result that a lead in MIRROR withholds until the follower's digest agrees (R434): the command or invocation, its
error, its digest, and the period in which it was made. -/
structure Held where
  ctx    : Context
  err    : Nat := 0
  digest : Nat := 0
  period : Nat := 0
  deriving DecidableEq, Repr

/-- Twin pairing (R428 to R443): `role` 0 none, 1 lead, 2 follower, 3 fenced; `mode` 0 SOLO, 1 MIRROR, 2 STANDBY. -/
structure Twin where
  role     : Nat := 0
  mode     : Nat := 0
  -- changes that wait for a boundary, with their commands: a mode, a fence, a takeover and whether its first boundary
  -- has passed
  modeW    : Option (Nat × Option Nat) := none
  fenceW   : Option Nat := none
  takeW    : Option (Nat × Bool) := none
  -- a pairing under way: its command, the mode, and whether the snapshot has gone out or come in (R442)
  pairing  : Option (Nat × Nat × Bool) := none
  -- the twin's owner, as its keeper tells (R478); the role and mode that start-up resumes (R487)
  peerOwner : Option (List Nat) := none
  resume   : Bool := false
  pairgen  : Nat := 0
  -- the twin's signed records, kept for it, and the GEN of this module's that the twin has, by kind (R395)
  peerRecs : List SignedRec := []
  recSent  : Table Nat := []
  silent   : Bool := false
  -- periods without a cicada (R438)
  quiet    : Nat := 0
  lagmax   : Nat := 244
  diverge  : AckCtr := {}
  retry    : AckCtr := {}
  verdicts : Nat := 0
  -- what the twin last told of itself (R437)
  peerJseq : Nat := 0
  peerRole : Nat := 0
  peerGen  : Nat := 0
  -- the first JSEQ of what runs on both modules (R442): everything before it is compared with nothing
  join     : Nat := 0
  -- DET as DCTL gives it, while MIRROR forces it (R352)
  detSaved : Bool := true
  -- digests that came before the lead's own results
  digests  : List (Context × Nat) := []
  held     : List Held := []
  -- divergences that wait for TWIN_RESOLVE (R436), and sessions that wait for the good module's copy
  diverged : List (Nat × Context) := []
  fetch    : List Nat := []
  -- a follower: shipped input bytes by tag, host bytes as the run at hand sees them, the first JSEQ it has not
  -- applied, its own local records and commands, the threads that its silence stopped, the lead's word to enter the mode
  inputs   : Table (List Byte) := []
  -- inputs met before the lead's records of them (R432): command, kind, logical thread, step, place among those, digest
  early    : List (Nat × Nat × Nat × Nat × Nat × Nat) := []
  view     : Table Byte := []
  applied  : Nat := 0
  jLocal   : Nat := 0
  cmdLocal : Nat := 0
  cmdHigh  : Nat := 0
  halted   : List Nat := []
  -- a fenced module: the status words as they stood when it was fenced, which the host goes on seeing (R438)
  shown    : Table StatusW := []
  enter    : Bool := false
  link     : Link := {}
  deriving DecidableEq, Repr

/-- The power stage and the sidebands (R511 to R521). -/
structure Power where
  inputMv  : Nat := 48000
  en       : Bool := false
  good     : Bool := false
  holdOk   : Bool := false
  perst    : Bool := true
  refclk   : Bool := true
  -- ADDR[1:0], pulled up on the module (R517, R518; log 13)
  straps   : BitVec 2 := 3
  joules   : Nat := 0
  -- power was there and is off (R511, R516)
  off      : Bool := false
  isolated : Bool := false
  halved   : Bool := false
  -- what the measurement of the window that ends settles for the next; windows in a row above 2,600 W; the period of
  -- the last measurement (R513, R514)
  halvedW  : Bool := false
  hot      : Nat := 0
  window   : Option Nat := none
  -- readings by sensor, those beyond a threshold, PLDM events sent (R519)
  sensors  : Table Nat := []
  beyond   : List Nat := []
  events   : Nat := 0
  -- dies shut down by heat, with the tick from which their sensors have stood below warning (R521)
  shut     : Table Nat := []
  deriving DecidableEq, Repr
/-! ### The parts of the module -/

/-- The host interface (R448 to R467): status words, rings, commands, plans, functions. -/
structure HostSt where
  -- commands: status words, ring slots and counts (R452, R453), commands by sequence number, plans by command
  sw        : Table StatusW := []
  cmdSlots  : Table Nat := []
  evSlots   : Table Nat := []
  respSlots : Table Nat := []
  msgSlots  : Table Nat := []
  -- counts by ring: CMD_PCOUNT 0, CMD_CCOUNT 64, EVT_PCOUNT 128, EVT_CCOUNT 192, RSP_PCOUNT 256, RSP_CCOUNT 320,
  -- MSG_PCOUNT 384, messages taken 448, events taken and not answered 512
  counts    : Table Nat := []
  -- the ring served last: command rings 0 to 31, event rings from 32 on (R454; log 119)
  turn      : Nat := 95
  -- the responded bitmap (R389): answered records, and the first record that it covers: every event before it is answered
  responded : List Nat := []
  respBase  : Nat := 0
  cmds      : Table Cmd := []
  cmdNext   : Nat := 1
  plans     : Table Plan := []
  funcs     : Table Func := []
  swOwn     : Table Nat := []
  wins      : Table W64 := []
  routes    : Table W32 := []
  bar4      : Nat := 0x40000000
  linkGen   : Nat := 6
  linkWidth : Nat := 16
  -- the endpoint's link is up (R446, R485), the completion of the last request (0 none, 1 successful, 2 Configuration
  -- Request Retry Status, 3 Completer Abort) and the bytes that the last register or BAR4 read returned (R405, R450, R485)
  linkUp    : Bool := false
  cpl       : Nat := 0
  readBack  : List Byte := []
  pfLatch   : Table W32 := []
  budgetSet : List (Nat × Table Grant) := []
  -- by event ring, the JSEQ below which a reset drops responses (R451)
  respDrop  : Table Nat := []
  deriving DecidableEq, Repr

/-- What a power-cut save writes beside the journal (R386, R509): status memory with the ring area, the logs, the role and
mode of the pair, and the sessions whose blocks later records opened (log 45). -/
structure SaveImg where
  tick     : Nat := 0
  epoch    : Nat := 0
  h        : HostSt := {}
  vlog     : Table ViolRec := []
  violNext : Nat := 0
  elog     : Table ErrRec := []
  errNext  : Nat := 0
  ktrc     : Table Nat := []
  ktrcHead : Nat := 0
  ktrcLast : Nat := 0
  sessions : Table Session := []
  role     : Nat := 0
  mode     : Nat := 0
  deriving DecidableEq, Repr

/-- Sessions and the dispatchers (R329 to R351). -/
structure SessSt where
  -- sessions (R329 to R351)
  sessions  : Table Session := []
  sessRegs  : Table Nat := [(0, 0xFFFFFF), (2, 4096), (4, 0xFFFFFF), (6, 4096)]
  sessLim   : Table AckCtr := []
  past      : Table (Table SessPast) := []
  invs      : Table Inv := []
  invNext   : Table Nat := []
  heldResp  : List HeldResp := []
  regen     : List Nat := []
  -- the dies and class groups that have been short of lent threads in this period, as die * 8 + group (R351)
  short     : List Nat := []
  -- session commands that a restart applies again (R388)
  redo      : List (Nat × Cmd) := []
  deriving DecidableEq, Repr

/-- Field geometry, movers, HBM, caches, repair (R119, R307, R302, R321, R411). -/
structure HwSt where
  -- geometry (R119): failed columns by array, digest changes
  failed    : Table Nat := []
  geomChg   : Nat := 0
  -- movers by die x 32 + mover
  movers    : Table Mover := []
  -- the model's own: completed transfers that nothing has waited for (R308; log 91)
  moved     : List Moved := []
  -- HBM channels; cache lines by tier x 2^20 + set; uncorrectable and corrupted granules by address / 32 (R398)
  channels  : Table Channel := []
  nmc       : Table (List NmLine) := []
  bad       : Table Nat := []
  -- the physical bank that serves a tier's bank, by tier x 64 + bank, where a spare has taken over (R417)
  spares    : Table Nat := []
  -- corrections by unit within the 24-hour window of this number (R402)
  bankCorr  : Table Nat := []
  corrWin   : Nat := 0
  -- banks whose copy to a spare runs, stacks that restripe, channels whose driver has grace until a period (R417, R418)
  bankCopy  : List Nat := []
  restripe  : List Nat := []
  grace     : Table Nat := []
  -- failed resends in a row, by path (R401)
  flits     : Table Nat := []
  -- energy below a gate unit, in 0.01 nJ: the field 0, dispatchers 1 and 2 (R44)
  residues  : Table Nat := []
  -- the period in which a VP's or die's drain began (R416); a unit entered PUPA in this period (R412); the tallies
  -- that have failed, which close their paths (R48)
  drainAt   : Table Nat := []
  wentPupa  : Bool := false
  tally     : List Tally := []
  -- credits and buffers that a die's reset returned to the keeper end of its bridge, counted by die (R46)
  reclaims  : Table Nat := []
  -- the dies whose blocks are held in reset (R510)
  dieReset  : Table Bool := []
  deriving DecidableEq, Repr

/-- Shoot-downs and ATS (R290, R298). -/
structure XlatSt where
  -- translation
  shoots    : List Shoot := []
  -- the model's own: how many shoot-downs have gone out (R289, R290)
  drops     : Nat := 0
  atc       : List AtcEntry := []
  atsReq    : List (Nat × Nat) := []
  atsInv    : List AtsInv := []
  -- the model's own: the pages, by thread, whose walks have been charged to an access and have brought no entry yet (R284)
  walked    : List (Nat × Nat) := []
  -- the pages of each PREFETCH under way
  moves     : Table (List MovePage) := []
  -- the pages of session blocks that move to another die (R419)
  relos     : List Relo := []
  deriving DecidableEq, Repr

/-- The keeping store, service registers and traces (R371 to R404, R498). -/
structure KeepSt where
  -- the keeping store
  journal   : Table JRec := []
  jseq      : Nat := 0
  -- past every JSEQ that this module gave before it became a follower (R373)
  jTop      : Nat := 0
  jDrained  : Nat := 0
  jKept     : Nat := 0
  -- records written to the ring and drained from it, and the ring's passes (R47, R394)
  jWritten  : Nat := 0
  jGone     : Nat := 0
  passes    : Nat := 0
  -- the segments that NAND keeps, by their first JSEQ (R378, R379)
  segs      : Table SegHead := []
  jAlert    : Bool := false
  jLastSeq  : Table Nat := []
  snapctl   : W32 := 0x0007180F
  snapSeq   : Nat := 0
  snaps     : List Snap := []
  -- serving-plan images by digest (R382)
  images    : Table ImageCopy := []
  snapQ     : List SnapRun := []
  lastFull  : Nat := 0
  lastInc   : Nat := 0
  wear      : Nat := 0
  saves     : Table SaveImg := []
  saveNew   : Option Nat := none
  recs      : List SignedRec := []
  -- scrubbing and service registers (R403, R404, R421)
  scrub     : W32 := 24
  cethresh  : W32 := 4096
  servctl   : W32 := 0x00015F5E
  -- global counters written for the next boundary, traces (R497, R499)
  trc       : Table TraceBuf := []
  ktrc      : Table Nat := []
  ktrcHead  : Nat := 0
  ktrcLast  : Nat := 0
  deriving DecidableEq, Repr

/-- How the keeper answered a request (R477, R479, R481, R482). -/
inductive ReqStatus where
  | none
  | ok
  | refused
  | noTranscript
  deriving DecidableEq, Repr

/-- Start-up, identity, firmware and attestation (R469 to R489). -/
structure SecSt where
  -- decode images (R189 to R191) and services
  decImg    : Option DecodeImg := none
  decNext   : Option (List Byte) := none
  decKept   : List Byte := []
  -- the image whose table is installed, and the dies that hold the accepted one already (R191)
  decOn     : List Byte := []
  decDone   : List Nat := []
  bootPhase : Nat := 0
  bootFail  : Nat := 0
  bootBits  : Nat := 0
  intake    : Bool := false
  owned     : Option (List Nat) := none
  ownerW    : Option (Option (List Nat)) := none
  fwSlots   : Table FwSlot := []
  fwPref    : Table Nat := []
  fwRun     : Table Nat := []
  pldm      : Option (Nat × Nat) := none
  floors    : Table Nat := []
  deviceId  : W64 := 0
  certSlot1 : List Byte := []
  -- secured sessions, the signed messages that a PQ_SIG may follow, by connection (R477, R481), the last answer and its
  -- status (R481, R482), IDE keys by stream (R445)
  secured   : List Conn := []
  pending   : List (Conn × Nat) := []
  answer    : List Byte := []
  status    : ReqStatus := .none
  ideKeys   : Table Nat := []
  -- a start-up that waits for a floor record or for an image (R486, R489)
  waiting   : Option BootTests := none
  deriving DecidableEq, Repr


/-- Everything of the module but its memory and its queue of commands. -/
structure Module where
  -- time (R24)
  tick      : Nat := 0
  epoch     : Nat := 0
  stamps    : Table Stamp := []
  -- the vector processors
  threads   : Table Thread := []
  vps       : Table Vp := []
  -- violations (R242, R244)
  vlog      : Table ViolRec := []
  violNext  : Nat := 0
  violCount : AckCtr := {}
  -- device control (R507)
  det       : Bool := true
  detW      : Option Bool := none
  loose     : Bool := false
  cfglock   : Bool := false
  cfglockW  : Bool := false
  -- budgets (R36 to R42)
  staging   : Table Grant := []
  active    : Table Grant := []
  gates     : Table Bal := []
  ledger    : Table Ledger := []
  gateQ     : List GateReq := []
  /-- The keeper's works that have asked the gates and have still to be done (R42). -/
  kpaid     : List Nat := []
  served    : Table Nat := []
  -- the class served last from surplus in this period, by gate instance (R41)
  turns     : Table Nat := []
  beatA     : Nat := 0
  beatB     : Nat := 0
  -- counters (R495)
  cnt       : Table Cnt := []
  -- near memory (R301): plain part in force and kept, in 2 MiB units, by tier 0 to 9; LOCK and KEEP ways
  nmPlain   : Table Nat := []
  nmPlainW  : Table Nat :=
    [(0, 1216), (1, 1216), (2, 1216), (3, 1216), (4, 1280), (5, 1216), (6, 1216), (7, 1216), (8, 1216), (9, 1280)]
  nmWays    : Table W32 := []
  -- range watch and probe (R96, R98, R101), by die x 4096 + slot
  rwatch    : Table RwSlot := []
  probes    : Table Probe := []
  -- error log and alerts (R422, R468)
  elog      : Table ErrRec := []
  errNext   : Nat := 0
  errCount  : AckCtr := {}
  alerts    : Table AlertRec := []
  alertNo   : Nat := 0
  -- host notification (R466): NCMD 0 to 31, NRESP 32 to 95, NERR 96, NALERT 97; the function that owns each ring's
  -- counter (R449); VEC bytes by function x 128 + counter; messages sent by function x 64 + vector
  hifCtr    : Table AckCtr := []
  ringFn    : Table Nat := []
  hifVec    : Table (BitVec 8) := []
  msgsSent  : Table Nat := []
  -- advice ranges (R295)
  advice    : List Advice := []
  -- units by unit number (R411, R415) and the module molt number (R412)
  units     : Table UnitRec := []
  molt      : Nat := 0
  -- the field (R102, R104, R107): its queues, the operation it runs, and the class of the operation last completed
  fqueues   : List (Owner × FieldQueue) := []
  fieldRun  : Option FieldRun := none
  fieldCls  : Option Nat := none
  /-- The model's own: the writes noted while operations or transfers are posted, newest first (log 91). -/
  wlog      : List WNote := []
  -- the writable decode table of each die (R184, R191)
  decTab    : Table DecodeTab := []
  -- the larger parts
  h         : HostSt := {}
  s         : SessSt := {}
  hw        : HwSt := {}
  x         : XlatSt := {}
  k         : KeepSt := {}
  sec       : SecSt := {}
  twin      : Twin := {}
  power     : Power := {}
  /-- The model's own: how many free values have been drawn (log 6). -/
  free      : Nat := 0
  deriving DecidableEq, Repr

/-- The machine: the queue of waiting commands, device memory, and the rest. -/
structure State where
  pending : List Instr := []
  mem     : List Host.Cell := []
  m       : Module := {}
  deriving DecidableEq, Repr

/-- Right after reset: nothing waits, memory lists nothing, every register at its reset value (log 2, 3). -/
def State.reset : State := {}

end Sys2Proof.Machine
end

