-- ==== Sys2Proof/Machine/Ops.lean ====
section
/-! DEFINITION. The named operations that every meaning is made of: the command in progress, memory and register
access, stamps, violations, event counts, budget gates, and the retirement of a thread's instruction. -/

namespace Sys2Proof.Machine
open Sys2Proof

/-- The machine as a command in progress sees it: memory as it stood, the ranges whose content the command has cleared,
the bytes it has written so far (newest first), and the rest; while someone's requests are collected, whose, and which. -/
structure Mach where
  mem    : List Host.Cell
  gone   : List (Nat × Nat) := []
  wr     : List Host.Cell := []
  m      : Module
  asking : Option Asker := none
  asked  : List GateReq := []

/-- The machine as a command finds it. -/
def begin (s : State) : Mach := { mem := s.mem, m := s.m }

/-- The address lies in one of some ranges, each from its first address to before its end. -/
def inGone (rs : List (Nat × Nat)) (a : Nat) : Bool := rs.any fun r => decide (r.1 ≤ a ∧ a < r.2)

/-- Memory as it stands now. -/
def memNow (w : Mach) : List Host.Cell := memApply (w.mem.filter fun c => !inGone w.gone c.1) w.wr

/-- A command as the power stage takes it, powered or not: what it clears and writes enters memory together when it ends,
and the queue is not its concern. -/
def runAny (f : Mach → Mach) (s : State) : Host.Outcome State Fault Refusal :=
  let w := f (begin s)
  .next { pending := s.pending, mem := memApply (s.mem.filter fun c => !inGone w.gone c.1) w.wr, m := w.m }

/-- Any other command: a module whose power is off does nothing (R511, R516; log 44). -/
def run (f : Mach → Mach) (s : State) : Host.Outcome State Fault Refusal :=
  runAny (fun w => if w.m.power.off then w else f w) s

/-- Change what is not memory. -/
def onM (f : Module → Module) (w : Mach) : Mach := { w with m := f w.m }
/-- Change one part of it. -/
def onH (f : HostSt → HostSt) (w : Mach) : Mach := onM (fun m => { m with h := f m.h }) w
def onS (f : SessSt → SessSt) (w : Mach) : Mach := onM (fun m => { m with s := f m.s }) w
def onHw (f : HwSt → HwSt) (w : Mach) : Mach := onM (fun m => { m with hw := f m.hw }) w
def onX (f : XlatSt → XlatSt) (w : Mach) : Mach := onM (fun m => { m with x := f m.x }) w
def onK (f : KeepSt → KeepSt) (w : Mach) : Mach := onM (fun m => { m with k := f m.k }) w
def onSec (f : SecSt → SecSt) (w : Mach) : Mach := onM (fun m => { m with sec := f m.sec }) w
def onTwin (f : Twin → Twin) (w : Mach) : Mach := onM (fun m => { m with twin := f m.twin }) w
def onPower (f : Power → Power) (w : Mach) : Mach := onM (fun m => { m with power := f m.power }) w

/-! ### Device memory -/

/-- The byte that memory holds at physical address `a`, the command's own writes included. -/
def rawByte (w : Mach) (a : Nat) : Byte := (tget w.wr a).getD (if inGone w.gone a then 0 else memByte w.mem a)

/-- The granule numbered `g` is uncorrectable: the code is linear, so the error pattern decides (R399). -/
def granBad (w : Mach) (g : Nat) : Bool :=
  match tget w.m.hw.bad g with
  | some p => chitinDecode (toBytes 36 p) == .uncorrectable
  | none => false

/-- A unit's service state (R411). -/
def unitState (w : Mach) (u : Nat) : UState := (tread {} w.m.units u).state

/-- Both dies serve sessions (R329, R419). -/
def bothServe (w : Mach) : Bool := unitState w 0 == .inService && unitState w 1 == .inService

/-- The bytes of a tier's plain part (R276, R301). -/
def plainBytes (w : Mach) (tier : Nat) : Nat := 0x200000 * tread 0 w.m.nmPlain tier

/-- A register of a die's SESS block (R350): 0 TBASE, 1 RBASE, 2 RSIZE. -/
def sessReg (w : Mach) (die i : Nat) : Nat := tread 0 w.m.s.sessRegs (die * 4 + i)

/-- Where a die's session table begins: its TBASE names that die's plain near memory (R330, R350; log 26). -/
def tableAt (w : Mach) (d : Nat) : Option Nat :=
  let a := 0x200000 * sessReg w d 0
  if a / 0x3C0000000 = d ∧ a % 0xC0000000 < plainBytes w (a / 0xC0000000) then some a else none

/-- The die whose session table an address lies in, with its place there: 128 MiB while both dies serve, 256 MiB while one
does (R330, R419). -/
def tablePlace (w : Mach) (a : Nat) : Option (Nat × Nat) :=
  (List.range 2).findSome? fun d => (tableAt w d).bind fun b =>
    if b ≤ a ∧ a < (if bothServe w then 0x8000000 else 0x10000000) + b then some (d, a - b) else none

/-- The address lies in a session table, which only the dispatcher and the keeper write (R330). -/
def inSessTable (w : Mach) (a : Nat) : Bool := (tablePlace w a).isSome

/-- What a byte of a session table shows of the SID of its descriptor, which even a FREE one holds (R330). -/
def sidByte (w : Mach) (a : Nat) : Byte :=
  match tablePlace w a with
  | some (d, o) =>
    let sid := if bothServe w then o / 256 * 2 + d else o / 256
    if o % 256 < 3 then BitVec.ofNat 8 (sid % 2 ^ 20 / 2 ^ (8 * (o % 256))) else 0
  | none => 0

/-- The byte that a reader receives: zero from an uncorrectable granule, corrected from any other (R402, R405); a session's
descriptor always shows its SID (R330). -/
def byteAt (w : Mach) (a : Nat) : Byte := if granBad w (a / 32) then 0 else rawByte w a ||| sidByte w a

/-- `n` bytes from `a`. -/
def readBytes (w : Mach) (a n : Nat) : List Byte := (List.range n).map fun i => byteAt w (a + i)

/-- The little-endian number of `n` bytes at `a` (R6). -/
def readNum (w : Mach) (a n : Nat) : Nat := ofBytes (readBytes w a n)

/-- The content of a range of addresses is lost: it reads as zero. -/
def wipe (lo hi : Nat) (w : Mach) : Mach :=
  { w with gone := (lo, hi) :: w.gone, wr := w.wr.filter fun c => !decide (lo ≤ c.1 ∧ c.1 < hi) }

/-- Write one byte. -/
def putByte (a : Nat) (b : Byte) (w : Mach) : Mach := { w with wr := (a, b) :: w.wr }

/-- Write bytes from `a` upward. -/
def putBytes (a : Nat) (bs : List Byte) (w : Mach) : Mach :=
  match bs with
  | [] => w
  | b :: r => putBytes (a + 1) r (putByte a b w)

/-! ### Keys and units -/

/-- The number of a thread among the 256. -/
def tkey (t : Tid) : Nat := t.vp.toNat * 8 + t.th.toNat

/-- The thread with a number. -/
def tidOf (k : Nat) : Tid := ⟨BitVec.ofNat 5 (k / 8), BitVec.ofNat 3 k⟩

/-- The die of a vector processor: VPs 0 to 15 are on Die A (R13). -/
def dieOfVp (vp : Nat) : Nat := vp / 16

/-- Unit numbers of R415, and two of the model's own for the keeper and the twin. -/
def unitVp (vp : Nat) : Nat := 0x1000 + vp
def unitMover (n : Nat) : Nat := 0x6000 + n
def unitKeeper : Nat := 0x10000
def unitTwin : Nat := 0x20000

/-- The stamp domain of a unit (R28): keeper 0, Die A 1, Die B 2, twin 3. -/
def unitDomain (u : Nat) : Nat :=
  if u = unitKeeper then 0
  else if u = unitTwin then 3
  else
    let k := u / 0x1000
    let i := u % 0x1000
    match k with
    | 0 => 1 + i
    | 1 => 1 + i / 16
    | 2 => 1 + i / 16
    | 3 => 1 + i / 64
    | 4 => 1 + i / 64 / 5
    | 5 => 1 + i / 256
    | 6 => 1 + i / 32
    | 7 => 1 + i
    | _ => 0

/-- The source field of a stamp (R28). -/
def sourceOf (u : Nat) : BitVec 16 := BitVec.ofNat 3 (unitDomain u) ++ Config.unitIndex u

/-! ### Threads, vector processors, time -/

/-- A thread's registers. -/
def thr (w : Mach) (t : Tid) : Thread := tread {} w.m.threads (tkey t)

/-- Replace a thread's registers. -/
def setThr (t : Tid) (th : Thread) (w : Mach) : Mach :=
  onM (fun m => { m with threads := twrite {} m.threads (tkey t) th }) w

/-- Change a thread's registers. -/
def updThr (t : Tid) (f : Thread → Thread) (w : Mach) : Mach := setThr t (f (thr w t)) w

/-- A vector processor's registers. -/
def vpOf (w : Mach) (vp : Nat) : Vp := tread {} w.m.vps vp

/-- A unit's JOINED (R412): in service or draining it has adopted KEEP_MOLT, otherwise the last number it adopted. -/
def joinedOf (w : Mach) (u : Nat) : Nat :=
  let r := tread {} w.m.units u
  match r.state with
  | .inService => w.m.molt
  | .draining => w.m.molt
  | _ => r.joined

/-- A unit is fenced: its JOINED differs from KEEP_MOLT (R413, R415). -/
def fenced (w : Mach) (u : Nat) : Bool := joinedOf w u != w.m.molt

/-- STATE as the registers encode it (R119, R415). -/
def stateCode (st : UState) : Nat :=
  match st with
  | .inService => 0 | .draining => 1 | .pupa => 2 | .molting => 3 | .retired => 4

/-- Change a vector processor's registers. -/
def updVp (vp : Nat) (f : Vp → Vp) (w : Mach) : Mach :=
  onM (fun m => { m with vps := twrite {} m.vps vp (f (tread {} m.vps vp)) }) w

/-- The stamp that unit `u` makes now (R28): the true tick (R27; log 88), and a sequence that starts at 0 at each new
tick. -/
def nextStamp (u : Nat) (w : Mach) : Stamp :=
  match tget w.m.stamps u with
  | some p => ⟨w.m.tick, u, if p.tick = w.m.tick then p.seq + 1 else 0⟩
  | none => ⟨w.m.tick, u, 0⟩

/-- Record that unit `u` has made its next stamp. -/
def takeStamp (u : Nat) (w : Mach) : Mach :=
  let p := nextStamp u w
  onM (fun m => { m with stamps := tput m.stamps u p }) w

/-- The next free value's number, and the machine after drawing it (log 6). -/
def drawFree (w : Mach) : Nat × Mach := (w.m.free, onM (fun m => { m with free := m.free + 1 }) w)

/-! ### ACK fields, notification, errors and alerts (R10, R422, R466 to R468) -/

/-- Events outstanding in an ACK field. -/
def ackOut (c : AckCtr) : W32 := c.seen - c.ack

/-- The field holds as many events as it can: one more is left uncounted (R10). -/
def ackFull (c : AckCtr) : Bool := ackOut c == BitVec.allOnes 32

/-- One more event in an ACK field (R10). -/
def ackEvent (c : AckCtr) : AckCtr := if ackFull c then c else { c with seen := c.seen + 1 }

/-- The acknowledging write of R10: the counter after it, or none where it is refused. -/
def ackWrite (c : AckCtr) (n : W32) : Option AckCtr :=
  if (n - c.ack).toNat ≤ (ackOut c).toNat then some { c with ack := n } else none

/-- Send the message of a notification counter of the function that owns it, if it is enabled (R467). -/
def sendVector (i : Nat) (w : Mach) : Mach :=
  let fn := if i < 96 then tread 0 w.m.ringFn i else 0
  let v := tread 0 w.m.hifVec (fn * 128 + i)
  if v.getLsbD 7 then
    onM (fun m =>
      let k := fn * 64 + (v.setWidth 6).toNat
      { m with msgsSent := twrite 0 m.msgsSent k (tread 0 m.msgsSent k + 1) }) w
  else w

/-- One event in a notification counter; a message goes out when its outstanding count leaves 0 (R467). The flag tells
whether the event could be counted. -/
def notifyOnce (i : Nat) (w : Mach) : Mach × Bool :=
  let c := tread {} w.m.hifCtr i
  let w' := onM (fun m => { m with hifCtr := twrite {} m.hifCtr i (ackEvent c) }) w
  (if ackOut c = 0 then sendVector i w' else w', !ackFull c)

/-- Error codes (R422). -/
def ecCeThresh : Nat := 0x0001
def ecUeRead : Nat := 0x0002
def ecUeScrub : Nat := 0x0003
def ecRollback : Nat := 0x0004
def ecSessRegen : Nat := 0x0005
def ecImageReload : Nat := 0x0006
def ecLinkRetry : Nat := 0x0007
def ecLinkFault : Nat := 0x0008
def ecColumnFail : Nat := 0x0009
def ecUnitState : Nat := 0x000A
def ecDoubleFault : Nat := 0x000B
def ecTallyFault : Nat := 0x000C
def ecDieWedged : Nat := 0x000D
def ecParity : Nat := 0x000E
def ecAckSaturated : Nat := 0x000F

/-- What an error record tells beside its stamp (R422). -/
structure ErrInfo where
  unit    : Nat := 0
  addr    : Nat := 0
  cmd     : Nat := 0
  step    : W64 := 0
  sid     : Nat := 0
  attempt : Nat := 0

/-- Write one error record, count it, and notify the host (R422): the keeper makes the stamp. -/
def errorRecord (code : Nat) (x : ErrInfo) (w : Mach) : Mach :=
  let st := nextStamp unitKeeper w
  let r : ErrRec :=
    { tick := st.tick, source := sourceOf unitKeeper, seq := BitVec.ofNat 16 st.seq, code := BitVec.ofNat 16 code,
      unit := BitVec.ofNat 16 x.unit, addr := BitVec.ofNat 64 x.addr, epoch := BitVec.ofNat 32 w.m.epoch,
      cmd := BitVec.ofNat 32 x.cmd, step := x.step, sid := BitVec.ofNat 20 x.sid,
      attempt := BitVec.ofNat 8 x.attempt }
  let w := takeStamp unitKeeper <| onM (fun m =>
    { m with elog := tput m.elog m.errNext r, errNext := (m.errNext + 1) % 4096, errCount := ackEvent m.errCount }) w
  (notifyOnce 96 w).1

/-- An event of an ACK field was left uncounted: ACK_SATURATED with the field's place (R10). -/
def saturated (place : Nat) (w : Mach) : Mach := errorRecord ecAckSaturated { addr := place } w

/-- One event in the notification counter of a ring or of the alerts (R466). A count that it cannot hold is reported with the
place that the field has in the physical function's BAR0, even for a ring that a VF owns (DESIGN CHOICE: R10 does not say
which of the two places the record names; log 123). -/
def notify (i : Nat) (w : Mach) : Mach :=
  let (w, ok) := notifyOnce i w
  let place := if i < 32 then 4 * i else if i < 96 then 0x80 + 4 * (i - 32) else 0x180 + 4 * (i - 96)
  if ok then w else saturated (0x7000 + place) w

/-- Alert codes (R468). -/
def alBeatFloor : Nat := 0x01
def alTallyFault : Nat := 0x02
def alJournal : Nat := 0x03
def alHoldupLow : Nat := 0x04
def alNandWear : Nat := 0x05
def alKeepLost : Nat := 0x06
def alChannelFailing : Nat := 0x07
def alSessOverflow : Nat := 0x08
def alTwinDegraded : Nat := 0x09
def alTwinDiverged : Nat := 0x0A
def alTwinSilent : Nat := 0x0B

/-- A keeper alert (R245, R468): its record, NALERT, and vector 7 pending on every VP. -/
def alert (code unit arg : Nat) (w : Mach) : Mach :=
  notify 97 <| onM (fun m =>
    { m with
      alerts := tput m.alerts (m.alertNo % 256)
        { tick := m.tick, code := BitVec.ofNat 16 code, unit := BitVec.ofNat 16 unit, arg := BitVec.ofNat 32 arg },
      alertNo := m.alertNo + 1,
      vps := iterate 32 (fun i vs => twrite {} vs i { tread {} vs i with alert := true }) m.vps }) w

/-! ### Violations (R241 to R244) -/

/-- A violation record precedes another in the merge order: epoch, tick, source, sequence (R25, R29). -/
def violBefore (a b : ViolRec) : Bool :=
  decide (a.epoch.toNat < b.epoch.toNat) || a.epoch == b.epoch && (decide (a.tick < b.tick) || a.tick == b.tick &&
    (decide (a.source.toNat < b.source.toNat) || a.source == b.source && decide (a.seq.toNat < b.seq.toNat)))

/-- A record enters the log at slot `i`, or, past at most `n` records that it precedes, further down: those move up by one
(R29, R242). -/
def mergeViol (n i : Nat) (r : ViolRec) (log : Table ViolRec) : Table ViolRec :=
  match n with
  | 0 => tput log i r
  | n + 1 =>
    match tget log ((i + 4095) % 4096) with
    | some q => if violBefore r q then mergeViol n ((i + 4095) % 4096) r (tput log i q) else tput log i r
    | none => tput log i r

/-- Write one violation record in its place by the merge order (R242) and count it (R244). -/
def violation (unit : Nat) (code : Nat) (priv write : Bool) (addr : Nat) (detail : W32) (w : Mach) : Mach :=
  let st := nextStamp unit w
  let r : ViolRec :=
    { tick := st.tick, source := sourceOf unit, seq := BitVec.ofNat 16 st.seq, code := BitVec.ofNat 16 code,
      priv := priv, write := write, addr := BitVec.ofNat 64 addr, detail := detail,
      epoch := BitVec.ofNat 32 w.m.epoch }
  let full := ackFull w.m.violCount
  let w := takeStamp unit <| onM (fun m =>
    { m with vlog := mergeViol 4095 m.violNext r m.vlog, violNext := (m.violNext + 1) % 4096,
             violCount := ackEvent m.violCount }) w
  if full then saturated 0x1030 w else w

/-- Violation codes of R243. -/
def vcProtRead : Nat := 0x0001
def vcProtWrite : Nat := 0x0002
def vcPrivReg : Nat := 0x0003
def vcAccessCode : Nat := 0x0004
def vcRegUnassigned : Nat := 0x0005
def vcUndefinedOp : Nat := 0x0006
def vcChainIllegal : Nat := 0x0007
def vcGroupMode : Nat := 0x0008
def vcLockNotHeld : Nat := 0x0009
def vcTileOwner : Nat := 0x000A
def vcAtomicAlign : Nat := 0x000B
def vcEretPriv : Nat := 0x000C
def vcEretEmpty : Nat := 0x000D
def vcSpillAddr : Nat := 0x000E
def vcSignalTarget : Nat := 0x000F
def vcKeeperPriv : Nat := 0x0010
def vcStaleUnit : Nat := 0x0011
def vcHostAccess : Nat := 0x0012
def vcTwinAccess : Nat := 0x0013

/-- A violation by a thread: the stamp is the VP's, the privilege the thread's (R242). -/
def violThread (t : Tid) (code : Nat) (write : Bool) (addr : Nat) (word : W32) (w : Mach) : Mach :=
  violation (unitVp t.vp.toNat) code (thr w t).priv write addr word w

/-! ### Event counts (R490 to R497) -/

/-- One event of the list of R490 with what it adds, in the global counters of its die (R496). -/
def countGlobal (ev n : Nat) (g : Tag) (w : Mach) : Mach :=
  let c := tread {} w.m.cnt g.die
  if c.run then
    let es := c.entries.map fun (k, e) =>
      let sel := e.sel.toNat
      let hit := bit sel 31 && (bits sel 0 8 == ev) && (!bit sel 14 || bits sel 8 6 == g.cls)
        && ((e.mat ^^^ g.lopid) &&& e.mask == 0)
      (k, if hit then { e with val := e.val + BitVec.ofNat 64 n } else e)
    onM (fun m => { m with cnt := twrite {} m.cnt g.die { c with entries := es } }) w
  else w

/-- One event in a thread's user counters: only at user level (R494). -/
def countUser (ev n : Nat) (th : Thread) : Thread :=
  if th.priv || n == 0 then th
  else iterate 4 (fun i th =>
    if bits th.ucsel.toNat (8 * i) 8 = ev then
      { th with ucnt := twrite 0 th.ucnt i (tread 0 th.ucnt i + BitVec.ofNat 64 n) }
    else th) th

/-- The tag that a thread's events carry (R493). -/
def tagOf (w : Mach) (t : Tid) : Tag := ⟨dieOfVp t.vp.toNat, (thr w t).cls, (thr w t).lopid⟩

/-- One event of a thread, in its user counters and in its die's global counters (R490). -/
def countThread (t : Tid) (ev n : Nat) (w : Mach) : Mach :=
  let g := tagOf w t
  let w := updThr t (countUser ev n) w
  if ev = 0 then w else countGlobal ev n g w

/-! ### Budget gates (R35 to R43) -/

/-- The row number of a resource among the grant registers (R36). -/
def resNum : Res → Nat
  | .hbm => 0 | .tier => 1 | .brab => 2 | .brk => 3 | .pcieIn => 4
  | .pcieOut => 5 | .nrxOut => 6 | .nrxIn => 7 | .field => 8 | .energy => 9

/-- How many instances a resource has (R35). -/
def resInstances : Res → Nat
  | .hbm => 64 | .tier => 10 | .brab => 2 | .brk => 4 | _ => 1

/-- The most that all grants together may reach (R35). -/
def resLimit : Res → Nat
  | .hbm => 64512 | .tier => 6553 | .brab => 262144 | .brk => 32768 | .pcieIn => 458752
  | .pcieOut => 458752 | .nrxOut => 786432 | .nrxIn => 786432 | .field => 6553 | .energy => 1572

/-- The resource with a row number. -/
def allRes : List Res := [.hbm, .tier, .brab, .brk, .pcieIn, .pcieOut, .nrxOut, .nrxIn, .field, .energy]

/-- The key of a class's balances at a gate instance. -/
def gateKey (r : Res) (inst cls : Nat) : Nat := (resNum r * 64 + inst) * 64 + cls

/-- The active grants of a class (R36). -/
def grantOf (w : Mach) (cls : Nat) : Grant := tread {} w.m.active cls

/-- A PCIe capacity or grant as the link's rate and width leave it (R446): half at Gen5, a quarter at Gen4, and half
again at x8, each rounded down. -/
def pcieShare (w : Mach) (n : Nat) : Nat :=
  let g := match w.m.h.linkGen with | 5 => n / 2 | 4 => n / 4 | _ => n
  if w.m.h.linkWidth = 8 then g / 2 else g

/-- A class's grant per period in the gate's own units: near memory in sectors, 41 to the beat (R300); the link's
halved on eight lanes (R424); PCIe's by its link (R446); energy in 1/256 mJ, the window's millijoules over 256 periods (R40), halved for every class but 0 after a window above
2,000 W (R513). -/
def gateGrant (w : Mach) (r : Res) (cls : Nat) : Nat :=
  let n := tread 0 (grantOf w cls).amounts (resNum r)
  match r with
  | .tier => 41 * n
  | .nrxOut => if w.m.twin.link.lanes8 then n / 2 else n
  | .nrxIn => if w.m.twin.link.lanes8 then n / 2 else n
  | .pcieIn => pcieShare w n
  | .pcieOut => pcieShare w n
  | .energy => if w.m.power.halved && cls != 0 then n / 2 else n
  | _ => n

/-- A class's balances at a gate instance. -/
def balOf (w : Mach) (r : Res) (inst cls : Nat) : Bal := tread {} w.m.gates (gateKey r inst cls)

/-- The admissible amount that surplus is measured against (R41): the unit's rate for the clockless resources, never
below 6,553 beats, the field's that of the slower die (log 89); the limit of R35 for the rest, halved with the link's lanes (R424); energy for a window of 256 periods in 1/256 mJ. -/
def surplusLimit (w : Mach) (r : Res) (inst : Nat) : Nat :=
  match r with
  | .tier => 41 * max 6553 (if inst < 5 then w.m.beatA else w.m.beatB)
  | .field => max 6553 (min w.m.beatA w.m.beatB)
  | .energy => 1572 * 256
  | .pcieIn => pcieShare w (resLimit .pcieIn)
  | .pcieOut => pcieShare w (resLimit .pcieOut)
  | .nrxOut => if w.m.twin.link.lanes8 then resLimit .nrxOut / 2 else resLimit .nrxOut
  | .nrxIn => if w.m.twin.link.lanes8 then resLimit .nrxIn / 2 else resLimit .nrxIn
  | r => resLimit r

/-- What an instance has served in the current period; energy in the current window. -/
def servedOf (w : Mach) (r : Res) (inst : Nat) : Nat := tread 0 w.m.served (resNum r * 64 + inst)

/-- Two requests wait at one gate. -/
def sameGate (a b : GateReq) : Bool := a.res == b.res && a.inst == b.inst

/-- A class's balance at a gate is positive (R39). -/
def positive (w : Mach) (q : GateReq) : Bool :=
  let b := balOf w q.res q.inst q.cls
  decide (0 < b.carry + b.current)

/-- What the operations at the heads of their field queues wait for (R41, R104; log 103). -/
def fieldWaits (w : Mach) : List GateReq :=
  w.m.fqueues.flatMap fun q =>
    (q.2.entries.filter fun e => !e.stopped && bits e.desc 96 32 == q.2.step.toNat % 2 ^ 32).flatMap (·.asks)

/-- What classes with a positive balance, other than that of `q`, wait for at its gate, held ones included (R41). -/
def reserved (w : Mach) (q : GateReq) : Nat :=
  (((w.m.gateQ ++ fieldWaits w).filter fun x => sameGate x q && x.cls != q.cls && positive w x).map (·.cost)).sum

/-- Surplus is left for a class at a gate (R41); none of energy while grants are halved (R513). -/
def surplusLeft (w : Mach) (q : GateReq) : Bool :=
  (grantOf w q.cls).surplus && !(q.res == .energy && w.m.power.halved)
    && decide (servedOf w q.res q.inst + reserved w q < surplusLimit w q.res q.inst)

/-- A request may be admitted (R39, R41): its class is not held, and has a positive balance or surplus is left. -/
def admissible (w : Mach) (q : GateReq) : Bool :=
  !(grantOf w q.cls).hold && (positive w q || surplusLeft w q)

/-- Charge a request: the whole cost at once, from CARRY first and then from CURRENT (R39). The tally has what a class takes
without a balance on both sides: as surplus taken, and as the debt it makes (R41, R47; log 112). -/
def chargeGate (q : GateReq) (w : Mach) : Mach :=
  let b := balOf w q.res q.inst q.cls
  let fromCarry : Int := min (max b.carry 0) q.cost
  let b' : Bal := { carry := b.carry - fromCarry, current := b.current - (q.cost - fromCarry) }
  let key := gateKey q.res q.inst q.cls
  let l := tread {} w.m.ledger key
  let extra : Int := if 0 < b.carry + b.current then 0 else q.cost
  onM (fun m =>
    { m with gates := twrite {} m.gates key b',
             ledger := twrite {} m.ledger key { l with taken := l.taken + extra, spent := l.spent + q.cost + extra },
             served := twrite 0 m.served (resNum q.res * 64 + q.inst)
               (tread 0 m.served (resNum q.res * 64 + q.inst) + q.cost) }) w

/-- What the events of whoever asks carry (R491, R493): the thread's own; the LOPID of the entry a mover or the field runs
for its thread; nothing where no thread asks. -/
def askerTag (w : Mach) (cls : Nat) : Asker → Tag
  | .thread k => tagOf w (tidOf k)
  | .mover n => ⟨n / 32, cls, match (tread {} w.m.hw.movers n).run with | some r => r.entry.lopid | none => 0⟩
  | .field => match w.m.fieldRun with | some r => ⟨r.entry.thr / 128, cls, r.entry.lopid⟩ | none => { cls := cls }
  | .keeper _ => { cls := cls }

/-- The granules of some runs of one direction. -/
def granules (write : Bool) (rs : List ChRun) : Nat := ((rs.filter fun r => r.write == write).map (·.gran)).sum

/-- A run finds room in the engine's queues (R321): a read queue of 32 runs, a write queue of 256 granules. -/
def runFits (c : Channel) (r : ChRun) : Bool :=
  if r.write then decide (granules true c.queue + r.gran ≤ 256)
  else decide ((c.queue.filter fun x => !x.write).length < 32)

/-- The runs that a channel holds enter its queues while there is room, each direction's in order of arrival (R321). -/
def takeHeld (c : Channel) : Channel :=
  c.held.foldl (fun c r =>
    if runFits c r && !(c.held.any fun x => x.write == r.write) then { c with queue := c.queue ++ [r] }
    else { c with held := c.held ++ [r] }) { c with held := [] }

/-- A run comes to a channel (R321): one that was idle until now begins at the present slot, two to the tick (R322). -/
def arriveRun (tick : Nat) (r : ChRun) (c : Channel) : Channel :=
  let idle := c.queue.isEmpty && c.held.isEmpty && decide (c.slot < 2 * tick)
  let c := if idle then { c with slot := 2 * tick, last := 0 } else c
  takeHeld { c with held := c.held ++ [r] }

/-- A frame of a channel may go out (R426, R427): the replay buffer holds 256, and the control channel has 16 buffers. -/
def frameRoom (l : Link) (vc : Nat) : Bool :=
  decide (l.unacked.length < 256) && (vc != 0 || decide (tread 0 l.credits 0 < 16))

/-- A frame goes out or waits behind those of its channel that wait (R426, R427): it takes the next FSEQ, holds a credit of its
channel, and stands in the replay buffer. -/
def sendOne (l : Link) (vc : Nat) : Link :=
  if frameRoom l vc && !l.waiting.contains vc then
    { l with txSeq := (l.txSeq + 1) % 2 ^ 32, credits := twrite 0 l.credits vc (tread 0 l.credits vc + 1),
             unacked := l.unacked ++ [(l.txSeq, vc)] }
  else { l with waiting := l.waiting ++ [vc] }

/-- Frames that wait go out as far as there is room, each channel in its order. -/
def flushFrames (l : Link) : Link := l.waiting.foldl sendOne { l with waiting := [] }

/-- What an admission lets go happens (R42): a run comes to its channel, or frames go out (R323, R426). -/
def letGo (a : GateAct) (w : Mach) : Mach :=
  match a with
  | .run ch r =>
    onHw (fun h => { h with channels := twrite {} h.channels ch (arriveRun w.m.tick r (tread {} h.channels ch)) }) w
  | .frames vc n =>
    onTwin (fun t => { t with link := iterate n (fun _ l => sendOne l vc) t.link }) w

/-- Admit a request and charge it, and let go what waits for it; an admission from surplus is an event at the gate's die, or
at the asker's where the gate belongs to no die (R41, R42, R490). -/
def admitGate (g : Tag) (q : GateReq) (w : Mach) : Mach :=
  let die := match q.res with
    | .hbm => q.inst / 32
    | .tier => q.inst / 5
    | .brab => q.inst
    | _ => g.die
  let w := chargeGate q (if positive w q then w else countGlobal 0x21 1 { g with die := die } w)
  match q.act with
  | some a => letGo a w
  | none => w

/-- Two requests wait in one line (R42): the same class at the same gate. -/
def sameLine (a b : GateReq) : Bool := sameGate a b && a.cls == b.cls

/-- A request that arrives is admitted at once: nothing of its class waits at the gate, and surplus that others wait for
in their round is not taken from them (R41, R42). -/
def admittedNow (w : Mach) (q : GateReq) : Bool :=
  admissible w q && !(w.m.gateQ.any (sameLine q))
    && (positive w q || !(w.m.gateQ.any fun x => sameGate x q && admissible w x))

/-- Change the count of gate waits of whoever asked. -/
def noteWait (who : Asker) (f : Nat → Nat) (w : Mach) : Mach :=
  match who with
  | .thread k => updThr (tidOf k) (fun th => { th with gateWaits := f th.gateWaits }) w
  | _ => w

/-- Ask at a gate: admitted and charged at once, or set waiting behind the requests of its class (R42). An admission from
surplus on arrival leaves the gate's round where it stands (DESIGN CHOICE; log 89). -/
def askGate (q : GateReq) (w : Mach) : Mach :=
  if admittedNow w q then admitGate (askerTag w q.cls q.who) q w
  else noteWait q.who (· + 1) (onM (fun m => { m with gateQ := m.gateQ ++ [q] }) w)

/-- A request of someone's; those of whoever's work is being priced are collected until it is known what they are. -/
def request (q : GateReq) (w : Mach) : Mach :=
  if q.cost = 0 then w
  else if w.asking = some q.who then { w with asked := w.asked ++ [q] }
  else askGate q w

/-- A work and its requests (R42): `paid` tells that they were made before and have been admitted, so that it is done,
asking for nothing more. Otherwise it is done at once when every gate admits it, and else only the requests are made. -/
def payFor (who : Asker) (paid : Bool) (settle mark : Mach → Mach) (f : Mach → Mach) (w : Mach) : Mach :=
  let w1 := f { w with asking := some who, asked := [] }
  let qs := w1.asked
  let w1 := { w1 with asking := none, asked := [] }
  if paid then settle w1
  else
    let w2 := qs.foldl (fun w q => askGate q w) w1
    if w2.m.gateQ.length = w1.m.gateQ.length then w2 else mark (qs.foldl (fun w q => askGate q w) w)

/-- What a thread does under `key` and asks the gates for (R42, R44): until they admit it the thread waits. -/
def paying (t : Tid) (key : Nat) (f : Mach → Mach) (w : Mach) : Mach :=
  payFor (.thread (tkey t)) ((thr w t).paid.contains key)
    (updThr t fun th => { th with paid := th.paid.filter (· != key) })
    (updThr t fun th => { th with paid := key :: th.paid }) f w

/-- Whether someone's request still waits at a gate. -/
def waitsAtGate (w : Mach) (who : Asker) : Bool := w.m.gateQ.any fun q => q.who == who

/-- The keeper's work number `k`, and what it asks the gates for (R42): until they admit it, it is not done. -/
def keeperPays (k : Nat) (f : Mach → Mach) (w : Mach) : Mach :=
  if waitsAtGate w (.keeper k) then w
  else payFor (.keeper k) (w.m.kpaid.contains k) (onM fun m => { m with kpaid := m.kpaid.filter (· != k) })
    (onM fun m => { m with kpaid := k :: m.kpaid }) f w

/-- The keeper, for the work that is being priced, if one is. -/
def keeperNow (w : Mach) : Asker := match w.asking with | some (.keeper k) => .keeper k | _ => .keeper 0

/-- One energy unit, 1/256 mJ, in hundredths of a nanojoule (R44). -/
def energyUnit : Nat := 390625

/-- Energy of what the keeper moves; parts of a unit wait in a residue of its own (R44; log 102). -/
def keeperEnergy (cls e : Nat) (w : Mach) : Mach :=
  if e = 0 then w else
  let r := tread 0 w.m.hw.residues 3 + e
  request ⟨.energy, 0, cls, r / energyUnit, keeperNow w, none⟩
    (onHw (fun h => { h with residues := twrite 0 h.residues 3 (r % energyUnit) }) w)

/-- The instance of a die's keeper bridge in one direction (R35; log 102). -/
def brkOf (die : Nat) (fromDie : Bool) : Nat := 2 * die + fromDie.toNat

/-- The keeper moves bytes over a die's bridge: flits of 64 bytes, 0.60 nJ each (R35, R44). -/
def keeperFlits (die cls n : Nat) (fromDie : Bool) (w : Mach) : Mach :=
  keeperEnergy cls (60 * ceilDiv n 64) (request ⟨.brk, brkOf die fromDie, cls, ceilDiv n 64, keeperNow w, none⟩ w)

/-- Charge a thread's energy: parts of a unit accumulate in its residue (R44). -/
def threadEnergy (t : Tid) (e : Nat) (w : Mach) : Mach :=
  let th := thr w t
  let r := th.residue + e
  request ⟨.energy, 0, th.cls, r / energyUnit, .thread (tkey t), none⟩
    (setThr t { th with residue := r % energyUnit } w)

/-! ### Registers of a thread -/

/-- A creation stamp precedes another of the same vector processor (R28, R224). -/
def stampBefore (a b : Stamp) : Bool := decide (a.tick < b.tick) || a.tick == b.tick && decide (a.seq < b.seq)

/-- The slot of the group that issues: the oldest ready one (R227). -/
def issuer (th : Thread) : Option Nat :=
  (th.groups.foldl (fun (best : Option (Nat × Stamp)) (e : Nat × Group) =>
    if e.2.wait = .ready then
      match best with
      | some (_, st) => if stampBefore e.2.stamp st then some (e.1, e.2.stamp) else best
      | none => some (e.1, e.2.stamp)
    else best) none).map (·.1)

/-- The group that issues, in group mode. -/
def curGroup (th : Thread) : Option (Nat × Group) :=
  if th.gm then (th.acting <|> issuer th).bind fun k => (tget th.groups k).map fun g => (k, g) else none

/-- Read a g register (R146): g0 is zero; in group mode the group's scalar file (R225). -/
def getG (th : Thread) (r : Reg) : W64 :=
  if r = 0 then 0
  else match curGroup th with
    | some (_, g) => tread 0 g.g r.toNat
    | none => tread 0 th.g r.toNat

/-- Write a g register: g0 ignores writes (R146). -/
def putG (r : Reg) (v : W64) (th : Thread) : Thread :=
  if r = 0 then th
  else match curGroup th with
    | some (k, g) => { th with groups := tput th.groups k { g with g := twrite 0 g.g r.toNat v } }
    | none => { th with g := twrite 0 th.g r.toNat v }

/-- Write a g register of a thread. -/
def setG (t : Tid) (r : Reg) (v : W64) (w : Mach) : Mach := updThr t (putG r v) w

/-- Read a vector register. -/
def getV (th : Thread) (r : Reg) : VReg := tread 0 th.v r.toNat

/-- Write a vector register. -/
def putV (r : Reg) (v : VReg) (th : Thread) : Thread := { th with v := twrite 0 th.v r.toNat v }

/-- Read a predicate. -/
def getP (th : Thread) (p : BitVec 3) : PReg := tread 0 th.p p.toNat

/-- Write a predicate. -/
def putP (p : BitVec 3) (v : PReg) (th : Thread) : Thread := { th with p := twrite 0 th.p p.toNat v }

/-- fN as binary64 bits, or as binary32 bits in the low half (R147). -/
def getF (th : Thread) (r : Reg) : W64 := (getV th r).setWidth 64

/-- A scalar write to fN: bits [63:0] of vN only; a binary32 value clears [63:32] (R147). -/
def putF (r : Reg) (v : W64) (th : Thread) : Thread :=
  let old := getV th r
  putV r ((old >>> 64) <<< 64 ||| v.setWidth 65536) th

/-- The program counter of what issues: the group's in group mode (R224). -/
def pcOf (th : Thread) : Addr :=
  match curGroup th with
  | some (_, g) => g.pc
  | none => th.pc

/-- Set the program counter of what issues. -/
def setPc (a : Addr) (th : Thread) : Thread :=
  match curGroup th with
  | some (k, g) => { th with groups := tput th.groups k { g with pc := a } }
  | none => { th with pc := a }

/-- A group of the thread waits for a keeper service: the thread waits with it (R268). -/
def heldByService (th : Thread) : Bool :=
  th.groups.any fun e => match e.2.wait with | .on (.service _ _ _) => true | _ => false

/-- The thread can issue in its slot (R143): bound, not parked or waiting, no entry to make, not stopped, its
invocation below its limit (R344); in group
mode some group is ready (R227). -/
def canIssue (th : Thread) : Bool :=
  (match th.binding with
   | .plan _ _ => true
   | .inv _ _ => true
   | _ => false)
  && th.park == .none && th.gateWaits == 0 && th.cause == none && !th.stopped
  && (th.costLimit == 0 || th.priv || decide (th.costSum < th.costLimit))
  && (!th.gm || (issuer th).isSome && !heldByService th)

/-- Run a command's effect for one group of a thread: the one whose wait it ends, or whose instruction it is (R227). -/
def asGroup (t : Tid) (k : Option Nat) (f : Mach → Mach) (w : Mach) : Mach :=
  updThr t (fun th => { th with acting := none }) (f (updThr t (fun th => { th with acting := k }) w))

/-- Run an instruction's effect; in group mode it stays that of the group that issues it, whatever other groups its drains
make ready (R227). -/
def asIssuer (t : Tid) (f : Mach → Mach) (w : Mach) : Mach :=
  match curGroup (thr w t) with
  | some (k, _) => asGroup t (some k) f w
  | none => f w

/-! ### The physical address map (R275) -/

/-- A region of the physical map (R275). -/
inductive Region where
  | near (tier off : Nat)
  | hbm (stack off : Nat)
  | host (iova : Nat)
  | control (off : Nat)
  | keeper (off : Nat)
  | nowhere
  deriving DecidableEq, Repr

/-- The channels of a stack that are not in service (R418). -/
def lostChannels (w : Mach) (stack : Nat) : Nat :=
  (w.m.units.filter fun (u, r) => u / 0x1000 == 5 && u % 0x1000 / 32 == stack && r.state != .inService).length

/-- The bytes that a stack presents from its base (R418). -/
def stackBytes (w : Mach) (stack : Nat) : Nat := (32 - lostChannels w stack) * 0x48000000

/-- The region of a physical address: only the plain part of a tier, and of a stack what its channels in service hold,
have addresses (R276, R418). -/
def regionOf (w : Mach) (a : Nat) : Region :=
  if a < 0x780000000 then
    let t := a / 0xC0000000
    let o := a % 0xC0000000
    if o < plainBytes w t then .near t o else .nowhere
  else if 0x010000000000 ≤ a ∧ a < 0x019000000000 then
    let o := a - 0x010000000000
    if o % 0x900000000 < stackBytes w (o / 0x900000000) then .hbm (o / 0x900000000) (o % 0x900000000) else .nowhere
  else if 0x800000000000 ≤ a ∧ a < 0xC00000000000 then .host (a - 0x800000000000)
  else if 0xFF0000000000 ≤ a ∧ a < 0xFF8000000000 then .control (a - 0xFF0000000000)
  else if 0xFF8000000000 ≤ a ∧ a < 0x1000000000000 then .keeper (a - 0xFF8000000000)
  else .nowhere

/-- The physical bank that serves a bank of a tier (R417). -/
def servingBank (w : Mach) (tier bank : Nat) : Nat := (tget w.m.hw.spares (tier * 64 + bank)).getD bank

/-- The fenced unit, whose port passes no traffic (R413), that an address in near memory or HBM lies on, by its index: its die,
or its tier bank. A fenced channel has no addresses (R418). -/
def fencedDie (w : Mach) (a : Nat) : Option Nat :=
  match regionOf w a with
  | .near t o =>
    let bank := t * 64 + servingBank w t (o / 0x4000000)
    if fenced w (t / 5) then some (t / 5) else if fenced w (0x4000 + bank) then some bank else none
  | .hbm s _ => if fenced w (s / 8) then some (s / 8) else none
  | _ => none

/-- The address is in near memory or HBM of a fenced unit (R413). -/
def fencedAddr (w : Mach) (a : Nat) : Bool := (fencedDie w a).isSome

/-- The address is in near memory or HBM that answers: what programs, tables, frames and gates may use. -/
def isDevice (w : Mach) (a : Nat) : Bool :=
  match regionOf w a with
  | .near _ _ => !fencedAddr w a
  | .hbm _ _ => !fencedAddr w a
  | _ => false

/-! ### The vector table (R245 to R247) -/

/-- Bytes of device memory read without translation: elsewhere they read as zero. -/
def physNum (w : Mach) (a n : Nat) : Nat :=
  if isDevice w a && isDevice w (a + n - 1) then readNum w a n else 0

/-- One vector table entry (R246). -/
structure VecEntry where
  handler : Addr
  level   : Nat
  thread  : Nat
  en      : Bool
  window  : BitVec 12

/-- The physical address of a vector's entry (R245). -/
def vecAddr (w : Mach) (vp v : Nat) : Nat := (vpOf w vp).vecbase.toNat / 1024 * 1024 + 16 * v

/-- The entry of a vector, read at VECBASE without translation (R245). -/
def vecEntry (w : Mach) (vp v : Nat) : VecEntry :=
  let a := vecAddr w vp v
  let e := physNum w a 8
  { handler := BitVec.ofNat 48 (bits e 2 46 * 4), level := bits e 48 5, thread := bits e 53 3, en := bit e 56,
    window := BitVec.ofNat 12 (physNum w (a + 8) 8) }

/-- A line is pending for a thread (R247). -/
def linePending (w : Mach) (t : Tid) (n : Nat) : Bool :=
  let e := vecEntry w t.vp.toNat (16 + n)
  ackOut (tread {} (vpOf w t.vp.toNat).xcnt n) != 0 && e.en && e.thread == t.th.toNat

/-- The keeper alert is pending for the thread that entry 7 names (R245). -/
def alertPending (w : Mach) (t : Tid) : Bool :=
  (vpOf w t.vp.toNat).alert && (vecEntry w t.vp.toNat 7).thread == t.th.toNat

/-- The pending interrupts of a thread that their entries enable: level and vector. -/
def pendingVectors (w : Mach) (t : Tid) : List (Nat × Nat) :=
  let th := thr w t
  let vp := t.vp.toNat
  let own (v : Nat) (p : Bool) : List (Nat × Nat) :=
    let e := vecEntry w vp v
    if p && e.en && decide (1 ≤ e.level ∧ e.level ≤ 16) then [(e.level, v)] else []
  (if alertPending w t then [(17, 7)] else []) ++ own 4 th.timer0 ++ own 5 th.timer1
    ++ own 6 (ackOut th.sig != 0) ++ (List.range 48).flatMap fun n => own (16 + n) (linePending w t n)

/-- An interrupt of a level is not masked and its level is above the running level (R248, R258 to R260). -/
def unmasked (v : Vp) (th : Thread) (level : Nat) : Bool :=
  decide (th.rlvl.toNat < level) && (level == 17 || (if v.imode then th.wleft == 0 else th.ie))

/-- The highest level first, then the lowest vector number. -/
def bestVector (es : List (Nat × Nat)) : Option (Nat × Nat) :=
  es.foldl (fun b e =>
    match b with
    | some x => if x.1 < e.1 ∨ (x.1 = e.1 ∧ e.2 < x.2) then some e else b
    | none => some e) none

/-- An interrupt that the thread would take stands before its next instruction (R248). -/
def interruptDue (w : Mach) (t : Tid) : Bool :=
  (bestVector ((pendingVectors w t).filter fun e => unmasked (vpOf w t.vp.toNat) (thr w t) e.1)).isSome

/-! ### The issue of an instruction -/

/-- An instruction of thread `t`: its effect in a slot that the thread can use and that no interrupt takes, or its wait at the
gates before that (R44, R143, R248); otherwise the instruction stays where it is. -/
def issue (t : Tid) (f : Mach → Mach) (s : State) : Host.Outcome State Fault Refusal :=
  run (fun w =>
    if canIssue (thr w t) && !interruptDue w t then paying t (pcOf (thr w t)).toNat (asIssuer t f) w else w) s

/-! ### Joins of groups (R230) -/

/-- Lanes leave every pending mask; a waiting subgroup with none left is ready. -/
def unpend (ls : Lanes) (th : Thread) : Thread :=
  { th with groups := th.groups.map fun (k, g) =>
      match g.wait with
      | .join p =>
        let p' := p &&& ~~~ ls
        (k, { g with wait := if p' = 0 then .ready else .join p' })
      | _ => (k, g) }

/-- A group waits at the join address `a`. -/
def waitsAt (a : Addr) (e : Nat × Group) : Bool :=
  (match e.2.wait with | .join _ => true | _ => false) && e.2.pc == a

/-- The youngest of some groups. -/
def youngest (es : List (Nat × Group)) : Option (Nat × Group) :=
  es.foldl (fun b e =>
    match b with
    | some x => if stampBefore x.2.stamp e.2.stamp then some e else b
    | none => some e) none

/-- The wait of a subgroup of which some lanes stop being pending. -/
def pendingLess (ls p : Lanes) : GroupWait := if p &&& ~~~ ls = 0 then .ready else .join (p &&& ~~~ ls)

/-- All of group `g`'s lanes are pending at subgroup `u`. -/
def pendsAll (g u : Group) : Bool := match u.wait with | .join p => g.mask &&& p == g.mask | _ => false

/-- Group `k` would issue next at its program counter. At the subgroups that wait there for some of its lanes but not for
all, its lanes stop being pending; it merges into the youngest of those whose pending lanes hold all of its own (log 92). -/
def joinOne (k : Nat) (th : Thread) : Thread :=
  match tget th.groups k with
  | none => th
  | some g =>
    let groups := th.groups.map fun (j, u) =>
      match u.wait with
      | .join p => (j, if u.pc = g.pc ∧ pendsAll g u = false then { u with wait := pendingLess g.mask p } else u)
      | _ => (j, u)
    match youngest (th.groups.filter fun e => waitsAt g.pc e && pendsAll g e.2) with
    | some (j, u) =>
      let p := match u.wait with | .join p => p | _ => 0
      let u' : Group := { u with mask := u.mask ||| g.mask, wait := pendingLess g.mask p }
      { th with groups := tput (tdel groups k) j u' }
    | none => { th with groups := groups }

/-- Every ready group that stands at a join address joins, until none does (at most sixteen can). -/
def settleJoins (th : Thread) : Thread :=
  iterate 16 (fun _ th =>
    (th.groups.filter fun e => e.2.wait == .ready).foldl (fun th e =>
      match tget th.groups e.1 with
      | some g => if g.wait == .ready && th.groups.any (waitsAt g.pc) then joinOne e.1 th else th
      | none => th) th) th

/-! ### Waits (R145, R227) -/

/-- The waits of a thread under R145: its own and those of its groups, each with its group's slot. -/
def waitsOf (th : Thread) : List (Option Nat × Park) :=
  (none, th.park) :: th.groups.filterMap fun (k, g) =>
    match g.wait with
    | .on p => some (some k, p)
    | _ => none

/-- End the wait of a thread or of one of its groups. -/
def endWait (k : Option Nat) (th : Thread) : Thread :=
  match k with
  | none => { th with park := .none }
  | some k =>
    settleJoins { th with groups := th.groups.map fun (j, g) => (j, if j = k then { g with wait := .ready } else g) }

/-- Put what waits there into another wait. -/
def changeWait (k : Option Nat) (p : Park) (th : Thread) : Thread :=
  match k with
  | none => { th with park := p }
  | some k =>
    { th with groups := th.groups.map fun (j, g) => (j, if j = k then { g with wait := .on p } else g) }

/-- Park what issues: the group in group mode (R227), otherwise the thread. -/
def parkOn (p : Park) (th : Thread) : Thread :=
  match curGroup th with
  | some (k, g) => { th with groups := tput th.groups k { g with wait := .on p } }
  | none => { th with park := p }

/-- Change the parks of a thread and of its groups: one that becomes `none` ends. -/
def mapParks (f : Park → Park) (th : Thread) : Thread :=
  settleJoins { th with
    park := f th.park,
    groups := th.groups.map fun (k, g) =>
      match g.wait with
      | .on p => (k, { g with wait := match f p with | .none => .ready | q => .on q })
      | _ => (k, g) }

/-- End every park of a thread, or of its groups, that meets a test. -/
def unparkIf (f : Park → Bool) : Thread → Thread := mapParks fun p => if f p then .none else p

/-- Retire what issues and leave it waiting: its wait begins before its group could join another. -/
def parkThen (t : Tid) (p : Park) (f : Mach → Mach) (w : Mach) : Mach :=
  let k := (curGroup (thr w t)).map (·.1)
  asGroup t k f (updThr t (parkOn p) w)

/-- The number of lanes of a mask. -/
def laneCount (m : Lanes) : Nat := (List.range 1024).countP fun i => m.getLsbD i

/-! ### Barriers (R235, R236) -/

/-- Lanes that count as accounted for at barrier `id` (R235): arrived, parked at a join, a lock or another barrier, or
past the step limit. -/
def laneExcused (th : Thread) (i : Nat) : Bool :=
  th.gblim != 0 && decide (th.gblim.toNat ≤ tread 0 th.laneStep i - tread 0 th.laneBase i)

/-- The lanes in groups that meet a test. -/
def lanesWhere (th : Thread) (p : Group → Bool) : Lanes :=
  th.groups.foldl (fun m e => if p e.2 then m ||| e.2.mask else m) 0

/-- Arrived at the barrier with this identifier. -/
def arrivedAt (id : BitVec 16) (g : Group) : Bool := match g.wait with | .barrier i _ => i == id | _ => false

/-- Parked at a join, a lock or a barrier. -/
def parkedLane (g : Group) : Bool :=
  match g.wait with
  | .join _ => true
  | .holder _ _ => true
  | .lock _ _ => true
  | .barrier _ _ => true
  | _ => false

/-- The barrier releases now: some group has arrived, and every live lane is accounted for (R235). -/
def barrierReady (th : Thread) (id : BitVec 16) : Bool :=
  th.groups.any (fun e => arrivedAt id e.2) &&
  (let parked := lanesWhere th parkedLane
   (List.range 1024).all fun i => !th.live.getLsbD i || parked.getLsbD i || laneExcused th i)

/-- The oldest of some groups. -/
def oldest (es : List (Nat × Group)) : Option (Nat × Group) :=
  es.foldl (fun b e =>
    match b with
    | some x => if stampBefore e.2.stamp x.2.stamp then some e else b
    | none => some e) none

/-- Release a barrier (R236): arrived lanes repack into one group for each GBAR address, with the scalar file, the slot
and the stamp of its oldest, at the instruction that follows that one's GBAR (log 100); GSTAT records who was missing. -/
def releaseBarrier (id : BitVec 16) (th : Thread) : Thread :=
  let arrived := th.groups.filter fun e => arrivedAt id e.2
  let others := th.groups.filter fun e => !arrivedAt id e.2
  let all := arrived.foldl (fun m e => m ||| e.2.mask) (0 : Lanes)
  let groups := arrived.foldl (fun (t : Table Group) e =>
    let same := arrived.filter fun x => x.2.pc == e.2.pc
    match oldest same with
    | some (k, g) =>
      if k = e.1 then
        let next := match g.wait with | .barrier _ a => a | _ => g.pc + 4
        tput t k { g with mask := same.foldl (fun m x => m ||| x.2.mask) 0, pc := next, wait := .ready }
      else t
    | none => t) others
  let miss := laneCount (th.live &&& ~~~ all)
  { th with
    groups := groups, barinc := decide (miss ≠ 0), missing := BitVec.ofNat 11 miss,
    laneBase := th.laneStep }

/-- Release every barrier that can release, and count those with lanes missing (R490). -/
def settleBarriers (t : Tid) (w : Mach) : Mach :=
  iterate 16 (fun _ w =>
    let th := thr w t
    match th.groups.findSome? fun e =>
        match e.2.wait with
        | .barrier id _ => if barrierReady th id then some id else none
        | _ => none with
    | some id =>
      let th := settleJoins (releaseBarrier id th)
      let w := setThr t th w
      if th.barinc then countThread t 0x0B 1 w else w
    | none => w) w

/-- Waits of a thread or of its groups end, and a barrier that can release then does (R230, R235). -/
def wake (t : Tid) (f : Thread → Thread) (w : Mach) : Mach := settleBarriers t (updThr t f w)

/-! ### Retirement -/

/-- What retires: its cost in beats, its length in words, the target of a taken transfer, and its energy where it is
not 0.15 nJ a turn (R44). -/
structure Ret where
  cost   : Nat
  words  : Nat := 1
  target : Option Addr := none
  energy : Option Nat := none

/-- One level of the loop test (R149): the thread and whether it goes back to LSn. -/
def loopLevel (level : Bool) (th : Thread) : Thread × Bool :=
  let lc := if level then th.lc1 else th.lc0
  let set (v : W64) : Thread := if level then { th with lc1 := v } else { th with lc0 := v }
  if lc = 0 then (th, false) else if lc = 1 then (set 0, false) else (set (lc - 1), true)

/-- The loop test of the instruction at `pc` of `words` words that retires without a taken transfer (R149, R170, R273): where
it goes back to, if it does. Level 1 is tested first, level 0 only when level 1 falls through. -/
def loopBack (pc : Addr) (words : Nat) (th : Thread) : Thread × Option Addr :=
  let atLe (le : Addr) : Bool := le == pc || (words == 2 && le == pc + 4)
  let (th, back1) := if atLe th.le1 then loopLevel true th else (th, false)
  if back1 then (th, some th.ls1)
  else
    let (th, back0) := if atLe th.le0 then loopLevel false th else (th, false)
    (th, if back0 then some th.ls0 else none)

/-- Where a thread goes after that instruction: back, or on past its words. -/
def loopNext (pc : Addr) (words : Nat) (th : Thread) : Thread × Addr :=
  let r := loopBack pc words th
  (r.1, r.2.getD (pc + BitVec.ofNat 48 (4 * words)))

/-- The step count of every lane of a mask advances (R228). -/
def stepLanes (m : Lanes) (th : Thread) : Thread :=
  { th with laneStep := iterate 1024 (fun i ls =>
      if m.getLsbD i then twrite 0 ls i (tread 0 ls i + 1) else ls) th.laneStep }

/-- The step counter advances at user level (R32, R33), and the step count of every lane that is active in the group that
retires the instruction (R228). -/
def stepOne (th : Thread) : Thread :=
  let th1 := if th.priv then th else { th with step := th.step + 1 }
  match curGroup th with
  | some (_, g) => stepLanes g.mask th1
  | none => th1

/-- A replay's thread has reached its target step: every thread of the plan stops at its next instruction boundary
(R367). -/
def reachStop (th : Thread) (w : Mach) : Mach :=
  match th.binding with
  | .plan c _ =>
    if th.stopAt ≠ some th.step then w
    else onM (fun m => { m with
      threads := m.threads.map fun (k, x) =>
        (k, match x.binding with | .plan d _ => if d = c then { x with stopped := true } else x | _ => x)
      h := { m.h with plans := m.h.plans.map fun (k, p) =>
        (k, if k = c then { p with replay := p.replay.map fun r =>
          { r with stopped := true, reached := true, tick := m.tick } } else p) } }) w
  | _ => w

/-- The thread of an instruction that retires moves on: loop test or transfer, step counts, window turns (R260) and cost
sum. -/
def moveOn (r : Ret) (th : Thread) : Thread :=
  let p := match r.target with
    | some a => (th, (a >>> 2) <<< 2)
    | none => loopNext (pcOf th) r.words th
  let th1 := setPc p.2 (stepOne p.1)
  let turns := ceilDiv r.cost 8
  { th1 with
    wleft := if th1.wleft.toNat ≤ turns then 0 else th1.wleft - BitVec.ofNat 12 turns,
    costSum := if th.priv then th1.costSum else th1.costSum + r.cost }

/-- An instruction retires: the thread moves on, groups join and barriers release, events are counted and energy is
charged. -/
def retire (t : Tid) (r : Ret) (w : Mach) : Mach :=
  let counted := !(thr w t).priv
  let th := moveOn r (thr w t)
  let th := if th.gm then settleJoins th else th
  let w := setThr t th w
  let w := if counted then countThread t 0x02 r.cost (countThread t 0x01 1 w) else w
  let w := if th.gm then settleBarriers t w else w
  let w := if counted then reachStop th w else w
  threadEnergy t (r.energy.getD (15 * ceilDiv r.cost 8)) w

/-- The instruction retires to the next one after `turns` turns. -/
def done (t : Tid) (turns : Nat) (w : Mach) : Mach := retire t { cost := 8 * turns } w

/-- The instruction retires as a taken transfer. -/
def jump (t : Tid) (turns : Nat) (words : Nat) (a : Addr) (w : Mach) : Mach :=
  retire t { cost := 8 * turns, words := words, target := some a } w

/-- The thread has an entry to make in place of retiring (R239): in group mode at the program counter of the group that
issues (R263). -/
def raise (t : Tid) (c : Cause) (w : Mach) : Mach :=
  updThr t (fun th =>
    { th with cause := some (match curGroup th, c.pc with | some (_, g), none => { c with pc := some g.pc } | _, _ => c) }) w

/-! ### The order of atomics (R355, R356) -/

/-- The logical number of a thread of the plan with this command, if it is bound to it. -/
def logicalOf (cmd : Nat) (th : Thread) : Option Nat :=
  match th.binding with
  | .plan c k => if c = cmd then some k else none
  | _ => none

/-- The S of an ordered atomic's key (R355). -/
def atomicKey (p : Park) : Option Nat := match p with | .atomic S _ _ _ _ _ => some S | _ => none

/-- A thread's horizon (R356): its step counter, held at its own S by an atomic that waits. -/
def horizonOf (th : Thread) : Nat :=
  (waitsOf th).foldl (fun h e => match atomicKey e.2 with | some S => min h S | none => h) th.step.toNat

/-- Every other thread of the plan has a horizon above the key (S, k) (R356). -/
def horizonsPast (w : Mach) (t : Tid) (cmd S k : Nat) : Bool :=
  (List.range 256).all fun i =>
    i == tkey t ||
    (let th := thr w (tidOf i)
     match logicalOf cmd th with
     | some k' => let h := horizonOf th; decide (S < h ∨ (S = h ∧ k < k'))
     | none => true)

/-- The ordered atomic of the lowest key that a thread, or one of its groups, waits for, with its S. -/
def atomicWait (th : Thread) : Option (Option Nat × Park × Nat) :=
  (waitsOf th).foldl (fun b e =>
    match atomicKey e.2, b with
    | some S, none => some (e.1, e.2, S)
    | some S, some x => if S < x.2.2 then some (e.1, e.2, S) else b
    | none, _ => b) none

/-- A thread's ordered atomic may be applied (R356). -/
def atomicDue (w : Mach) (t : Tid) : Bool :=
  match atomicWait (thr w t), (thr w t).binding with
  | some (_, _, S), .plan cmd k => horizonsPast w t cmd S k
  | _, _ => false

end Sys2Proof.Machine
end

