-- ==== Sys2Proof/Machine/Words.lean ====
section
/-! DEFINITION. The first word of an instruction (R167, R168): what a violation record carries as DETAIL (R242). -/

namespace Sys2Proof.Machine
open Sys2Proof

/-- Form R: major, rd, ra, rb and bits [10:0]. -/
def wordR (major : BitVec 6) (rd ra rb : Reg) (low : BitVec 11) : W32 := major ++ rd ++ ra ++ rb ++ low

/-- Form I: major, rd, ra, imm16. -/
def wordI (major : BitVec 6) (rd ra : Reg) (imm : BitVec 16) : W32 := major ++ rd ++ ra ++ imm

/-- Form M: major, rd or rs, ra, width, signed byte offset. -/
def wordM (major : BitVec 6) (rd ra : Reg) (width : BitVec 3) (off : BitVec 13) : W32 :=
  major ++ rd ++ ra ++ width ++ off

/-- Form B: major, ra, rb, signed word offset. -/
def wordB (major : BitVec 6) (ra rb : Reg) (off : BitVec 16) : W32 := major ++ ra ++ rb ++ off

/-- Form S: major 0, ra, rb, n, minor. -/
def wordS (ra rb : Reg) (n : BitVec 8) (minor : BitVec 8) : W32 := (0 : BitVec 6) ++ ra ++ rb ++ n ++ minor

/-- Form V: major, vd, va, vb, PE, p, etype, minor. -/
def wordV (major : BitVec 6) (x : VF) (minor : BitVec 5) : W32 :=
  major ++ x.vd ++ x.va ++ x.vb ++ BitVec.ofBool x.pe ++ x.p ++ x.et ++ minor

/-- Form X: major 0x3E, entry, rd, ra, rb, imm5. -/
def wordX (entry : BitVec 6) (rd ra rb imm : BitVec 5) : W32 := (0x3E : BitVec 6) ++ entry ++ rd ++ ra ++ rb ++ imm

/-- The first word of form L: major 0x3C, rd, sub, imm[47:32]. -/
def wordL (rd sub : Reg) (imm : BitVec 48) : W32 :=
  (0x3C : BitVec 6) ++ rd ++ sub ++ (imm >>> 32).setWidth 16

/-- The word of VCVT (R173): source code in [15:12], RM in [6:5], destination code in [4:1], SAT in [0]. -/
def wordVcvt (vd va : Reg) (src dst : BitVec 4) (pe : Bool) (p : BitVec 3) (rm : BitVec 2) (sat : Bool) : W32 :=
  (0x29 : BitVec 6) ++ vd ++ va ++ src ++ (0 : BitVec 1) ++ BitVec.ofBool pe ++ p ++ rm ++ dst ++ BitVec.ofBool sat

end Sys2Proof.Machine
end

