-- ==== Sys2Proof/Machine/Operands.lean ====
section
/-! DEFINITION. Operand forms (R167) and the integer operations that instructions and micro-operations share
(R173, R174). -/

namespace Sys2Proof.Machine
open Sys2Proof

/-- An integer operation of major 0x01 (R173). -/
inductive IntOp where
  | add | sub | and | or | xor | shl | shr | sar | slt | sltu | min | max | minu | maxu
  | clz | ctz | popc | mul | mulh | mulhu | div | divu | rem | remu
  deriving DecidableEq, Repr

/-- Leading zeros of the low `n` bits. -/
def leadingZeros (v : Nat) : Nat → Nat
  | 0 => 0
  | n + 1 => if v.testBit n then 0 else 1 + leadingZeros v n

/-- Trailing zeros, at most `n`. -/
def trailingZeros (v : Nat) : Nat → Nat
  | 0 => 0
  | n + 1 => if v.testBit 0 then 0 else 1 + trailingZeros (v / 2) n

/-- Set bits among the low `n`. -/
def popCount (v : Nat) : Nat → Nat
  | 0 => 0
  | n + 1 => b2n (v.testBit n) + popCount v n

/-- The truth value as a doubleword. -/
def flag64 (b : Bool) : W64 := if b then 1 else 0

/-- What an integer operation writes: arithmetic wraps, and division has the fixed results of R174. -/
def intOp (op : IntOp) (a b : W64) : W64 :=
  let n := (b.setWidth 6).toNat
  match op with
  | .add => a + b
  | .sub => a - b
  | .and => a &&& b
  | .or => a ||| b
  | .xor => a ^^^ b
  | .shl => a <<< n
  | .shr => a >>> n
  | .sar => a.sshiftRight n
  | .slt => flag64 (a.slt b)
  | .sltu => flag64 (a.ult b)
  | .min => if a.slt b then a else b
  | .max => if a.slt b then b else a
  | .minu => if a.ult b then a else b
  | .maxu => if a.ult b then b else a
  | .clz => BitVec.ofNat 64 (leadingZeros a.toNat 64)
  | .ctz => BitVec.ofNat 64 (trailingZeros a.toNat 64)
  | .popc => BitVec.ofNat 64 (popCount a.toNat 64)
  | .mul => a * b
  | .mulh => BitVec.ofInt 64 (a.toInt * b.toInt / 2 ^ 64)
  | .mulhu => BitVec.ofNat 64 (a.toNat * b.toNat / 2 ^ 64)
  | .div => if b = 0 then BitVec.allOnes 64 else a.sdiv b
  | .divu => if b = 0 then BitVec.allOnes 64 else a / b
  | .rem => if b = 0 then a else a.srem b
  | .remu => if b = 0 then a else a % b

/-- The cost in turns: 8 for a division or remainder (R173). -/
def intTurns : IntOp → Nat
  | .div => 8 | .divu => 8 | .rem => 8 | .remu => 8
  | _ => 1

/-- The operation with a minor code of major 0x01. -/
def intOfMinor (n : Nat) : Option IntOp :=
  ([.add, .sub, .and, .or, .xor, .shl, .shr, .sar, .slt, .sltu, .min, .max, .minu, .maxu, .clz, .ctz, .popc,
    .mul, .mulh, .mulhu, .div, .divu, .rem, .remu] : List IntOp)[n]?

/-- The byte count and sign extension of a load width (R173): 0 to 3 signed, 4 to 6 unsigned. -/
def loadShape (width : Nat) : Option (Nat × Bool) :=
  ([(1, true), (2, true), (4, true), (8, false), (1, false), (2, false), (4, false)] : List (Nat × Bool))[width]?

/-- The loaded bytes as a doubleword. -/
def extendLoad (n : Nat) (signed : Bool) (bs : List Byte) : W64 :=
  let v := ofBytes bs
  if signed then BitVec.ofInt 64 (toSigned (8 * n) v) else BitVec.ofNat 64 v

/-- The address of form M: base plus the signed byte offset. -/
def addrM (th : Thread) (ra : Reg) (off : BitVec 13) : W64 := getG th ra + off.signExtend 64

/-- The target of form B: words from the branch itself. -/
def targetB (pc : Addr) (off : BitVec 16) : Addr := pc + (off.signExtend 48) * 4

/-- The target of form J. -/
def targetJ (pc : Addr) (off : BitVec 26) : Addr := pc + (off.signExtend 48) * 4

/-- A register's integer operation: read ra and rb, write rd, retire (R173). -/
def intRegister (t : Tid) (op : IntOp) (rd ra rb : Reg) : Mach → Mach := fun w =>
  let th := thr w t
  done t (intTurns op) (setG t rd (intOp op (getG th ra) (getG th rb)) w)

/-- An integer operation with an immediate second operand. -/
def intImmediate (t : Tid) (op : IntOp) (rd ra : Reg) (imm : W64) : Mach → Mach := fun w =>
  done t (intTurns op) (setG t rd (intOp op (getG (thr w t) ra) imm) w)

/-- An undefined word: a no-op of one turn that is logged with its program counter and the word (R169). -/
def undefinedWord (t : Tid) (word : W32) : Mach → Mach := fun w =>
  done t 1 (violThread t vcUndefinedOp false (pcOf (thr w t)).toNat word w)

end Sys2Proof.Machine
end

