-- ==== Sys2Proof/Machine/Translate.lean ====
section
/-! DEFINITION. The physical address map, table walks, look-aside buffers and the check of one access (R275 to R286). -/

namespace Sys2Proof.Machine
open Sys2Proof

/-- The die whose tier or stack holds a device address (R275, R303). -/
def dieOfAddr (w : Mach) (a : Nat) : Nat :=
  match regionOf w a with
  | .near t _ => t / 5
  | .hbm s _ => s / 8
  | _ => 0

/-- The tier that serves a device address: HBM goes through the cache tier of its line (R302, R303). -/
def tierOfAddr (w : Mach) (a : Nat) : Nat :=
  match regionOf w a with
  | .near t _ => t
  | .hbm s o => s / 8 * 5 + ((s % 8 * 0x900000000 + o) / 2048) % 5
  | _ => 0

/-- The channels of a stack in service, in ascending order (R418). -/
def liveChannels (w : Mach) (stack : Nat) : List Nat :=
  (List.range 32).filter fun c => unitState w (0x5000 + stack * 32 + c) == .inService

/-- The channel of an HBM address and its line within the channel (R318, R418); eight channels make a group (R35). -/
def channelLine (w : Mach) (a : Nat) : Nat × Nat :=
  match regionOf w a with
  | .hbm s o =>
    let l := o / 2048
    let live := liveChannels w s
    (s * 32 + live.getD (l % live.length) 0, l / live.length)
  | _ => (0, 0)


/-- The unit that stores the granules at a device address (R402): a tier bank of 64 MiB or a channel. -/
def unitStoring (w : Mach) (a : Nat) : Nat :=
  match regionOf w a with
  | .near t o => 0x4000 + t * 64 + servingBank w t (o / 0x4000000)
  | _ => 0x5000 + (channelLine w a).1

/-- What a virtual address maps to: nothing, or a physical address under bits [6:0] of a leaf (R278). -/
inductive Xlat where
  | absent
  | page (pa : Nat) (bits : BitVec 7)
  deriving DecidableEq, Repr

/-- A leaf found by a walk: the virtual base of its page, the page size, its physical base and bits [6:0]. -/
structure Leaf where
  va   : Nat
  size : Nat
  pa   : Nat
  bits : BitVec 7
  ent  : Nat
  deriving DecidableEq, Repr

/-- The address bits below a level's index (R277). -/
def levelShift (level : Nat) : Nat := 12 + 9 * level

/-- The address of the entry for `va` in the table at `base`. -/
def entryAddr (base level va : Nat) : Nat := base + 8 * (bits va (levelShift level) 9)

/-- Read one table entry; none where a walk treats it as absent (R279): its address outside near memory and HBM, V 0, or a
reserved bit set. -/
def readEntry (w : Mach) (a : Nat) : Option Nat :=
  if !isDevice w a then none
  else
    let e := readNum w a 8
    if bit e 0 && bits e 48 16 == 0 && bits e 7 5 == 0 then some e else none

/-- The walk from a level downward (R277 to R279). -/
def walkFrom (w : Mach) (va : Nat) : Nat → Nat → Option Leaf
  | 0, base =>
    let a := entryAddr base 0 va
    (readEntry w a).map fun e =>
      { va := va / 4096 * 4096, size := 4096, pa := bits e 12 36 * 4096, bits := BitVec.ofNat 7 e, ent := a }
  | level + 1, base =>
    let a := entryAddr base (level + 1) va
    match readEntry w a with
    | none => none
    | some e =>
      let pa := bits e 12 36 * 4096
      if bit e 1 then
        let size := 2 ^ levelShift (level + 1)
        if level + 1 = 3 ∨ pa % size ≠ 0 then none
        else some { va := va / size * size, size := size, pa := pa, bits := BitVec.ofNat 7 e, ent := a }
      else walkFrom w va level pa

/-- The leaf that the tables give for `va`, if any (R277). -/
def walk (w : Mach) (xlbase : W64) (va : Nat) : Option Leaf :=
  if va ≥ 2 ^ 48 then none else walkFrom w va 3 (bits xlbase.toNat 12 36 * 4096)

/-- The look-aside entry that matches an access (R282). -/
def tlbHit (tlb : List TlbEntry) (asid : BitVec 16) (va : Nat) : Option TlbEntry :=
  tlb.find? fun e => decide (e.va ≤ va ∧ va < e.va + e.size) && (e.asid == asid || e.bits.getLsbD 6)

/-- Translate: a matching look-aside entry serves, otherwise the tables do (R282, R284). -/
def translate (w : Mach) (tlb : List TlbEntry) (c : Ctx) (va : Nat) : Xlat :=
  match tlbHit tlb c.asid va with
  | some e => .page (e.pa + (va - e.va)) e.bits
  | none =>
    match walk w c.xlbase va with
    | some l => .page (l.pa + (va - l.va)) l.bits
    | none => .absent

/-- What an access needs (R280). -/
inductive Need where
  | read | write | both | exec
  deriving DecidableEq, Repr

/-- A leaf grants an access (R280): no bit implies another, W with X grants write only, user access needs U. -/
def grants (b : BitVec 7) (priv : Bool) (n : Need) : Bool :=
  let r := b.getLsbD 2
  let wr := b.getLsbD 3
  let x := b.getLsbD 4
  (priv || b.getLsbD 5) &&
  (match n with
   | .read => r && !(wr && x)
   | .write => wr
   | .both => r && wr && !x
   | .exec => x && !wr)

/-- A virtual range whose bytes lie in one small page: where it is, or nowhere it may be accessed; `stale` names the
fenced die that its address lies on (R413). -/
structure Chunk where
  va  : Nat
  len : Nat
  pa  : Option Nat
  stale : Option Nat := none
  deriving DecidableEq, Repr

/-- Cut a range at 4 KiB boundaries. -/
def cutPages : Nat → Nat → Nat → List (Nat × Nat)
  | 0, _, _ => []
  | fuel + 1, va, n =>
    if n = 0 then []
    else
      let k := min n (4096 - va % 4096)
      (va, k) :: cutPages fuel (va + k) (n - k)

/-- A kind of access that writes. -/
def Need.writes (n : Need) : Bool :=
  match n with
  | .write => true
  | .both => true
  | _ => false

/-- Two virtual ranges overlap. -/
def overlaps (a n b m : Nat) : Bool := decide (a < b + m ∧ b < a + n)

/-- Advice on a page of an address space. -/
def adviceAt (w : Mach) (asid : BitVec 16) (va len : Nat) : List Advice :=
  w.m.advice.filter fun x => x.asid == asid && overlaps x.va x.len va len

/-- A page is READ_MOSTLY: a write to it is a violation (R295). -/
def readMostlyAt (w : Mach) (asid : BitVec 16) (va len : Nat) : Bool := (adviceAt w asid va len).any (·.readMostly)

/-- Translate and check a whole range before any byte moves (R165): the address of the first absent page, or the
pieces. `ok` says which physical addresses the unit may reach (R275). -/
def pieces (w : Mach) (tlb : List TlbEntry) (c : Ctx) (n : Need) (ok : Nat → Bool) (va len : Nat) :
    Except Nat (List Chunk) :=
  (cutPages (len / 4096 + 2) va len).mapM fun (a, k) =>
    match translate w tlb c a with
    | .absent => Except.error a
    | .page pa b =>
      let may := grants b c.priv n && ok pa
        && !(n.writes && (inSessTable w pa || readMostlyAt w c.asid (a / 4096 * 4096) 4096))
      Except.ok { va := a, len := k, pa := if may then some pa else none, stale := fencedDie w pa }

/-- The translation context of a thread. -/
def ctxOf (th : Thread) : Ctx := ⟨th.xlbase, th.asid, th.priv⟩

/-- A fenced unit's own port passes none of its traffic (R413): what its accesses may reach, and the pieces of one, which tell
the unit by its index. -/
def throughPort (w : Mach) (u : Nat) (ok : Nat → Bool) (a : Nat) : Bool := !fenced w u && ok a
def markPort (w : Mach) (u : Nat) (cs : List Chunk) : List Chunk :=
  if fenced w u then cs.map fun c => { c with stale := some (u % 0x1000) } else cs

/-- Translate a range for thread `t`, in near memory and HBM. -/
def threadPieces (w : Mach) (t : Tid) (n : Need) (va len : Nat) : Except Nat (List Chunk) :=
  let u := unitVp t.vp.toNat
  (pieces w (vpOf w t.vp.toNat).tlb (ctxOf (thr w t)) n (throughPort w u (isDevice w)) va len).map (markPort w u)

/-- The piece that an access without translation is: nothing outside device memory. -/
def physPieces (w : Mach) (a n : Nat) : List Chunk :=
  [⟨a, n, if isDevice w a && isDevice w (a + n - 1) then some a else none, (fencedDie w a).or (fencedDie w (a + n - 1))⟩]

/-- The bytes that the pieces hold: a piece that is denied reads as zero (R241). -/
def readPieces (w : Mach) (cs : List Chunk) : List Byte :=
  cs.flatMap fun c =>
    match c.pa with
    | some a => readBytes w a c.len
    | none => List.replicate c.len 0

/-- One PROT_READ, PROT_WRITE or STALE_UNIT record for every piece that is denied (R241, R243, R413). -/
def logDenied (t : Tid) (write : Bool) (word : W32) (cs : List Chunk) (w : Mach) : Mach :=
  let code (c : Chunk) : Nat := if c.stale.isSome then vcStaleUnit else if write then vcProtWrite else vcProtRead
  cs.foldl (fun w c => if c.pa.isNone then violThread t (code c) write c.va word w else w) w

/-- The same for a unit that is no vector processor: a STALE_UNIT record tells the unit that is fenced (R242, R243). -/
def logUnit (unit : Nat) (write : Bool) (cs : List Chunk) (w : Mach) : Mach :=
  cs.foldl (fun w c =>
    match c.pa, c.stale with
    | some _, _ => w
    | none, some d => violation unit vcStaleUnit false write c.va (BitVec.ofNat 32 d) w
    | none, none => violation unit (if write then vcProtWrite else vcProtRead) false write c.va 0 w) w

/-! ### Traffic: directory, charges (R161, R284, R300, R302) -/

/-- A write to a line removes the other VPs' copies of it (R161). -/
def dropCopies (keep : Option Nat) (a len : Nat) (w : Mach) : Mach :=
  let lo := a / 256
  let hi := (a + len - 1) / 256
  if len = 0 then w
  else onM (fun m =>
    { m with vps := m.vps.map fun (k, v) =>
        if some k = keep then (k, v)
        else (k, { v with dcache := v.dcache.filter fun e => decide (e.1 < lo ∨ hi < e.1) }) }) w

/-- The 256-byte sectors that a range touches (R300). -/
def sectorsOf (a len : Nat) : Nat := if len = 0 then 0 else (a + len - 1) / 256 - a / 256 + 1

/-- A physical range cut at the lines of the near-memory cache. -/
def cutLines : Nat → Nat → Nat → List (Nat × Nat)
  | 0, _, _ => []
  | fuel + 1, a, n =>
    if n = 0 then []
    else
      let k := min n (2048 - a % 2048)
      (a, k) :: cutLines fuel (a + k) (n - k)

/-- The parts of a physical range that one tier serves each: a line of HBM goes through the tier of its own (R303). -/
def tierParts (w : Mach) (a len : Nat) : List (Nat × Nat) :=
  match regionOf w a with
  | .hbm _ _ => cutLines (len / 2048 + 2) a len
  | _ => [(a, len)]

/-- Charge an access at its gates: sectors at the tiers that serve it, flits when it crosses the die bridge
(R300, R302). The energy of a sector is 0.45 nJ and of a flit 0.60 nJ for what is charged so (R44). -/
def chargeAccess (who : Asker) (cls die : Nat) (g : Option Tid) (write : Bool) (a len : Nat) (w : Mach) : Mach :=
  let far := dieOfAddr w a ≠ die
  let flits := if far then ceilDiv len 64 else 0
  let dir := if write then die else dieOfAddr w a
  let w := (tierParts w a len).foldl (fun w p =>
    request ⟨.tier, tierOfAddr w p.1, cls, sectorsOf p.1 p.2, who, none⟩ w) w
  let w := request ⟨.brab, dir, cls, flits, who, none⟩ w
  match g with
  | some t => countThread t 0x18 flits (countThread t 0x15 (sectorsOf a len) w)
  | none => w

/-- A full-granule write makes a new codeword (R409): the granules that `n` bytes from `a` cover whole. -/
def renewGranules (a n : Nat) (w : Mach) : Mach :=
  if w.m.hw.bad.isEmpty then w
  else onHw (fun h => { h with bad := h.bad.filter fun e => !decide (a ≤ 32 * e.1 ∧ 32 * e.1 + 32 ≤ a + n) }) w

/-- Bytes written one by one make a new codeword of every granule that they cover whole (R409). -/
def renewCovered (as : List Nat) (w : Mach) : Mach :=
  if w.m.hw.bad.isEmpty then w
  else onHw (fun h => { h with bad := h.bad.filter fun e => !(List.range 32).all fun k => as.contains (32 * e.1 + k) }) w

/-- Write bytes to device memory for a unit: other copies leave the data caches first (R161). -/
def storeBytes (keep : Option Nat) (a : Nat) (bs : List Byte) (w : Mach) : Mach :=
  putBytes a bs (renewGranules a bs.length (dropCopies keep a bs.length w))

/-- Write bytes over the pieces of a range; denied pieces take none (R241). -/
def storePieces (keep : Option Nat) (cs : List Chunk) (bs : List Byte) (w : Mach) : Mach :=
  match cs with
  | [] => w
  | c :: r =>
    let w := match c.pa with
      | some a => storeBytes keep a (bs.take c.len) w
      | none => w
    storePieces keep r (bs.drop c.len) w

end Sys2Proof.Machine
end

