-- ==== Sys2Proof/Machine/Uses.lean ====
section
/-! DEFINITION. Tiles and their uses (R126 to R133), and what the spec leaves unspecified of data in use: writes behind a
posted operation or transfer, and outputs that no FWAIT covers (R106, R135, R308; log 91). -/

namespace Sys2Proof.Machine
open Sys2Proof

/-! ### Tiles (R126 to R133) -/

/-- The thread that TMAP names for a tile, if EN is set (R128). -/
def tileOwner (tmap : W32) (tile : Nat) : Option Nat :=
  let f := bits tmap.toNat (4 * tile) 4
  if bit f 3 then some (f % 8) else none

/-- The present generation of a tile: how often it has been released (R129). -/
def tileGen (v : Vp) (tile : Nat) : Nat := tread 0 v.gens tile

/-- The key of a row of a generation of a tile. -/
def tileKey (gen tile row : Nat) : Nat := (gen * 8 + tile) * 64 + row

/-- The generations of a tile that transfers between rows use. -/
def gensMoving (w : Mach) (vp tile : Nat) : List Nat :=
  (List.range 8).flatMap fun i =>
    (waitsOf (thr w (tidOf (vp * 8 + i)))).filterMap fun e =>
      match e.2 with
      | .tile _ false k gen _ _ _ _ => if k = tile then some gen else none
      | _ => none

/-- The generation of a tile that the admitted field operation reads on this plot, if it does (R139). -/
def gensInField (w : Mach) (vp tile : Nat) : List Nat :=
  match w.m.fieldRun with
  | some r => if r.tile = some tile ∧ r.tileOk.getLsbD vp = true then [r.gens.getD vp 0] else []
  | none => []

/-- The generations of a tile whose use has not completed. -/
def gensInUse (w : Mach) (vp tile : Nat) : List Nat := gensMoving w vp tile ++ gensInField w vp tile

/-- A use of the tile has not completed: PEND (R128). -/
def tileBusy (w : Mach) (vp tile : Nat) : Bool := !(gensInUse w vp tile).isEmpty

/-- Contents of a tile's former generations go when no use of theirs is left (R129). -/
def endTileUse (vp tile : Nat) (w : Mach) : Mach :=
  let inUse := gensInUse w vp tile
  updVp vp (fun v =>
    { v with tiles := v.tiles.filter fun e =>
        e.1 / 64 % 8 != tile || e.1 / 512 == tileGen v tile || inUse.contains (e.1 / 512) }) w

/-- Release a tile (R129, R133): FULL clears at once and nobody finds its contents any more, but for what uses them
already; its next generation is empty. A use in flight ends on the old generation, and what a TLOAD issued in between has
put in the new one is not released with it (DESIGN CHOICE; log 126). -/
def releaseTile (vp tile : Nat) (w : Mach) : Mach :=
  endTileUse vp tile (updVp vp (fun v =>
    { v with full := v.full &&& ~~~ (1#8 <<< tile), gens := twrite 0 v.gens tile (tileGen v tile + 1),
             tiles := v.tiles.filter fun e => e.1 / 64 % 8 != tile || decide (e.1 / 512 ≤ tileGen v tile) }) w)

/-- A transfer stops before row `r` (R136): TSTART holds it, and its use of the tile ends (R129). -/
def stopTile (t : Tid) (g : Option Nat) (tile r : Nat) (w : Mach) : Mach :=
  endTileUse t.vp.toNat tile (updThr t (fun th => { endWait g th with tstart := BitVec.ofNat 6 r }) w)

/-- The tile transfers of a thread stop between rows. -/
def stopTileWaits (t : Tid) (w : Mach) : Mach :=
  (waitsOf (thr w t)).foldl (fun w e =>
    match e with
    | (g, .tile _ _ k _ next _ _ _) => stopTile t g k next w
    | _ => w) w

/-! ### Writes behind what is posted (log 91) -/

/-- An operation or a transfer is posted and has not completed. -/
def watching (w : Mach) : Bool :=
  (w.m.fqueues.any fun q => !q.2.entries.isEmpty) || w.m.hw.movers.any fun e => e.2.run.isSome || !e.2.queue.isEmpty

/-- Note a write. -/
def note (n : WNote) (w : Mach) : Mach := if watching w then onM (fun m => { m with wlog := n :: m.wlog }) w else w

/-- What was noted before anything now posted is forgotten. -/
def forgetNotes (w : Mach) : Mach := if watching w then w else onM (fun m => { m with wlog := [] }) w

/-- The writes noted since a mark. -/
def notedSince (w : Mach) (mark : Nat) : List WNote := w.m.wlog.take (w.m.wlog.length - mark)

/-- Two ranges, by address and length, share a byte. -/
def spansMeet (x y : Nat × Nat) : Bool := decide (x.1 < y.1 + y.2 ∧ y.1 < x.1 + x.2)

/-- Two lists of ranges share a byte. -/
def rangesMeet (xs ys : List (Nat × Nat)) : Bool := xs.any fun x => ys.any (spansMeet x)

/-- Completed transfers that something now orders (R308; log 91). -/
def orderMoved (p : Moved → Bool) (w : Mach) : Mach :=
  onHw (fun h => { h with moved := h.moved.filter fun o => !p o }) w

/-- A thread that is bound afresh has posted nothing yet. -/
def freshMover (key : Nat) (w : Mach) : Mach :=
  orderMoved (fun o => match o.who with | .thread k _ => k == key | .cmd _ _ => false) w

/-- A range of bytes and a piece share a byte. -/
def rangeMeets (a n : Nat) (c : Chunk) : Bool :=
  match c.pa with
  | some b => decide (a < b + c.len ∧ b < a + n)
  | none => false

/-- A thread writes bytes of device memory. -/
def threadStore (keep : Option Nat) (a : Nat) (bs : List Byte) (w : Mach) : Mach :=
  storeBytes keep a bs (note (.thread a bs.length) w)

/-- The granted pieces of a write are noted. -/
def notePieces (mk : Nat → Nat → WNote) (cs : List Chunk) (w : Mach) : Mach :=
  cs.foldl (fun w c => match c.pa with | some a => note (mk a c.len) w | none => w) w

/-- A thread writes bytes over the pieces of a range. -/
def threadStorePieces (keep : Option Nat) (cs : List Chunk) (bs : List Byte) (w : Mach) : Mach :=
  storePieces keep cs bs (notePieces .thread cs w)

/-! ### Outputs that no FWAIT covers (R106; log 91) -/

/-- The byte lies in the output of an operation that no FWAIT covers yet. -/
def outOpen (w : Mach) (a : Nat) : Bool :=
  w.m.fqueues.any fun q => q.2.outs.any fun o => o.2.any fun r => decide (r.1 ≤ a ∧ a < r.1 + r.2)

/-- The byte that a thread reads: unspecified in an output that no FWAIT covers (R106). -/
def seenByte (w : Mach) (a : Nat) : Byte :=
  if outOpen w a then BitVec.ofNat 8 (Config.unspecified w.m.free a) else byteAt w a

/-- The little-endian number of `n` bytes that a thread reads at `a`. -/
def seenNum (w : Mach) (a n : Nat) : Nat := ofBytes ((List.range n).map fun i => seenByte w (a + i))

/-- The bytes that a thread reads over some pieces: a piece that is denied reads as zero (R241). -/
def seenPieces (w : Mach) (cs : List Chunk) : List Byte :=
  cs.flatMap fun c =>
    match c.pa with
    | some a => (List.range c.len).map fun i => seenByte w (a + i)
    | none => List.replicate c.len 0

/-- After a thread's read of some pieces: what was unspecified in it is used up. -/
def tookOpen (cs : List Chunk) (w : Mach) : Mach :=
  if w.m.fqueues.any fun q => q.2.outs.any fun o => o.2.any fun r => cs.any (rangeMeets r.1 r.2) then (drawFree w).2 else w

/-- An FWAIT for `v` covers the outputs of the steps below it (R105, R106). -/
def coverOuts (v : Nat) (q : FieldQueue) : FieldQueue := { q with outs := q.outs.filter fun o => decide (v ≤ o.1) }

end Sys2Proof.Machine
end

