-- ==== Sys2Proof/Machine/Cache.lean ====
section
/-! DEFINITION. The near-memory cache that every access to HBM meets (R301 to R305, R316, R319), and the charges of table
walks (R284); none of it changes a byte. -/

namespace Sys2Proof.Machine
open Sys2Proof

/-! ### Lines, sets and runs -/

/-- The sets of a tier's cache part (R301). -/
def nmSets (w : Mach) (tier : Nat) : Nat := 64 * (1536 - tread 0 w.m.nmPlain tier)

/-- The line of an HBM address on its die, with the tier and set that hold it (R303). -/
def nmPlace (w : Mach) (a : Nat) : Nat × Nat × Nat :=
  match regionOf w a with
  | .hbm s o =>
    let line := (s % 8 * 0x900000000 + o) / 2048
    let tier := s / 8 * 5 + line % 5
    (line, tier, line / 5 % nmSets w tier)
  | _ => (0, 0, 0)

/-- The bank of a tier that holds a way of a set: the sets stand one after another above the plain part, sixteen lines of
2 KiB each, which fills the cache part exactly (R301; log 130). -/
def cacheBank (w : Mach) (key way : Nat) : Nat :=
  (plainBytes w (key / 2 ^ 20) + (key % 2 ^ 20 * 16 + way) * 2048) / 0x4000000

/-- The key of a set among the cache's tables. -/
def nmKey (tier set : Nat) : Nat := tier * 2 ^ 20 + set

/-- The lines of a set, most recent first. -/
def nmSet (w : Mach) (key : Nat) : List NmLine := tread [] w.m.hw.nmc key

/-- Replace the lines of a set. -/
def putSet (key : Nat) (ls : List NmLine) (w : Mach) : Mach :=
  onHw (fun h => { h with nmc := twrite [] h.nmc key ls }) w

/-- The address of a line of a die. -/
def lineAddr (die line : Nat) : Nat := 0x010000000000 + die * 0x4800000000 + line * 2048

/-- The run of some granules of a line, with its channel. -/
def runOf (w : Mach) (who : Asker) (cls a gran : Nat) (write : Bool) : Nat × ChRun :=
  let (ch, line) := channelLine w a
  (ch, { line := line, gran := gran, write := write, cls := cls, lopid := (askerTag w cls who).lopid })

/-- Ask for a run's slots, one to the granule, at its channel group's gate: admitted, it comes to its channel (R316, R321,
R323). -/
def queueRun (who : Asker) (cls a gran : Nat) (write : Bool) (w : Mach) : Mach :=
  let (ch, r) := runOf w who cls a gran write
  request ⟨.hbm, ch / 8, cls, gran, who, some (.run ch r)⟩ w

/-- The sectors of a mask. -/
def sectorCount (m : BitVec 8) : Nat := ((List.range 8).filter fun s => m.getLsbD s).length

/-- Dirty sectors of a line go to HBM, charged to a class (R303, R316). -/
def writeBack (die cls : Nat) (l : NmLine) (sectors : BitVec 8) (w : Mach) : Mach :=
  queueRun (.keeper 0) cls (lineAddr die l.line) (8 * sectorCount (l.dirty &&& sectors)) true w

/-- The way that a fill takes in a set (R305): an empty way it may use, else the least recent line in one; none where
all sixteen are locked. -/
def fillWay (w : Mach) (tier : Nat) (keep : Bool) (ls : List NmLine) : Option Nat :=
  let r := tread 0 w.m.nmWays tier
  let locked (i : Nat) : Bool := r.getLsbD (16 + i)
  let mine := (List.range 16).filter fun i => !locked i && (r.getLsbD i == keep)
  let ways := if mine.isEmpty then (List.range 16).filter fun i => !locked i else mine
  match ways.find? fun i => !ls.any fun l => l.way == i with
  | some i => some i
  | none => (ls.reverse.find? fun l => ways.contains l.way).map (·.way)

/-- A line in its place by a hint: most recent, next victim, or where it stood (R304). -/
def rankLine (hint : BitVec 2) (hit write : Bool) (l : NmLine) (ls : List NmLine) : List NmLine :=
  let others := ls.filter fun x => x.way != l.way
  let same := ls.map fun x => if x.way = l.way then l else x
  match hint.toNat, hit with
  | 1, true => same
  | 1, false => others ++ [l]
  | 3, _ => if write then others ++ [l] else same
  | _, _ => l :: others

/-- The sectors of a line that `n` bytes from `a` touch, and those that they cover whole (R303). -/
def lineSectors (a n : Nat) : BitVec 8 × BitVec 8 :=
  let lo := a % 2048
  let mask (f : Nat → Bool) : BitVec 8 := BitVec.ofNat 8 (((List.range 8).filter f).map (2 ^ ·)).sum
  (mask fun s => decide (lo < 256 * s + 256 ∧ 256 * s < lo + n),
   mask fun s => decide (lo ≤ 256 * s ∧ 256 * s + 256 ≤ lo + n))

/-- The granules of a line that `n` bytes from `a` touch in some sectors, and how many of them they cover in part
(R319). -/
def granulesIn (a n : Nat) (sectors : BitVec 8) : Nat × Nat :=
  let lo := a % 2048
  let js := (List.range 64).filter fun j => sectors.getLsbD (j / 8) && decide (lo < 32 * j + 32 ∧ 32 * j < lo + n)
  (js.length, (js.filter fun j => !decide (lo ≤ 32 * j ∧ 32 * j + 32 ≤ lo + n)).length)


/-- Addresses as runs of consecutive ones: where each begins and how many it has. -/
def spansOf (as : List Nat) : List (Nat × Nat) :=
  (as.foldl (fun (rs : List (Nat × Nat)) a =>
    match rs with
    | (b, n) :: r => if a = b + n then (b, n + 1) :: r else (a, 1) :: rs
    | [] => [(a, 1)]) []).reverse

/-! ### Accesses (R302 to R305, R316, R319) -/

/-- An access that does not allocate (R319): the granules it touches are read, or written after those that it covers in part
have been read. -/
def passAccess (fetch : Nat → Mach → Mach) (who : Asker) (cls a n : Nat) (sectors : BitVec 8) (write : Bool) (w : Mach) :
    Mach :=
  let (all, part) := granulesIn a n sectors
  if write then queueRun who cls (a / 2048 * 2048) all true (fetch part w) else fetch all w

/-- An access to `n` bytes of one line of HBM (R303, R304, R319): missing sectors are fetched, a victim's dirty ones written
back for class `cls`; `fetch` makes the run that reads some granules of the line. The count is of sectors filled. -/
def cacheAccess (fetch : Nat → Mach → Mach) (who : Asker) (cls a n : Nat) (hint : BitVec 2) (write : Bool) (w : Mach) :
    Mach × Nat :=
  let (line, tier, set) := nmPlace w a
  let (touch, covered) := lineSectors a n
  let whole := if write then covered else 0
  let key := nmKey tier set
  let ls := nmSet w key
  match ls.find? fun l => l.line == line with
  | some l =>
    let need := touch &&& ~~~ l.valid &&& ~~~ whole
    if hint = 3 ∧ !write then
      -- LAST read: the sectors read leave, the dirty ones written back
      let w := writeBack (tier / 5) cls l touch (passAccess fetch who cls a n need false w)
      let l' := { l with valid := l.valid &&& ~~~ touch, dirty := l.dirty &&& ~~~ touch }
      (putSet key (if l'.valid = 0 then ls.filter fun x => x.way != l.way
                   else ls.map fun x => if x.way = l.way then l' else x) w, 0)
    else
      let w := fetch (8 * sectorCount need) w
      let l' := { l with valid := l.valid ||| touch, dirty := if write then l.dirty ||| touch else l.dirty }
      (putSet key (rankLine hint true write l' ls) w, sectorCount need)
  | none =>
    if hint = 3 ∧ !write then (passAccess fetch who cls a n touch write w, 0)
    else match fillWay w tier (hint == 2) ls with
      | none => (passAccess fetch who cls a n touch write w, 0)
      | some i =>
        let need := touch &&& ~~~ whole
        let w := fetch (8 * sectorCount need) w
        let w := match ls.find? fun l => l.way == i with
          | some v => writeBack (tier / 5) cls v 0xFF w
          | none => w
        let l : NmLine := { way := i, line := line, valid := touch, dirty := if write then touch else 0 }
        (putSet key (rankLine hint false write l (ls.filter fun x => x.way != i)) w, sectorCount need)

/-- An access to a range of device memory: what of it lies in HBM goes through the near-memory cache, its misses charged at
the channel-group gates (R302, R316). The count is of sectors filled. -/
def nearAccess (who : Asker) (cls a len : Nat) (hint : BitVec 2) (write : Bool) (w : Mach) : Mach × Nat :=
  (cutLines (len / 2048 + 2) a len).foldl (fun r p =>
    match regionOf r.1 p.1 with
    | .hbm _ _ =>
      let (w, k) := cacheAccess (fun g => queueRun who cls (p.1 / 2048 * 2048) g false) who cls p.1 p.2 hint write r.1
      (w, r.2 + k)
    | _ => r) (w, 0)

/-- The same for a thread, which counts what is filled (R490). -/
def threadNear (t : Tid) (a len : Nat) (hint : BitVec 2) (write : Bool) (w : Mach) : Mach :=
  let (w, k) := nearAccess (.thread (tkey t)) (thr w t).cls a len hint write w
  countThread t 0x17 (8 * k) (countThread t 0x16 k w)

/-- The traffic of a thread's access that its data cache does not hold: its sectors and flits, and for HBM the near-memory cache
(R300, R302). -/
def threadTraffic (t : Tid) (write : Bool) (a len : Nat) (w : Mach) : Mach :=
  threadNear t a len 0 write
    (chargeAccess (.thread (tkey t)) (thr w t).cls (dieOfVp t.vp.toNat) (some t) write a len w)

/-- The same for the pieces of an access that may be made. -/
def piecesTraffic (t : Tid) (write : Bool) (cs : List Chunk) (w : Mach) : Mach :=
  cs.foldl (fun w c => match c.pa with | some a => threadTraffic t write a c.len w | none => w) w

/-- The dirty sectors of a die's cache go to HBM, and its lines with them (R303, R419). -/
def flushCache (die : Nat) (w : Mach) : Mach :=
  let mine := w.m.hw.nmc.filter fun e => e.1 / 2 ^ 20 / 5 == die
  let w := mine.foldl (fun w e => e.2.foldl (fun w l => writeBack die 0 l 0xFF w) w) w
  onHw (fun h => { h with nmc := h.nmc.filter fun e => e.1 / 2 ^ 20 / 5 != die }) w

/-! ### Table walks (R284, R302) -/

/-- The tables that a walk reads, from the top. -/
def walkTables (w : Mach) (va : Nat) : Nat → Nat → List Nat
  | 0, base => [entryAddr base 0 va]
  | level + 1, base =>
    let a := entryAddr base (level + 1) va
    a :: match readEntry w a with
      | some e => if bit e 1 then [] else walkTables w va level (bits e 12 36 * 4096)
      | none => []

/-- A walk's read of a table on a fenced unit is a violation of the unit that walks (R413); the keeper is none. -/
def logTable (who : Asker) (a : Nat) (w : Mach) : Mach :=
  match fencedDie w a, who with
  | some u, .thread k => violation (unitVp (k / 8)) vcStaleUnit (thr w (tidOf k)).priv false a (BitVec.ofNat 32 u) w
  | some u, .mover n => violation (unitMover n) vcStaleUnit false false a (BitVec.ofNat 32 u) w
  | some u, .field => violation 0x2000 vcStaleUnit false false a (BitVec.ofNat 32 u) w
  | _, _ => w

/-- One table read of a unit on a die (R284, R302): a beat of its tier, or one slot of its channel group, and a flit where
it lies on the other die. In HBM it goes through the near-memory cache, under the hint NORMAL (R304). -/
def chargeTableRead (who : Asker) (cls die a : Nat) (w : Mach) : Mach :=
  let w := logTable who a w
  let w := if isDevice w a && dieOfAddr w a != die then request ⟨.brab, dieOfAddr w a, cls, 1, who, none⟩ w else w
  match regionOf w a with
  | .near t _ => request ⟨.tier, t, cls, 41, who, none⟩ w
  | .hbm _ _ =>
    let w := request ⟨.hbm, (channelLine w a).1 / 8, cls, 1, who, none⟩ w
    (cacheAccess (fun g w =>
      let (ch, r) := runOf w who cls (a / 2048 * 2048) g false
      if g = 0 then w else letGo (.run ch r) w) who cls a 8 0 false w).1
  | _ => w

/-- The walks for some addresses in ascending order (R284): one for each page that no entry of the unit's buffer
matches. -/
def chargeWalks (who : Asker) (cls die : Nat) (tlb : List TlbEntry) (c : Ctx) (vas : List Nat) (w : Mach) : Mach :=
  (vas.foldl (fun (r : Mach × Option Leaf) va =>
    let same := match r.2 with | some l => decide (l.va ≤ va ∧ va < l.va + l.size) | none => false
    if same || decide (2 ^ 48 ≤ va) || (tlbHit tlb c.asid va).isSome then r
    else
      ((walkTables r.1 va 3 (bits c.xlbase.toNat 12 36 * 4096)).foldl (fun w a => chargeTableRead who cls die a w) r.1,
       walk r.1 c.xlbase va)) (w, none)).1

/-- The small pages of a range, by their first address in it. -/
def pagesOf (va len : Nat) : List Nat := (cutPages (len / 4096 + 2) va len).map (·.1)

/-- The pages of a thread's access that no entry of its buffer matches (R282). -/
def missedPages (w : Mach) (t : Tid) (va len : Nat) : List Nat :=
  (pagesOf va len).filter fun a => decide (a < 2 ^ 48) && (tlbHit (vpOf w t.vp.toNat).tlb (thr w t).asid a).isNone

/-- The walks of a thread's access (R282, R284; log 104): they are charged to it, and the TABLE_WALK that brings the entry
of one charges nothing more. -/
def threadWalks (t : Tid) (va len : Nat) (w : Mach) : Mach :=
  let ps := (missedPages w t va len).map fun a => (tkey t, a / 4096)
  if ps.isEmpty then w
  else
    onX (fun x => { x with walked := ps ++ x.walked.filter fun p => !ps.contains p })
      (chargeWalks (.thread (tkey t)) (thr w t).cls (dieOfVp t.vp.toNat) (vpOf w t.vp.toNat).tlb (ctxOf (thr w t))
        (pagesOf va len) w)

end Sys2Proof.Machine
end

