-- ==== Sys2Proof/Machine/Abort.lean ====
section
/-! DEFINITION. What stops a plan or an invocation from outside its threads (R112, R405, R406, R410): the threads stop at
their next turn, and the command front does the rest in a step of its own. -/

namespace Sys2Proof.Machine
open Sys2Proof

/-- The command that a thread works for. -/
def cmdOfThread (th : Thread) : Option Nat :=
  match th.binding with
  | .plan c _ => some c
  | .inv _ c => some c
  | _ => none

/-- A command, as it was taken in. -/
def cmdOf (w : Mach) (seq : Nat) : Cmd := tread {} w.m.h.cmds seq

/-- A command's plan. -/
def planOf (w : Mach) (seq : Nat) : Plan := tread {} w.m.h.plans seq

/-- A serving plan that a restart has started again runs (R388, R390). -/
def planRestarted (w : Mach) (seq : Nat) : Bool := (planOf w seq).restarted && !(planOf w seq).ended

/-- Change a command's plan. -/
def updPlan (seq : Nat) (f : Plan → Plan) (w : Mach) : Mach :=
  onH (fun h => { h with plans := tput h.plans seq (f (tread {} h.plans seq)) }) w

/-- Threads that meet a test stop issuing at their next turn (R112). -/
def stopThreads (p : Thread → Bool) (w : Mach) : Mach :=
  onM (fun m => { m with threads := m.threads.map fun (k, th) => (k, if p th then { th with stopped := true } else th) }) w

/-- A plan is aborted on an uncorrectable granule (R405, R406): its threads stop, and its rollback is the command
front's next step for it. -/
def abortPlan (seq gran : Nat) (step : W64) (w : Mach) : Mach :=
  let p := planOf w seq
  let w := errorRecord ecUeRead { addr := 32 * gran, cmd := seq, step := step, attempt := p.attempts } w
  stopThreads (fun th => cmdOfThread th == some seq)
    (updPlan seq (fun p => { p with aborted := true, granule := some gran }) w)

/-- A session, as its descriptor stands. -/
def sessOf (w : Mach) (sid : Nat) : Session := tread {} w.m.s.sessions sid

/-- A die serves sessions (R329, R419): it is in service. -/
def dieServes (w : Mach) (die : Nat) : Bool := unitState w die == .inService

/-- The home of a session (R329): by bit 0 of its SID, or the other die while its own does not serve. -/
def homeDie (w : Mach) (sid : Nat) : Nat :=
  let d := sid % 2
  if dieServes w d || !dieServes w (1 - d) then d else 1 - d

/-- Where a session's descriptor lies (R330, R419): by its number while one die serves every session. -/
def descAddr (w : Mach) (sid : Nat) : Nat :=
  let i := if bothServe w then sid / 2 else sid
  sessReg w (homeDie w sid) 0 * 0x200000 + i * 256

/-- The 256 bytes of a session's descriptor (R330). -/
def descBytes (sid : Nat) (s : Session) : List Byte :=
  let tail := (s.queue.getLast?.map (·.slot)).getD 0
  let head := (s.queue.head?.map (·.slot)).getD 0
  toBytes 4 (sid + s.state <<< 20 + s.cls <<< 24) ++ toBytes 4 (s.size + s.gang <<< 3 + s.parkwhy <<< 8 + s.blim <<< 16)
  ++ toBytes 4 s.plan ++ toBytes 4 s.entry ++ toBytes 8 s.stateVa ++ toBytes 8 s.asid.toNat ++ toBytes 8 s.seed.toNat
  ++ toBytes 8 s.step ++ toBytes 8 s.ltick ++ toBytes 2 s.lsq.toNat ++ toBytes 2 s.lsrc.toNat ++ toBytes 4 s.epoch
  ++ toBytes 4 head ++ toBytes 4 tail ++ toBytes 8 s.queue.length ++ toBytes 8 s.otick ++ toBytes 168 0

/-- Write a session's descriptor into the table of its home die (R330; log 26). -/
def putDesc (sid : Nat) (w : Mach) : Mach :=
  let a := descAddr w sid
  if (tableAt w (homeDie w sid)).isNone || !isDevice w a then w else storeBytes none a (descBytes sid (sessOf w sid)) w

/-- Change a session; its descriptor follows. -/
def updSess (sid : Nat) (f : Session → Session) (w : Mach) : Mach :=
  putDesc sid (onS (fun s => { s with sessions := twrite {} s.sessions sid (f (tread {} s.sessions sid)) }) w)

/-- A session whose state is being regenerated goes PARKED with PARKWHY 3: a RUNNING one when its invocation has ended
(R331, R410); RETIRED is final (R331; log 130). -/
def parkRegen (sid : Nat) (w : Mach) : Mach :=
  if w.m.s.regen.contains sid && (sessOf w sid).state != 3 && (sessOf w sid).state != 5 then
    updSess sid (fun s => { s with state := 4, parkwhy := 3 }) w
  else w

/-- What an ended invocation left behind has written some ranges (R344): its sessions stand so at their present steps, which is
what a rebuild gives back (R353, R368; log 28). -/
def patchPast (rs : List (Nat × Nat)) (w : Mach) : Mach :=
  let hit (a : Nat) : Bool := rs.any fun r => decide (r.1 ≤ a ∧ a < r.1 + r.2)
  let patch (past : Table SessPast) (s : Session) : Table SessPast :=
    match tget past s.step with
    | none => past
    | some p =>
      let as := s.block.flatMap fun e => (List.range e.2).map fun i => e.1 + i
      tput past s.step { p with block := (as.zip p.block).map fun e => if hit e.1 then rawByte w e.1 else e.2 }
  (w.m.s.sessions.filter fun e => rangesMeet e.2.block rs).foldl (fun w e =>
    onS (fun x => { x with past := tput x.past e.1 (patch (tread [] x.past e.1) e.2) }) w) w

/-- An operation or a transfer of an invocation that has ended was left behind by it. -/
def leftBehind (w : Mach) (id : Nat) : Bool :=
  match tget w.m.s.invs id with
  | some i => i.ended
  | none => true

/-- A session's regeneration begins and the keeper logs it (R410), a RETIRED one's for the snapshots to come (R404). -/
def startRegen (sid : Nat) (w : Mach) : Mach :=
  let s := sessOf w sid
  if s.state = 0 then w
  else
    let w := errorRecord ecSessRegen { sid := sid, step := BitVec.ofNat 64 s.step } w
    parkRegen sid (onS (fun x => { x with regen := if x.regen.contains sid then x.regen else x.regen ++ [sid] }) w)

/-- The key of an invocation in the tables: die and number (R339). -/
def invKey (die num : Nat) : Nat := num * 2 + die

/-- A thread is left with a binding that does not issue; its waits and its family go, and its gate requests wait for
nobody (R42). One that a double fault has stopped keeps its state (R246). -/
def unbind (b : Binding) (k : Nat) (w : Mach) : Mach :=
  let w := stopTileWaits (tidOf k) w
  let orphan (q : GateReq) : GateReq := if q.who == .thread k then { q with who := .keeper 0 } else q
  let w := onM (fun m => { m with gateQ := m.gateQ.map orphan }) w
  updThr (tidOf k) (fun th =>
    if th.dead then { th with binding := b, park := .none, gateWaits := 0, paid := [], cause := none }
    else
      { th with binding := b, park := .none, gateWaits := 0, paid := [], cause := none, stopped := false, groups := [],
                gm := false, family := false, acting := none, costLimit := 0 }) w

/-- An invocation that was aborted waits to run again (R346, R410). -/
def invDropped (w : Mach) (id : Nat) : Bool :=
  match tget w.m.s.invs id with
  | some i => i.thread.isNone && !i.ended
  | none => false

/-- Nothing of an aborted run of an invocation can still write (R344, R346): its operation has left the field, its transfers
their movers, and the stores of the threads that its plan lends have drained. -/
def invQuiet (w : Mach) (id : Nat) : Bool :=
  let c := (tread {} w.m.s.invs id).plan
  !(match w.m.fieldRun with | some r => r.owner == .inv id | none => false)
  && !(w.m.hw.movers.any fun v => match v.2.run with | some r => r.entry.inv == some id | none => false)
  && w.m.threads.all fun e => e.2.binding != .lent c || e.2.sbuf.isEmpty

/-- An invocation is aborted (R346, R410): nothing of it advances, its thread is idle again, its sessions are
regenerated, and it will run again with the same events under its number. What it had queued for the field and the movers does
not start, and what runs there ends at its boundary, as for a plan (R406; DEDUCED, log 129). -/
def dropInv (id : Nat) (w : Mach) : Mach :=
  let i := tread {} w.m.s.invs id
  let w := (w.m.threads.filter fun e => match e.2.binding with | .inv n _ => n == id | _ => false).foldl
    (fun w e => unbind (.lent i.plan) e.1 w) w
  let w := onM (fun m => { m with fqueues := m.fqueues.filter fun e => e.1 != .inv id }) w
  let w := onHw (fun h => { h with movers := h.movers.map fun (k, v) =>
      (k, { v with queue := v.queue.filter fun x => x.inv != some id }) }) w
  let w := onS (fun s => { s with invs := tput s.invs id { i with thread := none, again := true } }) w
  i.evs.foldl (fun w e => startRegen e.1 (updSess e.1 (fun s => if s.state = 3 then { s with state := 2 } else s) w)) w

/-- An invocation met an uncorrectable granule (R405). -/
def abortInv (id : Nat) (gran : Nat) (step : W64) (w : Mach) : Mach :=
  dropInv id (errorRecord ecUeRead { addr := 32 * gran, cmd := (tread {} w.m.s.invs id).plan, step := step } w)

/-- A thread's read met an uncorrectable granule (R405). -/
def abortThread (t : Tid) (gran : Nat) (w : Mach) : Mach :=
  let th := thr w t
  match th.binding with
  | .plan c _ => abortPlan c gran th.step w
  | .inv i _ => abortInv i gran th.step w
  | _ => w

/-- The first uncorrectable granule of a physical range. -/
def badIn (w : Mach) (a n : Nat) : Option Nat :=
  if w.m.hw.bad.isEmpty || n == 0 then none
  else (w.m.hw.bad.find? fun e => decide (a / 32 ≤ e.1 ∧ e.1 ≤ (a + n - 1) / 32) && granBad w e.1).map (·.1)

/-- The first uncorrectable granule of the pieces of an access. -/
def badPiece (w : Mach) (cs : List Chunk) : Option Nat :=
  cs.findSome? fun c => c.pa.bind fun a => badIn w a c.len

/-- Put a unit into a state: UNIT_STATE logs the change (R417), entering PUPA keeps its JOINED and counts for the molt
number (R412). -/
def putState (u : Nat) (st : UState) (w : Mach) : Mach :=
  let w := onM (fun m =>
    let r := tread {} m.units u
    { m with units := twrite {} m.units u { state := st, joined := if st = .pupa then joinedOf w u else r.joined },
             hw := { m.hw with wentPupa := m.hw.wentPupa || st == .pupa } }) w
  errorRecord ecUnitState { unit := u } w

/-- Periods of grace before a planned channel drain (R421). -/
def graceOf (w : Mach) : Nat := bits w.m.k.servctl.toNat 0 16

/-- A channel's planned drain waits for the driver (R418). -/
def startGrace (u : Nat) (w : Mach) : Mach :=
  if (tget w.m.hw.grace u).isSome then w
  else alert alChannelFailing u 0 (onHw (fun h => { h with grace := tput h.grace u (w.m.tick / 4096 + graceOf w) }) w)

/-- A tier bank drains: its controller copies it to a spare (R417). -/
def startBankCopy (u : Nat) (w : Mach) : Mach :=
  onHw (fun h => { h with bankCopy := h.bankCopy ++ [u] }) (putState u .draining w)

/-- The keeper starts the repair of a tier bank or a channel in service (R402, R417, R418). -/
def startRepair (u : Nat) (w : Mach) : Mach :=
  if unitState w u ≠ .inService then w
  else if u / 0x1000 = 5 then startGrace u w
  else startBankCopy u w

/-- One correction is counted against a unit; past KEEP_CETHRESH within a 24-hour window of ticks its repair starts
(R402), once: a unit whose repair has started no longer counts as in service without a drain to come. -/
def countCorrection (u : Nat) (w : Mach) : Mach :=
  let win := w.m.tick / 86400000000000
  let n := (if win = w.m.hw.corrWin then tread 0 w.m.hw.bankCorr u else 0) + 1
  let w := onHw (fun h =>
    { h with bankCorr := tput (if win = h.corrWin then h.bankCorr else []) u n, corrWin := win }) w
  let limit := w.m.k.cethresh.toNat
  let due := decide (n = limit + 1) || decide (limit < n) && unitState w u == .inService && (tget w.m.hw.grace u).isNone
  if limit ≠ 0 ∧ due = true then startRepair u (errorRecord ecCeThresh { unit := u } w) else w

/-- Correctable granules that an access reads are rewritten and counted (R402). -/
def correctIn (a n : Nat) (w : Mach) : Mach :=
  if w.m.hw.bad.isEmpty || n == 0 then w
  else
    let hit (e : Nat × Nat) : Bool := decide (a / 32 ≤ e.1 ∧ e.1 ≤ (a + n - 1) / 32) && !granBad w e.1
    let hits := w.m.hw.bad.filter hit
    if hits.isEmpty then w
    else
      let w := countGlobal 0x22 hits.length { die := dieOfAddr w a }
        (onHw (fun h => { h with bad := h.bad.filter fun e => !hit e }) w)
      hits.foldl (fun w e => countCorrection (unitStoring w (32 * e.1)) w) w

/-- Correctable granules of the pieces of a read are rewritten and counted (R402). -/
def correctPieces (cs : List Chunk) (w : Mach) : Mach :=
  cs.foldl (fun w c => match c.pa with | some a => correctIn a c.len w | none => w) w

/-- After a thread's read of some pieces: corrections are made, and an uncorrectable granule aborts what reads (R402,
R405). -/
def readCheck (t : Tid) (cs : List Chunk) (w : Mach) : Mach :=
  if w.m.hw.bad.isEmpty then w
  else
    let w' := correctPieces cs w
    match badPiece w cs with
    | some g => abortThread t g w'
    | none => w'

end Sys2Proof.Machine
end

