-- ==== Sys2Proof/Machine/Geom.lean ====
section
/-! DEFINITION. The geometry table (R119 to R124). -/

namespace Sys2Proof.Machine
open Sys2Proof

/-- The columns that an array presents with its failed ones bypassed (R120). -/
def arrayWidth (w : Mach) (plot array : Nat) : Nat := min 64 (66 - tread 0 w.m.hw.failed (plot * 4 + array))

/-- Spare columns in use for repair (R119). -/
def sparesUsed (w : Mach) (plot array : Nat) : Nat := min 2 (tread 0 w.m.hw.failed (plot * 4 + array))

/-- The geometry record as the units stand: 5 bytes for each plot (R121). -/
def geomNow (w : Mach) : List Byte :=
  (List.range 32).flatMap fun p =>
    BitVec.ofNat 8 (b2n (unitState w (0x2000 + p) == .inService)) ::
      (List.range 4).map fun a => BitVec.ofNat 8 (arrayWidth w p a)

/-- GEOM_PLOT_LO of a plot as its unit and arrays stand (R119). -/
def plotLo (w : Mach) (p : Nat) : Nat :=
  stateCode (unitState w (0x2000 + p)) + ((List.range 4).map fun a => sparesUsed w p a <<< (3 + 2 * a)).sum

/-- The table's GEOM_PLOT_LO of a plot: what it was at admission while an operation runs (R119, R122). -/
def geomLo (w : Mach) (p : Nat) : Nat :=
  match w.m.fieldRun with
  | some r => r.lo.getD p 0
  | none => plotLo w p

/-- The geometry record in force: a change takes effect only at an operation boundary (R122). -/
def geomRecord (w : Mach) : List Byte :=
  match w.m.fieldRun with
  | some r => r.geom
  | none => geomNow w

/-- The table's GEOM_PLOT_HI of a plot: the widths that the record in force holds (R119, R121, R122). -/
def geomHi (w : Mach) (p : Nat) : Nat :=
  ((List.range 4).map fun a => ((geomRecord w).getD (5 * p + 1 + a) 0).toNat <<< (8 * a)).sum

/-- The geometry digest (R121). -/
def geomDigest (w : Mach) : Nat := sha8 (geomRecord w)

/-! ### Signed records (R395, R396) -/

/-- The signed record of a kind with the highest GEN (R396): 0 repair, 1 geometry, 2 floor, 3 owner. -/
def recordOf (w : Mach) (kind : Nat) : Option SignedRec :=
  (w.m.k.recs.filter fun r => r.kind == kind).foldl (fun (b : Option SignedRec) r =>
    match b with
    | some x => if x.gen < r.gen then some r else b
    | none => some r) none

/-- The bytes that a record's signatures are over: its header and its body (R396). -/
def recordMessage (kind gen epoch tick : Nat) (body : List Nat) : List Byte :=
  toBytes 4096 (Config.recordText kind gen epoch tick (ofBytes (body.flatMap (toBytes 4))))

/-- The record of a kind becomes `r`, in every copy (R395). -/
def putRecordOf (r : SignedRec) (w : Mach) : Mach :=
  onK (fun k => { k with recs := (k.recs.filter fun x => x.kind != r.kind) ++ [r] }) w

/-- Write a signed record with GEN one higher, under both device identity keys (R395, R396). -/
def writeRecord (kind : Nat) (body : List Nat) (w : Mach) : Mach :=
  let gen := ((recordOf w kind).map (·.gen)).getD 0 + 1
  let msg := ofBytes (recordMessage kind gen w.m.epoch w.m.tick body)
  putRecordOf { kind := kind, gen := gen, epoch := w.m.epoch, tick := w.m.tick, body := body,
                ed := Config.sign 0 msg 0, ml := Config.sign 1 msg 0 } w

/-- A change of the geometry table: GEOM_CHANGES counts the digest's changes, and the record is written (R119, R122,
R395). -/
def withGeom (f : Mach → Mach) (w : Mach) : Mach :=
  let w' := f w
  if geomRecord w' = geomRecord w then w'
  else writeRecord 1 ((geomNow w').map (·.toNat)) (onHw (fun h => { h with geomChg := (h.geomChg + 1) % 2 ^ 32 }) w')

/-- The repair record (R395): failed columns by array, the banks and channels that are not in service, the spares. -/
def writeRepair (w : Mach) : Mach :=
  let cols := (List.range 128).map fun i => tread 0 w.m.hw.failed i
  let units := (w.m.units.filter fun e => e.1 / 0x1000 == 4 || e.1 / 0x1000 == 5).flatMap fun e => [e.1, stateCode e.2.state]
  writeRecord 0 (cols ++ units ++ w.m.hw.spares.flatMap fun e => [e.1, e.2]) w

/-- The operation's width W: the least presented width of the arrays of its plots (R124). -/
def widthOf (w : Mach) (plots : List Nat) : Nat :=
  plots.foldl (fun m p => (List.range 4).foldl (fun m a => min m (arrayWidth w p a)) m) 64

end Sys2Proof.Machine
end

