-- ==== Sys2Proof/Machine/Records.lean ====
section
/-! DEFINITION. The log records as bytes (R242, R422, R468). -/

namespace Sys2Proof.Machine
open Sys2Proof

/-- A violation record's 32 bytes (R242). -/
def violBytes (r : ViolRec) : List Byte :=
  toBytes 8 r.tick ++ toBytes 2 r.source.toNat ++ toBytes 2 r.seq.toNat ++ toBytes 2 r.code.toNat
  ++ toBytes 2 (b2n r.priv + 2 * b2n r.write) ++ toBytes 8 r.addr.toNat ++ toBytes 4 r.detail.toNat
  ++ toBytes 4 r.epoch.toNat

/-- An error record's 64 bytes (R422). -/
def errBytes (r : ErrRec) : List Byte :=
  toBytes 8 r.tick ++ toBytes 2 r.source.toNat ++ toBytes 2 r.seq.toNat ++ toBytes 2 r.code.toNat
  ++ toBytes 2 r.unit.toNat ++ toBytes 8 r.addr.toNat ++ toBytes 4 r.epoch.toNat ++ toBytes 4 r.cmd.toNat
  ++ toBytes 8 r.step.toNat ++ toBytes 4 (r.sid.toNat + r.attempt.toNat <<< 24) ++ toBytes 20 0

/-- Slot `i` of the violation log; a slot never written reads as zero. -/
def violSlot (w : Mach) (i : Nat) : List Byte :=
  match tget w.m.vlog (i % 4096) with
  | some r => violBytes r
  | none => List.replicate 32 0

/-- Slot `i` of the error log. -/
def errSlot (w : Mach) (i : Nat) : List Byte :=
  match tget w.m.elog (i % 4096) with
  | some r => errBytes r
  | none => List.replicate 64 0

/-- A keeper alert's 16 bytes (R468). -/
def alertBytes (r : AlertRec) : List Byte :=
  toBytes 8 r.tick ++ toBytes 2 r.code.toNat ++ toBytes 2 r.unit.toNat ++ toBytes 4 r.arg.toNat

/-- A status word's 64 bytes (R461); an IDLE one reads as zero. -/
def statusBytes (x : StatusW) : List Byte :=
  if x.state = 0 then List.replicate 64 0
  else toBytes 4 x.seq ++ toBytes 4 (x.state + x.opcode <<< 8 + x.error <<< 16) ++ toBytes 8 x.progress ++ toBytes 8 x.step
    ++ toBytes 8 x.tick ++ toBytes 4 x.epoch ++ toBytes 4 x.tag ++ toBytes 16 x.digest ++ toBytes 4 x.rseq
    ++ toBytes 4 (x.ring + x.upd <<< 8)

/-! ### The journal ring (R372, R376 to R378) -/

/-- The regions of MRAM, by offset and size (R371, R372): identity and boot state, signed records, save slots, reserved, the
journal ring. -/
def mramMap : List (Nat × Nat) :=
  [(0, 2 ^ 20), (0x100000, 4 * 2 ^ 20), (0x500000, 8 * 2 ^ 20), (0xD00000, 3 * 2 ^ 20), (0x1000000, 1008 * 2 ^ 20)]

/-- The records of a segment (R378). -/
def segmentRecords : Nat := 7280

/-- The slots of the ring: segments of 1 MiB (R372, R378). -/
def ringRecords : Nat := (mramMap.getD 4 (0, 0)).2 / 2 ^ 20 * segmentRecords

/-- The committed records of the ring that are not drained yet (R47, R376). -/
def resident (w : Mach) (below : Nat) : Nat :=
  (w.m.k.journal.filter fun e => decide (w.m.k.jDrained ≤ e.1 ∧ e.1 < below) && e.2.committed).length

/-- Records resident in the ring (R378, R397). -/
def jResident (w : Mach) : Nat := resident w (2 ^ 62)

/-- Records that wait for commit (R376). -/
def jStaged (w : Mach) : Nat := (w.m.k.journal.filter fun e => !e.2.committed).length

/-- The staging buffer takes some more records (R376). -/
def jStages (w : Mach) (n : Nat) : Bool := decide (jStaged w + n ≤ 16384)

/-- The journal takes some more records of entries: the ring is not full, and the staging buffer has room (R376 to R378). -/
def jRoom (w : Mach) (n : Nat) : Bool := decide (jResident w < ringRecords) && jStages w n

end Sys2Proof.Machine
end

