-- ==== Sys2Proof/Machine/Regs.lean ====
section
/-! DEFINITION. The register blocks of BAR0 (R8 to R10, R501 to R510): what a read returns, what a write does, and the two
windows of the supervisor. -/

namespace Sys2Proof.Machine
open Sys2Proof

/-- Who reads or writes a register (R449, R503): a function of the host, 0 the physical one, or a thread with the
instruction word it executes. -/
inductive Requester where
  | host (fn : Nat)
  | thread (t : Tid) (word : W32)
  deriving DecidableEq, Repr

/-- A block of the map with its die (R501). -/
inductive Block where
  | dctl | keep | twin | geom | budg | hifCfg | hif | serv | vlog | elog | ktrc
  | rwatch (die : Nat) | probe (die : Nat) | hb (die : Nat) | nm (die : Nat) | sess (die : Nat) | cnt (die : Nat)
  | trc (die : Nat)
  | nothing
  deriving DecidableEq, Repr

/-- The block at an offset of a die's part, and the offset within it (R501). -/
def dieBlock (die o : Nat) : Block × Nat :=
  if o < 0x40000 then (.rwatch die, o)
  else if o < 0x80000 then (.probe die, o - 0x40000)
  else if o < 0x84000 then (.hb die, o - 0x80000)
  else if o < 0x85000 then (.nm die, o - 0x84000)
  else if o < 0x86000 then (.sess die, o - 0x85000)
  else if o < 0x87000 then (.cnt die, o - 0x86000)
  else if o < 0x88000 then (.trc die, o - 0x87000)
  else (.nothing, 0)

/-- The block at a BAR0 offset, and the offset within it (R501). -/
def blockOf (o : Nat) : Block × Nat :=
  if o < 0x1000 then (.dctl, o)
  else if o < 0x2000 then (.keep, o - 0x1000)
  else if o < 0x3000 then (.twin, o - 0x2000)
  else if o < 0x4000 then (.geom, o - 0x3000)
  else if o < 0x6000 then (.budg, o - 0x4000)
  else if o < 0x7000 then (.hifCfg, o - 0x6000)
  else if o < 0x8000 then (.hif, o - 0x7000)
  else if o < 0x10000 then (.nothing, 0)
  else if o < 0x20000 then (.serv, o - 0x10000)
  else if o < 0x40000 then (.vlog, o - 0x20000)
  else if o < 0x80000 then (.elog, o - 0x40000)
  else if o < 0xC0000 then (.ktrc, o - 0x80000)
  else if o < 0x1000000 then (.nothing, 0)
  else if o < 0x1800000 then dieBlock 0 (o - 0x1000000)
  else if o < 0x2000000 then dieBlock 1 (o - 0x1800000)
  else (.nothing, 0)

/-- The die of a per-die block. -/
def Block.die? : Block → Option Nat
  | .rwatch d => some d
  | .probe d => some d
  | .hb d => some d
  | .nm d => some d
  | .sess d => some d
  | .cnt d => some d
  | .trc d => some d
  | _ => none

/-- A refused access or write (R241, R243): the keeper logs the host's, a VP its thread's. -/
def regViolation (who : Requester) (code : Nat) (write : Bool) (off : Nat) (w : Mach) : Mach :=
  match who with
  | .host fn => violation unitKeeper code false write off (BitVec.ofNat 32 fn) w
  | .thread t word => violThread t code write off word w

/-- A kept value reads zero until start-up has passed the step that restores it (R7, R509). -/
def kept (w : Mach) (step v : Nat) : Nat := if step < w.m.sec.bootPhase then v else 0

/-- Bits [31:0] or [63:32] of a value. -/
def half (hi : Bool) (v : Nat) : Nat := bits v (if hi then 32 else 0) 32

/-! ### Reading (R503, R509, R510) -/

/-- The number of committed records at the front of the journal: JSEQC (R431). -/
def jseqc (w : Mach) : Nat :=
  match w.m.k.journal.find? fun e => !e.2.committed && decide (e.1 < 2 ^ 62) with
  | some e => e.1
  | none => w.m.k.jseq

/-- TWIN_LAG (R443). -/
def twinLag (w : Mach) : Nat :=
  let mine := jseqc w
  let peer := w.m.twin.peerJseq
  match w.m.twin.role with
  | 1 => min (mine - peer) 0xFFFFFFFF
  | 2 => min (peer - mine) 0xFFFFFFFF
  | _ => 0

/-- KEEP_BOOT (R488). -/
def bootReg (w : Mach) : Nat :=
  let s := w.m.sec
  s.bootPhase + b2n (s.bootPhase == 11) <<< 4 + s.bootBits <<< 8
    + b2n (decide (5 < s.bootPhase) && s.owned.isNone) <<< 11 + s.bootFail <<< 16

/-- A register of the KEEP block (R506). -/
def readKeep (w : Mach) (o : Nat) : Nat :=
  let dec := (tread {} w.m.decTab 0).digest.toNat
  match o with
  | 0x000 => bootReg w
  | 0x004 => half false w.m.sec.deviceId.toNat
  | 0x008 => half true w.m.sec.deviceId.toNat
  | 0x010 => half false w.m.tick
  | 0x014 => half true w.m.tick
  | 0x018 => w.m.beatA
  | 0x01C => w.m.beatB
  | 0x020 => kept w 5 (w.m.molt % 2 ^ 32)
  | 0x024 => kept w 5 (half false dec)
  | 0x028 => kept w 5 (half true dec)
  | 0x030 => (ackOut w.m.violCount).toNat
  | 0x034 => w.m.violNext
  | 0x038 => (ackOut w.m.errCount).toNat
  | 0x03C => w.m.errNext
  | 0x040 => kept w 5 w.m.k.snapctl.toNat
  | 0x044 => kept w 5 (half false w.m.k.jseq)
  | 0x048 => kept w 5 (half true w.m.k.jseq)
  | 0x04C => kept w 5 (jResident w)
  | 0x050 => kept w 5 (w.m.k.snapSeq % 2 ^ 32)
  | 0x054 => kept w 5 w.m.k.wear
  | 0x058 => min w.m.power.joules 255
  | 0x060 => kept w 5 w.m.k.scrub.toNat
  | 0x064 => kept w 5 w.m.k.cethresh.toNat
  | 0x068 => kept w 5 w.m.k.servctl.toNat
  | _ => 0

/-- A register of the TWIN block (R443). -/
def readTwin (w : Mach) (o : Nat) : Nat :=
  let x := w.m.twin
  match o with
  | 0x00 => x.mode + x.role <<< 2 + b2n x.link.up <<< 5 + b2n x.link.lanes8 <<< 6 + b2n x.silent <<< 7
  | 0x04 => kept w 5 (x.pairgen % 2 ^ 32)
  | 0x08 => twinLag w
  | 0x0C => kept w 5 x.lagmax
  | 0x10 => (ackOut x.diverge).toNat
  | 0x14 => (ackOut x.retry).toNat
  | _ => 0

/-- A register of the GEOM block (R119). -/
def readGeom (w : Mach) (o : Nat) : Nat :=
  kept w 5 <|
    if o = 0 then half false (geomDigest w)
    else if o = 4 then half true (geomDigest w)
    else if o = 8 then w.m.hw.geomChg
    else if 0x100 ≤ o ∧ o < 0x200 then
      let p := (o - 0x100) / 8
      if o % 8 = 0 then geomLo w p else geomHi w p
    else 0

/-- A register of one class's grants (R36). -/
def readGrant (g : Grant) (i : Nat) : Nat :=
  if i < 10 then tread 0 g.amounts i else if i = 10 then b2n g.surplus + 2 * b2n g.hold else 0

/-- A register of the BUDG block (R36). -/
def readBudg (w : Mach) (o : Nat) : Nat :=
  let t := if o < 0x1000 then w.m.staging else w.m.active
  readGrant (tread {} t (o % 0x1000 / 64)) (o % 64 / 4)

/-- A register of HIF_CFG (R449). -/
def readHifCfg (w : Mach) (o : Nat) : Nat :=
  if o < 0x80 then tread 0 w.m.ringFn (o / 4)
  else if o < 0x180 then tread 0 w.m.ringFn (32 + (o - 0x80) / 4)
  else if o < 0x200 then tread 0 w.m.h.swOwn ((o - 0x180) / 4)
  else if o < 0x400 then
    let f := tread {} w.m.h.funcs ((o - 0x200) / 16)
    match o % 16 / 4 with
    | 0 => f.asidBase.toNat + f.asidCnt.toNat <<< 16
    | 1 => half false f.classes.toNat
    | 2 => half true f.classes.toNat
    | _ => 0
  else if o < 0x480 then half (o % 8 == 4) (tread 0 w.m.h.wins ((o - 0x400) / 8)).toNat
  else if 0x500 ≤ o ∧ o < 0x560 then (tread 0 w.m.h.routes ((o - 0x500) / 4)).toNat
  else 0

/-- The notification counter at an offset of a function's HIF block, where it is one (R466). -/
def hifIndex (o : Nat) : Option Nat :=
  if o < 0x180 then some (o / 4) else if o = 0x180 then some 96 else if o = 0x184 then some 97 else none

/-- A function owns a notification counter (R449, R466). -/
def ownsCounter (w : Mach) (fn i : Nat) : Bool := if i < 96 then tread 0 w.m.ringFn i == fn else fn == 0

/-- A register of a function's HIF block (R466). -/
def readHif (w : Mach) (fn o : Nat) : Nat :=
  match hifIndex o with
  | some i => if ownsCounter w fn i then (ackOut (tread {} w.m.hifCtr i)).toNat else 0
  | none =>
    if 0x200 ≤ o ∧ o < 0x264 then
      ofBytes ((List.range 4).map fun j =>
        if o - 0x200 + j < 98 then tread 0 w.m.hifVec (fn * 128 + (o - 0x200 + j)) else 0)
    else 0

/-- A unit's entry of the SERV block (R415). -/
def readServ (w : Mach) (o : Nat) : Nat :=
  let u := o / 0x1000 * 0x1000 + o % 0x1000 / 4
  let count := match o / 0x1000 with
    | 0 => 2 | 1 => 32 | 2 => 32 | 3 => 128 | 4 => 640 | 5 => 512 | 6 => 64 | 7 => 2 | 8 => 3 | _ => 0
  if count ≤ o % 0x1000 / 4 ∨ o / 0x1000 = 4 ∧ 52 ≤ u % 64 then 0
  else kept w 5 (stateCode (unitState w u) + joinedOf w u % 2 ^ 24 * 256 + b2n (fenced w u) <<< 3)

/-- A 96-bit sum in its three words. -/
def wordOf96 (v : Int) (i : Nat) : Nat := bits (BitVec.ofInt 96 v).toNat (32 * i) 32

/-- A register of a probe entry (R101). PR_N counts modulo 2^32 (DESIGN CHOICE: R101 lets the sums saturate and says nothing
of the count; log 125). -/
def readProbe (p : Probe) (o : Nat) : Nat :=
  let h := p.held
  if o = 0x08 then h.n % 2 ^ 32
  else if 0x10 ≤ o ∧ o < 0x1C then wordOf96 h.sumD ((o - 0x10) / 4)
  else if 0x1C ≤ o ∧ o < 0x28 then wordOf96 h.sumAbs ((o - 0x1C) / 4)
  else if 0x28 ≤ o ∧ o < 0x34 then wordOf96 h.sumRef ((o - 0x28) / 4)
  else if o = 0x34 then h.maxAbs.toNat
  else if o = 0x38 then half false p.taken.toNat
  else if o = 0x3C then half true p.taken.toNat
  else 0

/-- A register of a range-watch slot (R98). -/
def readSlot (s : RwSlot) (o : Nat) : Nat :=
  match o with
  | 0x00 => s.tag.toNat
  | 0x04 => b2n (s.ctr.any fun e => ackOut e.2 != 0) + 2 * b2n s.lost
  | 0x08 => half false s.first.toNat
  | 0x0C => half true s.first.toNat
  | _ => if 0x10 ≤ o ∧ o < 0x38 then (ackOut (tread {} s.ctr ((o - 0x10) / 4))).toNat else 0

/-- A register of a weevil (R325). -/
def readWeevil (w : Mach) (ch o : Nat) : Nat :=
  let c := tread {} w.m.hw.channels ch
  match o with
  | 0x00 => kept w 6 (stateCode (unitState w (0x5000 + ch))) + b2n c.trained <<< 3
  | 0x04 => c.ctl.toNat
  | 0x08 => b2n c.busy + 2 * b2n c.done + 4 * b2n c.stopped + 8 * b2n c.refused
  | 0x0C => c.mix.toNat
  | 0x10 => c.start
  | 0x14 => c.lines
  | 0x18 => half false c.seed.toNat
  | 0x1C => half true c.seed.toNat
  | 0x20 => c.slots.toNat
  | 0x24 => c.gran.toNat
  | 0x28 => (ackOut c.errs).toNat
  | 0x2C => (ackOut c.corrs).toNat
  | 0x30 => c.first.toNat
  | _ => 0

/-- A register of the NM block (R301). -/
def readNm (w : Mach) (die o : Nat) : Nat :=
  let t := die * 5 + o / 16
  if 5 ≤ o / 16 then 0
  else match o % 16 with
    | 0 => kept w 8 (tread 0 w.m.nmPlainW t)
    | 4 => kept w 8 (64 * (1536 - tread 0 w.m.nmPlain t))
    | 8 => (tread 0 w.m.nmWays t).toNat
    | _ => 0

/-- A register of the SESS block (R350). -/
def readSess (w : Mach) (die o : Nat) : Nat :=
  let mine := w.m.s.sessions.filter fun e => homeDie w e.1 == die && e.2.state != 0
  match o with
  | 0x00 => kept w 8 (sessReg w die 0)
  | 0x04 => kept w 8 (sessReg w die 1)
  | 0x08 => kept w 8 (sessReg w die 2)
  | 0x0C => kept w 8 (524288 - (mine.map fun e => e.2.queue.length).sum)
  | 0x10 => mine.length
  | 0x14 => (mine.filter fun e => e.2.state == 4).length
  | 0x18 => (ackOut (tread {} w.m.s.sessLim die)).toNat
  | _ => 0

/-- A register of the CNT block (R495). -/
def readCnt (c : Cnt) (o : Nat) : Nat :=
  if o = 0 then b2n c.run
  else if o = 8 then half false c.snapTick.toNat
  else if o = 0xC then half true c.snapTick.toNat
  else if 0x100 ≤ o ∧ o < 0x900 then
    let e := tread {} c.entries ((o - 0x100) / 0x20)
    match o % 0x20 with
    | 0x00 => e.selW.toNat
    | 0x04 => e.matW.toNat
    | 0x08 => e.maskW.toNat
    | 0x10 => half false e.val.toNat
    | 0x14 => half true e.val.toNat
    | 0x18 => half false e.shd.toNat
    | 0x1C => half true e.shd.toNat
    | _ => 0
  else 0

/-- A register of the TRC block (R499). -/
def readTrc (b : TraceBuf) (o : Nat) : Nat :=
  match o with
  | 0x00 => b.ctl.toNat
  | 0x04 => b.min.toNat
  | 0x08 => half false b.base.toNat
  | 0x0C => half true b.base.toNat
  | 0x10 => b.size.toNat
  | 0x14 => b.head.toNat
  | 0x18 => (ackOut b.drop).toNat
  | _ => 0

/-- What a read of the 32-bit register at a BAR0 offset returns, its latch aside; a die in reset reads zero (R510). -/
def readReg (w : Mach) (off : Nat) : Nat :=
  let (b, o) := blockOf off
  if (match b.die? with | some d => tread false w.m.hw.dieReset d | none => false) then 0
  else match b with
    | .dctl =>
      if o = 0 then b2n w.m.det + 2 * kept w 9 (b2n w.m.loose) + 4 * b2n w.m.cfglock
      else if o = 4 then 0x76160001
      else 0
    | .keep => readKeep w o
    | .twin => readTwin w o
    | .geom => readGeom w o
    | .budg => readBudg w o
    | .hifCfg => readHifCfg w o
    | .hif => readHif w 0 o
    | .serv => readServ w o
    | .vlog => ofBytes (((violSlot w (o / 32)).drop (o % 32)).take 4)
    | .elog => ofBytes (((errSlot w (o / 64)).drop (o % 64)).take 4)
    | .ktrc => bits (tread 0 w.m.k.ktrc (o / 64)) (8 * (o % 64)) 32
    | .rwatch d => readSlot (tread {} w.m.rwatch (d * 4096 + o / 64)) (o % 64)
    | .probe d => readProbe (tread {} w.m.probes (d * 4096 + o / 64)) (o % 64)
    | .hb d => readWeevil w (d * 256 + o / 64) (o % 64)
    | .nm d => readNm w d o
    | .sess d => readSess w d o
    | .cnt d => readCnt (tread {} w.m.cnt d) o
    | .trc d => readTrc (tread {} w.m.k.trc d) o
    | .nothing => 0

/-- The offset is that of a LO register with a HI half above it (R503). -/
def isLo (off : Nat) : Bool :=
  let (b, o) := blockOf off
  match b with
  | .keep => o == 0x004 || o == 0x010 || o == 0x024 || o == 0x044
  | .geom => o == 0 || (decide (0x100 ≤ o ∧ o < 0x200) && o % 8 == 0)
  | .rwatch _ => o % 64 == 0x08
  | .hb _ => o % 64 == 0x18
  | .cnt _ => o == 8 || (decide (0x100 ≤ o ∧ o < 0x900) && (o % 32 == 0x10 || o % 32 == 0x18))
  | .trc _ => o == 8
  | _ => false

/-- The latched upper halves of a requester (R503). -/
def latchesOf (w : Mach) (who : Requester) : Table W32 :=
  match who with
  | .host _ => w.m.h.pfLatch
  | .thread t _ => (thr w t).latches

/-- Latch an upper half for a requester alone (R503). -/
def setLatch (who : Requester) (off v : Nat) (w : Mach) : Mach :=
  match who with
  | .host _ => onH (fun h => { h with pfLatch := tput h.pfLatch off (BitVec.ofNat 32 v) }) w
  | .thread t _ => updThr t (fun th => { th with latches := tput th.latches off (BitVec.ofNat 32 v) }) w

/-- One 4-byte read: LO latches HI for the requester, HI comes from its latch (R503). -/
def read4 (who : Requester) (off : Nat) (w : Mach) : Nat × Mach :=
  let v := match (if 4 ≤ off ∧ isLo (off - 4) = true then tget (latchesOf w who) off else none) with
    | some x => x.toNat
    | none => readReg w off
  (v, if isLo off then setLatch who (off + 4) (readReg w (off + 4)) w else w)

/-! ### Writing (R8 to R10, R507) -/

/-- An acknowledging write (R10). -/
def ackReg (who : Requester) (off : Nat) (c : AckCtr) (v : Nat) (put : AckCtr → Module → Module) (w : Mach) : Mach :=
  match ackWrite c (BitVec.ofNat 32 v) with
  | some c => onM (put c) w
  | none => regViolation who vcAccessCode true off w

/-- A write that is ignored and logged (R8). -/
def refuse (who : Requester) (off : Nat) (w : Mach) : Mach := regViolation who vcAccessCode true off w

/-- A write of a value that must meet a test. -/
def rangedReg (who : Requester) (off : Nat) (ok : Bool) (f : Module → Module) (w : Mach) : Mach :=
  if ok then onM f w else refuse who off w

/-- A write of a LOCK field (R8, R507). -/
def lockReg (who : Requester) (off : Nat) (ok : Bool) (f : Module → Module) (w : Mach) : Mach :=
  rangedReg who off (!w.m.cfglock && ok) f w

/-- DET is taken for the next boundary (R352). -/
def writeDet (who : Requester) (off : Nat) (v : Bool) (w : Mach) : Mach :=
  if w.m.twin.mode ≠ 1 then onM (fun m => { m with detW := some v }) w
  else if v then onTwin (fun t => { t with detSaved := true }) w
  else refuse who off w

/-- CFGLOCK (R507): the first 1 is recorded for the next boundary, a later one refused. -/
def writeLock (who : Requester) (v : Bool) (w : Mach) : Mach :=
  if !v then w
  else if w.m.cfglock || w.m.cfglockW then refuse who 0 w
  else onM (fun m => { m with cfglockW := true }) w

/-- A write in the KEEP block (R397, R404, R421, R506). -/
def writeKeep (who : Requester) (off o v : Nat) (w : Mach) : Mach :=
  let k (f : KeepSt → KeepSt) : Module → Module := fun m => { m with k := f m.k }
  match o with
  | 0x030 => ackReg who off w.m.violCount v (fun c m => { m with violCount := c }) w
  | 0x038 => ackReg who off w.m.errCount v (fun c m => { m with errCount := c }) w
  | 0x040 =>
    let ok := decide ((1 ≤ bits v 0 8 ∧ bits v 0 8 ≤ 240) ∧ (1 ≤ bits v 8 8 ∧ bits v 8 8 ≤ 168)
      ∧ 1 ≤ bits v 16 5 ∧ bits v 16 5 ≤ 30)
    rangedReg who off ok (k fun x => { x with snapctl := BitVec.ofNat 32 (v % 2 ^ 21) }) w
  | 0x060 =>
    rangedReg who off (decide (1 ≤ v % 32 ∧ v % 32 ≤ 24)) (k fun x => { x with scrub := BitVec.ofNat 32 (v % 32) }) w
  | 0x064 => onK (fun x => { x with cethresh := BitVec.ofNat 32 v }) w
  | 0x068 => onK (fun x => { x with servctl := BitVec.ofNat 32 (v % 2 ^ 17) }) w
  | _ => w

/-- A write in the TWIN block (R443); TWIN_LAGMAX takes 1 to 65,535 (log 33). -/
def writeTwin (who : Requester) (off o v : Nat) (w : Mach) : Mach :=
  match o with
  | 0x0C => rangedReg who off (v % 65536 != 0) (fun m => { m with twin := { m.twin with lagmax := v % 65536 } }) w
  | 0x10 => ackReg who off w.m.twin.diverge v (fun c m => { m with twin := { m.twin with diverge := c } }) w
  | 0x14 => ackReg who off w.m.twin.retry v (fun c m => { m with twin := { m.twin with retry := c } }) w
  | _ => w

/-- A write in the staging copy (R36, R38). -/
def writeBudg (who : Requester) (off o v : Nat) (w : Mach) : Mach :=
  let i := o % 64 / 4
  if 0x1000 ≤ o ∨ 10 < i then w
  else if o < 64 then refuse who off w
  else
    onM (fun m =>
      let g := tread {} m.staging (o / 64)
      let g' : Grant := if i < 10 then { g with amounts := twrite 0 g.amounts i (v % 2 ^ 20) }
        else { g with surplus := bit v 0, hold := bit v 1 }
      { m with staging := twrite {} m.staging (o / 64) g' }) w

/-- A ring is empty: its consumer has taken all that its producer posted (R449). -/
def ringEmpty (w : Mach) (i : Nat) : Bool :=
  let c (k : Nat) : Nat := tread 0 w.m.h.counts k
  if i < 32 then c i == c (64 + i) else c (128 + (i - 32)) == c (192 + (i - 32))

/-- A write in HIF_CFG (R449). -/
def writeHifCfg (o v : Nat) (w : Mach) : Mach :=
  let own (i : Nat) : Mach :=
    if ringEmpty w i then onM (fun m => { m with ringFn := twrite 0 m.ringFn i (v % 32) }) w else w
  if o < 0x80 then own (o / 4)
  else if o < 0x180 then own (32 + (o - 0x80) / 4)
  else if o < 0x200 then onH (fun h => { h with swOwn := twrite 0 h.swOwn ((o - 0x180) / 4) (v % 32) }) w
  else if o < 0x400 then
    let x := BitVec.ofNat 64 v
    onH (fun h =>
      let f := tread {} h.funcs ((o - 0x200) / 16)
      let f' : Func := match o % 16 / 4 with
        | 0 => { f with asidBase := BitVec.ofNat 16 v, asidCnt := BitVec.ofNat 16 (v / 65536) }
        | 1 => { f with classes := (f.classes >>> 32) <<< 32 ||| x }
        | 2 => { f with classes := (f.classes &&& 0xFFFFFFFF) ||| (x <<< 32) }
        | _ => f
      { h with funcs := twrite {} h.funcs ((o - 0x200) / 16) f' }) w
  else if o < 0x480 then
    onH (fun h =>
      let s := (o - 0x400) / 8
      let old := tread 0 h.wins s
      let new : W64 := if o % 8 = 0 then (old >>> 32) <<< 32 ||| BitVec.ofNat 64 v
        else (old &&& 0xFFFFFFFF) ||| (BitVec.ofNat 64 (v &&& 0x8000FFFF) <<< 32)
      { h with wins := twrite 0 h.wins s new }) w
  else if 0x500 ≤ o ∧ o < 0x560 then
    onH (fun h => { h with routes := twrite 0 h.routes ((o - 0x500) / 4) (BitVec.ofNat 32 (v % 64)) }) w
  else w

/-- A write in a function's HIF block (R466, R467): an acknowledging write that leaves a count signals again. -/
def writeHif (fn : Nat) (who : Requester) (off o v : Nat) (w : Mach) : Mach :=
  match hifIndex o with
  | some i =>
    if !ownsCounter w fn i then w
    else match ackWrite (tread {} w.m.hifCtr i) (BitVec.ofNat 32 v) with
      | some c =>
        let w := onM (fun m => { m with hifCtr := twrite {} m.hifCtr i c }) w
        if ackOut c = 0 then w else sendVector i w
      | none => refuse who off w
  | none =>
    if 0x200 ≤ o ∧ o < 0x264 then
      (List.range 4).foldl (fun w j =>
        let i := o - 0x200 + j
        if 98 ≤ i then w
        else onM (fun m => { m with hifVec := twrite 0 m.hifVec (fn * 128 + i) (BitVec.ofNat 8 (v >>> (8 * j)) &&& 0xBF) })
          w) w
    else w

/-- A write in a range-watch slot (R98): LOST clears when nothing is outstanding. -/
def writeSlot (who : Requester) (off k o v : Nat) (w : Mach) : Mach :=
  let s := tread {} w.m.rwatch k
  let put (s : RwSlot) : Mach → Mach := onM fun m => { m with rwatch := twrite {} m.rwatch k s }
  if o = 0 then put { s with tag := BitVec.ofNat 32 v } w
  else if 0x10 ≤ o ∧ o < 0x38 then
    match ackWrite (tread {} s.ctr ((o - 0x10) / 4)) (BitVec.ofNat 32 v) with
    | some c =>
      let ctr := twrite {} s.ctr ((o - 0x10) / 4) c
      put { s with ctr := ctr, lost := s.lost && ctr.any fun e => ackOut e.2 != 0 } w
    | none => refuse who off w
  else w

/-- TAKE (R101): the live sums become the held copy, and the live sums are zeroed. -/
def takeProbe (k : Nat) (w : Mach) : Mach :=
  onM (fun m =>
    let p := tread {} m.probes k
    { m with probes := twrite {} m.probes k { live := {}, held := p.live, taken := BitVec.ofNat 64 m.tick } }) w

/-! ### The weevil (R325 to R328) -/

/-- Change a channel. -/
def updChannel (ch : Nat) (f : Channel → Channel) (w : Mach) : Mach :=
  onHw (fun h => { h with channels := twrite {} h.channels ch (f (tread {} h.channels ch)) }) w

/-- A START is taken (R326): the mode is one, the range lies within the channel, and the channel's state allows the mode;
training is never seen between two commands. -/
def weevilAllowed (w : Mach) (ch : Nat) (c : Channel) : Bool :=
  let st := unitState w (0x5000 + ch)
  c.lines != 0 && decide (c.start + c.lines ≤ 589824) &&
  (match bits c.ctl.toNat 2 3 with
   | 0 => st != .retired
   | 1 => st == .pupa
   | 2 => st == .pupa
   | 3 => st == .pupa
   | _ => false)

/-- START under the current fields (R326). -/
def weevilStart (who : Requester) (off ch : Nat) (w : Mach) : Mach :=
  let c := tread {} w.m.hw.channels ch
  if c.busy || !weevilAllowed w ch c then refuse who off (updChannel ch (fun c => { c with refused := true }) w)
  else updChannel ch (fun c =>
    { c with busy := true, done := false, stopped := false, refused := false, abort := false, slots := 0, gran := 0,
             began := stateCode (unitState w (0x5000 + ch)) }) w

/-- ABORT: stop after the run in flight (R328). -/
def weevilAbort (ch : Nat) (w : Mach) : Mach := updChannel ch (fun c => if c.busy then { c with abort := true } else c) w

/-- A write to WV_CTL (R326, R328). -/
def writeWvCtl (who : Requester) (off ch v : Nat) (w : Mach) : Mach :=
  let c := tread {} w.m.hw.channels ch
  if c.busy then
    let w := if bit v 1 then weevilAbort ch w else w
    if bit v 0 then weevilStart who off ch w else if bit v 1 then w else refuse who off w
  else
    let w := updChannel ch (fun c => { c with ctl := BitVec.ofNat 32 (v &&& 0xFC) }) w
    if bit v 0 then weevilStart who off ch w else w

/-- A write in a weevil entry (R325, R328). -/
def writeWeevil (who : Requester) (off ch o v : Nat) (w : Mach) : Mach :=
  let c := tread {} w.m.hw.channels ch
  let rw (f : Channel → Channel) : Mach := if c.busy then refuse who off w else updChannel ch f w
  match o with
  | 0x04 => writeWvCtl who off ch v w
  | 0x0C => rw fun c => { c with mix := BitVec.ofNat 32 (v &&& 0x013FFFFF) }
  | 0x10 => rw fun c => { c with start := v % 2 ^ 20 }
  | 0x14 => rw fun c => { c with lines := v % 2 ^ 20 }
  | 0x18 => rw fun c => { c with seed := (c.seed >>> 32) <<< 32 ||| BitVec.ofNat 64 v }
  | 0x1C => rw fun c => { c with seed := (c.seed &&& 0xFFFFFFFF) ||| (BitVec.ofNat 64 v <<< 32) }
  | 0x28 =>
    ackReg who off c.errs v (fun e m => { m with hw := { m.hw with channels := twrite {} m.hw.channels ch { c with errs := e } } }) w
  | 0x2C =>
    ackReg who off c.corrs v (fun e m => { m with hw := { m.hw with channels := twrite {} m.hw.channels ch { c with corrs := e } } }) w
  | _ => w

/-- A write in the NM block (R301). -/
def writeNm (who : Requester) (off die o v : Nat) (w : Mach) : Mach :=
  let t := die * 5 + o / 16
  if 5 ≤ o / 16 then w
  else match o % 16 with
    | 0 => lockReg who off (decide (v % 2048 ≤ 1504)) (fun m => { m with nmPlainW := twrite 0 m.nmPlainW t (v % 2048) }) w
    | 8 => onM (fun m => { m with nmWays := twrite 0 m.nmWays t (BitVec.ofNat 32 v) }) w
    | _ => w

/-- A write in the SESS block (R350). -/
def writeSess (who : Requester) (off die o v : Nat) (w : Mach) : Mach :=
  let put (i n : Nat) : Module → Module := fun m => { m with s := { m.s with sessRegs := twrite 0 m.s.sessRegs (die * 4 + i) n } }
  match o with
  | 0x00 => lockReg who off true (put 0 (v % 2 ^ 24)) w
  | 0x04 => lockReg who off true (put 1 (v % 2 ^ 24)) w
  | 0x08 => lockReg who off (decide (v % 2 ^ 13 ≤ 5120)) (put 2 (v % 2 ^ 13)) w
  | 0x18 =>
    ackReg who off (tread {} w.m.s.sessLim die) v
      (fun c m => { m with s := { m.s with sessLim := twrite {} m.s.sessLim die c } }) w
  | _ => w

/-- A write in the CNT block (R495, R497): selections, SNAP and CLEAR wait for the boundary. -/
def writeCnt (die o v : Nat) (w : Mach) : Mach :=
  let c := tread {} w.m.cnt die
  let put (c : Cnt) : Mach := onM (fun m => { m with cnt := twrite {} m.cnt die c }) w
  if o = 0 then put { c with run := bit v 0, snap := c.snap || bit v 1, clear := c.clear || bit v 2 }
  else if 0x100 ≤ o ∧ o < 0x900 then
    let n := (o - 0x100) / 0x20
    let e := tread {} c.entries n
    let put' (e : CntEntry) : Mach := put { c with entries := twrite {} c.entries n e }
    match o % 0x20 with
    | 0x00 => put' { e with selW := BitVec.ofNat 32 (v &&& 0x80007FFF) }
    | 0x04 => put' { e with matW := BitVec.ofNat 32 v }
    | 0x08 => put' { e with maskW := BitVec.ofNat 32 v }
    | _ => w
  else w

/-- A write in the TRC block (R499, R500). -/
def writeTrc (who : Requester) (off die o v : Nat) (w : Mach) : Mach :=
  let b := tread {} w.m.k.trc die
  let put (b : TraceBuf) : Mach := onK (fun k => { k with trc := twrite {} k.trc die b }) w
  let en := b.ctl.getLsbD 0
  match o with
  | 0x00 => put { b with ctl := BitVec.ofNat 32 (v &&& 0xFFE3), head := if bit v 0 && !en then 0 else b.head }
  | 0x04 => put { b with min := BitVec.ofNat 16 v }
  | 0x08 =>
    if en then refuse who off w
    else put { b with base := BitVec.ofNat 48 (half true b.base.toNat * 2 ^ 32 + v / 65536 * 65536) }
  | 0x0C =>
    if en then refuse who off w
    else put { b with base := BitVec.ofNat 48 (v % 65536 * 2 ^ 32 + half false b.base.toNat) }
  | 0x10 => if en then refuse who off w else put { b with size := BitVec.ofNat 16 v }
  | 0x18 => ackReg who off b.drop v (fun c m => { m with k := { m.k with trc := twrite {} m.k.trc die { b with drop := c } } }) w
  | _ => w

/-- One 4-byte write of `v` to the register at a BAR0 offset by its access codes (R8): what DCTL does to a die is a step
of its own. -/
def write4 (who : Requester) (off v : Nat) (w : Mach) : Mach :=
  let (b, o) := blockOf off
  if (match b.die? with | some d => tread false w.m.hw.dieReset d | none => false) then w
  else match b with
    | .dctl => if o = 0 then writeLock who (bit v 2) (writeDet who off (bit v 0) w) else w
    | .keep => writeKeep who off o v w
    | .twin => writeTwin who off o v w
    | .geom => w
    | .budg => writeBudg who off o v w
    | .hifCfg => writeHifCfg o v w
    | .hif => writeHif 0 who off o v w
    | .serv => w
    | .vlog => refuse who off w
    | .elog => refuse who off w
    | .ktrc => refuse who off w
    | .rwatch d => writeSlot who off (d * 4096 + o / 64) (o % 64) v w
    | .probe d => if o % 64 = 0 ∧ bit v 0 = true then takeProbe (d * 4096 + o / 64) w else w
    | .hb d => writeWeevil who off (d * 256 + o / 64) (o % 64) v w
    | .nm d => writeNm who off d o v w
    | .sess d => writeSess who off d o v w
    | .cnt d => writeCnt d o v w
    | .trc d => writeTrc who off d o v w
    | .nothing => w

/-! ### The supervisor's windows (R502 to R506) -/

/-- The supervisor may read the register at an offset through the control window. -/
def windowReads (off : Nat) : Bool :=
  let (b, o) := blockOf off
  match b with
  | .keep => decide (o ≤ 0x008 ∨ (0x010 ≤ o ∧ o ≤ 0x028)) || !([0x030, 0x034, 0x038, 0x03C, 0x040, 0x044, 0x048, 0x04C,
      0x050, 0x054, 0x058, 0x060, 0x064, 0x068] : List Nat).contains o
  | .budg => false
  | .hifCfg => false
  | .hif => false
  | .vlog => false
  | .elog => false
  | .hb _ => false
  | _ => decide (off < 0x4000000)

/-- The supervisor's write through the control window reaches the register at an offset, if only to be refused there as
ACCESS_CODE, which class 0's staging registers do (R38, R504). -/
def windowWrites (off : Nat) : Bool :=
  let (b, o) := blockOf off
  match b with
  | .rwatch _ => true
  | .probe _ => true
  | .nm _ => true
  | .sess _ => o == 0x18
  | .budg => decide (o < 0x2C)
  | .cnt _ => true
  | .trc _ => true
  | .nothing => decide (off < 0x4000000)
  | _ => false

/-- An access is 4 or 8 bytes wide and aligned to its size (R502). -/
def accessShape (off n : Nat) : Bool := (n == 4 || n == 8) && off % n == 0

/-- A supervisor load through the control window (R502 to R504). -/
def winRead (t : Tid) (word : W32) (off n : Nat) (w : Mach) : Nat × Mach :=
  let who := Requester.thread t word
  let one (o : Nat) (w : Mach) : Nat × Mach :=
    if windowReads o then read4 who o w else (0, regViolation who vcProtRead false o w)
  if !accessShape off n then (0, regViolation who vcProtRead false off w)
  else
    let (a, w) := one off w
    if n = 4 then (a, w)
    else
      let (b, w) := one (off + 4) w
      (a + b * 2 ^ 32, w)

/-- A supervisor store through the control window (R502, R504). -/
def winWrite (t : Tid) (word : W32) (off n v : Nat) (w : Mach) : Mach :=
  let who := Requester.thread t word
  let one (o v : Nat) (w : Mach) : Mach :=
    if windowWrites o then write4 who o v w else regViolation who vcProtWrite true o w
  if !accessShape off n then regViolation who vcProtWrite true off w
  else if n = 4 then one off v w
  else one (off + 4) (v / 2 ^ 32) (one off (v % 2 ^ 32) w)

/-! ### BAR2 (R17, R449, R452, R461) -/

/-- The byte that a function reads at an offset of its BAR2, from keeper status memory, whatever state the dies are in (R17,
R452): none where the ring or the status word is another function's (R449). Reserved and write-only bytes read zero (R8). A
fenced module shows the words of all but its local ring as they stood (R438). -/
def bar2Byte (w : Mach) (fn off : Nat) : Option Byte :=
  let at' (own : Nat) (bs : List Byte) (i : Nat) : Option Byte := if own = fn then some (bs.getD i 0) else none
  let slot (t : Table Nat) (own base stride size : Nat) : Option Byte :=
    let o := off - base
    at' (tread 0 w.m.ringFn (own + o / stride)) (toBytes size (tread 0 t (o / stride * 2 ^ 12 + o % stride / size))) (o % size)
  let count (own key base : Nat) : Option Byte :=
    let o := off - base
    at' (tread 0 w.m.ringFn (own + o / 4)) (toBytes 4 (tread 0 w.m.h.counts (key + o / 4))) (o % 4)
  let inside (base size : Nat) : Bool := decide (base ≤ off ∧ off < base + size)
  if inside 0 0x80000 then slot w.m.h.cmdSlots 0 0 0x4000 64
  else if inside 0x100000 0x800000 then slot w.m.h.evSlots 32 0x100000 0x20000 128
  else if inside 0x900000 0x400000 then slot w.m.h.respSlots 32 0x900000 0x10000 64
  else if inside 0xD00000 0x200000 then
    let k := (off - 0xD00000) / 64
    let x := tread {} w.m.h.sw k
    let x := if w.m.twin.role = 3 ∧ x.ring ≠ 31 then tread {} w.m.twin.shown k else x
    at' (tread 0 w.m.h.swOwn (k / 1024)) (statusBytes x) (off % 64)
  else if inside 0xF00400 128 then count 0 64 0xF00400
  else if inside 0xF00500 256 then count 32 192 0xF00500
  else if inside 0xF00600 256 then count 32 256 0xF00600
  else if inside 0xF10000 0x1000 then
    some (match tget w.m.alerts ((off - 0xF10000) / 16) with | some r => (alertBytes r).getD (off % 16) 0 | none => 0)
  else if inside 0xF20000 0x4000 then
    let o := off - 0xF20000
    some ((toBytes 64 (tread 0 w.m.h.msgSlots (o / 1024 * 2 ^ 12 + o % 1024 / 64))).getD (o % 64) 0)
  else some 0

/-- A host access outside what its function may use (R243, R449): logged by the keeper. -/
def hostViolation (fn addr : Nat) (write : Bool) (w : Mach) : Mach :=
  violation unitKeeper vcHostAccess false write addr (BitVec.ofNat 32 fn) w

/-- What a function's read of `n` bytes of its BAR2 returns: zeros, with a violation, where a byte is another function's
(R241, R449). -/
def readBar2 (fn off n : Nat) (w : Mach) : List Byte × Mach :=
  let bs := (List.range n).map fun i => bar2Byte w fn (off + i)
  if bs.all Option.isSome then (bs.filterMap id, w) else (List.replicate n 0, hostViolation fn off false w)

/-- A supervisor load through the keeper window, onto the PF's BAR2 (R505): message slots, whatever else is a violation. -/
def keeperRead (t : Tid) (word : W32) (off n : Nat) (w : Mach) : Nat × Mach :=
  if accessShape off n ∧ 0xF20000 ≤ off ∧ off < 0xF24000 then
    let (bs, w) := readBar2 0 off n w
    (ofBytes bs, w)
  else (0, regViolation (.thread t word) vcProtRead false off w)

end Sys2Proof.Machine
end

