-- ==== Sys2Proof/Machine/Access.lean ====
section
/-! DEFINITION. How a thread's scalar accesses meet the store buffer, the data cache and memory (R158 to R165, R306). -/

namespace Sys2Proof.Machine
open Sys2Proof

/-- The access kinds that an ABSENT_DATA entry reports (R255). -/
def akScalar : Nat := 0x01
def akVector : Nat := 0x02
def akVmac2 : Nat := 0x03
def akTile : Nat := 0x04
def akField : Nat := 0x05
def akFrame : Nat := 0x06
def akCustom : Nat := 0x07
def akXfer : Nat := 0x08
def akFop : Nat := 0x09
def akAtomic : Nat := 0x0A

/-- The absent-translation fault of a data access (R239, R255): DETAIL[7] marks a write. -/
def absentData (kind : Nat) (write : Bool) (va : Nat) : Cause :=
  { vec := 2, detail := kind + (if write then 0x80 else 0), eaddr := BitVec.ofNat 64 va }

/-! ### The data cache (R306) -/

/-- The 64-byte sectors of a physical range. -/
def sectors64 (a n : Nat) : List Nat :=
  if n = 0 then [] else (List.range ((a + n - 1) / 64 - a / 64 + 1)).map fun i => (a / 64 + i) * 64

/-- The sector is in a VP's data cache. -/
def cached (v : Vp) (a : Nat) : Bool := (tread (0, 0) v.dcache (a / 256)).1.getLsbD (a / 64 % 4)

/-- The sectors of a load that miss. -/
def missing (w : Mach) (vp : Nat) (cs : List Chunk) : List Nat :=
  cs.flatMap fun c =>
    match c.pa with
    | some a => (sectors64 a c.len).filter fun s => !cached (vpOf w vp) s
    | none => []

/-- A load retires; where it misses, what issued it parks and is charged its near-memory sectors (R145, R300). -/
def missSectors (t : Tid) (ms : List Nat) (fin : Mach → Mach) (w : Mach) : Mach :=
  if ms.isEmpty then fin w
  else
    let w := countThread t 0x11 ms.length w
    let w := ms.foldl (fun w a =>
      chargeAccess (.thread (tkey t)) (thr w t).cls (dieOfVp t.vp.toNat) (some t) false a 64 w) w
    parkThen t (.dataMiss ms) fin w

/-- A line leaves a thread's data cache: its dirty sectors go to near memory, charged to the thread's class (R300, R306). -/
def evictLine (t : Tid) (line : Nat) (dirty : BitVec 4) (w : Mach) : Mach :=
  let n := 64 * ((List.range 4).filter fun i => dirty.getLsbD i).length
  if n = 0 then w
  else
    let cls := (thr w t).cls
    (nearAccess (.keeper 0) cls (256 * line) n 0 true
      (chargeAccess (.keeper 0) cls (dieOfVp t.vp.toNat) (some t) true (256 * line) n w)).1

/-- A sector enters the data cache of a thread's VP: with eight ways of its set in use, a line the model leaves open is
evicted (R306). -/
def fillSector (t : Tid) (a : Nat) (w : Mach) : Mach :=
  let vp := t.vp.toNat
  let v := vpOf w vp
  let line := a / 256
  let b : BitVec 4 := 1#4 <<< (a / 64 % 4)
  match tget v.dcache line with
  | some (val, dirty) => updVp vp (fun v => { v with dcache := tput v.dcache line (val ||| b, dirty) }) w
  | none =>
    let same := v.dcache.filter fun e => e.1 % 256 == line % 256
    let (n, w) := drawFree w
    let victim := if same.length < 8 then none else same[Config.pick n % 8]?
    let w := match victim with | some e => evictLine t e.1 e.2.2 w | none => w
    updVp vp (fun v =>
      let dc := match victim with | some e => tdel v.dcache e.1 | none => v.dcache
      { v with dcache := tput dc line (b, 0) }) w

/-- A store to a 64-byte sector allocates and dirties it in the data cache of the thread's VP (R306): one that misses is
fetched first, unless the store covers it whole. -/
def markDirty (t : Tid) (a : Nat) (whole : Bool) (w : Mach) : Mach :=
  let vp := t.vp.toNat
  let w := if cached (vpOf w vp) a || whole then w
    else countThread t 0x11 1 (threadTraffic t false (a / 64 * 64) 64 w)
  updVp vp (fun v =>
    match tget v.dcache (a / 256) with
    | some (val, dirty) => { v with dcache := tput v.dcache (a / 256) (val, dirty ||| 1#4 <<< (a / 64 % 4)) }
    | none => v) (fillSector t a w)

/-- The 64-byte sectors of some written bytes, each with how many of them it holds. -/
def sectorBytes (as : List Nat) : Table Nat :=
  as.foldl (fun t a => tput t (a / 64 * 64) (tread 0 t (a / 64 * 64) + 1)) []

/-- Bytes that a thread has written at once dirty their sectors (R306). -/
def dirtyBytes (t : Tid) (as : List Nat) (w : Mach) : Mach :=
  (sectorBytes as).foldl (fun w e => markDirty t e.1 (e.2 == 64) w) w

/-- The addresses of the bytes of some pieces that may be accessed. -/
def pieceBytes (cs : List Chunk) : List Nat :=
  cs.flatMap fun c => match c.pa with | some a => (List.range c.len).map fun i => a + i | none => []

/-! ### The store buffer -/

/-- The byte that the youngest buffered store covering `a` holds, if one does (R159). -/
def bufferedByte (sb : List StoreEntry) (a : Nat) : Option Byte :=
  sb.foldl (fun r e => if e.addr ≤ a ∧ a < e.addr + e.bytes.length then e.bytes[a - e.addr]? else r) none

/-- The byte that a thread's load sees at `a` (R159). -/
def loadByte (w : Mach) (th : Thread) (a : Nat) : Byte := (bufferedByte th.sbuf a).getD (seenByte w a)

/-- The entries of a store: two that drain together when it crosses a 64-byte sector (R158). -/
def storeEntries (a : Nat) (bs : List Byte) : List StoreEntry :=
  let k := 64 - a % 64
  if bs.length ≤ k then [{ addr := a, bytes := bs }]
  else [{ addr := a, bytes := bs.take k, pair := true }, { addr := a + k, bytes := bs.drop k }]

/-- One entry becomes visible to every thread at once (R160, R161). The port of a fenced VP lets it not out: it is ignored, and
the record tells the unit (R242, R413). -/
def drainEntry (t : Tid) (e : StoreEntry) (w : Mach) : Mach :=
  let u := unitVp t.vp.toNat
  if fenced w u then violation u vcStaleUnit false true e.addr (BitVec.ofNat 32 t.vp.toNat) w
  else markDirty t e.addr false (threadStore (some t.vp.toNat) e.addr e.bytes w)

/-- The park of what waits once `k` entries have drained: a store that wanted no more than that has room, and a FENCE whose
buffer is empty ends (R145, R162). -/
def parkDrained (k : Nat) (empty : Bool) (p : Park) : Park :=
  match p with
  | .storeFull n => if n ≤ k then .none else .storeFull (n - k)
  | .fence => if empty then .none else .fence
  | p => p

/-- The `k` oldest entries leave the buffer. -/
def leaveBuffer (k : Nat) (th : Thread) : Thread :=
  let sb := th.sbuf.drop k
  mapParks (parkDrained k sb.isEmpty) { th with sbuf := sb }

/-- The oldest store drains, both entries of one that crosses a sector (R158). -/
def drainOldest (t : Tid) (w : Mach) : Mach :=
  match (thr w t).sbuf with
  | [] => w
  | [e] => drainEntry t e (wake t (leaveBuffer 1) w)
  | e :: e' :: _ =>
    if e.pair then drainEntry t e' (drainEntry t e (wake t (leaveBuffer 2) w))
    else drainEntry t e (wake t (leaveBuffer 1) w)

/-- Every store that the thread has issued drains, in program order (R158, R163). -/
def drainStores (t : Tid) (w : Mach) : Mach := iterate (thr w t).sbuf.length (fun _ w => drainOldest t w) w

/-- A store retires: its entries enter the buffer in program order, or stand behind it while what issued it parks until there
is room (R158, R160). -/
def bufferStore (t : Tid) (es : List StoreEntry) (fin : Mach → Mach) (w : Mach) : Mach :=
  let es := es.map fun e => { e with born := w.m.x.drops }
  let n := (thr w t).sbuf.length + es.length
  let w := updThr t (fun th => { th with sbuf := th.sbuf ++ es }) w
  if es.isEmpty || n ≤ 8 then fin w else parkThen t (.storeFull (n - 8)) fin w

/-! ### Scalar accesses -/

/-- What a scalar access may reach (R275): device memory, and the windows at supervisor level. -/
def scalarMayReach (w : Mach) (priv : Bool) (a : Nat) : Bool :=
  isDevice w a || (priv && decide (0xFF0000000000 ≤ a))

/-- Translate a scalar access. -/
def scalarPieces (w : Mach) (t : Tid) (n : Need) (va len : Nat) : Except Nat (List Chunk) :=
  let th := thr w t
  let u := unitVp t.vp.toNat
  (pieces w (vpOf w t.vp.toNat).tlb (ctxOf th) n (throughPort w u (scalarMayReach w th.priv)) va len).map (markPort w u)

/-- A piece lies in the control or keeper window, at this address. -/
def inWindow (c : Chunk) : Option Nat := c.pa.bind fun a => if 0xFF0000000000 ≤ a then some a else none

/-- The window that an access lies in, if it does: a physical address of the control or keeper window. -/
def windowOf (cs : List Chunk) : Option Nat :=
  match cs with
  | [c] => inWindow c
  | _ => none

/-- The access lies across two pages, one of them in a window: no window access has that form (R502). -/
def crossesWindow (cs : List Chunk) : Bool := decide (1 < cs.length) && cs.any fun c => (inWindow c).isSome

/-- The bytes that a load of the thread's sees: buffered stores first, denied pieces as zero (R159, R241). -/
def loadPieces (w : Mach) (th : Thread) (cs : List Chunk) : List Byte :=
  cs.flatMap fun c =>
    match c.pa with
    | some a => (List.range c.len).map fun i => loadByte w th (a + i)
    | none => List.replicate c.len 0

/-- The turns of a scalar access: 2 across a 64-byte sector (R173). -/
def accessTurns (va n : Nat) : Nat := if va / 64 = (va + n - 1) / 64 then 1 else 2

/-- A scalar load of `n` bytes at `va` (R159, R165): `k` writes the register. -/
def scalarLoad (t : Tid) (word : W32) (va : W64) (n : Nat) (k : List Byte → Mach → Mach) : Mach → Mach := fun w =>
  let w := threadWalks t va.toNat n w
  match scalarPieces w t .read va.toNat n with
  | .error a => raise t (absentData akScalar false a) w
  | .ok cs =>
    match windowOf cs with
    | some a =>
      let w := drainStores t w
      let (v, w) := if a < 0xFF8000000000 then winRead t word (a - 0xFF0000000000) n w
                    else keeperRead t word (a - 0xFF8000000000) n w
      done t (accessTurns va.toNat n) (k (toBytes n v) w)
    | none =>
      if crossesWindow cs then
        done t (accessTurns va.toNat n)
          (k (List.replicate n 0) (violThread t vcProtRead false va.toNat word (drainStores t w)))
      else
      let bs := loadPieces w (thr w t) cs
      let ms := missing w t.vp.toNat cs
      let w := logDenied t false word cs w
      readCheck t cs (missSectors t ms (done t (accessTurns va.toNat n)) (k bs (tookOpen cs w)))

/-- The entries of the pieces of a store that may be written (R165). -/
def pieceEntries (cs : List Chunk) (bs : List Byte) : List StoreEntry :=
  match cs with
  | [] => []
  | c :: r =>
    (match c.pa with
     | some a => storeEntries a (bs.take c.len)
     | none => []) ++ pieceEntries r (bs.drop c.len)

/-- The entries of a store (R154, R158): two of one store drain together. -/
def storeChunks (cs : List Chunk) (bs : List Byte) : List StoreEntry :=
  match pieceEntries cs bs with
  | [e, e'] => [{ e with pair := true }, e']
  | es => es

/-- A scalar store (R154, R158, R165): a denied piece never enters the buffer. -/
def scalarStore (t : Tid) (word : W32) (va : W64) (bs : List Byte) : Mach → Mach := fun w =>
  let w := threadWalks t va.toNat bs.length w
  match scalarPieces w t .write va.toNat bs.length with
  | .error a => raise t (absentData akScalar true a) w
  | .ok cs =>
    match windowOf cs with
    | some a =>
      let w := drainStores t w
      let w := if a < 0xFF8000000000 then winWrite t word (a - 0xFF0000000000) bs.length (ofBytes bs) w
               else violThread t vcProtWrite true a word w
      done t (accessTurns va.toNat bs.length) w
    | none =>
      if crossesWindow cs then
        done t (accessTurns va.toNat bs.length) (violThread t vcProtWrite true va.toNat word (drainStores t w))
      else
      let w := logDenied t true word cs w
      bufferStore t (storeChunks cs bs) (done t (accessTurns va.toNat bs.length)) w

end Sys2Proof.Machine
end

