-- ==== Sys2Proof/Machine/Formats.lean ====
section
/-! DEFINITION. Number formats (R49 to R74): exact values, rounding, encodings, conversions, arithmetic and comparison.
A finite value is an exact dyadic number, and every operation rounds once. -/

namespace Sys2Proof.Machine
open Sys2Proof

/-- The value of an encoded element: not a number, an infinity, a finite (-1)^neg × m × 2^e, or INT32's overflow code
(R58). -/
inductive Num where
  | nan
  | inf (neg : Bool)
  | fin (neg : Bool) (m : Nat) (e : Int)
  | over
  deriving DecidableEq, Repr

/-- A rounding mode (R64); SR carries its random value (R65). -/
inductive Rm where
  | rne | rtz | sr (r : Nat)
  deriving DecidableEq, Repr

/-- A format event that the range watch counts (R74, R97). -/
inductive Watch where
  | saturate | overflowCode | nanMade | nanToZero | reservedCode | elytraConflict
  | codeMade | infMade | shiftLoss | floorLoss
  deriving DecidableEq, Repr

/-- Special values of a floating-point format: IEEE, E4M3 (no infinity, one NaN code) or E2M1 (neither). -/
inductive Special where
  | ieee | e4m3 | e2m1
  deriving DecidableEq, Repr

/-- A floating-point format: exponent bits, fraction bits, specials (R49). -/
structure FFmt where
  eb : Nat
  fb : Nat
  sp : Special := .ieee
  deriving DecidableEq, Repr

def b64 : FFmt := ⟨11, 52, .ieee⟩
def b32 : FFmt := ⟨8, 23, .ieee⟩
def b16 : FFmt := ⟨5, 10, .ieee⟩
def bf16 : FFmt := ⟨8, 7, .ieee⟩
def e4m3 : FFmt := ⟨4, 3, .e4m3⟩
def e5m2 : FFmt := ⟨5, 2, .ieee⟩
def e2m1 : FFmt := ⟨2, 1, .e2m1⟩

namespace FFmtOps

/-- Bits of an encoding. -/
def width (f : FFmt) : Nat := 1 + f.eb + f.fb
/-- Exponent bias (R49). -/
def bias (f : FFmt) : Nat := 2 ^ (f.eb - 1) - 1
/-- The canonical quiet NaN (R52). -/
def nanCode (f : FFmt) : Nat :=
  match f.sp with
  | .e4m3 => 0x7F
  | _ => (2 ^ f.eb - 1) * 2 ^ f.fb + 2 ^ (f.fb - 1)
/-- The largest finite encoding without its sign. -/
def maxCode (f : FFmt) : Nat :=
  match f.sp with
  | .ieee => (2 ^ f.eb - 1) * 2 ^ f.fb - 1
  | .e4m3 => 0x7E
  | .e2m1 => 0x7
/-- The sign bit over a magnitude code. -/
def withSign (f : FFmt) (neg : Bool) (c : Nat) : Nat := if neg then 2 ^ (f.eb + f.fb) + c else c

end FFmtOps
open FFmtOps

/-- The value of an encoding (R49, R51, R54, R55). -/
def decodeF (f : FFmt) (b : Nat) : Num :=
  let neg := b.testBit (f.eb + f.fb)
  let ex := bits b f.fb f.eb
  let fr := b % 2 ^ f.fb
  let fin : Num :=
    if ex = 0 then .fin neg fr (1 - (bias f : Int) - f.fb)
    else .fin neg (2 ^ f.fb + fr) ((ex : Int) - bias f - f.fb)
  match f.sp with
  | .ieee => if ex = 2 ^ f.eb - 1 then (if fr = 0 then .inf neg else .nan) else fin
  | .e4m3 => if ex = 15 ∧ fr = 7 then .nan else fin
  | .e2m1 => fin

/-- A magnitude m × 2^e as a multiple of 2^q, rounded by a mode (R64, R65). -/
def roundTo (rm : Rm) (m : Nat) (e q : Int) : Nat :=
  if q ≤ e then m <<< (e - q).toNat
  else
    let d := (q - e).toNat
    let k := m >>> d
    let rem := m % 2 ^ d
    match rm with
    | .rtz => k
    | .rne =>
      let half := 2 ^ (d - 1)
      if half < rem ∨ (rem = half ∧ k % 2 = 1) then k + 1 else k
    | .sr r => if 2 ^ 16 ≤ (rem * 2 ^ 16) >>> d + r then k + 1 else k

/-- Compare magnitudes m × 2^e: less than. -/
def magLt (m1 : Nat) (e1 : Int) (m2 : Nat) (e2 : Int) : Bool :=
  let e := min e1 e2
  decide (m1 <<< (e1 - e).toNat < m2 <<< (e2 - e).toNat)

/-- What a finite overflow gives (R66, R67): the code and the event, if one is counted. -/
def overflowCode (f : FFmt) (neg sat : Bool) : Nat × List Watch :=
  match f.sp with
  | .e2m1 => (withSign f neg (maxCode f), [.saturate])
  | .e4m3 => if sat then (withSign f neg (maxCode f), [.saturate]) else (nanCode f, [.nanMade])
  | .ieee =>
    if sat then (withSign f neg (maxCode f), [.saturate])
    else (withSign f neg ((2 ^ f.eb - 1) * 2 ^ f.fb), [])

/-- Encode a finite magnitude: rounded as if the exponent had no upper limit, then the overflow rule (R66). -/
def encodeFin (f : FFmt) (rm : Rm) (sat neg : Bool) (m : Nat) (e : Int) : Nat × List Watch :=
  if m = 0 then (withSign f neg 0, [])
  else
    let top : Int := e + (m.log2 : Int)
    let q : Int := max top (1 - (bias f : Int)) - f.fb
    let k := roundTo rm m e q
    let c : Int := (q + f.fb + bias f - 1) * 2 ^ f.fb + k
    if (maxCode f : Int) < c then
      (if rm = .rtz then
        (withSign f neg (maxCode f), if sat || f.sp == .e2m1 then [.saturate] else [])
      else overflowCode f neg sat)
    else
      -- under RTZ a magnitude above the largest finite value rounds to it and may be counted (R74)
      let big := match decodeF f (maxCode f) with
        | .fin _ mm me => magLt mm me m e
        | _ => false
      (withSign f neg c.toNat,
        if rm = .rtz && big && (sat || f.sp == .e2m1) then [.saturate] else [])

/-- Encode a value in a floating-point format (R53, R66). -/
def encodeF (f : FFmt) (rm : Rm) (sat : Bool) (x : Num) : Nat × List Watch :=
  match x with
  | .nan => (nanCode f, [])
  | .over => (nanCode f, [.overflowCode])
  | .inf neg =>
    match f.sp with
    | .ieee => (withSign f neg ((2 ^ f.eb - 1) * 2 ^ f.fb), [])
    | .e4m3 => if sat then (withSign f neg (maxCode f), [.saturate]) else (nanCode f, [.nanMade])
    | .e2m1 => (withSign f neg (maxCode f), [.saturate])
  | .fin neg m e => encodeFin f rm sat neg m e

/-- Round to nearest even and encode, events aside: what every scalar and vector arithmetic result does (R176). -/
def rneF (f : FFmt) (x : Num) : Nat := (encodeF f .rne false x).1

/-- Convert a value to an integer in [lo, hi], saturating (R66): INT32, INT8, INT4, T2 and the 64-bit integers. A NaN
gives 0; the overflow code gives the most positive value. -/
def toRange (lo hi : Int) (rm : Rm) (x : Num) : Int × List Watch :=
  match x with
  | .nan => (0, [.nanToZero])
  | .over => (hi, [.overflowCode])
  | .inf neg => (if neg then lo else hi, [.saturate])
  | .fin neg m e =>
    let k := roundTo rm m e 0
    let v : Int := if neg then -(k : Int) else k
    let ends : Int := if neg then lo else hi
    let outside := if neg then decide (v < lo) else decide (hi < v)
    let beyond := rm == .rtz && magLt ends.natAbs 0 m e
    if outside then (ends, [.saturate]) else (v, if beyond then [.saturate] else [])

/-- An integer as a value. -/
def ofInt (i : Int) : Num := .fin (decide (i < 0)) i.natAbs 0

/-! ### Arithmetic -/

/-- The negated value. -/
def negN : Num → Num
  | .nan => .nan
  | .inf s => .inf (!s)
  | .fin s m e => .fin (!s) m e
  | .over => .over

/-- The exact sum; a zero sum of unlike signs is +0 (R70). -/
def addN (a b : Num) : Num :=
  match a, b with
  | .fin sa ma ea, .fin sb mb eb =>
    let e := min ea eb
    let x : Int := (ma <<< (ea - e).toNat : Nat)
    let y : Int := (mb <<< (eb - e).toNat : Nat)
    let v := (if sa then -x else x) + (if sb then -y else y)
    if v = 0 then .fin (sa && sb) 0 e else .fin (decide (v < 0)) v.natAbs e
  | .inf sa, .inf sb => if sa = sb then .inf sa else .nan
  | .inf sa, .fin _ _ _ => .inf sa
  | .fin _ _ _, .inf sb => .inf sb
  | _, _ => .nan

/-- The exact product. -/
def mulN (a b : Num) : Num :=
  match a, b with
  | .fin sa ma ea, .fin sb mb eb => .fin (sa != sb) (ma * mb) (ea + eb)
  | .inf sa, .inf sb => .inf (sa != sb)
  | .inf sa, .fin sb m _ => if m = 0 then .nan else .inf (sa != sb)
  | .fin sa m _, .inf sb => if m = 0 then .nan else .inf (sa != sb)
  | _, _ => .nan

/-- The quotient to `p` bits and more, the rest folded into the last bit so that it rounds as the exact one does. -/
def divN (p : Nat) (a b : Num) : Num :=
  match a, b with
  | .fin sa ma ea, .fin sb mb eb =>
    if mb = 0 then (if ma = 0 then .nan else .inf (sa != sb))
    else
      let k := p + 4 + mb.log2
      let n := ma <<< k
      .fin (sa != sb) (2 * (n / mb) + b2n (n % mb != 0)) (ea - eb - k - 1)
  | .inf _, .inf _ => .nan
  | .inf sa, .fin sb _ _ => .inf (sa != sb)
  | .fin sa _ _, .inf sb => .fin (sa != sb) 0 0
  | _, _ => .nan

/-- The integer square root by its bits from `2^k` down. -/
def isqrtFrom (n : Nat) : Nat → Nat → Nat
  | 0, r => r
  | k + 1, r => let r' := r + 2 ^ k; isqrtFrom n k (if r' * r' ≤ n then r' else r)

/-- The integer square root. -/
def isqrt (n : Nat) : Nat := isqrtFrom n (n.log2 / 2 + 1) 0

/-- The square root to more than `p` bits, sticky below. -/
def sqrtN (p : Nat) (a : Num) : Num :=
  match a with
  | .fin s m e =>
    if m = 0 then .fin s 0 0
    else if s then .nan
    else
      let k := 2 * p + 8 + (if (e - (2 * p + 8 : Int)) % 2 = 0 then 0 else 1)
      let n := m <<< k
      let r := isqrt n
      .fin false (2 * r + b2n (r * r != n)) ((e - k) / 2 - 1)
  | .inf false => .inf false
  | _ => .nan

/-- Fused a × b + c, exact. -/
def fmaN (a b c : Num) : Num := addN (mulN a b) c

/-- a < b on numbers (R72): never with a NaN, and zeros are equal. -/
def ltN (a b : Num) : Bool :=
  match a, b with
  | .fin sa ma ea, .fin sb mb eb =>
    if ma = 0 ∧ mb = 0 then false
    else
      match sa && ma != 0, sb && mb != 0 with
      | false, false => magLt ma ea mb eb
      | true, false => true
      | false, true => false
      | true, true => magLt mb eb ma ea
  | .inf sa, .inf sb => sa && !sb
  | .inf sa, .fin _ _ _ => sa
  | .fin _ _ _, .inf sb => !sb
  | _, _ => false

/-- Either is a NaN. -/
def unordN (a b : Num) : Bool := a == .nan || b == .nan

/-- a = b on numbers (R72). -/
def eqN (a b : Num) : Bool := !unordN a b && !ltN a b && !ltN b a

/-- Maximum or minimum of two encodings (R70, R71). -/
def maxMinF (f : FFmt) (isMax : Bool) (x y : Nat) : Nat :=
  let a := decodeF f x
  let b := decodeF f y
  if unordN a b then nanCode f
  else if ltN a b then (if isMax then y else x)
  else if ltN b a then (if isMax then x else y)
  else
    -- equal: only zeros can differ, and +0 is above -0
    let nx := x.testBit (f.eb + f.fb)
    if nx == isMax then y else x

/-- The totalOrder key of an encoding of `w` bits (R73). -/
def orderKey (w b : Nat) : Nat := if b.testBit (w - 1) then 2 ^ w - 1 - b % 2 ^ w else b % 2 ^ w + 2 ^ (w - 1)

/-! ### The rounding generator (R90) -/

/-- The SplitMix64 finaliser of R90. -/
def splitMix (z : W64) : W64 :=
  let z := (z ^^^ (z >>> 30)) * 0xBF58476D1CE4E5B9
  let z := (z ^^^ (z >>> 27)) * 0x94D049BB133111EB
  z ^^^ (z >>> 31)

/-- The 16-bit random value of R90 for a seed, an operation, an element and a hop. -/
def drawSr (seed : W64) (op element hop : Nat) : Nat :=
  let counter := BitVec.ofNat 64 ((op % 2 ^ 31) <<< 33 + (element % 2 ^ 26) <<< 7 + hop % 128)
  ((splitMix (seed ^^^ counter)) >>> 48).toNat

/-! ### Formats by code (R110) and conversions (R66) -/

/-- The floating-point format of a code, MX element formats included. -/
def ffmtOf (c : Nat) : Option FFmt :=
  match c with
  | 0 => some b64 | 1 => some b32 | 2 => some b16 | 3 => some bf16 | 4 => some e4m3 | 5 => some e5m2
  | 6 => some e2m1 | 0xB => some e4m3 | 0xC => some e5m2
  | _ => none

/-- Bits of an element of a format code. -/
def fmtBits (c : Nat) : Nat :=
  match c with
  | 0 => 64 | 1 => 32 | 2 => 16 | 3 => 16 | 4 => 8 | 5 => 8 | 6 => 4 | 7 => 8 | 8 => 4 | 9 => 2 | 0xA => 32
  | 0xB => 8 | 0xC => 8 | _ => 0

/-- The format comes in MX blocks. -/
def fmtMx (c : Nat) : Bool := c == 6 || c == 8 || c == 9 || c == 0xB || c == 0xC

/-- A format code that is not reserved (R110). -/
def fmtValid (c : Nat) : Bool := decide (c ≤ 0xC)

/-- The value of an element (R54 to R58): a reserved T2 code reads as 0 and is counted. -/
def decodeElem (c b : Nat) : Num × List Watch :=
  match ffmtOf c with
  | some f => (decodeF f b, [])
  | none =>
    match c with
    | 7 => (ofInt (toSigned 8 b), [])
    | 8 => (ofInt (toSigned 4 b), [])
    | 9 => if b = 1 then (ofInt 1, []) else if b = 3 then (ofInt (-1), [])
           else (ofInt 0, if b = 2 then [.reservedCode] else [])
    | 0xA => (if b = 0x80000000 then .over else ofInt (toSigned 32 b), [])
    | _ => (ofInt 0, [])

/-- The integer range of a destination format (R58, R66). -/
def intRange (c : Nat) : Int × Int :=
  match c with
  | 7 => (-128, 127) | 8 => (-8, 7) | 9 => (-1, 1) | _ => (-(2 ^ 31 - 1), 2 ^ 31 - 1)

/-- Encode a value as an element (R66). -/
def encodeElem (c : Nat) (rm : Rm) (sat : Bool) (x : Num) : Nat × List Watch :=
  match ffmtOf c with
  | some f => encodeF f rm sat x
  | none =>
    let (lo, hi) := intRange c
    let (v, ev) := toRange lo hi rm x
    (wrapInt (fmtBits c) v, ev)

/-- A pair of formats that one conversion or copy serves (R66, R310): any two that are not MX, packing from one that is
not MX, and unpacking to binary64 or binary32, or from FP4, INT4 or T2 to any float that is not MX (log 95). -/
def hasPath (src dst : Nat) : Bool :=
  fmtValid src && fmtValid dst &&
  (if src == 0xB || src == 0xC then decide (dst ≤ 1) else if fmtMx src then decide (dst ≤ 5) else true)

/-- Convert one element between formats that are not MX: one format to itself keeps every bit (R53, R66). -/
def convertElem (src dst : Nat) (rm : Rm) (sat : Bool) (b : Nat) : Nat × List Watch :=
  if src = dst then (b, [])
  else
    let (x, ev) := decodeElem src b
    let (y, ev') := encodeElem dst rm sat x
    (y, ev ++ ev')

end Sys2Proof.Machine
end

