-- ==== Sys2Proof/Machine/Watch.lean ====
section
/-! DEFINITION. The range watch (R96 to R98) and the source of stochastic rounding (R90, R91, R361). -/

namespace Sys2Proof.Machine
open Sys2Proof

/-- The counter of an event among the ten of a slot (R98). -/
def watchIndex : Watch → Nat
  | .saturate => 0 | .overflowCode => 1 | .nanMade => 2 | .nanToZero => 3 | .reservedCode => 4
  | .elytraConflict => 5 | .codeMade => 6 | .infMade => 7 | .shiftLoss => 8 | .floorLoss => 9

/-- Some counter of the slot has events outstanding: ANY (R98). -/
def rwAny (s : RwSlot) : Bool := s.ctr.any fun e => ackOut e.2 != 0

/-- One event in a slot: FIRST is kept while ANY is set; past 0xFFFF_FFFF outstanding it is lost (R98). -/
def rwEvent (tick : Nat) (e : Watch) (s : RwSlot) : RwSlot :=
  let c := tread {} s.ctr (watchIndex e)
  if ackOut c = 0xFFFFFFFF then { s with lost := true }
  else
    { s with first := if rwAny s then s.first else BitVec.ofNat 64 tick,
             ctr := twrite {} s.ctr (watchIndex e) (ackEvent c) }

/-- Count events in a slot of a die's range watch (R96). -/
def rwCount (die : Nat) (slot : BitVec 12) (es : List Watch) (w : Mach) : Mach :=
  if es.isEmpty then w
  else onM (fun m =>
    let k := die * 4096 + slot.toNat
    { m with rwatch := twrite {} m.rwatch k (es.foldl (fun s e => rwEvent m.tick e s) (tread {} m.rwatch k)) }) w

/-- The random value of one rounding: hardware entropy where DET is clear and the context selects it, otherwise the
generator (R91). -/
def drawR (entropy : Bool) (seed : W64) (op element hop : Nat) (w : Mach) : Nat × Mach :=
  if entropy then
    let (n, w) := drawFree w
    (((Config.entropy n).setWidth 16).toNat, w)
  else (drawSr seed op element hop, w)

/-- The rounding of one element of a conversion: RM 0b11 is RNE (R64). -/
def roundingOf (rm : Nat) (entropy : Bool) (seed : W64) (op element hop : Nat) (w : Mach) : Rm × Mach :=
  match rm with
  | 1 => (.rtz, w)
  | 2 => let (r, w) := drawR entropy seed op element hop w; (.sr r, w)
  | _ => (.rne, w)

/-- A thread selects hardware entropy for its conversions (R361). -/
def usesEntropy (th : Thread) : Bool := th.rngsel && !th.det

end Sys2Proof.Machine
end

