-- ==== Sys2Proof/Machine/ScalarFp.lean ====
section
/-! DEFINITION. Scalar floating point (R53, R71, R72, R173, R176, R177): no exceptions and no flags. -/

namespace Sys2Proof.Machine
open Sys2Proof

/-- A scalar floating-point operation of major 0x1B on f registers (R173). -/
inductive FpOp where
  | add | sub | mul | div | sqrt | min | max | neg | abs | sgn
  deriving DecidableEq, Repr

/-- The comparison operations (R72). -/
inductive FpCmp where
  | eq | lt | le | un
  deriving DecidableEq, Repr

/-- The fused operations of major 0x1C (R173). -/
inductive FmaOp where
  | fma | fms | fnma | fnms
  deriving DecidableEq, Repr

/-- The format that a selection bit names (R173). -/
def scalarFmt (dbl : Bool) : FFmt := if dbl then b64 else b32

/-- The encoding that a scalar read of a format takes from an f register (R147). -/
def scalarIn (dbl : Bool) (v : W64) : Nat := if dbl then v.toNat else v.toNat % 2 ^ 32

/-- A scalar operation on encodings; min, max and the sign operations as R53 and R71 give. -/
def fpOp (op : FpOp) (f : FFmt) (a b : Nat) : Nat :=
  let x := decodeF f a
  let y := decodeF f b
  let sb := 2 ^ (f.eb + f.fb)
  match op with
  | .add => rneF f (addN x y)
  | .sub => rneF f (addN x (negN y))
  | .mul => rneF f (mulN x y)
  | .div => rneF f (divN f.fb x y)
  | .sqrt => rneF f (sqrtN f.fb x)
  | .min => maxMinF f false a b
  | .max => maxMinF f true a b
  | .neg => a ^^^ sb
  | .abs => a % sb
  | .sgn => a % sb + (if b.testBit (f.eb + f.fb) then sb else 0)

/-- The turns of a scalar operation: 12 for divide and square root. -/
def fpTurns : FpOp → Nat
  | .div => 12 | .sqrt => 12 | _ => 1

/-- A comparison of encodings (R72). -/
def fpCmp (op : FpCmp) (f : FFmt) (a b : Nat) : Bool :=
  let x := decodeF f a
  let y := decodeF f b
  match op with
  | .eq => eqN x y
  | .lt => ltN x y
  | .le => ltN x y || eqN x y
  | .un => unordN x y

/-- A fused operation on encodings, rounded once. -/
def fmaOp (op : FmaOp) (f : FFmt) (a b c : Nat) : Nat :=
  let x := decodeF f a
  let y := decodeF f b
  let z := decodeF f c
  match op with
  | .fma => rneF f (fmaN x y z)
  | .fms => rneF f (fmaN x y (negN z))
  | .fnma => rneF f (fmaN (negN x) y (negN z))
  | .fnms => rneF f (fmaN (negN x) y z)

/-- Write an f register with a scalar result (R147). -/
def setF (t : Tid) (rd : Reg) (v : Nat) (w : Mach) : Mach := updThr t (putF rd (BitVec.ofNat 64 v)) w

/-- A two-operand scalar instruction. -/
def fpRegister (t : Tid) (op : FpOp) (rd ra rb : Reg) (dbl : Bool) : Mach → Mach := fun w =>
  let th := thr w t
  done t (fpTurns op)
    (setF t rd (fpOp op (scalarFmt dbl) (scalarIn dbl (getF th ra)) (scalarIn dbl (getF th rb))) w)

/-- A comparison that writes a g register. -/
def fpCompare (t : Tid) (op : FpCmp) (rd ra rb : Reg) (dbl : Bool) : Mach → Mach := fun w =>
  let th := thr w t
  done t 1 (setG t rd
    (flag64 (fpCmp op (scalarFmt dbl) (scalarIn dbl (getF th ra)) (scalarIn dbl (getF th rb)))) w)

/-- A fused instruction. -/
def fpFused (t : Tid) (op : FmaOp) (rd ra rb rc : Reg) (dbl : Bool) : Mach → Mach := fun w =>
  let th := thr w t
  let x r := scalarIn dbl (getF th r)
  done t 1 (setF t rd (fmaOp op (scalarFmt dbl) (x ra) (x rb) (x rc)) w)

/-- The two 64-bit integer ranges of FCVT (R177). -/
def int64Range (signed : Bool) : Int × Int := if signed then (-(2 ^ 63), 2 ^ 63 - 1) else (0, 2 ^ 64 - 1)

/-- FCVT's result for an rb field that is not reserved (R177): from the f or g operand, under a rounding. -/
def fcvtValue (op : Nat) (dbl : Bool) (rm : Rm) (fa ga : W64) : Nat :=
  let src := decodeF (scalarFmt dbl) (scalarIn dbl fa)
  let toInt (signed : Bool) : Nat :=
    let (lo, hi) := int64Range signed
    wrapInt 64 (toRange lo hi rm src).1
  match op with
  | 0 => (encodeF (scalarFmt (!dbl)) rm false src).1
  | 1 => toInt true
  | 2 => (encodeF (scalarFmt dbl) rm false (ofInt ga.toInt)).1
  | 3 => toInt false
  | _ => (encodeF (scalarFmt dbl) rm false (.fin false ga.toNat 0)).1

/-- The rounding of FCVT (R177): the keys of the Convert stage, element 0, hop all ones (R65, R90). -/
def fcvtRounding (t : Tid) (rm : BitVec 2) (w : Mach) : Rm × Mach :=
  let th := thr w t
  roundingOf rm.toNat (usesEntropy th) th.seed th.step.toNat 0 127 w

/-- FADD (R173, R176). -/
def execFadd (t : Tid) (rd ra rb : Reg) (dbl : Bool) (s : State) : Host.Outcome State Fault Refusal :=
  issue t (fpRegister t .add rd ra rb dbl) s

/-- FSUB (R173, R176). -/
def execFsub (t : Tid) (rd ra rb : Reg) (dbl : Bool) (s : State) : Host.Outcome State Fault Refusal :=
  issue t (fpRegister t .sub rd ra rb dbl) s

/-- FMUL (R173, R176). -/
def execFmul (t : Tid) (rd ra rb : Reg) (dbl : Bool) (s : State) : Host.Outcome State Fault Refusal :=
  issue t (fpRegister t .mul rd ra rb dbl) s

/-- FDIV (R173, R176). -/
def execFdiv (t : Tid) (rd ra rb : Reg) (dbl : Bool) (s : State) : Host.Outcome State Fault Refusal :=
  issue t (fpRegister t .div rd ra rb dbl) s

/-- FMIN (R173, R176). -/
def execFmin (t : Tid) (rd ra rb : Reg) (dbl : Bool) (s : State) : Host.Outcome State Fault Refusal :=
  issue t (fpRegister t .min rd ra rb dbl) s

/-- FMAX (R173, R176). -/
def execFmax (t : Tid) (rd ra rb : Reg) (dbl : Bool) (s : State) : Host.Outcome State Fault Refusal :=
  issue t (fpRegister t .max rd ra rb dbl) s

/-- FSGN (R173, R176). -/
def execFsgn (t : Tid) (rd ra rb : Reg) (dbl : Bool) (s : State) : Host.Outcome State Fault Refusal :=
  issue t (fpRegister t .sgn rd ra rb dbl) s

/-- FSQRT (R173, R176): one operand. -/
def execFsqrt (t : Tid) (rd ra : Reg) (dbl : Bool) (s : State) : Host.Outcome State Fault Refusal :=
  issue t (fpRegister t .sqrt rd ra ra dbl) s

/-- FNEG (R173, R176): one operand. -/
def execFneg (t : Tid) (rd ra : Reg) (dbl : Bool) (s : State) : Host.Outcome State Fault Refusal :=
  issue t (fpRegister t .neg rd ra ra dbl) s

/-- FABS (R173, R176): one operand. -/
def execFabs (t : Tid) (rd ra : Reg) (dbl : Bool) (s : State) : Host.Outcome State Fault Refusal :=
  issue t (fpRegister t .abs rd ra ra dbl) s

/-- FEQ (R72): rd is a g register. -/
def execFeq (t : Tid) (rd ra rb : Reg) (dbl : Bool) (s : State) : Host.Outcome State Fault Refusal :=
  issue t (fpCompare t .eq rd ra rb dbl) s

/-- FLT (R72): rd is a g register. -/
def execFlt (t : Tid) (rd ra rb : Reg) (dbl : Bool) (s : State) : Host.Outcome State Fault Refusal :=
  issue t (fpCompare t .lt rd ra rb dbl) s

/-- FLE (R72): rd is a g register. -/
def execFle (t : Tid) (rd ra rb : Reg) (dbl : Bool) (s : State) : Host.Outcome State Fault Refusal :=
  issue t (fpCompare t .le rd ra rb dbl) s

/-- FUN (R72): rd is a g register. -/
def execFunord (t : Tid) (rd ra rb : Reg) (dbl : Bool) (s : State) : Host.Outcome State Fault Refusal :=
  issue t (fpCompare t .un rd ra rb dbl) s

/-- FMA (R173, R176). -/
def execFma (t : Tid) (rd ra rb rc : Reg) (dbl : Bool) (s : State) : Host.Outcome State Fault Refusal :=
  issue t (fpFused t .fma rd ra rb rc dbl) s

/-- FMS (R173, R176). -/
def execFms (t : Tid) (rd ra rb rc : Reg) (dbl : Bool) (s : State) : Host.Outcome State Fault Refusal :=
  issue t (fpFused t .fms rd ra rb rc dbl) s

/-- FNMA (R173, R176). -/
def execFnma (t : Tid) (rd ra rb rc : Reg) (dbl : Bool) (s : State) : Host.Outcome State Fault Refusal :=
  issue t (fpFused t .fnma rd ra rb rc dbl) s

/-- FNMS (R173, R176). -/
def execFnms (t : Tid) (rd ra rb rc : Reg) (dbl : Bool) (s : State) : Host.Outcome State Fault Refusal :=
  issue t (fpFused t .fnms rd ra rb rc dbl) s

/-- FCVT (R177): the rb field selects the conversion; fields 5 to 31 are reserved, an undefined word (R169). -/
def execFcvt (t : Tid) (rd ra : Reg) (op : BitVec 5) (dbl : Bool) (rm : BitVec 2) (s : State) :
    Host.Outcome State Fault Refusal :=
  issue t (fun w =>
    if 4 < op.toNat then
      undefinedWord t (wordR 0x1B rd ra op ((0 : BitVec 2) ++ rm ++ BitVec.ofBool dbl ++ (0x0E : BitVec 6))) w
    else
      let th := thr w t
      let (r, w) := fcvtRounding t rm w
      let v := fcvtValue op.toNat dbl r (getF th ra) (getG th ra)
      if op = 1 ∨ op = 3 then done t 1 (setG t rd (BitVec.ofNat 64 v) w)
      else done t 1 (setF t rd v w)) s

/-- FMVGF (R173): g to f without conversion, 64 bits or the low 32. -/
def execFmvgf (t : Tid) (rd ra : Reg) (dbl : Bool) (s : State) : Host.Outcome State Fault Refusal :=
  issue t (fun w => done t 1 (setF t rd (scalarIn dbl (getG (thr w t) ra)) w)) s

/-- FMVFG (R173): f to g without conversion, 64 bits or the low 32 zero-extended. -/
def execFmvfg (t : Tid) (rd ra : Reg) (dbl : Bool) (s : State) : Host.Outcome State Fault Refusal :=
  issue t (fun w => done t 1 (setG t rd (BitVec.ofNat 64 (scalarIn dbl (getF (thr w t) ra))) w)) s

end Sys2Proof.Machine
end

