-- ==== Sys2Proof/Machine/Atomics.lean ====
section
/-! DEFINITION. Atomics (R163, R175, R355): performed at the near-memory controller, in arrival order with DET clear and
in key order with DET set. -/

namespace Sys2Proof.Machine
open Sys2Proof

/-- What an atomic does to the word: the minor codes of major 0x0D (R173). -/
inductive AtomOp where
  | add | and | or | xor | min | max | swap | cas | fadds | faddd
  deriving DecidableEq, Repr

/-- The minor code of an atomic. -/
def atomMinor : AtomOp → Nat
  | .add => 0 | .and => 1 | .or => 2 | .xor => 3 | .min => 4 | .max => 5 | .swap => 6 | .cas => 7
  | .fadds => 8 | .faddd => 9

/-- The atomic with a minor code. -/
def atomOf (n : Nat) : Option AtomOp :=
  ([.add, .and, .or, .xor, .min, .max, .swap, .cas, .fadds, .faddd] : List AtomOp)[n]?

/-- The bytes an atomic works on. -/
def atomSize : AtomOp → Nat
  | .fadds => 4 | _ => 8

/-- The destination is an f register. -/
def atomFloat : AtomOp → Bool
  | .fadds => true | .faddd => true | _ => false

/-- The word after an atomic: `old` at the address, `v` the operand, `c` the comparand of ACAS. -/
def atomNew (op : AtomOp) (old v c : W64) : W64 :=
  match op with
  | .add => old + v
  | .and => old &&& v
  | .or => old ||| v
  | .xor => old ^^^ v
  | .min => if v.slt old then v else old
  | .max => if old.slt v then v else old
  | .swap => v
  | .cas => if old = c then v else old
  | .fadds => BitVec.ofNat 64 (fpOp .add b32 (old.toNat % 2 ^ 32) (v.toNat % 2 ^ 32))
  | .faddd => BitVec.ofNat 64 (fpOp .add b64 old.toNat v.toNat)

/-- An atomic's turns: 5 with DET set (R175). -/
def atomTurns (th : Thread) : Nat := if th.det then 5 else 2

/-- Write an atomic's old value to its destination register (R173). -/
def atomResult (t : Tid) (op : AtomOp) (rd : Reg) (old : W64) (w : Mach) : Mach :=
  if atomFloat op then updThr t (putF rd old) w else setG t rd old w

/-- Perform an atomic at a physical address and retire its instruction. -/
def atomPerform (t : Tid) (op : AtomOp) (rd : Reg) (a : Nat) (v c : W64) (w : Mach) : Mach :=
  let n := atomSize op
  let old := BitVec.ofNat 64 (seenNum w a n)
  let w := threadTraffic t true a n w
  let w := threadStore none a (toBytes n (atomNew op old v c).toNat) (tookOpen [⟨a, n, some a, none⟩] w)
  let w := countThread t 0x09 1 w
  done t (atomTurns (thr w t)) (atomResult t op rd old w)

/-- The operand and comparand of an atomic, read at issue. -/
def atomOperands (th : Thread) (op : AtomOp) (rd rb : Reg) : W64 × W64 :=
  if atomFloat op then (getF th rb, 0) else (getG th rb, getG th rd)

/-- Issue an atomic (R163, R175, R356): the store buffer drains first; a misaligned address or a denied page reads as
zero and changes nothing; with DET set a plan's atomic waits for the other horizons. -/
def atomIssue (t : Tid) (op : AtomOp) (rd ra rb : Reg) (word : W32) : Mach → Mach := fun w =>
  let w := drainStores t w
  let th := thr w t
  let va := (getG th ra).toNat
  let n := atomSize op
  let (v, c) := atomOperands th op rd rb
  let nothing (code : Nat) (w : Mach) : Mach :=
    done t (atomTurns th) (atomResult t op rd 0 (violThread t code true va word w))
  if va % n ≠ 0 then nothing vcAtomicAlign w
  else
    let w := threadWalks t va n w
    match threadPieces w t .both va n with
    | .error a => raise t (absentData akAtomic true a) w
    | .ok [⟨_, _, some a, _⟩] =>
      match th.binding, th.det with
      | .plan _ _, true => updThr t (parkOn (.atomic th.step.toNat (atomMinor op) rd (some a) v c)) w
      | _, _ => readCheck t [⟨va, n, some a, none⟩] (atomPerform t op rd a v c w)
    | .ok cs => nothing (if cs.any (·.stale.isSome) then vcStaleUnit else vcProtWrite) w

/-- AADD (R173, R175). -/
def execAadd (t : Tid) (rd ra rb : Reg) (s : State) : Host.Outcome State Fault Refusal :=
  issue t (atomIssue t .add rd ra rb (wordR 0x0D rd ra rb 0)) s

/-- AAND (R173, R175). -/
def execAand (t : Tid) (rd ra rb : Reg) (s : State) : Host.Outcome State Fault Refusal :=
  issue t (atomIssue t .and rd ra rb (wordR 0x0D rd ra rb 1)) s

/-- AOR (R173, R175). -/
def execAor (t : Tid) (rd ra rb : Reg) (s : State) : Host.Outcome State Fault Refusal :=
  issue t (atomIssue t .or rd ra rb (wordR 0x0D rd ra rb 2)) s

/-- AXOR (R173, R175). -/
def execAxor (t : Tid) (rd ra rb : Reg) (s : State) : Host.Outcome State Fault Refusal :=
  issue t (atomIssue t .xor rd ra rb (wordR 0x0D rd ra rb 3)) s

/-- AMIN (R173, R175). -/
def execAmin (t : Tid) (rd ra rb : Reg) (s : State) : Host.Outcome State Fault Refusal :=
  issue t (atomIssue t .min rd ra rb (wordR 0x0D rd ra rb 4)) s

/-- AMAX (R173, R175). -/
def execAmax (t : Tid) (rd ra rb : Reg) (s : State) : Host.Outcome State Fault Refusal :=
  issue t (atomIssue t .max rd ra rb (wordR 0x0D rd ra rb 5)) s

/-- ASWAP (R173, R175). -/
def execAswap (t : Tid) (rd ra rb : Reg) (s : State) : Host.Outcome State Fault Refusal :=
  issue t (atomIssue t .swap rd ra rb (wordR 0x0D rd ra rb 6)) s

/-- ACAS (R173, R175). -/
def execAcas (t : Tid) (rd ra rb : Reg) (s : State) : Host.Outcome State Fault Refusal :=
  issue t (atomIssue t .cas rd ra rb (wordR 0x0D rd ra rb 7)) s

/-- FAADD.S and FAADD.D (R173, R175): the addend and the old value are f registers. -/
def execFaadd (t : Tid) (rd ra rb : Reg) (dbl : Bool) (s : State) : Host.Outcome State Fault Refusal :=
  issue t (if dbl then atomIssue t .faddd rd ra rb (wordR 0x0D rd ra rb 9)
           else atomIssue t .fadds rd ra rb (wordR 0x0D rd ra rb 8)) s

end Sys2Proof.Machine
end

