-- ==== Sys2Proof/Machine/Memory.lean ====
section
/-! DEFINITION. Loads, stores, fences and the caches that serve them (R156 to R165, R173, R282 to R284, R306). -/

namespace Sys2Proof.Machine
open Sys2Proof

/-- LD (R159, R173): width 7 is reserved, an undefined word. -/
def execLd (t : Tid) (rd ra : Reg) (width : BitVec 3) (off : BitVec 13) (s : State) :
    Host.Outcome State Fault Refusal :=
  let word := wordM 0x09 rd ra width off
  issue t (fun w =>
    match loadShape width.toNat with
    | none => undefinedWord t word w
    | some (n, sg) => scalarLoad t word (addrM (thr w t) ra off) n (fun bs => setG t rd (extendLoad n sg bs)) w) s

/-- ST (R154, R158): widths 4 to 7 are reserved. -/
def execSt (t : Tid) (rd ra : Reg) (width : BitVec 3) (off : BitVec 13) (s : State) :
    Host.Outcome State Fault Refusal :=
  let word := wordM 0x0A rd ra width off
  issue t (fun w =>
    if 3 < width.toNat then undefinedWord t word w
    else
      let th := thr w t
      scalarStore t word (addrM th ra off) (toBytes (2 ^ width.toNat) (getG th rd).toNat) w) s

/-- FLD (R147, R173): widths 2 and 3; binary32 clears the upper half. -/
def execFld (t : Tid) (rd ra : Reg) (width : BitVec 3) (off : BitVec 13) (s : State) :
    Host.Outcome State Fault Refusal :=
  let word := wordM 0x0B rd ra width off
  issue t (fun w =>
    if width = 2 ∨ width = 3 then
      scalarLoad t word (addrM (thr w t) ra off) (2 ^ width.toNat)
        (fun bs => updThr t (putF rd (BitVec.ofNat 64 (ofBytes bs)))) w
    else undefinedWord t word w) s

/-- FST (R147, R173): widths 2 and 3; binary32 takes the low half. -/
def execFst (t : Tid) (rd ra : Reg) (width : BitVec 3) (off : BitVec 13) (s : State) :
    Host.Outcome State Fault Refusal :=
  let word := wordM 0x0C rd ra width off
  issue t (fun w =>
    if width = 2 ∨ width = 3 then
      let th := thr w t
      scalarStore t word (addrM th ra off) (toBytes (2 ^ width.toNat) (getF th rd).toNat) w
    else undefinedWord t word w) s

/-- FENCE (R162): one turn when the store buffer is empty; otherwise it parks until the buffer has drained. -/
def execFence (t : Tid) (s : State) : Host.Outcome State Fault Refusal :=
  issue t (fun w =>
    if (thr w t).sbuf.isEmpty then done t 1 w
    else parkThen t .fence (done t 1) w) s

/-- The lines of 256 bytes that a virtual range covers, up to 1,024 (R156). -/
def rangeLines (va len : Nat) : Nat := min 1024 ((va + len - 1) / 256 - va / 256 + 1)

/-- ISYNC (R156): the range's lines, or all of them for a length of 0, leave the VP's instruction cache. -/
def execIsync (t : Tid) (ra rb : Reg) (s : State) : Host.Outcome State Fault Refusal :=
  issue t (fun w =>
    let th := thr w t
    let a := (getG th ra).toNat
    let n := (getG th rb).toNat
    let l := if n = 0 then 1024 else rangeLines a n
    let keep (k : Nat) : Bool :=
      let va := k % 2 ^ 48
      n != 0 && decide (va + 256 ≤ a ∨ a + n ≤ va)
    done t (4 + ceilDiv l 16) (updVp t.vp.toNat (fun v => { v with icache := v.icache.filter keep }) w)) s

/-- STORE_BUFFER_DRAIN (R42, R158, R160): the thread's oldest store drains, once the gates admit it, and is visible to
every thread. -/
def execStoreBufferDrain (t : Tid) (s : State) : Host.Outcome State Fault Refusal :=
  run (fun w =>
    if (thr w t).gateWaits ≠ 0 then w else paying t (2 ^ 48) (drainOldest t) w) s

/-- One sector has arrived for a park. -/
def sectorArrived (a : Nat) (p : Park) : Park :=
  match p with
  | .dataMiss ss =>
    let r := ss.filter (· != a)
    if r.isEmpty then .none else .dataMiss r
  | p => p

/-- DATA_CACHE_FILL (R145, R306): the sector enters the VP's data cache, and what waited for it resumes when it waits
for no other. -/
def execDataCacheFill (t : Tid) (sector : Nat) (s : State) : Host.Outcome State Fault Refusal :=
  run (fun w =>
    let a := sector / 64 * 64
    wake t (mapParks (sectorArrived a)) (fillSector t a w)) s

/-- A line enters a VP's instruction cache of 256 KiB: with its 1,024 lines in use, one that the model leaves open is
dropped (R156; log 7). -/
def fillLine (vp a : Nat) (w : Mach) : Mach :=
  let held := (vpOf w vp).icache.filter (· != a)
  if held.length < 1024 then updVp vp (fun v => { v with icache := a :: held }) w
  else
    let (n, w) := drawFree w
    updVp vp (fun v => { v with icache := a :: held.eraseIdx (Config.pick n % held.length) }) w

/-- The physical piece that a line of the instruction cache holds, by the thread's translation (R156). -/
def linePieces (w : Mach) (t : Tid) (line : Nat) : List Chunk :=
  match translate w (vpOf w t.vp.toNat).tlb (ctxOf (thr w t)) (line % 2 ^ 48) with
  | .page pa _ => physPieces w pa 256
  | .absent => []

/-- INSTRUCTION_CACHE_FILL (R145, R156): the line enters the VP's instruction cache and the thread that waited for it
resumes. From a fenced unit its words are zeros (R413); one that holds an uncorrectable granule aborts what runs (R240,
R405). -/
def execInstructionCacheFill (t : Tid) (line : Nat) (s : State) : Host.Outcome State Fault Refusal :=
  run (fun w =>
    let a := line / 256 * 256
    let cs := linePieces w t a
    let waits := (waitsOf (thr w t)).any fun e => e.2 == .fetchMiss a
    let w := wake t (unparkIf (· == .fetchMiss a)) (fillLine t.vp.toNat a w)
    if waits then readCheck t cs (logDenied t false 0 (cs.filter (·.stale.isSome)) w) else w) s

/-! ### Table walks (R282 to R284, R296) -/

/-- The leaf entry at index `i` of the group of sixteen that holds a leaf. -/
def groupEntry (w : Mach) (l : Leaf) (i : Nat) : Option (Nat × BitVec 7) :=
  (readEntry w (l.ent / 128 * 128 + 8 * i)).bind fun e =>
    let pa := bits e 12 36 * 4096
    if (l.size = 4096 ∨ bit e 1) ∧ pa % l.size = 0 then some (pa, BitVec.ofNat 7 e) else none

/-- The run of 2^k entries from index `j` may be held as one entry (R283). -/
def runMerges (w : Mach) (l : Leaf) (k j : Nat) : Bool :=
  let es := (List.range (2 ^ k)).map fun i => groupEntry w l (j + i)
  match es.head? with
  | some (some (pa0, b0)) =>
    pa0 % (2 ^ k * l.size) == 0 &&
    (List.range (2 ^ k)).all fun i => es[i]? == some (some (pa0 + i * l.size, b0))
  | _ => false

/-- The largest run that a walk's leaf is merged into: its first index and its order k (R283). -/
def mergeRun (w : Mach) (l : Leaf) : Nat × Nat :=
  let x := l.ent / 8 % 16
  (([4, 3, 2, 1] : List Nat).find? fun k => runMerges w l k (x / 2 ^ k * 2 ^ k)).elim (x, 0)
    fun k => (x / 2 ^ k * 2 ^ k, k)

/-- The look-aside entry that a walk inserts. -/
def entryOf (w : Mach) (l : Leaf) (asid : BitVec 16) : TlbEntry :=
  let x := l.ent / 8 % 16
  let (j, k) := mergeRun w l
  { va := l.va - (x - j) * l.size, size := 2 ^ k * l.size, pa := l.pa - (x - j) * l.size, asid := asid, bits := l.bits }

/-- Insert an entry: overlapping entries of the same address space, or of G set, go first, and so does every overlapping
one where the new entry has G set, for no address may match twice; a full buffer evicts one that the model leaves open
(R282). -/
def tlbInsert (cap : Nat) (pick : Nat) (e : TlbEntry) (tlb : List TlbEntry) : List TlbEntry :=
  let tlb := tlb.filter fun x => !(overlaps x.va x.size e.va e.size &&
    (x.asid == e.asid || x.bits.getLsbD 6 || e.bits.getLsbD 6))
  e :: (if tlb.length < cap then tlb else tlb.eraseIdx (pick % cap))

/-- The advice on a page forbids the die to hold its translation (R296). -/
def adviceForbids (w : Mach) (die : Nat) (asid : BitVec 16) (va len : Nat) : Bool :=
  w.m.advice.any fun a =>
    a.asid == asid && overlaps a.va a.len va len && a.accessedBy != 0 && !a.accessedBy.getLsbD die

/-- The uncorrectable granule that the walk for an address reads, if it reads one (R405). -/
def walkBad (w : Mach) (xlbase : W64) (va : Nat) : Option Nat :=
  (walkTables w va 3 (bits xlbase.toNat 12 36 * 4096)).findSome? fun a => badIn w a 8

/-- The channel of an HBM address. -/
def channelOf (w : Mach) (a : Nat) : Nat := (channelLine w a).1

/-- The virtual range that a walk serves: its leaf's page, or the small page that it finds absent. -/
def walkRange (w : Mach) (xlbase : W64) (va : Nat) : Nat × Nat :=
  match walk w xlbase va with
  | some l => (l.va, l.size)
  | none => (va / 4096 * 4096, 4096)

/-- The marks of a thread's walks that have been charged, for pages of a range (R284). -/
def walkedIn (t : Tid) (r : Nat × Nat) (p : Nat × Nat) : Bool :=
  p.1 == tkey t && decide (r.1 ≤ 4096 * p.2 ∧ 4096 * p.2 < r.1 + r.2)

/-- A walk for the thread's context ends (R283, R405): at a leaf the VP's buffer takes the merged entry, but where advice keeps
the die from holding it. One that reads an uncorrectable granule aborts what the thread runs. -/
def endWalk (t : Tid) (va : Nat) (w : Mach) : Mach :=
  let th := thr w t
  let r := walkRange w th.xlbase va
  let w := onX (fun x => { x with walked := x.walked.filter fun p => !walkedIn t r p }) (countThread t 0x14 1 w)
  match walk w th.xlbase va with
  | none =>
    match walkBad w th.xlbase va with
    | some g => abortThread t g w
    | none => w
  | some l =>
    let e := entryOf w l th.asid
    if adviceForbids w (dieOfVp t.vp.toNat) th.asid e.va e.size then w
    else
      let (n, w) := drawFree w
      updVp t.vp.toNat (fun v => { v with tlb := tlbInsert 256 (Config.pick n) e v.tlb }) w

/-- The key of a walk that no access has been charged for. -/
def walkKey : Nat := 2 ^ 51

/-- TABLE_WALK (R283, R284; log 104): a walk ends. It was charged to the access that made it, and is charged here where it comes
before its access. -/
def execTableWalk (t : Tid) (va : BitVec 48) (s : State) : Host.Outcome State Fault Refusal :=
  run (fun w =>
    if (thr w t).gateWaits ≠ 0 then w
    else if w.m.x.walked.any (walkedIn t (walkRange w (thr w t).xlbase va.toNat)) then endWalk t va.toNat w
    else paying t walkKey (fun w => endWalk t va.toNat (threadWalks t va.toNat 1 w)) w) s

end Sys2Proof.Machine
end

