-- ==== Sys2Proof/Machine/Tiles.lean ====
section
/-! DEFINITION. Tile registers (R126 to R138): assignment, release, and the transfers row by row. -/

namespace Sys2Proof.Machine
open Sys2Proof

/-- TCFG (R128, R129): TMAP becomes gs[31:0] at once; a tile whose EN or THREAD changes is released. -/
def execTcfg (t : Tid) (ra : Reg) (s : State) : Host.Outcome State Fault Refusal :=
  issue t (fun w =>
    let th := thr w t
    let vp := t.vp.toNat
    if !th.priv then done t 1 (violThread t vcPrivReg true 0x31 (wordR 0x20 0 ra 0 0) w)
    else
      let new : W32 := (getG th ra).setWidth 32
      let old := (vpOf w vp).tmap
      let w := updVp vp (fun v => { v with tmap := new }) w
      done t 1 (iterate 8 (fun i w =>
        if bits old.toNat (4 * i) 4 = bits new.toNat (4 * i) 4 then w else releaseTile vp i w) w)) s

/-- TREL (R130, R132, R133): releases the thread's own tiles that the mask names; each of another thread's is a violation
record of its own, logged as a write (log 98). -/
def execTrel (t : Tid) (mask : BitVec 8) (s : State) : Host.Outcome State Fault Refusal :=
  let word : W32 := (0x20 : BitVec 6) ++ mask ++ (0 : BitVec 12) ++ (3 : BitVec 6)
  issue t (fun w =>
    let vp := t.vp.toNat
    done t 1 (iterate 8 (fun i w =>
      if !mask.getLsbD i then w
      else if tileOwner (vpOf w vp).tmap i = some t.th.toNat then releaseTile vp i w
      else violThread t vcTileOwner true 0 word w) w)) s

/-- Row `r` of a transfer of a tile's generation moves (R131, R133): one access of 256 bytes with its own cache lookup and
charge; the energy is that of one sector (R44). A piece that is denied reads as zero or is not written (R241); a row for a
generation that has been released is discarded (R129). -/
def moveRow (t : Tid) (load zero : Bool) (tile gen r : Nat) (word : W32) (cs : List Chunk) (w : Mach) : Mach :=
  let vp := t.vp.toNat
  let w := logDenied t (!load) word cs w
  let w := cs.foldl (fun w c =>
    match c.pa with
    | some a =>
      threadNear t a c.len ((word >>> 6).setWidth 2) (!load)
        (chargeAccess (.thread (tkey t)) (thr w t).cls (dieOfVp vp) (some t) (!load) a c.len w)
    | none => w) w
  let w := threadEnergy t 45 w
  if load then
    let row := BitVec.ofNat 2048 (ofBytes (seenPieces w cs))
    readCheck t cs <| tookOpen cs <| note (.tile vp tile gen) <| updVp vp (fun v =>
      if tileGen v tile = gen then
        { v with full := v.full ||| (1#8 <<< tile), tiles := twrite 0 v.tiles (tileKey gen tile r) row }
      else v) w
  else
    let row := if zero then 0 else (tread 0 (vpOf w vp).tiles (tileKey gen tile r)).toNat
    threadStorePieces none cs (toBytes 256 row) w

/-- Rows `r` and on, at most `n` of them: where the transfer stands then, and the address of the row whose
translation is absent, if that is what stops it (R136). -/
def moveRows (t : Tid) (load zero : Bool) (tile gen base stride : Nat) (word : W32) : Nat → Nat → Mach →
    Mach × Nat × Option Nat
  | 0, r, w => (w, r, none)
  | n + 1, r, w =>
    let va := (base + r * stride) % 2 ^ 64
    let w := threadWalks t va 256 w
    match threadPieces w t (if load then .read else .write) va 256 with
    | .error a => (w, r, some a)
    | .ok cs => moveRows t load zero tile gen base stride word n (r + 1) (moveRow t load zero tile gen r word cs w)

/-- TLOAD and TSTORE (R130 to R133): the store buffer drains; rows from TSTART to `stop`, or to the first whose
translation is absent, move; the thread then parks between rows until the transfer ends or faults. A tile of another thread
is logged with the WRITE bit of log 98. -/
def tileTransfer (t : Tid) (load : Bool) (tile : BitVec 3) (ra rb : Reg) (hint : BitVec 2) (stop : BitVec 7) :
    Mach → Mach := fun w =>
  let word : W32 := wordR 0x20 (tile.setWidth 5) ra rb
    ((0 : BitVec 3) ++ hint ++ (if load then (1 : BitVec 6) else (2 : BitVec 6)))
  let w := drainStores t w
  let th := thr w t
  let v := vpOf w t.vp.toNat
  let k := tile.toNat
  let base := (getG th ra).toNat / 256 * 256
  let stride := (getG th rb).toNat / 256 * 256
  let own := tileOwner v.tmap k == some t.th.toNat
  let cost := 16 + 2 * (64 - th.tstart.toNat)
  let finish (c : Nat) (w : Mach) : Mach :=
    retire t { cost := c } (updThr t (fun th => { th with tstart := 0 }) w)
  if !own && load then finish cost (violThread t vcTileOwner false 0 word w)
  else if own && !load && !v.full.getLsbD k then finish 8 w
  else
    let w := if own then w else violThread t vcTileOwner true 0 word w
    let r0 := th.tstart.toNat
    let gen := tileGen v k
    let (w, r, _) := moveRows t load (!own) k gen base stride word (min stop.toNat 64 - r0) r0 w
    if (cmdOfThread (thr w t)).isNone then w
    else threadEnergy t (15 * ceilDiv cost 8) (updThr t (parkOn (.tile load (!own) k gen r base stride word)) w)

/-- TLOAD (R130, R132, R133). -/
def execTload (t : Tid) (tile : BitVec 3) (ra rb : Reg) (hint : BitVec 2) (stop : BitVec 7) (s : State) :
    Host.Outcome State Fault Refusal :=
  issue t (tileTransfer t true tile ra rb hint stop) s

/-- TSTORE (R130, R132, R133). -/
def execTstore (t : Tid) (tile : BitVec 3) (ra rb : Reg) (hint : BitVec 2) (stop : BitVec 7) (s : State) :
    Host.Outcome State Fault Refusal :=
  issue t (tileTransfer t false tile ra rb hint stop) s

/-- The tile transfer of a thread or of one of its groups that is between rows. -/
def tileWait (th : Thread) : Option (Option Nat × Park) :=
  (waitsOf th).find? fun e => match e.2 with | .tile _ _ _ _ _ _ _ _ => true | _ => false

/-- A row meets an absent translation: the thread faults at its tile instruction (R136). -/
def tileFault (t : Tid) (g : Option Nat) (load : Bool) (tile r va : Nat) (w : Mach) : Mach :=
  let w := stopTile t g tile r w
  let pc := g.bind fun k => (tget (thr w t).groups k).map (·.pc)
  raise t { absentData akTile (!load) va with pc := pc } w

/-- The rows of a transfer wait for the gates as what issues does (R42). -/
def rowsPaying (t : Tid) (f : Mach → Mach) (w : Mach) : Mach :=
  if (thr w t).gateWaits ≠ 0 then w else paying t (2 ^ 49) f w

/-- TILE_ROW_ABSENT (R136): the rows up to one whose translation is absent move, and the thread faults there; with no
such row nothing happens. -/
def execTileRowAbsent (t : Tid) (s : State) : Host.Outcome State Fault Refusal :=
  run (rowsPaying t fun w =>
    match tileWait (thr w t) with
    | some (g, .tile load zero tile gen next base stride word) =>
      match moveRows t load zero tile gen base stride word (64 - next) next w with
      | (w', r, some va) => tileFault t g load tile r va w'
      | (_, _, none) => w
    | _ => w) s

/-- TILE_TRANSFER_END (R130, R134): the remaining rows move, TSTART returns to 0 and the instruction retires; a row
whose translation is absent faults instead (R136). -/
def execTileTransferEnd (t : Tid) (s : State) : Host.Outcome State Fault Refusal :=
  run (rowsPaying t fun w =>
    match tileWait (thr w t) with
    | some (g, .tile load zero tile gen next base stride word) =>
      let cost := 16 + 2 * (64 - (thr w t).tstart.toNat)
      match moveRows t load zero tile gen base stride word (64 - next) next w with
      | (w, r, some va) => tileFault t g load tile r va w
      | (w, _, none) => asGroup t g (retire t { cost := cost, energy := some 0 }) (stopTile t g tile 0 w)
    | _ => w) s

end Sys2Proof.Machine
end

