-- ==== Sys2Proof/Machine/Tally.lean ====
section
/-! DEFINITION. The conservation tallies (R46 to R48) and the journal's ring, whose records they count (R373, R378,
R394). -/

namespace Sys2Proof.Machine
open Sys2Proof

/-! ### The journal ring -/

/-- A record is staged, or written to the ring once it is committed: then the keeper counts it, and a pass where it takes the
ring's last slot (R47, R376, R394). What a follower records under numbers of its own stands beside the ring (log 43). -/
def putRecord (j : Nat) (r : JRec) (w : Mach) : Mach :=
  let before := match tget w.m.k.journal j with | some x => x.committed | none => false
  let fresh := r.committed && !before && decide (w.m.k.jDrained ≤ j ∧ j < 2 ^ 62)
  onK (fun k => { k with
    journal := tput k.journal j r, jWritten := k.jWritten + b2n fresh,
    passes := k.passes + b2n (fresh && j % ringRecords + 1 == ringRecords) }) w

/-- A journal record as its 144 bytes (R374). -/
def recordBytes (jseq : Nat) (r : JRec) : List Byte :=
  let low := bits r.body 0 128
  let mark := r.typ + r.ring <<< 8 + (if r.typ = 0 ∨ r.typ = 3 then 0 else bits r.rseq 0 18) <<< 14
  let all (chk : Nat) : List Byte :=
    toBytes 16 low ++ toBytes 4 mark ++ toBytes 4 chk ++ toBytes 8 jseq ++ toBytes 96 (r.body >>> 256)
    ++ toBytes 8 r.tick ++ toBytes 2 r.sq.toNat ++ toBytes 2 r.src.toNat ++ toBytes 4 r.epoch
  all (crc32c (all 0))

/-- The header of the segment that begins at a JSEQ (R378). -/
def segHead (w : Mach) (first : Nat) : SegHead :=
  let rs := w.m.k.journal.filter fun e => decide (first ≤ e.1 ∧ e.1 < first + segmentRecords)
  { first := first, count := rs.length, epoch := (rs.head?.map (·.2.epoch)).getD w.m.epoch,
    digest := ofBytes (sha256 (rs.flatMap fun e => recordBytes e.1 e.2)) }

/-- Every record below a JSEQ has left the ring for NAND (R378). -/
def drainTo (j : Nat) (w : Mach) : Mach :=
  let n := resident w j
  onK (fun k => { k with jDrained := max k.jDrained j, jGone := k.jGone + n }) w

/-! ### The tallies -/

/-- Queued events of a die's sessions: the slots of its pool in use (R336). -/
def poolUsed (w : Mach) (die : Nat) : Nat :=
  ((w.m.s.sessions.filter fun e => homeDie w e.1 == die).map fun e => e.2.queue.length).sum

/-- The entries between a ring's consumer and producer counts. -/
def ringHolds (w : Mach) (ci pi : Nat) : Nat :=
  (tread 0 w.m.h.counts pi + 2 ^ 32 - tread 0 w.m.h.counts ci % 2 ^ 32) % 2 ^ 32

/-- The occupied buffers of a queue, and its capacity (R307, R336, R452). -/
def queueHolds (w : Mach) (i : Nat) : Nat × Nat :=
  if i < 2 then (poolUsed w i, 524288)
  else if 64 ≤ i ∧ i < 96 then (ringHolds w i (i - 64), 256)
  else if 128 ≤ i ∧ i < 192 then (ringHolds w (i + 64) i, 1024)
  else if 192 ≤ i ∧ i < 256 then (ringHolds w (i + 128) (i + 64), 1024)
  else if 512 ≤ i then ((tread {} w.m.hw.movers (i - 512)).queue.length, 16)
  else (0, 0)

/-- A tally as R47's row has it: credits returned, queues within their capacity, a class's units at a gate, an ACK field's
events, a session's events, the journal's records. Each quantity has one home in State (log 112). -/
def balances (w : Mach) : Tally → Bool
  | .link 4 => decide (tread 0 w.m.twin.link.credits 0 ≤ 16)
  | .link _ => true
  | .queue i => decide ((queueHolds w i).1 ≤ (queueHolds w i).2)
  | .budget k =>
    let l := tread {} w.m.ledger k
    let b := tread {} w.m.gates k
    l.granted + l.taken == l.spent + l.expired + b.carry + b.current
  | .acks i => let c := tread {} w.m.hifCtr i; c.seen == c.ack + ackOut c
  | .session sid => let s := tread {} w.m.s.sessions sid; s.taken == s.step + s.queue.length
  | .journal => w.m.k.jWritten == w.m.k.jGone + resident w (2 ^ 62)

/-- A tally's row in R47 and what it counts, as one number: the row, and the path eight times. -/
def tallyCode : Tally → Nat
  | .link i => 8 * i | .queue i => 1 + 8 * i | .budget k => 2 + 8 * k | .acks i => 3 + 8 * i
  | .session sid => 4 + 8 * sid | .journal => 5

/-- The tally of a number. -/
def tallyOf (n : Nat) : Tally :=
  match n % 8 with
  | 0 => .link (n / 8) | 1 => .queue (n / 8) | 2 => .budget (n / 8) | 3 => .acks (n / 8) | 4 => .session (n / 8)
  | _ => .journal

/-- The unit that a tally's path belongs to (R415): the bridge, the die of the queue or the gate; 0 for the others. -/
def unitOfTally : Tally → Nat
  | .link 1 => 0x8001
  | .link 2 => 0x8002
  | .link 3 => 0x8000
  | .queue i => if i < 2 then i else if 512 ≤ i then (i - 512) / 32 else 0
  | .budget k => match k / 4096 with | 0 => k / 64 % 64 / 32 | 1 => k / 64 % 64 / 5 | 2 => k / 64 % 64 | 3 => k / 64 % 64 / 2 | _ => 0
  | _ => 0

/-- A tally does not balance (R48): it is recorded with its stamp, the tally and the path, an alert goes out, and the path is
closed. -/
def tallyFault (t : Tally) (w : Mach) : Mach :=
  if w.m.hw.tally.contains t then w
  else
    alert alTallyFault (unitOfTally t) (tallyCode t)
      (errorRecord ecTallyFault { unit := unitOfTally t, addr := tallyCode t }
        (onHw (fun h => { h with tally := h.tally ++ [t] }) w))

/-- A tally is checked (R47). -/
def checkTally (t : Tally) (w : Mach) : Mach := if balances w t then w else tallyFault t w

/-- The tallies that a period boundary checks (R47). -/
def checkAtBoundary (w : Mach) : Mach :=
  let ts := (List.range 5).map .link ++ w.m.ledger.map (fun e => .budget e.1) ++ w.m.hifCtr.map (fun e => .acks e.1)
  ts.foldl (fun w t => checkTally t w) w

/-- Every tally is checked (R388). -/
def checkAll (w : Mach) : Mach :=
  let w := checkAtBoundary (checkTally .journal (checkTally (.queue 1) (checkTally (.queue 0) w)))
  w.m.s.sessions.foldl (fun w e => checkTally (.session e.1) w) w

/-! ### The paths that a command needs (R48) -/

/-- The gate instance of a balance's key belongs to a die. -/
def dieOfGate (key : Nat) : Option Nat :=
  let inst := key / 64 % 64
  match key / 4096 with
  | 0 => some (inst / 32) | 1 => some (inst / 5) | 2 => some inst | 3 => some (inst / 2) | _ => none

/-- The dies whose path a tally stands on: a keeper bridge's, a die's queues' and gates', the die bridge's. -/
def diesOfTally : Tally → List Nat
  | .link 1 => [0]
  | .link 2 => [1]
  | .link 3 => [0, 1]
  | .queue i => if i < 2 then [i] else if 512 ≤ i then [(i - 512) / 32] else []
  | .budget k => (dieOfGate k).toList
  | _ => []

end Sys2Proof.Machine
end

