-- ==== Sys2Proof/Machine/CmdCore.lean ====
section
/-! DEFINITION. Commands (R449, R457 to R465): who may use what, status words, how a command starts, runs and ends, and
what its end frees. -/

namespace Sys2Proof.Machine
open Sys2Proof

/-! ### Error codes (R465) -/

def erFormat : Nat := 0x0001
def erOpcode : Nat := 0x0002
def erFunction : Nat := 0x0003
def erFlr : Nat := 0x0004
def erPowerCut : Nat := 0x0005
def erClass : Nat := 0x0006
def erOvercommit : Nat := 0x0007
def erTally : Nat := 0x0008
def erPlanFormat : Nat := 0x0009
def erPlanThreads : Nat := 0x000A
def erFopReserved : Nat := 0x0010
def erFopPair : Nat := 0x0011
def erFopOrder : Nat := 0x0012
def erFopShape : Nat := 0x0013
def erFopMode : Nat := 0x0014
def erFopPlot : Nat := 0x0015
def erFopCost : Nat := 0x0016
def erFopSeq : Nat := 0x0017
def erGeometry : Nat := 0x0018
def erDecodeChanged : Nat := 0x0019
def erXferReserved : Nat := 0x001A
def erXferFormat : Nat := 0x001B
def erXferShape : Nat := 0x001C
def erUncorrectable : Nat := 0x001D
def erDataLost : Nat := 0x001E
def erRollbackLimit : Nat := 0x001F
def erDieLost : Nat := 0x0020
def erDoubleFault : Nat := 0x0021
def erHorizon : Nat := 0x0022
def erXlateAlign : Nat := 0x0030
def erXlateShape : Nat := 0x0031
def erXlateAdvice : Nat := 0x0032
def erAdviceFull : Nat := 0x0033
def erXlateAbsent : Nat := 0x0034
def erSessFormat : Nat := 0x0040
def erSessBusy : Nat := 0x0041
def erSessPlan : Nat := 0x0042
def erSessState : Nat := 0x0043
def erSessOverlap : Nat := 0x0044
def erReplayFormat : Nat := 0x0050
def erReplayBusy : Nat := 0x0051
def erReplayRange : Nat := 0x0052
def erInputChanged : Nat := 0x0053
def erKeepFull : Nat := 0x0054
def erJournalRange : Nat := 0x0055
def erUnitState : Nat := 0x0060
def erUnitLast : Nat := 0x0061
def erSessSpace : Nat := 0x0062
def erTwinState : Nat := 0x0070
def erTwinRole : Nat := 0x0071
def erDiverged : Nat := 0x0072
def erDecodeFormat : Nat := 0x0080
def erDecodeSig : Nat := 0x0081
def erDecodeFloor : Nat := 0x0082
def erDecodeUop : Nat := 0x0083
def erDecodeCost : Nat := 0x0084

/-! ### The command and its fields (R457) -/

/-- Change a command. -/
def updCmd (seq : Nat) (f : Cmd → Cmd) (w : Mach) : Mach :=
  onH (fun h => { h with cmds := tput h.cmds seq (f (tread {} h.cmds seq)) }) w

/-- Bits [lo + n - 1:lo] of the field at a byte offset of the entry. -/
def cmdBits (c : Cmd) (off lo n : Nat) : Nat := bits c.entry (8 * off + lo) n

/-- The operand bits from 0x10 on that a mask leaves reserved are zero (R458): `used` lists offset in bits and width. -/
def operandsClean (c : Cmd) (used : List (Nat × Nat)) : Bool :=
  let rest := (c.entry >>> 128) % 2 ^ 384
  let keep : Nat := used.foldl (fun (m : Nat) (e : Nat × Nat) => m ||| ((2 ^ e.2 - 1) <<< (e.1 - 128))) 0
  decide (rest &&& keep = rest) && bits c.entry 10 6 == 0 && !bit c.entry 31 && bits c.entry 96 32 == 0

/-- OPCODE. -/
def opcodeOf (c : Cmd) : Nat := cmdBits c 0 0 8

/-- SWORD. -/
def swordOf (c : Cmd) : Nat := cmdBits c 0 16 15

/-- LAYER and OPID as a thread's LOPID holds them (R492). -/
def lopidOf (c : Cmd) : W32 := BitVec.ofNat 32 (cmdBits c 8 0 32)

/-- A listed opcode, and whether a VF may post it (R458). -/
def opcodeInfo (op : Nat) : Option Bool :=
  if ([0x00, 0x01, 0x02, 0x03, 0x04, 0x05, 0x08, 0x09, 0x0A, 0x11, 0x18] : List Nat).contains op then some true
  else if ([0x10, 0x12, 0x13, 0x14, 0x20, 0x21, 0x22, 0x23, 0x24] : List Nat).contains op then some false
  else none

/-- A twin command (R429). -/
def isTwinOp (op : Nat) : Bool := decide (0x20 ≤ op ∧ op ≤ 0x24)

/-! ### What a function may use (R449) -/

/-- A function's resources. -/
def funcOfNum (w : Mach) (fn : Nat) : Func := tread {} w.m.h.funcs fn

/-- A function may name an ASID. -/
def mayAsid (w : Mach) (fn : Nat) (asid : BitVec 16) : Bool :=
  fn == 0 || (let f := funcOfNum w fn
    decide (f.asidBase.toNat ≤ asid.toNat ∧ asid.toNat < f.asidBase.toNat + f.asidCnt.toNat))

/-- A function may name a class. -/
def mayClass (w : Mach) (fn : Nat) (cls : Nat) : Bool := fn == 0 || (funcOfNum w fn).classes.getLsbD cls

/-- The checks of steps 3 and 4 of R458 on a class and an ASID: the error, 0 for none. -/
def useCheck (w : Mach) (fn cls : Nat) (asid : Option (BitVec 16)) : Nat :=
  if cls = 0 then erClass
  else if !mayClass w fn cls || (match asid with | some a => !mayAsid w fn a | none => false) then erFunction
  else 0

/-! ### Status words (R461, R462) -/

/-- The status word of a command. -/
def wordOf (w : Mach) (seq : Nat) : StatusW := tread {} w.m.h.sw (swordOf (cmdOf w seq))

/-- A command's STATE: 0 once its word is no longer its own. -/
def stateOf (w : Mach) (seq : Nat) : Nat := if (wordOf w seq).seq = seq then (wordOf w seq).state else 0

/-- A command's word has ended: DONE or FAILED, or released. -/
def wordOver (w : Mach) (seq : Nat) : Bool :=
  let s := stateOf w seq
  s == 0 || s == 4 || s == 5

/-- Change a command's status word, until it has ended: TICK, EPOCH and UPD follow. -/
def updWord (seq : Nat) (f : StatusW → StatusW) (w : Mach) : Mach :=
  if wordOver w seq then w
  else onM (fun m =>
    let k := swordOf (tread {} m.h.cmds seq)
    let s := f (tread {} m.h.sw k)
    let s' : StatusW := { s with tick := m.tick, epoch := m.epoch, upd := (s.upd + 1) % 2 ^ 24 }
    { m with h := { m.h with sw := twrite {} m.h.sw k s' } }) w

/-- The command is over: its word has ended, and no serving plan of it has started again (R390). -/
def isOver (w : Mach) (seq : Nat) : Bool := wordOver w seq && !planRestarted w seq

/-- The command runs: RUNNING or PARTIAL, or a serving plan that has started again (R388, R390). -/
def isRunning (w : Mach) (seq : Nat) : Bool :=
  let s := stateOf w seq
  s == 2 || s == 3 || planRestarted w seq

/-- The module is the lead of a pair in MIRROR. -/
def mirrorLead (w : Mach) : Bool := w.m.twin.role == 1 && w.m.twin.mode == 1

/-- The module is the follower of a pair in MIRROR. -/
def mirrorFollower (w : Mach) : Bool := w.m.twin.role == 2 && w.m.twin.mode == 1

/-- A command's result is withheld: a fenced module shows nothing (R438), and a pair in MIRROR shows what both modules
agree on, but for what was there when they joined (R434, R442); ring 31 is local (R455). -/
def withholds (w : Mach) (seq : Nat) : Bool :=
  let c := cmdOf w seq
  c.ring != 31 &&
  (w.m.twin.role == 3 || (mirrorLead w || mirrorFollower w) && decide (w.m.twin.join ≤ c.jseq))

/-- A follower that runs nothing of the lead's: in STANDBY, and once the lead is silent, but not while start-up resumes
the pair (R428, R438, R487). -/
def dormant (w : Mach) : Bool :=
  w.m.twin.role == 2 && (w.m.twin.mode == 2 || w.m.twin.silent && !w.m.twin.resume)

/-- A command came from the twin (R30). -/
def fromTwin (c : Cmd) : Bool := c.src.toNat / 2 ^ 13 == 3

/-- Frames of at most nine granules go out on the Neraxo link when its gate admits them (R42): each holds a credit of its
channel, and the granules are charged to their class, with their energy (R44, R426, R427); none charge nothing. While the
link retrains, frames wait in the replay buffer (R424). -/
def sendFrame (vc cls len : Nat) (w : Mach) : Mach :=
  let l := w.m.twin.link
  if !l.up && !l.retrain then w
  else
    let act : GateAct := .frames vc (max 1 (ceilDiv len 9))
    if len = 0 then letGo act w
    else keeperEnergy cls (64 * len) (request ⟨.nrxOut, 0, cls, 32 * len, .keeper 0, some act⟩ w)

/-- A journal record's commit is known where it has to be (R376, R431). -/
def committedAt (w : Mach) (jseq : Nat) : Bool :=
  match tget w.m.k.journal jseq with
  | some r => r.committed &&
    (!mirrorLead w || r.twin || r.typ == 2 && r.ring == 31 || decide (jseq < w.m.twin.join))
  | none => true

/-- A command may start now (R376, R428, R451, R457): it is QUEUED with its record committed, and not the lead's on a
dormant follower; every earlier command of its ring has been taken up (log 50); with FENCE set every earlier one is
over. -/
def mayStart (w : Mach) (seq op : Nat) : Bool :=
  let c := cmdOf w seq
  stateOf w seq == 1 && opcodeOf c == op && committedAt w c.jseq && (tget w.m.h.cmds seq).isSome
  && !(fromTwin c && dormant w)
  && w.m.h.cmds.all fun (k, d) =>
      !(decide (k < seq) && d.ring == c.ring) || (if cmdBits c 0 9 1 = 1 then wordOver w k else d.begun || stateOf w k != 1)

/-- A command goes RUNNING under the DET in force (R352). -/
def startCmd (seq : Nat) (w : Mach) : Mach :=
  updCmd seq (fun c => { c with det := w.m.det }) (updWord seq (fun s => { s with state := 2 }) w)

/-- PROGRESS becomes `n`; the word is PARTIAL from the first nonzero value on, but not under MIRROR (R462). -/
def setProgress (seq n : Nat) (w : Mach) : Mach :=
  let w := updCmd seq (fun c => { c with prog := max c.prog n }) w
  let s := wordOf w seq
  if s.seq ≠ seq ∨ s.progress = n ∨ withholds w seq then w
  else updWord seq (fun s =>
    { s with progress := max s.progress n, state := if n ≠ 0 ∧ s.state = 2 then 3 else s.state }) w

/-! ### What the end of a command frees (R526) -/

/-- Every thread bound or lent for a command is free (R526). -/
def freeThreads (seq : Nat) (w : Mach) : Mach :=
  iterate 256 (fun k w =>
    match (tread {} w.m.threads k).binding with
    | .plan c _ => if c = seq then unbind .free k w else w
    | .lent c => if c = seq then unbind .free k w else w
    | .inv _ c => if c = seq then unbind .free k w else w
    | .free => w) w

/-- The owner of a field queue works for a command. -/
def ownerOf (w : Mach) (seq : Nat) (o : Owner) : Bool :=
  match o with
  | .plan c => c == seq
  | .inv i => (tread {} w.m.s.invs i).plan == seq

/-- A plan is over: its threads are free and its field queues go; an admitted operation ends at its boundary (R406). An
invocation it was running waits unstarted, its sessions PENDING (log 31). -/
def endPlan (seq : Nat) (w : Mach) : Mach :=
  if (tget w.m.h.plans seq).isNone then w
  else
    let w := freeThreads seq w
    let stranded := w.m.s.invs.flatMap fun e =>
      if e.2.plan = seq ∧ e.2.thread.isSome = true then e.2.evs.map (·.1) else []
    let w := stranded.foldl (fun w sid =>
      updSess sid (fun s => if s.state = 3 then { s with state := 2 } else s) w) w
    let w := onM (fun m => { m with
      fqueues := m.fqueues.filter fun q => !ownerOf w seq q.1
      hw := { m.hw with movers := m.hw.movers.map fun (k, v) =>
        (k, { v with queue := v.queue.filter fun e => e.cmd != seq || (match e.who with | .cmd _ _ => true | _ => false) }) }
      s := { m.s with invs := m.s.invs.map fun (k, i) => (k, if i.plan = seq then { i with thread := none } else i) } }) w
    updPlan seq (fun p => { p with ended := true, bound := false, aborted := false }) w

/-! ### Memory for the command front -/

/-- The tables of an address space: those of the lowest-numbered thread whose ASID it is (R277; log 20). -/
def asidCtx (w : Mach) (asid : BitVec 16) : Ctx :=
  match w.m.threads.find? fun e => e.2.asid == asid with
  | some (_, th) => { xlbase := th.xlbase, asid := asid, priv := false }
  | none => { asid := asid }

/-- The host window (R275). -/
def isHost (a : Nat) : Bool := decide (0x800000000000 ≤ a ∧ a < 0xC00000000000)

/-- A host page as the address translation cache has it for a function (R298): none where it must be asked for. -/
def hostPage (w : Mach) (fn a : Nat) (write : Bool) : Option Bool :=
  if !(funcOfNum w fn).ats then some true
  else (w.m.x.atc.find? fun e => e.fn == fn && e.page == (a - 0x800000000000) / 4096).map fun e =>
    if write then e.w else e.r

/-- What ATS still has to answer for some host pages (R298): nothing, a page to ask for, or an address it grants no access
to. -/
inductive HostNeed where
  | ready
  | ask (page : Nat)
  | denied (va : Nat)

/-- The host pages of some pieces after the first `n`, each read or written: how many are granted, and what the next
needs (R298). -/
def hostNeed (w : Mach) (fn n : Nat) (ps : List (Bool × Chunk)) : Nat × HostNeed :=
  let pages := ps.filterMap fun p => p.2.pa.bind fun a => if isHost a then some (p.1, a, p.2.va) else none
  let todo := pages.drop n
  let got := (todo.takeWhile fun p => hostPage w fn p.2.1 p.1 == some true).length
  (n + got, match todo[got]? with
    | none => .ready
    | some (write, a, va) =>
      match hostPage w fn a write with
      | none => .ask ((a - 0x800000000000) / 4096)
      | some _ => .denied va)

/-- Ask for a host page's translation (R298). -/
def askPage (fn page : Nat) (w : Mach) : Mach :=
  onX (fun x => { x with atsReq := if x.atsReq.contains (fn, page) then x.atsReq else x.atsReq ++ [(fn, page)] }) w

/-- A command does what needs some host pages once ATS has granted them all in turn; `refuse` takes the address of one that
it does not grant (R298). -/
def withHost (seq : Nat) (ps : List (Bool × Chunk)) (refuse : Nat → Mach → Mach) (go : Mach → Mach) (w : Mach) : Mach :=
  let c := cmdOf w seq
  let (n, need) := hostNeed w c.fn c.ats ps
  let w := if n = c.ats then w else updCmd seq (fun c => { c with ats := n }) w
  match need with
  | .ready => go w
  | .ask page => askPage c.fn page w
  | .denied va => refuse va w

/-- The pieces of named ranges, to be read. -/
def namedPieces (w : Mach) (asid : BitVec 16) (rs : List (Nat × Nat)) : List (Bool × Chunk) :=
  rs.flatMap fun r =>
    match pieces w [] (asidCtx w asid) .read (fun a => isDevice w a || isHost a) r.1 r.2 with
    | .ok cs => cs.map fun c => (false, c)
    | .error _ => []

/-- Charge the keeper's own accesses of a command to its class: device memory by sectors, with what its lines miss in the
near-memory cache and the flits of the die's keeper bridge, and the host window by bytes (R35, R44, R300, R302, R316). -/
def chargeKeeper (cls : Nat) (write : Bool) (cs : List Chunk) (w : Mach) : Mach :=
  cs.foldl (fun w c =>
    match c.pa with
    | none => w
    | some a =>
      if isHost a then
        keeperEnergy cls (2 * c.len)
          (request ⟨if write then .pcieOut else .pcieIn, 0, cls, c.len, keeperNow w, none⟩ w)
      else
        let (w, k) := nearAccess (keeperNow w) cls a c.len 0 write w
        keeperFlits (dieOfAddr w a) cls c.len (!write)
          (request ⟨.tier, tierOfAddr w a, cls, sectorsOf a c.len + k, keeperNow w, none⟩ w)) w

/-- The number of a command's work `k` at the gates (R42). -/
def workOf (seq k : Nat) : Nat := 8 * seq + k

/-- The keeper reads some pieces for a command's work `k`, once the gates admit them to a class (R42, R44, R316). -/
def keeperReads (seq k cls : Nat) (ps : List (Bool × Chunk)) (f : Mach → Mach) (w : Mach) : Mach :=
  if ps.isEmpty then f w
  else keeperPays (workOf seq k) (fun w => f (chargeKeeper cls false (ps.map (·.2)) w)) w

/-- What movers may reach: device memory and the host window (R275). -/
def moverMayReach (w : Mach) (a : Nat) : Bool := isDevice w a || isHost a

/-- A byte of host memory as the draw numbered `k` has it; a follower takes the lead's (R275, R432; log 5). -/
def hostAt (w : Mach) (k a : Nat) : Byte :=
  if w.m.twin.role = 2 then (tget w.m.twin.view a).getD (Config.hostByte a k) else Config.hostByte a k

/-- Bytes that a mover or the keeper reads: host bytes are free values, each read drawing anew (R275; log 5). -/
def readAny (a n : Nat) (w : Mach) : List Byte × Mach :=
  if isHost a then
    let (k, w) := drawFree w
    ((List.range n).map fun i => hostAt w k (a + i), w)
  else (readBytes w a n, w)

/-- The bytes of a list of pieces, denied ones as zero. -/
def readChunks (cs : List Chunk) (w : Mach) : List Byte × Mach :=
  cs.foldl (fun (r : List Byte × Mach) c =>
    match c.pa with
    | some a => let (b, w) := readAny a c.len r.2; (r.1 ++ b, w)
    | none => (r.1 ++ List.replicate c.len 0, r.2)) ([], w)

/-- Write pieces: bytes to the host window leave the module, and a follower discards them (R432). -/
def writeChunks (cs : List Chunk) (bs : List Byte) (w : Mach) : Mach :=
  match cs with
  | [] => w
  | c :: r =>
    let w := match c.pa with
      | some a => if isHost a then w else storeBytes none a (bs.take c.len) w
      | none => w
    writeChunks r (bs.drop c.len) w

/-- A range of an address space as the command front reads or writes it: none where a byte has no translation. -/
def asidPieces (w : Mach) (asid : BitVec 16) (n : Need) (va len : Nat) : Except Nat (List Chunk) :=
  pieces w [] (asidCtx w asid) n (moverMayReach w) va len

/-- The bytes of a range of an address space that must be readable at user level throughout. -/
def asidRead (w : Mach) (asid : BitVec 16) (va len : Nat) : Option (List Byte) :=
  match asidPieces w asid .read va len with
  | .ok cs => if cs.all (fun c => match c.pa with | some a => isDevice w a | none => false)
      then some (readPieces w cs) else none
  | .error _ => none

/-! ### How a command ends -/

/-- The errors that set PROGRESS to 0 (R462). -/
def zeroesProgress (err : Nat) : Bool :=
  err == erPowerCut || err == erDataLost || err == erDieLost || err == erDiverged || err == erFlr

/-- A command ends where the host sees it: DONE with error 0, otherwise FAILED; NCMD counts it when IRQ is set (R457,
R466). -/
def showEnd (seq err : Nat) (dig : Nat) (w : Mach) : Mach :=
  let c := cmdOf w seq
  if isOver w seq then w
  else
    let step := if (tget w.m.h.plans seq).isNone then 0
      else match w.m.fqueues.find? fun e => e.1 == .plan seq with
        | some e => e.2.step.toNat
        | none => 0
    let shown := wordOver w seq
    let w := endPlan seq w
    let w := updWord seq (fun s =>
      { s with step := max s.step step, state := if err = 0 then 4 else 5, error := err, digest := if err = 0 then dig else s.digest,
               progress := if zeroesProgress err then 0 else max s.progress c.prog }) w
    if cmdBits c 0 8 1 = 1 ∧ shown = false then notify c.ring w else w

/-- Digest bytes 0 to 15 as the status word holds them. -/
def digest16 (d : List Byte) : Nat := ofBytes (d.take 16)

/-- The digest of a context that failed (R434): over a plan's output ranges as they stand, but for one that has no translation
(log 131), or over the bytes that another command has written. -/
def failDigest (seq : Nat) (w : Mach) : List Byte × Mach :=
  match tget w.m.h.plans seq with
  | none => (sha256 ((cmdOf w seq).parts.flatMap (·.2)), w)
  | some p =>
    let (bs, w) := p.outs.foldl (fun (r : List Byte × Mach) x =>
      match asidPieces r.2 p.asid .read x.1 x.2 with
      | .ok cs =>
        let (b, w) := readChunks cs r.2
        (r.1 ++ b, w)
      | .error _ => r) ([], w)
    (sha256 bs, w)

/-- A command has ended: shown at once, or withheld until the twin agrees (R434, R438). A digest that came first is met
when the twin's frames are read. -/
def finishCmd (seq err : Nat) (dig : List Byte) (w : Mach) : Mach :=
  let w := updCmd seq (fun c => { c with ok := decide (err = 0) }) w
  if withholds w seq then
    let (dig, w) := if err ≠ 0 then failDigest seq w else (if dig.isEmpty then sha256 [] else dig, w)
    let w := stopThreads (fun th => cmdOfThread th == some seq) w
    if w.m.twin.held.any (fun h => h.ctx == .cmd seq) then w
    else
      let w := if mirrorFollower w then sendFrame 1 0 2 w else w
      onTwin (fun t => { t with held := t.held ++
        [{ ctx := .cmd seq, err := err, digest := ofBytes dig, period := w.m.tick / 4096 }] }) w
  else showEnd seq err (digest16 dig) w

/-- A command ends DONE. -/
def doneCmd (seq : Nat) (w : Mach) : Mach := finishCmd seq 0 [] w

/-- A command ends FAILED with an error. -/
def failCmd (seq err : Nat) (w : Mach) : Mach := finishCmd seq err [] w

/-- The format check of step 2 of R458, then what follows it. -/
def checkedCmd (seq : Nat) (used : List (Nat × Nat)) (k : Cmd → Mach → Mach) (w : Mach) : Mach :=
  let c := cmdOf w seq
  if operandsClean c used then k c w else failCmd seq erFormat w

/-- The class that a command is charged to (R458). -/
def cmdClass (w : Mach) (c : Cmd) : Nat :=
  match opcodeOf c with
  | 0x01 => cmdBits c 0x18 16 6
  | 0x02 => cmdBits c 0x28 16 6
  | 0x03 => cmdBits c 0x28 24 6
  | 0x04 => cmdBits c 0x20 24 6
  | 0x05 => cmdBits c 0x20 24 6
  | 0x08 => cmdBits c 0x10 24 6
  | 0x09 => (sessOf w (cmdBits c 0x10 0 20)).cls
  | 0x0A => (sessOf w (cmdBits c 0x10 0 20)).cls
  | 0x11 => cmdBits c 0x10 24 6
  | 0x12 => cmdBits c 0x28 16 6
  | _ => 0

/-- The dies that a command works on (log 47): a session's home, a serving plan's, and both where its rule names none. -/
def diesOf (w : Mach) (c : Cmd) : List Nat :=
  match opcodeOf c with
  | 0x00 => []
  | 0x01 => if cmdBits c 0x18 22 1 = 1 then [cmdBits c 0x18 23 1] else [0, 1]
  | 0x08 => [homeDie w (cmdBits c 0x10 0 20)]
  | 0x09 => [homeDie w (cmdBits c 0x10 0 20)]
  | 0x0A => [homeDie w (cmdBits c 0x10 0 20)]
  | op => if ([0x02, 0x03, 0x04, 0x05, 0x11, 0x12] : List Nat).contains op then [0, 1] else []

/-- A command needs the path of a tally (R48; log 47): the PCIe link and the journal, its ring's queue and counter, the links
and gates of the dies that it works on, its class's gates, its session, and the twin link where its record is shipped. -/
def needsPath (w : Mach) (c : Cmd) (t : Tally) : Bool :=
  let dies := diesOf w c
  match t with
  | .link 0 => true
  | .link 3 => decide (dies.length = 2)
  | .link 4 => w.m.twin.role == 1 && c.ring != 31
  | .link _ => (diesOfTally t).any dies.contains
  | .queue i => if i < 2 then ([0x08, 0x09, 0x0A] : List Nat).contains (opcodeOf c) && dies.contains i
    else i == 64 + c.ring || decide (512 ≤ i) && opcodeOf c == 2 && dies.contains ((i - 512) / 32)
  | .budget k => k % 64 == cmdClass w c && ((dieOfGate k).all dies.contains)
  | .acks i => i == c.ring
  | .session sid => ([0x08, 0x09, 0x0A] : List Nat).contains (opcodeOf c) && cmdBits c 0x10 0 20 == sid
  | .journal => true

/-- A path that a new command needs is closed (R48). -/
def tallyShut (w : Mach) (c : Cmd) : Bool := w.m.hw.tally.any (needsPath w c)

/-- A command of one row in a state where it may start: its effect; otherwise the row finds nothing to do. -/
def command (seq op : Nat) (f : Cmd → Mach → Mach) (w : Mach) : Mach :=
  if !mayStart w seq op then w
  else
    let w := updCmd seq (fun c => { c with begun := true }) w
    if tallyShut w (cmdOf w seq) && (cmdOf w seq).stage == 0 then failCmd seq erTally w
    else f (cmdOf w seq) w

/-- A command that starts, has its effect and is DONE. -/
def atOnce (seq : Nat) (f : Mach → Mach) (w : Mach) : Mach := doneCmd seq (f (startCmd seq w))

/-! ### Journal records (R373, R374) -/

/-- The JSEQ that the next record takes (R373): a follower's JSEQs are the lead's, and its own local records are kept
apart from 2^62 on (R430; log 43). -/
def nextJseq (w : Mach) : Nat := if w.m.twin.role = 2 then 2 ^ 62 + w.m.twin.jLocal else w.m.k.jseq

/-- Append a journal record under the next JSEQ. -/
def journalAdd (r : JRec) (w : Mach) : Mach :=
  let j := nextJseq w
  let w := putRecord j r w
  if w.m.twin.role = 2 then onTwin (fun t => { t with jLocal := t.jLocal + 1 }) w
  else onK (fun k => { k with jseq := j + 1 }) w

/-- The kept input records of a command that meet a test on kind, logical thread, step and index (R364), in JSEQ order: index
and digest of each. -/
def findInputs (w : Mach) (cmd : Nat) (p : Nat → Nat → Nat → Nat → Bool) : List (Nat × Nat) :=
  w.m.k.journal.filterMap fun e =>
    let b := e.2.body >>> 256
    if e.2.typ = 3 ∧ bits b 0 32 = cmd ∧ p (bits b 32 8) (bits b 48 16) (bits b 64 64) (bits b 224 32) = true then
      some (bits b 224 32, bits b 256 256) else none

/-- The first of them. -/
def findInput (w : Mach) (cmd : Nat) (p : Nat → Nat → Nat → Nat → Bool) : Option (Nat × Nat) := (findInputs w cmd p).head?

/-- The record of an input of a command that is met the `n`th time under one kind, logical thread and step, from 0: the records
of one such key stand in the order in which the inputs were read (R364). -/
def nthInput (w : Mach) (cmd kind lthread step n : Nat) : Option (Nat × Nat) :=
  (findInputs w cmd fun k l s _ => k == kind && l == lthread && s == step)[n]?

/-- An input is met: how often its key was met before. -/
def meetInput (seq kind lthread step : Nat) (w : Mach) : Nat × Mach :=
  ((cmdOf w seq).met.countP (· == (kind, lthread, step)),
   updCmd seq (fun c => { c with inputs := c.inputs + 1, met := (kind, lthread, step) :: c.met }) w)

/-- The staging buffer has no room for some input records that a command is to make (R376): what makes them waits. A replay and
a follower make none. -/
def inputWaits (w : Mach) (seq n : Nat) : Bool :=
  n != 0 && (planOf w seq).replay.isNone && w.m.twin.role != 2 && !jStages w n

/-- A lead in MIRROR ships the bytes of an input (R432). -/
def shipInput (cls n : Nat) (w : Mach) : Mach :=
  if mirrorLead w then sendFrame 1 cls (ceilDiv n 32) w else w

/-- A follower's input against the lead's record, once that has come: a mismatch is a divergence (R432). -/
def checkInput (seq kind lthread step : Nat) (dig : List Byte) (w : Mach) : Mach :=
  let (n, w) := meetInput seq kind lthread step w
  match nthInput w seq kind lthread step n with
  | some (_, d) => if d = ofBytes dig then w else failCmd seq erDiverged w
  | none => onTwin (fun t => { t with early := t.early ++ [(seq, kind, lthread, step, n, ofBytes dig)] }) w

/-- The lead's records have come of inputs that a follower had met before: each is compared now (R432). -/
def checkEarly (w : Mach) : Mach :=
  w.m.twin.early.foldl (fun w e =>
    let (seq, kind, lthread, step, n, dig) := e
    match nthInput w seq kind lthread step n with
    | none => w
    | some (_, d) =>
      let w := onTwin (fun t => { t with early := t.early.filter (· != e) }) w
      if d = dig then w else failCmd seq erDiverged w) w

/-- An input record (R364): kind, logical thread, step, digest, counted within its command. A replay compares the input
with the record of the run it repeats instead, and the first mismatch ends it (R367). A follower compares it with the
lead's (R432). -/
def inputRecord (seq kind lthread step : Nat) (dig : List Byte) (w : Mach) : Mach :=
  let c := cmdOf w seq
  match (planOf w seq).replay with
  | some r =>
    let (n, w) := meetInput seq kind lthread step w
    match nthInput w r.target kind lthread step n with
    | some (i, d) => if d = ofBytes dig then w else failCmd seq erInputChanged (updCmd seq (fun c => { c with prog := i }) w)
    | none => failCmd seq erInputChanged w
  | none =>
    if w.m.twin.role = 2 then checkInput seq kind lthread step dig w else
    let st := nextStamp unitKeeper w
    let body := ofBytes (toBytes 4 seq ++ toBytes 1 kind ++ [0] ++ toBytes 2 lthread ++ toBytes 8 step
      ++ toBytes 8 st.tick ++ toBytes 4 w.m.epoch ++ toBytes 4 c.inputs ++ dig)
    updCmd seq (fun c => { c with inputs := c.inputs + 1 })
      (journalAdd { typ := 3, body := body <<< 256, tick := st.tick, src := sourceOf unitKeeper,
                    sq := BitVec.ofNat 16 st.seq, epoch := w.m.epoch } (takeStamp unitKeeper w))

end Sys2Proof.Machine
end

