-- ==== Sys2Proof/Machine/Units.lean ====
section
/-! DEFINITION. Units and their states (R411 to R417). -/

namespace Sys2Proof.Machine
open Sys2Proof

/-! ### States (R411 to R417) -/

/-- The units of each kind (R415). -/
def unitCount (kind : Nat) : Nat :=
  match kind with
  | 0 => 2 | 1 => 32 | 2 => 32 | 3 => 128 | 4 => 640 | 5 => 512 | 6 => 64 | 7 => 2 | 8 => 3 | _ => 0

/-- A unit number names a unit: kind and index in range, and a tier bank's bank 0 to 51 (R415). -/
def isUnit (u : Nat) : Bool :=
  decide (u % 0x1000 < unitCount (u / 0x1000)) && (u / 0x1000 != 4 || decide (u % 64 < 52))

/-- The die that a unit lies on; a die bridge counts with its first end. -/
def dieOfUnit (u : Nat) : Nat :=
  let i := u % 0x1000
  match u / 0x1000 with
  | 0 => i | 1 => i / 16 | 2 => i / 16 | 3 => i / 64 | 4 => i / 64 / 5 | 5 => i / 256 | 6 => i / 32 | 7 => i
  | _ => i / 2

/-- A unit in service: its own state and its die's. -/
def inService (w : Mach) (u : Nat) : Bool := unitState w u == .inService && unitState w (dieOfUnit u) == .inService

/-- The threads that a serving plan lends (R459): bit 8v + t is thread t of die-local VP v. -/
def lendOf (p : Plan) : List Nat :=
  if p.serve then ((List.range 128).filter fun i => bit p.lend i).map fun i => p.die * 128 + i else []

/-- The module's threads could bind and lend what a plan asks for (R526). -/
def threadsSuffice (w : Mach) (p : Plan) : Bool :=
  let vps := (List.range 32).filter fun v => inService w (unitVp v)
  decide (p.t + (lendOf p).length ≤ 8 * vps.length) && (lendOf p).all fun k => vps.contains (k / 8)

/-- A command's plan has passed its checks and waits for threads (R526). -/
def planWaits (w : Mach) (seq : Nat) : Bool :=
  (cmdOf w seq).stage == 1 && !isOver w seq &&
  (match tget w.m.h.plans seq with
   | some p => !p.bound && !p.ended && !p.aborted
   | none => false)

/-- Waiting plans that the units in service can no longer hold end FAILED with PLAN_THREADS (R526). -/
def recheckPlans (w : Mach) : Mach :=
  w.m.h.plans.foldl (fun w e =>
    if planWaits w e.1 && !threadsSuffice w e.2 then failCmd e.1 erPlanThreads w else w) w

/-- Put a unit into another state; the tables and the waiting plans follow (R122, R526). -/
def setUnit (u : Nat) (st : UState) (w : Mach) : Mach :=
  if unitState w u = st then w else withGeom (fun w => recheckPlans (putState u st w)) w

/-- A drain begins: a VP has 64 periods for its plans (R417). -/
def startDrain (u : Nat) (w : Mach) : Mach :=
  if unitState w u ≠ .inService then w
  else
    let w := setUnit u .draining w
    if u / 0x1000 = 1 then onHw (fun h => { h with drainAt := tput h.drainAt u (w.m.tick / 4096) }) w else w

/-- The die that a dispatcher or a die bridge takes with it (R401, R417). -/
def dieBehind (u : Nat) : Nat :=
  match u with
  | 0x7000 => 0
  | 0x8001 => 0
  | _ => 1

/-- The units that go with a die but the die itself: its own, and the bridges whose loss is that die's (R401, R411;
log 130). -/
def unitsOfDie (die : Nat) : List Nat :=
  ((List.range 9).flatMap fun k => (List.range (unitCount k)).map fun i => k * 0x1000 + i).filter fun u =>
    decide (0x1000 ≤ u) && isUnit u && (if u < 0x8000 then dieOfUnit u else dieBehind u) == die

/-- A unit stops at once (R411): it goes to PUPA from service or draining. -/
def pupate (u : Nat) (w : Mach) : Mach :=
  match unitState w u with
  | .inService => setUnit u .pupa w
  | .draining => setUnit u .pupa w
  | _ => w

end Sys2Proof.Machine
end

