-- ==== Sys2Proof/Machine/Hbm.lean ====
section
/-! DEFINITION. The HBM channels (R317 to R324): places, queues, slots and losses; none of it changes a byte. -/

namespace Sys2Proof.Machine
open Sys2Proof

/-- NEAR_MEMORY_CACHE_FILL (R302 to R305, R316, R490): an access that a thread's data cache makes to some sectors of a line of
HBM, to `whole` ones whole and to 64 bytes of the others, meets the near-memory cache: what misses arrives, evicting a victim. A
thread's hint is NORMAL, whatever the command carries (R304). -/
def execNearMemoryCacheFill (t : Tid) (addr : Nat) (sectors whole : BitVec 8) (_hint : BitVec 2) (write : Bool) (s : State) :
    Host.Outcome State Fault Refusal :=
  run (iterate 8 (fun k w =>
    if sectors.getLsbD k then threadNear t (addr / 2048 * 2048 + 256 * k) (if whole.getLsbD k then 256 else 64) 0 write w
    else w)) s

/-! ### Channel engines (R318 to R323) -/

/-- Where a line lies within its channel (R318). -/
structure LinePlace where
  row   : Nat
  sid   : Nat
  group : Nat
  bank  : Nat
  deriving DecidableEq, Repr

/-- The place of line `m` of a channel (R318). -/
def linePlace (m : Nat) : LinePlace :=
  let row := m / 48
  let b := (m % 16) ^^^ (row % 16)
  { row := row, sid := (m >>> 4) % 3, group := b / 4, bank := b % 4 }

/-- Where a granule of HBM lies (R318): its channel, the place of its line, its pseudo-channel and its column there. -/
structure GranulePlace where
  channel : Nat
  line    : LinePlace
  pseudo  : Nat
  column  : Nat
  deriving DecidableEq, Repr

/-- The place of the granule at an HBM address (R318). -/
def granulePlace (w : Mach) (a : Nat) : GranulePlace :=
  let (ch, m) := channelLine w a
  let j := a / 32 % 64
  { channel := ch, line := linePlace m, pseudo := j / 8 % 2, column := j / 16 * 8 + j % 8 }

/-- The bank of a line within a channel, stack ID included, and its row (R318). -/
def bankRow (m : Nat) : Nat × Nat :=
  let p := linePlace m
  (p.sid * 16 + p.group * 4 + p.bank, p.row)

/-- The granules that wait to be written. -/
def writesWaiting (c : Channel) : Nat := granules true c.queue

/-- The direction of the next run (R321). -/
def nextDirection (c : Channel) : Bool :=
  let reads := c.queue.any fun r => !r.write
  if c.writing then !((decide (128 ≤ c.wrote) || writesWaiting c == 0) && reads)
  else decide (128 ≤ writesWaiting c) || !reads

/-- A run's bank is free: its row is open, or the row-cycle time has passed (R321, R322). -/
def bankFree (c : Channel) (r : ChRun) : Bool :=
  let (b, row) := bankRow r.line
  tget c.rows b == some row || decide (tread 0 c.acts b + 96 ≤ c.slot) || (tget c.acts b).isNone

/-- The slot of the last activate of a run's bank. -/
def lastActivate (c : Channel) (r : ChRun) : Nat := tread 0 c.acts (bankRow r.line).1

/-- The run that a channel serves next (R321): the oldest of its direction whose bank is free, and where none is, the one
whose bank is free first; runs to one bank keep their order. -/
def nextRun (c : Channel) : Option (Nat × ChRun) :=
  let dir := nextDirection c
  let all := ((List.range c.queue.length).zip c.queue).filter fun e => e.2.write == dir
  let firsts := all.filter fun e =>
    !all.any fun x => decide (x.1 < e.1) && (bankRow x.2.line).1 == (bankRow e.2.line).1
  match firsts.find? fun e => bankFree c e.2 with
  | some e => some e
  | none => firsts.foldl (fun b e =>
      match b with
      | some x => if lastActivate c e.2 < lastActivate c x.2 then some e else b
      | none => some e) none

/-- The energy of `n` loss slots for a class; parts of a unit wait in the channel's residue (R44, R323; log 23). -/
def lossEnergy (ch cls n : Nat) (w : Mach) : Mach :=
  let e := tread 0 w.m.hw.residues (0x100 + ch) + 80 * n
  let w := onHw (fun h => { h with residues := twrite 0 h.residues (0x100 + ch) (e % energyUnit) }) w
  if e / energyUnit = 0 then w else chargeGate ⟨.energy, 0, cls, e / energyUnit, .keeper 0, none⟩ w

/-- A channel engine serves its next run (R321 to R323): its losses are charged to the class that incurs them. -/
def serveChannel (ch : Nat) (w : Mach) : Mach :=
  let c := tread {} w.m.hw.channels ch
  match nextRun c with
  | none => w
  | some (i, r) =>
    let (b, row) := bankRow r.line
    let turn := if r.write = c.writing then 0 else if r.write then 10 else 16
    let hit := tget c.rows b == some row
    let start := c.slot + turn
    let busy := match tget c.acts b with
      | some a => if hit then 0 else a + 96 - start
      | none => 0
    let opening := if hit then 0 else if 16 ≤ c.last then (if r.write then 5 else 4) else 11
    let taken := if hit then r.gran else max (r.gran + opening) 14
    let loss := turn + busy + (taken - r.gran)
    let rest := c.queue.eraseIdx i
    let stays := match rest.find? fun x => (bankRow x.line).1 == b with
      | some x => (bankRow x.line).2 == row
      | none => false
    let c' := { c with
      queue := rest, writing := r.write,
      wrote := if r.write then (if c.writing then c.wrote else 0) + r.gran else 0,
      rows := if stays then tput c.rows b row else tdel c.rows b,
      acts := if hit then c.acts else tput c.acts b (start + busy),
      last := r.gran,
      slot := c.slot + turn + busy + taken, retried := false }
    let w := onHw (fun h => { h with channels := twrite {} h.channels ch (takeHeld c') }) w
    let w := countGlobal 0x20 loss ⟨ch / 256, r.cls, r.lopid⟩ w
    if loss = 0 then w
    else lossEnergy ch r.cls loss (chargeGate ⟨.hbm, ch / 8, r.cls, loss, .keeper 0, none⟩ w)

/-- HBM_CHANNEL_RUN (R321 to R323): a channel engine serves a queued run. -/
def execHbmChannelRun (ch : BitVec 9) (s : State) : Host.Outcome State Fault Refusal :=
  run (serveChannel ch.toNat) s

/-- HBM_REFRESH (R317, R321, R322): refresh, refresh management and calibration take their slots, charged to no
class. -/
def execHbmRefresh (ch : BitVec 9) (s : State) : Host.Outcome State Fault Refusal :=
  run (fun w =>
    let w := countGlobal 0x20 128 { die := ch.toNat / 256 } w
    onHw (fun h =>
      let c := tread {} h.channels ch.toNat
      { h with channels := twrite {} h.channels ch.toNat { c with slot := c.slot + 128 } }) w) s

end Sys2Proof.Machine
end

