-- ==== Sys2Proof/Machine/Responses.lean ====
section
/-! DEFINITION. Ring counts and the posting of responses (R347, R376, R389, R449, R452, R454). -/

namespace Sys2Proof.Machine
open Sys2Proof

/-- A count of the rings (R452). -/
def ringCount (w : Mach) (i : Nat) : Nat := tread 0 w.m.h.counts i

/-- Set a ring count (R452). -/
def setCount (i v : Nat) (w : Mach) : Mach := onH (fun h => { h with counts := twrite 0 h.counts i (v % 2 ^ 32) }) w

/-- The function that owns a command ring, and an event ring (R449). -/
def cmdRingFn (w : Mach) (r : Nat) : Nat := tread 0 w.m.ringFn r
def evRingFn (w : Mach) (r : Nat) : Nat := tread 0 w.m.ringFn (32 + r)

/-- A response record in its ring's next slot: written before RSP_PCOUNT covers it, and counted (R454, R466). -/
def postResponse (ring rec : Nat) (w : Mach) : Mach :=
  let w := setCount (512 + ring) (ringCount w (512 + ring) - 1) w
  let p := ringCount w (256 + ring)
  notify (32 + ring) (checkTally (.queue (192 + ring)) (setCount (256 + ring) (p + 1)
    (onH (fun h => { h with respSlots := twrite 0 h.respSlots (ring * 2 ^ 12 + p % 1024) rec }) w)))

/-- A record's event has been answered: its bit of the responded bitmap is set, or it lies before the bitmap (R389). -/
def answeredAt (w : Mach) (jseq : Nat) : Bool := decide (jseq < w.m.h.respBase) || w.m.h.responded.contains jseq

/-- A record's event is answered: its bit is set (R389). -/
def markAnswered (jseq : Nat) (w : Mach) : Mach :=
  if answeredAt w jseq then w else onH (fun h => { h with responded := h.responded ++ [jseq] }) w

/-- The responded bitmap starts from the oldest record that was unanswered at the latest cut (R389). -/
def trimAnswered (oldest : Nat) (w : Mach) : Mach :=
  onH (fun h => { h with
    respBase := max h.respBase oldest, responded := h.responded.filter fun j => decide (oldest ≤ j) }) w

/-- The oldest event that is not answered yet, from the next JSEQ down: queued, or its response held (R389). -/
def oldestUnanswered (w : Mach) : Nat :=
  let queued := w.m.s.sessions.flatMap fun e => e.2.queue.map (·.jseq)
  let held := w.m.s.heldResp.flatMap fun h => h.recs.map fun r => r.2.1
  (queued ++ held).foldl min w.m.k.jseq

/-- Held responses whose records are committed, and that no verdict withholds, are posted (R347, R376, R389); a follower
and a fenced module post none (R433, R438), and a full ring takes none (R454). Those of events
taken before a function's reset are dropped (R451). -/
def releaseResponses (w : Mach) : Mach :=
  let room (r : Nat) : Bool := decide ((ringCount w (256 + r) + 2 ^ 32 - ringCount w (320 + r)) % 2 ^ 32 < 1024)
  let shown := w.m.twin.role != 2 && w.m.twin.role != 3
  let ready (h : HeldResp) : Bool := shown && h.ok && h.recs.all fun r => committedAt w r.2.1 && room r.1
  let now := w.m.s.heldResp.filter ready
  let w := onS (fun s => { s with heldResp := s.heldResp.filter fun h => !ready h }) w
  now.foldl (fun w h => h.recs.foldl (fun w r =>
    if r.2.1 < tread 0 w.m.h.respDrop r.1 then markAnswered r.2.1 w
    else if answeredAt w r.2.1 then setCount (512 + r.1) (ringCount w (512 + r.1) - 1) w
    else markAnswered r.2.1 (postResponse r.1 r.2.2 w)) w) w

end Sys2Proof.Machine
end

