-- ==== Sys2Proof/Machine/Invoke.lean ====
section
/-! DEFINITION. What a thread does to its command: a refused descriptor or a double fault fails it (R112, R246), and a
session kernel's end (R343 to R347). -/

namespace Sys2Proof.Machine
open Sys2Proof

/-- The command that a thread works for ends FAILED; its threads stop (R112, R246). -/
def failThreadCommand (t : Tid) (err : Nat) (w : Mach) : Mach :=
  match cmdOfThread (thr w t) with
  | some c => failCmd c err w
  | none => w

/-- A keeper's reply to a gate is an input of the thread's command: the digest of g1 to g7 (R362). -/
def recordReply (t : Tid) (w : Mach) : Mach :=
  let th := thr w t
  match cmdOfThread th with
  | none => w
  | some c =>
    let k := match th.binding with | .plan _ k => k | _ => 0
    let bs := (List.range 7).flatMap fun i => toBytes 8 (getG th (BitVec.ofNat 5 (1 + i))).toNat
    inputRecord c 2 k th.step.toNat (sha256 bs) w

/-- A VP leaves service by draining (R246, R417). -/
def unitToDraining (u : Nat) (w : Mach) : Mach := startDrain u w

/-! ### The lent area and the history of a session -/

/-- The sizes of the four arrays of a lent thread's area, for four events at most (R342). -/
def lentSizes : List Nat := [512, 32, 128, 32]

/-- Four places in a lent thread's area of 2 KiB in which the arrays fit side by side. -/
def lentFits (os : List Nat) : Bool :=
  let rs := os.zip lentSizes
  rs.all (fun r => decide (r.1 + r.2 ≤ 2048)) &&
  (List.range 4).all fun i => (List.range i).all fun j => !spansMeet (rs.getD i (0, 0)) (rs.getD j (0, 0))

/-- The virtual address of an array of a lent thread's area of 2 KiB (R342): where in it is left open (log 27). -/
def lentAt (key arr : Nat) : Nat :=
  let os := (List.range 4).map (Config.lentOffset key)
  (Config.lentArea key).toNat / 2048 * 2048 + (if lentFits os then os else [0, 512, 544, 672]).getD arr 0

/-- An array of a lent thread's area as its address space maps it, in plain near memory (R342; log 27). -/
def lentPieces (w : Mach) (key arr len : Nat) : List Chunk :=
  let near (a : Nat) : Bool := match regionOf w a with | .near _ _ => true | _ => false
  match pieces w [] { ctxOf (thr w (tidOf key)) with priv := true } .read near (lentAt key arr) len with
  | .ok cs => cs
  | .error _ => []

/-- The bytes of a session's state block, as it was written. -/
def blockBytes (w : Mach) (s : Session) : List Byte :=
  s.block.flatMap fun e => (List.range e.2).map fun i => rawByte w (e.1 + i)

/-- Note what a session is at its present step, and the event that made it: replay rebuilds exactly this (R353; log 28). -/
def notePast (sid jseq : Nat) (w : Mach) : Mach :=
  let s := sessOf w sid
  let p : SessPast := { desc := ofBytes (descBytes sid s), block := blockBytes w s, jseq := jseq }
  onS (fun x => { x with past := tput x.past sid (tput (tread [] x.past sid) s.step p) }) w

/-- A session that goes PARKED leaves every invocation that has not started; its events stay queued, and an invocation
left empty is not run (R340). -/
def takeOut (sid : Nat) (w : Mach) : Mach :=
  let waits (i : Inv) : Bool := i.thread.isNone && !i.ended
  let given : List Nat := w.m.s.invs.flatMap fun e =>
    if waits e.2 then (e.2.evs.filter fun x => x.1 == sid).map (·.2.jseq) else []
  let out (i : Inv) : Inv := if waits i then { i with evs := i.evs.filter fun x => x.1 != sid } else i
  let w := onS (fun s => { s with invs := (s.invs.map fun e => (e.1, out e.2)).filter fun e =>
      !(waits e.2 && e.2.evs.isEmpty) }) w
  updSess sid (fun s => { s with queue := s.queue.map fun q => if given.contains q.jseq then { q with given := false } else q }) w

/-! ### The end of an invocation (R343 to R347) -/

/-- A response record (R347): status 0 DONE, 1 LIMIT, 2 NO_SESSION, 3 FULL. -/
def responseRecord (sid status htag itick step kstatus : Nat) (result : List Byte) : Nat :=
  ofBytes (toBytes 4 (sid + status <<< 24) ++ toBytes 4 htag ++ toBytes 8 itick ++ toBytes 8 step ++ toBytes 4 kstatus
    ++ toBytes 4 0 ++ result.take 32)

/-- One session of an ended invocation: its event leaves the queue, its step and stamps advance, and its state follows
(R331, R346). -/
def endSession (limit : Bool) (e : Nat × QEv) (w : Mach) : Mach :=
  let q := e.2
  let w := updSess e.1 (fun s =>
    let queue := s.queue.filter fun x => x.jseq != q.jseq
    { s with
      queue := queue, step := s.step + 1, ltick := q.tick, lsrc := q.src, lsq := q.sq, epoch := q.epoch,
      state := if limit then 4 else if queue.isEmpty then 1 else 2, parkwhy := if limit then 1 else 0 }) w
  notePast e.1 q.jseq (parkRegen e.1 (if limit then takeOut e.1 w else w))

/-- Events counted in SESS_LIMITS (R350). -/
def countLimit (die : Nat) (w : Mach) : Mach :=
  let c := tread {} w.m.s.sessLim die
  let w := onS (fun s => { s with sessLim := twrite {} s.sessLim die (ackEvent c) }) w
  if ackFull c then saturated (0x1085018 + die * 0x800000) w else w

/-- An ended invocation leaves nothing once the operations that it posted have completed (R344). -/
def endContext (id : Nat) (w : Mach) : Mach :=
  let busy := (w.m.fqueues.any fun e => e.1 == .inv id && !e.2.entries.isEmpty)
    || (match w.m.fieldRun with | some r => r.owner == .inv id | none => false)
  if busy || !(tread {} w.m.s.invs id).ended then w
  else onM (fun m => { m with fqueues := m.fqueues.filter fun e => e.1 != .inv id
                              s := { m.s with invs := tdel m.s.invs id } }) w

/-- The invocation on a thread ends, normally with a kernel status or at its limit (R343, R344): its stores drain, its
sessions advance, its responses wait for their records and for the twin, and its thread is idle again. -/
def closeInvocation (t : Tid) (limit : Bool) (ks : Nat) (w : Mach) : Mach :=
  let w := drainStores t w
  let th := thr w t
  match th.binding with
  | .inv id c =>
    let i := tread {} w.m.s.invs id
    let results := readPieces w (lentPieces w (tkey t) 2 (32 * i.evs.length))
    let recs := (List.range i.evs.length).map fun k =>
      let (sid, q) := i.evs.getD k (0, {})
      let res := (results.drop (32 * k)).take 32
      (q.ring, q.jseq, responseRecord sid (if limit then 1 else 0) (bits q.body 32 32) q.tick
        ((sessOf w sid).step + 1) ks (res ++ List.replicate (32 - res.length) 0))
    let w := i.evs.foldl (fun w e => endSession limit e w) w
    let w := if limit then countLimit i.die w else w
    let held := w.m.twin.role == 3 || (mirrorLead w || mirrorFollower w) &&
      recs.any fun r => decide (w.m.twin.join ≤ r.2.1)
    let num := id / 2
    let w := onS (fun s => { s with
      invs := tput s.invs id { i with thread := none, ended := true },
      heldResp := s.heldResp ++ [{ die := i.die, inv := num, recs := recs, ok := !held }] }) w
    let w := if held then
        onTwin (fun x => { x with held := x.held ++
          [{ ctx := .inv i.die num, digest := ofBytes (sha256 (recs.flatMap fun r => toBytes 64 r.2.2)),
             period := w.m.tick / 4096 }] }) (if mirrorFollower w then sendFrame 1 0 2 w else w)
      else w
    endContext id (releaseResponses (unbind (.lent c) (tkey t) w))
  | _ => w

/-- A kernel's taken transfer to address 0 ends its invocation with a kernel status (R343). -/
def endInvocation (t : Tid) (ks : Nat) (w : Mach) : Mach := closeInvocation t false ks w

end Sys2Proof.Machine
end

