-- ==== Sys2Proof/Machine/Mx.lean ====
section
/-! DEFINITION. MX blocks and elytra lists (R59 to R63, R68, R69). -/

namespace Sys2Proof.Machine
open Sys2Proof

/-- The exponent that the block scale leaves to the element format (R68). -/
def mxEmax (c : Nat) : Int :=
  match c with
  | 6 => 2 | 0xB => 8 | 0xC => 15 | 8 => 2 | _ => 0

/-- One packed block: its scale, element codes and elytra word, and what it counts. -/
structure MxBlock where
  scale : Nat
  codes : List Nat
  side  : Nat
  evs   : List Watch
  deriving DecidableEq, Repr

/-- The magnitude of a finite value. -/
def magOf (x : Num) : Nat × Int :=
  match x with
  | .fin _ m e => (m, e)
  | _ => (0, 0)

/-- |x| < |y| for finite values. -/
def absLt (x y : Num) : Bool := magLt (magOf x).1 (magOf x).2 (magOf y).1 (magOf y).2

/-- The index of the largest nonzero magnitude outside `out`, the lowest on a tie (R68). -/
def largest (xs : List Num) (out : List Nat) : Option Nat :=
  (List.range xs.length).foldl (fun b i =>
    let x := xs.getD i (.fin false 0 0)
    if out.contains i || (magOf x).1 == 0 then b
    else match b with
      | none => some i
      | some j => if absLt (xs.getD j (.fin false 0 0)) x then some i else b) none

/-- The outliers of a block: at most `n` (R68). -/
def outliersOf (n : Nat) (xs : List Num) : List Nat :=
  iterate n (fun _ out => match largest xs out with | some i => out ++ [i] | none => out) []

/-- floor(log2) of a nonzero finite magnitude. -/
def floorLog2 (x : Num) : Int := (magOf x).2 + ((magOf x).1.log2 : Int)

/-- x ÷ 2^k, exactly. -/
def scaleDown (k : Int) (x : Num) : Num :=
  match x with
  | .fin s m e => .fin s m (e - k)
  | x => x

/-- A value that forces the block scale to NaN. -/
def mxSpoils (x : Num) : Bool :=
  match x with
  | .fin _ _ _ => false
  | _ => true

/-- The elytra word of entries in ascending index order (R62). -/
def elytraWord (es : List (Nat × Nat)) : Nat :=
  match es with
  | [] => 0
  | [(i, v)] => 1 + i <<< 2 + v <<< 7
  | (i, v) :: (j, u) :: _ => 2 + i <<< 2 + v <<< 7 + j <<< 15 + u <<< 20

/-- An element of a block converted: it saturates to the format's range whatever SAT is (R68); into FP8 that counts only
under SAT 1 (R74). -/
def packElem (c : Nat) (sat : Bool) (rm : Rm) (x : Num) : Nat × List Watch :=
  let r := encodeElem c rm true x
  (r.1, if sat || (c != 0xB && c != 0xC) then r.2 else [])

/-- Pack one block (R68): `n` the elytra limit, 0 where lists are off; `sat` the conversion's SAT; `rms` the rounding of
each element. -/
def packBlock (c n : Nat) (sat : Bool) (rms : Nat → Rm) (xs : List Num) : MxBlock :=
  if xs.any mxSpoils then
    { scale := 0xFF, codes := xs.map fun _ => 0, side := 0,
      evs := .nanMade :: (xs.filter (· == .over)).map fun _ => .overflowCode }
  else
    let out := outliersOf n xs
    let shared : Int :=
      match largest xs out with
      | none => -127
      | some i => max (-127) (min 127 (floorLog2 (xs.getD i (.fin false 0 0)) - mxEmax c))
    let idx := List.range xs.length
    let res := idx.map fun i =>
      let x := scaleDown shared (xs.getD i (.fin false 0 0))
      if out.contains i then encodeF e4m3 (rms i) true x else packElem c sat (rms i) x
    let sides := (idx.filter out.contains).map fun i => (i, (res.getD i (0, [])).1)
    { scale := (shared + 127).toNat,
      codes := idx.map fun i => if out.contains i then 0 else (res.getD i (0, [])).1,
      side := elytraWord sides,
      evs := res.flatMap (·.2) }

/-- The entries of an elytra word that apply, and what reading it counts (R62, R63). -/
def elytraEntries (word : Nat) (codes : List Nat) : List (Nat × Nat) × List Watch :=
  let count := bits word 0 2
  let e0 := (bits word 2 5, bits word 7 8)
  let e1 := (bits word 15 5, bits word 20 8)
  let conflict (e : Nat × Nat) : List Watch := if codes.getD e.1 0 ≠ 0 then [.elytraConflict] else []
  match count with
  | 0 => ([], [])
  | 1 => ([e0], conflict e0)
  | 2 => if e0.1 = e1.1 then ([e0], conflict e0 ++ [.elytraConflict]) else ([e0, e1], conflict e0 ++ conflict e1)
  | _ => ([], [.reservedCode])

/-- An MX element unpacked. To binary64 or binary32 it is exact, and an infinity above the maximum, whatever RM and SAT are
(R66; log 95); to a narrower float the value is rounded by RM and overflows by SAT. -/
def mxResult (dst : Nat) (rm : Rm) (sat : Bool) (x : Num) : Nat × List Watch :=
  if dst ≤ 1 then encodeElem dst .rne false x else encodeElem dst rm sat x

/-- The values of a block (R61, R63): a NaN scale makes every element NaN and nothing is examined. -/
def unpackBlock (c scale : Nat) (codes : List Nat) (side : Option Nat) : List Num × List Watch :=
  if scale = 0xFF then (codes.map fun _ => .nan, [])
  else
    let (es, ev) := match side with
      | some word => elytraEntries word codes
      | none => ([], [])
    let res := (List.range codes.length).map fun i =>
      let (y, e) := decodeElem c (codes.getD i 0)
      let x : Num := match es.find? (fun (e : Nat × Nat) => e.1 == i) with
        | some (_, v) => decodeF e4m3 v
        | none => y
      (scaleDown (127 - (scale : Int)) x, e)
    (res.map (·.1), ev ++ res.flatMap (·.2))

end Sys2Proof.Machine
end

