-- ==== Sys2Proof/Machine/FieldDesc.lean ====
section
/-! DEFINITION. Field operation descriptors (R109 to R118): fields, refusals, placement, documented cost and near-memory
demand. -/

namespace Sys2Proof.Machine
open Sys2Proof

/-- A descriptor's fields (R109). -/
structure FD where
  kind   : Nat
  mode   : Nat
  ewop   : Nat
  ela    : Bool
  elb    : Bool
  acc    : Nat
  hoprm  : Nat
  order  : Nat
  n      : Nat
  rm     : Nat
  sat    : Bool
  probe  : Nat
  pbf    : Bool
  fmta   : Nat
  fmtb   : Nat
  fmto   : Nat
  slot   : BitVec 12
  qexp   : Int
  col0   : Nat
  col1   : Nat
  cost   : Nat
  seq    : Nat
  M      : Nat
  N      : Nat
  K      : Nat
  plots  : List Nat
  chunk  : Nat
  lda    : Nat
  ldb    : Nat
  ldo    : Nat
  aElem  : Nat
  aScale : Nat
  aSide  : Nat
  bElem  : Nat
  bScale : Nat
  bSide  : Nat
  out    : Nat
  plane  : Nat
  raw    : Nat
  deriving DecidableEq, Repr

/-- The fields of 128 bytes (R109). -/
def fdOf (d : Nat) : FD :=
  { kind := bits d 0 4, mode := bits d 4 2, ewop := bits d 6 2, ela := bit d 8, elb := bit d 9, acc := bits d 10 2,
    hoprm := bits d 12 2, order := bits d 14 2, n := bits d 16 5 + 1, rm := bits d 21 2, sat := bit d 23,
    probe := bits d 24 2, pbf := bit d 26, fmta := bits d 32 4, fmtb := bits d 36 4, fmto := bits d 40 4,
    slot := BitVec.ofNat 12 (bits d 44 12), qexp := toSigned 8 (bits d 56 8), col0 := bits d 64 6, col1 := bits d 70 6,
    cost := bits d 80 16, seq := bits d 96 32, M := bits d 128 24, N := bits d 160 24, K := bits d 192 17,
    plots := (List.range 32).filter fun p => bit d (224 + p),
    chunk := bits d 256 16, lda := bits d 288 32, ldb := bits d 320 32, ldo := bits d 352 32,
    aElem := bits d 384 64, aScale := bits d 448 64, aSide := bits d 512 64, bElem := bits d 576 64,
    bScale := bits d 640 64, bSide := bits d 704 64, out := bits d 768 64, plane := bits d 832 64, raw := d }

def FD.matmul (d : FD) : Bool := d.kind == 1
def FD.strider (d : FD) : Bool := d.mode == 1

/-- The bits that R109 does not list. -/
def fdReserved (d : Nat) : Nat :=
  bits d 27 5 + bits d 76 4 + bits d 152 8 + bits d 184 8 + bits d 209 15 + bits d 272 16 + bits d 896 128

/-! ### Address words (R111) -/

/-- A tile word (R111). -/
def isTile (a : Nat) : Bool := bit a 63

/-- The columns that the probe samples: COL0 and COL1 in broad mode, COL0 only in strider mode (R99). -/
def probeCols (d : FD) : List Nat :=
  if !d.matmul then []
  else (if bit d.probe 0 then [d.col0] else []) ++ (if bit d.probe 1 && !d.strider then [d.col1] else [])

/-- The address words that the operation uses, each with whether it is the stationary element word (R111). -/
def usedWords (d : FD) : List (Nat × Bool) :=
  if !d.matmul then [(d.aElem, false), (d.bElem, false), (d.out, false)]
  else
    [(d.aElem, d.strider), (d.bElem, !d.strider), (d.out, false)]
    ++ (if fmtMx d.fmta then [(d.aScale, false)] else []) ++ (if fmtMx d.fmtb then [(d.bScale, false)] else [])
    ++ (if d.ela then [(d.aSide, false)] else []) ++ (if d.elb then [(d.bSide, false)] else [])
    ++ (if (probeCols d).isEmpty then [] else [(d.plane, false)])

/-- A used address word keeps R111. -/
def wordOk (e : Nat × Bool) : Bool :=
  if isTile e.1 then e.2 && bits e.1 3 60 == 0 else bits e.1 48 15 == 0

/-- The tile that the stationary operand names, if it names one. -/
def stationaryTile (d : FD) : Option Nat :=
  let a := if d.strider then d.aElem else d.bElem
  if d.matmul && isTile a then some (a % 8) else none

/-! ### Shape of the work (R83, R103, R114) -/

/-- Both operands are 4-bit or narrower, or both T2: the pack factor (R103). -/
def packFactor (d : FD) : Nat :=
  if d.fmta = 9 ∧ d.fmtb = 9 then 4 else if fmtBits d.fmta ≤ 4 ∧ fmtBits d.fmtb ≤ 4 then 2 else 1

/-- K extent of a block (R103, R114). -/
def blockK (d : FD) : Nat :=
  if d.fmta = 0 ∧ d.fmtb = 0 then 16
  else if d.fmta = 1 ∧ d.fmtb = 1 then 32
  else if d.strider ∧ (fmtBits d.fmta = 16 ∨ fmtBits d.fmtb = 16) then 32
  else 64 * packFactor d

/-- N extent of a broad block at width W (R103). -/
def blockN (d : FD) (W : Nat) : Nat :=
  if d.fmta = 0 ∧ d.fmtb = 0 then W / 8 else if d.fmta = 1 ∧ d.fmtb = 1 then W / 2 else W

/-- The stationary load in beats (R103). -/
def loadBeats (d : FD) : Nat :=
  if d.fmta = 0 ∧ d.fmtb = 0 then 16 else if d.fmta = 1 ∧ d.fmtb = 1 then 32 else 64

/-- Where segment j begins (R83); segment j ends where segment j + 1 begins. -/
def segStart (d : FD) (j : Nat) : Nat := min (64 * (j * ceilDiv d.K 64 / d.n)) d.K

/-- The products of position j. -/
def segLen (d : FD) (j : Nat) : Nat := segStart d (j + 1) - segStart d j

/-- Plots: how many groups there are (R114). -/
def groupCount (d : FD) : Nat := if d.n ≤ d.plots.length then d.plots.length / d.n else 1

/-- The plot that hosts position j of group g (R114). -/
def hostPlot (d : FD) (g j : Nat) : Nat :=
  if d.n ≤ d.plots.length then d.plots.getD (g * d.n + j) 0 else d.plots.getD (j % d.plots.length) 0

/-- Column blocks of a broad operation. -/
def colBlocks (d : FD) (W : Nat) : Nat := ceilDiv d.N (blockN d W)

/-- The number of items (R114). -/
def itemCount (d : FD) (W : Nat) : Nat :=
  if d.strider then ceilDiv d.N d.chunk else ceilDiv d.M d.chunk * colBlocks d W

/-- The item of an output element (R114). -/
def itemOf (d : FD) (W m n : Nat) : Nat :=
  if d.strider then n / d.chunk else m / d.chunk * colBlocks d W + n / blockN d W

/-! ### Documented cost (R115 to R117) -/

/-- The bits of a number. -/
def bitLength (n : Nat) : Nat := if n = 0 then 0 else n.log2 + 1

/-- ⌈log₂ n⌉. -/
def log2Up (n : Nat) : Nat := bitLength (n - 1)

/-- The latency of a hop between plots (R115). -/
def hopBeats (a b : Nat) : Nat :=
  if b = a + 1 ∧ a / 16 = b / 16 then 4
  else 12 * bitLength (a ^^^ b) + (if a / 16 = b / 16 then 0 else 48)

/-- beats(i, j) (R116). -/
def itemBeats (d : FD) (W i j : Nat) : Nat :=
  let blocks := ceilDiv (segLen d j) (blockK d)
  let each :=
    if d.strider then
      let w := min ((i + 1) * d.chunk) d.N - i * d.chunk
      1 + ceilDiv w (4 * (W / 4))
    else
      let r := i / colBlocks d W
      let m := min ((r + 1) * d.chunk) d.M - r * d.chunk
      max (ceilDiv m 4) (loadBeats d)
  if d.ela || d.elb then ceilDiv (blocks * each * 17) 16 else blocks * each

/-- The times of one item: when each plot is free, and when the item is done (R115). -/
def itemTimes (d : FD) (W start : Nat) (free : Table Nat) (i : Nat) : Table Nat × Nat :=
  let g := i % groupCount d
  let (free, _, fins) := (List.range d.n).foldl (fun (r : Table Nat × Nat × List Nat) j =>
    let q := hostPlot d g j
    let t := max (tread start r.1 q) r.2.1 + itemBeats d W i j
    let ready := if d.order = 1 ∧ j + 1 < d.n then t + hopBeats q (hostPlot d g (j + 1)) else r.2.1
    (tput r.1 q t, ready, t :: r.2.2)) (free, start, [])
  let hosts := (List.range d.n).map (hostPlot d g)
  let both := hosts.any (fun q => decide (q < 16)) && hosts.any (fun q => decide (16 ≤ q))
  (free, if d.order = 2 then fins.foldl max 0 + 10 * log2Up d.n + (if both then 48 else 0) else fins.headD start)

/-- The elements that one plot adds per beat and array in EWISE (R117). -/
def ewiseRate (fmt : Nat) : Nat := match fmt with | 0 => 2 | 1 => 16 | 0xA => 16 | _ => 64

/-- The documented cost of an operation (R115, R117). -/
def documentedCost (d : FD) (W : Nat) : Nat :=
  if !d.matmul then 40 + ceilDiv (d.M * d.N) (ewiseRate d.fmta * 4 * d.plots.length)
  else
    let start := 24 + (if d.strider then 16 else loadBeats d)
    let (_, last) := (List.range (itemCount d W)).foldl (fun (r : Table Nat × Nat) i =>
      let (free, done) := itemTimes d W start r.1 i
      (free, max r.2 done)) ([], start)
    last + (if d.strider then 32 else 16)

/-! ### Tile layouts (R140 to R142) -/

/-- The bytes of one block slot of a tile, and of one of its columns (R140). -/
def tileColBytes (d : FD) : Nat := blockK d * fmtBits d.fmtb / 8
def tileSlotBytes (d : FD) : Nat :=
  tileColBytes d * (if d.fmtb = 0 then 8 else if d.fmtb = 1 then 32 else 64)

/-- The distinct column blocks that group g works on, in ascending order. -/
def groupCols (d : FD) (W g : Nat) : List Nat :=
  (List.range (colBlocks d W)).filter fun c =>
    (List.range (ceilDiv d.M d.chunk)).any fun r => (r * colBlocks d W + c) % groupCount d == g

/-- The positions that a plot hosts in a group. -/
def hostedBy (d : FD) (g p : Nat) : List Nat := (List.range d.n).filter fun j => hostPlot d g j == p

/-- Where the K block `b` of position j in column block c stands among the blocks of the plot's tile (R140). -/
def tileSlot (d : FD) (W g p c j b : Nat) : Nat :=
  let js := hostedBy d g p
  let perCol := (js.map fun i => ceilDiv (segLen d i) (blockK d)).sum
  let before := ((js.filter fun i => decide (i < j)).map fun i => ceilDiv (segLen d i) (blockK d)).sum
  ((groupCols d W g).filter fun x => decide (x < c)).length * perCol + before + b

/-- The byte of a strider row's tile part where position j begins (R141). -/
def tileRowPart (d : FD) (g p j : Nat) : Nat :=
  ((hostedBy d g p).filter fun i => decide (i < j)).foldl (fun a i => a + segLen d i * fmtBits d.fmta / 8) 0

/-- Some plot would need more than its tile holds (R142). -/
def tileTooSmall (d : FD) (W : Nat) : Bool :=
  (stationaryTile d).isSome &&
  (List.range (groupCount d)).any fun g => d.plots.any fun p =>
    if d.strider then decide (4096 < ((hostedBy d g p).map fun j => segLen d j * fmtBits d.fmta / 8).sum)
    else
      let blocks := ((hostedBy d g p).map fun j => ceilDiv (segLen d j) (blockK d)).sum * (groupCols d W g).length
      decide (16384 < blocks * tileSlotBytes d)

/-! ### Refusal (R112, R113) -/

def floatFmt16 (c : Nat) : Bool := ([2, 3, 4, 5, 6, 7, 8, 9, 0xB, 0xC] : List Nat).contains c
def intFmt (c : Nat) : Bool := ([7, 8, 9] : List Nat).contains c
def elytraFmt (c : Nat) : Bool := ([6, 8, 9] : List Nat).contains c

/-- The operand pair is one that ACC allows (R75). -/
def pairOk (d : FD) : Bool :=
  match d.acc with
  | 0 => (d.fmta == 1 && d.fmtb == 1) || (floatFmt16 d.fmta && floatFmt16 d.fmtb)
  | 1 => d.fmta == 0 && d.fmtb == 0
  | 2 => intFmt d.fmta && intFmt d.fmtb
  | _ => false

/-- ORDER fits n (R85). -/
def orderOk (d : FD) : Bool :=
  match d.order with
  | 0 => d.n == 1
  | 1 => decide (2 ≤ d.n ∧ d.n ≤ 8)
  | 2 => decide (9 ≤ d.n)
  | _ => false

/-- The first rule that a descriptor breaks, from FOP_RESERVED to FOP_COST: its error, 0 for none (R112, R113). -/
def fopRefusal (w : Mach) (d : FD) : Nat :=
  let W := widthOf w d.plots
  if (d.kind ≠ 1 ∧ d.kind ≠ 2) ∨ 2 ≤ d.mode ∨ (d.matmul ∧ d.acc = 3) ∨ d.order = 3 ∨ 0xD ≤ d.fmta ∨ 0xD ≤ d.fmtb
      ∨ 0xD ≤ d.fmto ∨ fdReserved d.raw ≠ 0 ∨ !(usedWords d).all wordOk then erFopReserved
  else if d.matmul then
    if !pairOk d ∨ (d.ela ∧ !elytraFmt d.fmta) ∨ (d.elb ∧ !elytraFmt d.fmtb) ∨ ((d.ela ∨ d.elb) ∧ d.acc = 2)
        ∨ !([0, 1, 2, 3, 4, 5, 7, 0xA] : List Nat).contains d.fmto then erFopPair
    else if !orderOk d then erFopOrder
    else if d.M = 0 ∨ d.N = 0 ∨ d.K = 0 ∨ 65536 < d.K ∨ 2 ^ 26 < d.M * d.N
        ∨ ((fmtMx d.fmta ∨ fmtMx d.fmtb) ∧ d.K % 32 ≠ 0) ∨ d.chunk = 0
        ∨ (!d.strider ∧ d.chunk % 4 ≠ 0 ∧ d.chunk < d.M) ∨ (!d.plots.isEmpty ∧ tileTooSmall d W) then erFopShape
    else if d.strider ∧ (4 < d.M ∨ d.fmta ≤ 1 ∨ d.fmtb ≤ 1) then erFopMode
    else if d.plots.isEmpty then erFopPlot
    else if 6553 < d.cost ∨ d.cost ≠ documentedCost d W then erFopCost
    else 0
  else
    if d.fmta ≠ d.fmtb ∨ d.fmta ≠ d.fmto ∨ !([0, 1, 2, 3, 0xA] : List Nat).contains d.fmta ∨ d.ela ∨ d.elb then erFopPair
    else if d.order ≠ 0 ∨ d.n ≠ 1 then erFopOrder
    else if d.M = 0 ∨ d.N = 0 ∨ 2 ^ 26 < d.M * d.N then erFopShape
    else if d.strider then erFopMode
    else if d.plots.isEmpty then erFopPlot
    else if 6553 < d.cost ∨ d.cost ≠ documentedCost d W then erFopCost
    else 0

/-! ### Ranges and demand (R111, R118) -/

/-- One plane of an operation's ranges: where each row starts, its bytes, how often the operation reads it (R118). -/
structure Plane where
  base   : Nat
  stride : Nat
  rows   : Nat
  len    : Nat
  times  : Nat
  write  : Bool := false

/-- The bytes of `n` elements of a format. -/
def elemBytes (fmt n : Nat) : Nat := ceilDiv (n * fmtBits fmt) 8

/-- The planes that an operation reads and writes (R109, R111, R118). -/
def planesOf (d : FD) (W : Nat) : List Plane :=
  if !d.matmul then
    [⟨d.aElem, d.lda, d.M, elemBytes d.fmta d.N, 1, false⟩, ⟨d.bElem, d.ldb, d.M, elemBytes d.fmtb d.N, 1, false⟩,
     ⟨d.out, d.ldo, d.M, elemBytes d.fmto d.N, 1, true⟩]
  else
    let ta := if d.strider then ceilDiv d.N d.chunk else colBlocks d W
    let tb := if d.strider then 1 else ceilDiv d.M d.chunk
    (if isTile d.aElem then [] else [⟨d.aElem, d.lda, d.M, elemBytes d.fmta d.K, ta, false⟩])
    ++ (if fmtMx d.fmta then [⟨d.aScale, d.K / 32, d.M, d.K / 32, ta, false⟩] else [])
    ++ (if d.ela then [⟨d.aSide, d.K / 8, d.M, d.K / 8, ta, false⟩] else [])
    ++ (if isTile d.bElem then [] else [⟨d.bElem, d.ldb, d.N, elemBytes d.fmtb d.K, tb, false⟩])
    ++ (if fmtMx d.fmtb then [⟨d.bScale, d.K / 32, d.N, d.K / 32, tb, false⟩] else [])
    ++ (if d.elb then [⟨d.bSide, d.K / 8, d.N, d.K / 8, tb, false⟩] else [])
    ++ (match (probeCols d).length with
        | 0 => []
        | k => [⟨d.plane, 0, 1, ceilDiv d.N 64 * k * d.K * (if d.pbf then 2 else 1), 1, false⟩])
    ++ [⟨d.out, d.ldo, d.M, elemBytes d.fmto d.N, 1, true⟩]

/-- The translated rows of a plane. -/
def planeChunks (w : Mach) (c : Ctx) (p : Plane) : Except Nat (List Chunk) := do
  let rows ← (List.range p.rows).mapM fun r =>
    pieces w [] c (if p.write then .write else .read) (isDevice w) (p.base + r * p.stride) p.len
  pure rows.flatten

/-- The addresses in an operation's ranges that have no translation, each with whether it is an output (R125). -/
def absentIn (w : Mach) (c : Ctx) (ps : List Plane) : List (Nat × Bool) :=
  ps.flatMap fun p => (List.range p.rows).filterMap fun r =>
    match pieces w [] c (if p.write then .write else .read) (isDevice w) (p.base + r * p.stride) p.len with
    | .error a => some (a, p.write)
    | .ok _ => none

/-- The distinct near-memory sectors of some chunks (R300). -/
def distinctSectors (cs : List Chunk) : List Nat :=
  (cs.foldl (fun (t : Table Unit) c =>
    match c.pa with
    | some a => (List.range (sectorsOf a c.len)).foldl (fun t i => tput t (a / 256 + i) ()) t
    | none => t) []).map (·.1)

/-- The near-memory demand in sectors by tier: the distinct sectors of each plane, as often as R118 reads it (log 21). -/
def demandOf (w : Mach) (c : Ctx) (ps : List Plane) : Table Nat :=
  ps.foldl (fun t p =>
    match planeChunks w c p with
    | .ok cs => (distinctSectors cs).foldl (fun t s =>
        let k := tierOfAddr w (256 * s)
        tput t k (tread 0 t k + p.times)) t
    | .error _ => t) []

/-- One fetch or store of a plot: the die it lies on, the range, and its direction. -/
structure Fetch1 where
  die   : Nat
  va    : Nat
  len   : Nat
  write : Bool

/-- What a plot of `die` reads of row or column `i` for the products `k0` to `k1` of an operand. -/
def operandFetch (die elem ld scale side fmt K : Nat) (el : Bool) (i k0 k1 : Nat) : List Fetch1 :=
  if k1 ≤ k0 then []
  else
    let e0 := k0 * fmtBits fmt / 8
    (if isTile elem then [] else [⟨die, elem + i * ld + e0, ceilDiv (k1 * fmtBits fmt) 8 - e0, false⟩])
    ++ (if fmtMx fmt then [⟨die, scale + i * (K / 32) + k0 / 32, ceilDiv k1 32 - k0 / 32, false⟩] else [])
    ++ (if el then [⟨die, side + i * (K / 8) + k0 / 32 * 4, (ceilDiv k1 32 - k0 / 32) * 4, false⟩] else [])

/-- What position j of item i moves (R118). -/
def itemFetches (d : FD) (W i j : Nat) : List Fetch1 :=
  let g := i % groupCount d
  let die := hostPlot d g j / 16
  let (m0, m1, n0, n1) :=
    if d.strider then (0, d.M, i * d.chunk, min ((i + 1) * d.chunk) d.N)
    else
      let r := i / colBlocks d W
      let c := i % colBlocks d W
      (r * d.chunk, min ((r + 1) * d.chunk) d.M, c * blockN d W, min ((c + 1) * blockN d W) d.N)
  let k0 := segStart d j
  let k1 := segStart d (j + 1)
  ((List.range (m1 - m0)).flatMap fun x => operandFetch die d.aElem d.lda d.aScale d.aSide d.fmta d.K d.ela (m0 + x) k0 k1)
  ++ ((List.range (n1 - n0)).flatMap fun x => operandFetch die d.bElem d.ldb d.bScale d.bSide d.fmtb d.K d.elb (n0 + x) k0 k1)
  ++ (if j + 1 = d.n then (List.range (m1 - m0)).map fun x =>
        (⟨die, d.out + (m0 + x) * d.ldo + n0 * fmtBits d.fmto / 8, (n1 - n0) * fmtBits d.fmto / 8, true⟩ : Fetch1)
      else [])

/-- What the probe reads (R99, R111): of each 64 columns and each place of the plane, every position's part of the weights,
for the plot that hosts the position in the group of the first of those columns (log 96). -/
def probeFetches (d : FD) (W : Nat) : List Fetch1 :=
  let cols := (probeCols d).length
  let b := if d.pbf then 2 else 1
  if cols = 0 then []
  else
    (List.range (ceilDiv d.N 64)).flatMap fun c =>
      let g := itemOf d W 0 (64 * c) % groupCount d
      (List.range cols).flatMap fun s => (List.range d.n).map fun j =>
        ⟨hostPlot d g j / 16, d.plane + ((c * cols + s) * d.K + segStart d j) * b, segLen d j * b, false⟩

/-- Everything that the plots move; the elements of EWISE go to the plots in turn (R96). -/
def fetchesOf (d : FD) (W : Nat) : List Fetch1 :=
  if d.matmul then
    ((List.range (itemCount d W)).flatMap fun i => (List.range d.n).flatMap fun j => itemFetches d W i j)
    ++ probeFetches d W
  else
    (List.range (d.M * d.N)).flatMap fun e =>
      let die := d.plots.getD (e % d.plots.length) 0 / 16
      let b := fmtBits d.fmta / 8
      let (m, n) := (e / d.N, e % d.N)
      [⟨die, d.aElem + m * d.lda + n * b, b, false⟩, ⟨die, d.bElem + m * d.ldb + n * b, b, false⟩,
       ⟨die, d.out + m * d.ldo + n * b, b, true⟩]

/-- The bytes that cross the die bridge from die `dir`: what the other die's plots read there, and what its own plots
write on the other (R111). -/
def bridgeBytes (w : Mach) (c : Ctx) (fs : List Fetch1) (dir : Nat) : Nat :=
  fs.foldl (fun n f =>
    match pieces w [] c (if f.write then .write else .read) (isDevice w) f.va f.len with
    | .ok cs => cs.foldl (fun n k =>
        match k.pa with
        | some a => if dieOfAddr w a ≠ f.die ∧ (if f.write then f.die else dieOfAddr w a) = dir then n + k.len else n
        | none => n) n
    | .error _ => n) 0

end Sys2Proof.Machine
end

