-- ==== Sys2Proof/Machine/FieldArith.lean ====
section
/-! DEFINITION. What a field operation computes (R77 to R101): products, windows, hops, element-wise results, range-watch
events and the precision probe. -/

namespace Sys2Proof.Machine
open Sys2Proof

/-! ### Windows (R79 to R82) -/

/-- One addition into an FP32 or FP64 window (R79, R81), and what it counts. Its lsb is held at FLOOR where L - W lies below
FLOOR; where L - W is FLOOR itself nothing holds it, and discarded bits count nothing (DESIGN CHOICE; log 125). -/
def windowAdd (dbl : Bool) (a p : Num) : Num × List Watch :=
  match a, p with
  | .fin sa ma ea, .fin sp mp ep =>
    let W : Int := if dbl then 63 else 31
    let floorE : Int := if dbl then -1085 else -157
    let top : Nat := if dbl then 1024 else 128
    let e := min ea ep
    let x : Int := (ma <<< (ea - e).toNat : Nat)
    let y : Int := (mp <<< (ep - e).toNat : Nat)
    let s := (if sa then -x else x) + (if sp then -y else y)
    if s = 0 then (.fin false 0 0, [])
    else
      let lead (v : Int) : Int := e + (v.natAbs.log2 : Int)
      let L := [x, y].foldl (fun m v => if v = 0 then m else max m (lead v)) (lead s)
      let lsb := max (L - W) floorE
      -- in units of 2^lsb, toward minus infinity
      let (k, lost) : Int × Bool :=
        if e < lsb then (s / 2 ^ (lsb - e).toNat, s % 2 ^ (lsb - e).toNat != 0) else (s * 2 ^ (e - lsb).toNat, false)
      let ev : List Watch := if lost && decide (L - W < floorE) then [.floorLoss] else []
      if magLt k.natAbs lsb 1 top then (.fin (decide (k < 0)) k.natAbs lsb, ev)
      else (.inf (decide (s < 0)), .infMade :: ev)
  | .inf sa, .inf sp => if sa = sp then (.inf sa, []) else (.nan, [.nanMade])
  | .inf sa, .fin _ _ _ => (.inf sa, [])
  | .fin _ _ _, .inf sp => (.inf sp, [])
  | _, _ => (.nan, [])

/-- The integer of a value that is not the overflow code. -/
def intOf (x : Num) : Int :=
  match x with
  | .fin s m e => (if s then -1 else 1) * ((m <<< e.toNat : Nat) : Int)
  | _ => 0

/-- One addition in INT32 accumulation (R82): the overflow code spreads. -/
def int32Add (a p : Num) : Num × List Watch :=
  if a = .over ∨ p = .over then (.over, [])
  else
    let s := intOf a + intOf p
    if s.natAbs ≤ 2 ^ 31 - 1 then (ofInt s, []) else (.over, [.codeMade])

/-! ### Operand elements -/

/-- An operand's element as the field sees it: its scaled value (R77), and its code and scale exponent for INT32
(R78); `bad` in a block whose scale is 0xFF. -/
structure Elem where
  x    : Num
  code : Int
  e    : Int
  bad  : Bool
  deriving DecidableEq, Repr

/-- The element codes that bytes hold, lowest first (R50). -/
def codesOf (fmt : Nat) (bs : List Byte) (n : Nat) : List Nat :=
  match fmtBits fmt with
  | 4 => (bs.flatMap fun b => [b.toNat % 16, b.toNat / 16]).take n
  | 2 => (bs.flatMap fun b => [b.toNat % 4, b.toNat / 4 % 4, b.toNat / 16 % 4, b.toNat / 64]).take n
  | k => (List.range n).map fun i => ofBytes ((bs.drop (i * (k / 8))).take (k / 8))

/-- Elements from codes, block scales and side words (R61 to R63, R77, R78). -/
def elemsOf (fmt : Nat) (codes scales : List Nat) (sides : Option (List Nat)) : List Elem × List Watch :=
  if fmtMx fmt then
    (List.range (ceilDiv codes.length 32)).foldl (fun (r : List Elem × List Watch) b =>
      let cs := (codes.drop (32 * b)).take 32
      let sc := scales.getD b 0
      let (xs, ev) := unpackBlock fmt sc cs (sides.map fun l => l.getD b 0)
      let es := (List.range cs.length).map fun i =>
        ({ x := xs.getD i (.fin false 0 0), code := intOf (decodeElem fmt (cs.getD i 0)).1,
           e := (sc : Int) - 127, bad := sc == 0xFF } : Elem)
      (r.1 ++ es, r.2 ++ ev)) ([], [])
  else
    (codes.map fun c => let x := (decodeElem fmt c).1; { x := x, code := intOf x, e := 0, bad := false },
     codes.flatMap fun c => (decodeElem fmt c).2)

/-- Bytes of a virtual range: zeros where nothing may be read (R241). -/
def virtRead (w : Mach) (c : Ctx) (va len : Nat) : List Byte :=
  match pieces w [] c .read (isDevice w) va len with
  | .ok cs => readPieces w cs
  | .error _ => List.replicate len 0

/-- Bytes of a plot's tile: zeros where the plot does not read it (R139). -/
def tileBytes (w : Mach) (r : FieldRun) (plot tile off n : Nat) : List Byte :=
  if r.tileOk.getLsbD plot then
    (List.range n).map fun i =>
      let a := (off + i) % 16384
      BitVec.ofNat 8 ((tread 0 (vpOf w plot).tiles (tileKey (r.gens.getD plot 0) tile (a / 256))).toNat >>> (8 * (a % 256)))
  else List.replicate n 0

/-- Scales and side words of products k0 to k1 - 1 of row or column i (R111). -/
def planeWords (w : Mach) (c : Ctx) (base size K i k0 k1 : Nat) : List Nat :=
  (List.range (ceilDiv (k1 - k0) 32)).map fun b =>
    ofBytes (virtRead w c (base + size * (i * (K / 32) + k0 / 32 + b)) size)

/-- The elements of row or column i of an operand for products k0 to k1 - 1, from memory or from `tile` bytes. -/
def operandElems (w : Mach) (c : Ctx) (elem ld scale side fmt K : Nat) (el : Bool) (tile : Option (List Byte))
    (i k0 k1 : Nat) : List Elem × List Watch :=
  let e0 := k0 * fmtBits fmt / 8
  let bs := match tile with
    | some bs => bs
    | none => virtRead w c (elem + i * ld + e0) (ceilDiv (k1 * fmtBits fmt) 8 - e0)
  elemsOf fmt (codesOf fmt bs (k1 - k0))
    (if fmtMx fmt then planeWords w c scale 1 K i k0 k1 else [])
    (if el then some (planeWords w c side 4 K i k0 k1) else none)

/-- The bytes of a strider row's tile for position j on a plot (R141). -/
def striderTile (w : Mach) (r : FieldRun) (d : FD) (t g j m : Nat) : List Byte :=
  let p := hostPlot d g j
  tileBytes w r p t (4096 * m + tileRowPart d g p j) (ceilDiv (segLen d j * fmtBits d.fmta) 8)

/-- The bytes of a broad column's tile blocks for position j on a plot (R140). -/
def broadTile (w : Mach) (r : FieldRun) (d : FD) (W t g j n : Nat) : List Byte :=
  let p := hostPlot d g j
  let c := n / blockN d W
  let col := n % blockN d W
  ((List.range (ceilDiv (segLen d j) (blockK d))).flatMap fun b =>
    tileBytes w r p t (tileSlot d W g p c j b * tileSlotBytes d + col * tileColBytes d) (tileColBytes d)).take
      (ceilDiv (segLen d j * fmtBits d.fmtb) 8)

/-- Row m of A for position j, as group g's plot sees it; `el` as R99 wants it. -/
def rowElems (w : Mach) (r : FieldRun) (d : FD) (g j m : Nat) (el : Bool) : List Elem × List Watch :=
  let t := if d.strider then (stationaryTile d).map fun t => striderTile w r d t g j m else none
  operandElems w r.entry.ctx d.aElem d.lda d.aScale d.aSide d.fmta d.K el t m (segStart d j) (segStart d (j + 1))

/-- Column n of B for position j, as group g's plot sees it. -/
def colElems (w : Mach) (r : FieldRun) (d : FD) (W g j n : Nat) : List Elem × List Watch :=
  let t := if d.strider then none else (stationaryTile d).map fun t => broadTile w r d W t g j n
  operandElems w r.entry.ctx d.bElem d.ldb d.bScale d.bSide d.fmtb d.K d.elb t n (segStart d j) (segStart d (j + 1))

/-! ### Products and positions (R77, R78, R84) -/

/-- A floating-point product (R77), and NAN_MADE for zero times infinity (R81). -/
def productOf (a b : Elem) : Num × List Watch :=
  let p := mulN a.x b.x
  (p, if p = .nan && a.x != .nan && b.x != .nan then [.nanMade] else [])

/-- An INT32 term (R78). -/
def termOf (q : Int) (a b : Elem) : Num × List Watch :=
  if a.bad || b.bad then (.over, [])
  else
    let v := a.code * b.code
    let s := a.e + b.e - q
    if 0 ≤ s then (ofInt (v * 2 ^ s.toNat), [])
    else (ofInt (v / 2 ^ (-s).toNat), if v % 2 ^ (-s).toNat ≠ 0 then [.shiftLoss] else [])

/-- One position's window from its starting value, products in ascending k (R84). -/
def positionSum (d : FD) (start : Num) (as bs : List Elem) : Num × List Watch :=
  let q := if fmtMx d.fmta || fmtMx d.fmtb then d.qexp else 0
  (List.zip as bs).foldl (fun (r : Num × List Watch) e =>
    let (p, ev) := if d.acc = 2 then termOf q e.1 e.2 else productOf e.1 e.2
    let (s, ev') := if d.acc = 2 then int32Add r.1 p else windowAdd (d.acc == 1) r.1 p
    (s, r.2 ++ ev ++ ev')) (start, [])

/-! ### Hops (R86, R87, R89) -/

/-- A window value rounded for a hop (R89): its transport value, what it counts, and the machine after the draw. -/
def hopRound (d : FD) (r : FieldRun) (element hop : Nat) (x : Num) (w : Mach) : Num × List Watch × Mach :=
  if d.acc = 2 then (x, [], w)
  else
    let f := if d.acc = 1 then b64 else b32
    let mode := if d.hoprm = 0 then (if d.acc = 1 then 1 else 2) else d.hoprm
    let (rm, w) : Rm × Mach :=
      if mode = 1 then (.rne, w)
      else if mode = 3 then (.rtz, w)
      else let (v, w) := drawR r.entry.entropy r.entry.seed r.op element hop w; (.sr v, w)
    let y := decodeF f (encodeF f rm false x).1
    let made : Bool := match x, y with | .fin _ _ _, .inf _ => true | _, _ => false
    (y, if made then [.infMade] else [], w)

/-- The addition of the operation's format. -/
def accAdd (d : FD) (a p : Num) : Num × List Watch :=
  if d.acc = 2 then int32Add a p else windowAdd (d.acc == 1) a p

/-- A node of the tree over `2^h` leaves from `lo`, with heap index `i` (R87). -/
def treeNode (d : FD) (r : FieldRun) (element : Nat) (vals : List Num) :
    Nat → Nat → Nat → Mach → Option Num × List Watch × Mach
  | 0, lo, _, w => (vals[lo]?, [], w)
  | h + 1, lo, i, w =>
    let (left, e1, w) := treeNode d r element vals h lo (2 * i) w
    let (right, e2, w) := treeNode d r element vals h (lo + 2 ^ h) (2 * i + 1) w
    match left, right with
    | some a, some b =>
      let (a, e3, w) := hopRound d r element (2 * i) a w
      let (b, e4, w) := hopRound d r element (2 * i + 1) b w
      let (s, e5) := accAdd d a b
      (some s, e1 ++ e2 ++ e3 ++ e4 ++ e5, w)
    | a, _ => (a, e1 ++ e2, w)

/-- The positions of one element: each one's starting value and window (R84, R86, R87). -/
def positionsOf (d : FD) (r : FieldRun) (W m n : Nat) (w : Mach) : List (Num × Num) × List Watch × Mach :=
  let g := itemOf d W m n % groupCount d
  (List.range d.n).foldl (fun (acc : List (Num × Num) × List Watch × Mach) j =>
    let (ps, ev, w) := acc
    let zero : Num := .fin false 0 0
    let (start, ev1, w) : Num × List Watch × Mach :=
      match d.order, ps.getLast? with
      | 1, some p => hopRound d r (m * d.N + n) j p.2 w
      | _, _ => (zero, [], w)
    let (as, _) := rowElems w r d g j m d.ela
    let (bs, _) := colElems w r d W g j n
    let (s, ev2) := positionSum d start as bs
    (ps ++ [(start, s)], ev ++ ev1 ++ ev2, w)) ([], [], w)

/-- The code that an element's result leaves the field as (R66, R82, R89). -/
def outputCode (d : FD) (r : FieldRun) (element : Nat) (x : Num) (w : Mach) : Nat × List Watch × Mach :=
  if d.acc = 2 ∧ d.fmto = 0xA then (match x with | .over => (0x80000000, [], w) | x => (wrapInt 32 (intOf x), [], w))
  else
    let (rm, w) := roundingOf d.rm r.entry.entropy r.entry.seed r.op element 0 w
    let (c, ev) := encodeElem d.fmto rm d.sat x
    (c, ev, w)

/-! ### The precision probe (R99 to R101) -/

/-- A finite value in units of 2^-48, toward minus infinity (R101). -/
def fixed48 (x : Num) : Int :=
  match x with
  | .fin s m e =>
    let v : Int := if s then -(m : Int) else m
    let k := e + 48
    if 0 ≤ k then v * 2 ^ k.toNat else v / 2 ^ (-k).toNat
  | _ => 0

/-- A sum that saturates in 96 bits (R101). -/
def probeAdd (a b : Int) : Int := max (-(2 ^ 95 - 1)) (min (2 ^ 95 - 1) (a + b))

/-- |x| as binary32, rounded up (R101). -/
def roundUp32 (x : Num) : Nat :=
  match x with
  | .fin _ m e =>
    let c := (encodeFin b32 .rtz false false m e).1
    match decodeF b32 c with
    | .fin _ m' e' => if magLt m' e' m e then c + 1 else c
    | _ => c
  | _ => 0

/-- One sample enters the live sums (R101): a value that is not finite leaves it out. -/
def probeSample (main ref : Num) (p : ProbeSums) : ProbeSums :=
  match main, ref with
  | .fin _ _ _, .fin s m e =>
    let dN := addN main (.fin (!s) m e)
    let absN : Num := match dN with | .fin _ m e => .fin false m e | x => x
    { n := p.n + 1, sumD := probeAdd p.sumD (fixed48 dN), sumAbs := probeAdd p.sumAbs (fixed48 absN),
      sumRef := probeAdd p.sumRef (fixed48 (.fin false m e)),
      maxAbs := BitVec.ofNat 32 (max p.maxAbs.toNat (roundUp32 dN)) }
  | _, _ => p

/-- The array of a plot that holds an element (R114, R116); which columns of a beat each array takes in STRIDER, and which
rows of a chunk in BROAD, is the model's choice (log 96). -/
def arrayOf (d : FD) (W m n : Nat) : Nat :=
  if d.strider then
    let u := 4 * (W / 4)
    (n % d.chunk % u) / max 1 (u / 4)
  else m % d.chunk % 4

/-- The columns of the probe that an array samples, each with its place in the plane (R99, R100). One free spare samples
PROBE_COL0, so with only PROBE_COL1 enabled nothing is sampled (DESIGN CHOICE; log 125). -/
def sampledCols (w : Mach) (d : FD) (plot array : Nat) : List (Nat × Nat) :=
  let free := 2 - sparesUsed w plot array
  let cols := (List.range (probeCols d).length).map fun i => ((probeCols d).getD i 0, i)
  if d.strider then (if free = 2 then cols else [])
  else if free = 2 then cols
  else if free = 1 ∧ bit d.probe 0 then cols.take 1
  else []

/-- The reference weight of column place `s` of a block for product `k` (R99); the order of a block's two columns in the
plane is the model's choice (log 96). -/
def refWeight (w : Mach) (c : Ctx) (d : FD) (block s k : Nat) : Num :=
  let b := if d.pbf then 2 else 1
  let a := d.plane + ((block * (probeCols d).length + s) * d.K + k) * b
  decodeF (if d.pbf then bf16 else e4m3) (ofBytes (virtRead w c a b))

/-- The probe's samples of one element at its positions (R99, R101). -/
def probeElement (d : FD) (r : FieldRun) (W m n : Nat) (ps : List (Num × Num)) (w : Mach) : Mach :=
  if (probeCols d).isEmpty then w
  else
    let g := itemOf d W m n % groupCount d
    let a := arrayOf d W m n
    (List.range d.n).foldl (fun w j =>
      let p := hostPlot d g j
      ((sampledCols w d p a).filter fun e => e.1 == n % 64).foldl (fun w e =>
        let (as, _) := rowElems w r d g j m false
        let k0 := segStart d j
        let (start, main) := ps.getD j (.fin false 0 0, .fin false 0 0)
        let ref := ((List.range as.length).foldl (fun (s : Num) i =>
          (windowAdd false s (mulN ((as.getD i ⟨.fin false 0 0, 0, 0, false⟩).x)
            (refWeight w r.entry.ctx d (n / 64) e.2 (k0 + i)))).1) start)
        onM (fun mm =>
          let k := p / 16 * 4096 + d.slot.toNat
          let x := tread {} mm.probes k
          { mm with probes := twrite {} mm.probes k { x with live := probeSample main ref x.live } }) w) w) w

/-! ### Elements -/

/-- One output element of a MATMUL: its code, after counting its events on the die of its last position's plot (R96). -/
def matmulElement (d : FD) (r : FieldRun) (W m n : Nat) (w : Mach) : Nat × Mach :=
  let (ps, ev, w) := positionsOf d r W m n w
  let last := (ps.getLast?.map (·.2)).getD (.fin false 0 0)
  let (x, ev1, w) : Num × List Watch × Mach :=
    if d.order = 2 then
      let (x, ev, w) := treeNode d r (m * d.N + n) (ps.map (·.2)) (log2Up d.n) 0 1 w
      (x.getD (.fin false 0 0), ev, w)
    else (last, [], w)
  let (c, ev2, w) := outputCode d r (m * d.N + n) x w
  let g := itemOf d W m n % groupCount d
  let die := hostPlot d g (d.n - 1) / 16
  (c, probeElement d r W m n ps (rwCount die d.slot (ev ++ ev1 ++ ev2) w))

/-- One element-wise result (R95): its code and what it counts. -/
def ewiseCode (d : FD) (a b : Nat) : Nat × List Watch :=
  match ffmtOf d.fmta with
  | some f =>
    if d.ewop = 2 then (maxMinF f false a b, [])
    else if d.ewop = 3 then (maxMinF f true a b, [])
    else
      let (x, y) := (decodeF f a, decodeF f b)
      let z := if d.ewop = 0 then mulN x y else addN x y
      let c := (encodeF f .rne false z).1
      let made : List Watch :=
        match x, y, decodeF f c with
        | .fin _ _ _, .fin _ _ _, .inf _ => [.infMade]
        | x, y, .nan => if x != .nan && y != .nan then [.nanMade] else []
        | _, _, _ => []
      (c, made)
  | none =>
    if a = 0x80000000 ∨ b = 0x80000000 then (0x80000000, [])
    else
      let (x, y) := (toSigned 32 a, toSigned 32 b)
      let z := match d.ewop with | 0 => x * y | 1 => x + y | 2 => min x y | _ => max x y
      if z.natAbs ≤ 2 ^ 31 - 1 then (wrapInt 32 z, []) else (0x80000000, [.codeMade])

/-- One output element of an EWISE: its events go to the die of plot q_(e mod P) (R96). -/
def ewiseElement (d : FD) (r : FieldRun) (m n : Nat) (w : Mach) : Nat × Mach :=
  let b := fmtBits d.fmta / 8
  let x := ofBytes (virtRead w r.entry.ctx (d.aElem + m * d.lda + n * b) b)
  let y := ofBytes (virtRead w r.entry.ctx (d.bElem + m * d.ldb + n * b) b)
  let (c, ev) := ewiseCode d x y
  (c, rwCount (d.plots.getD ((m * d.N + n) % d.plots.length) 0 / 16) d.slot ev w)

/-- The decode events of the operands, once for each element and word (R96); of a tile's, as the first item that uses
them reads them (log 96). -/
def decodeEvents (d : FD) (r : FieldRun) (W : Nat) (w : Mach) : List Watch :=
  if !d.matmul then []
  else
    (List.range d.n).flatMap fun j =>
      ((List.range d.M).flatMap fun m => (rowElems w r d (itemOf d W m 0 % groupCount d) j m d.ela).2)
      ++ ((List.range d.N).flatMap fun n => (colElems w r d W (itemOf d W 0 n % groupCount d) j n).2)

/-! ### What is left unspecified (R106, R135) -/

/-- The pieces that an operation reads, or writes. -/
def sideOf (write : Bool) (w : Mach) (r : FieldRun) (d : FD) : List Chunk :=
  ((planesOf d (widthOf w d.plots)).filter fun p => p.write == write).flatMap fun p =>
    match planeChunks w r.entry.ctx p with
    | .ok cs => cs
    | .error _ => []

/-- The pieces that an operation reads. -/
def readSide (w : Mach) (r : FieldRun) (d : FD) : List Chunk := sideOf false w r d

/-- Two pieces share a byte. -/
def piecesMeet (c e : Chunk) : Bool :=
  match c.pa, e.pa with
  | some a, some b => decide (a < b + e.len ∧ b < a + c.len)
  | _, _ => false

/-- A noted write leaves an operation's result open: it meets what the operation reads, or a tile that it reads (R106,
R135). -/
def noteOpens (r : FieldRun) (ins : List Chunk) (n : WNote) : Bool :=
  match n with
  | .thread a len => ins.any (rangeMeets a len)
  | .mover _ a len => ins.any (rangeMeets a len)
  | .tile vp tile gen => r.tile == some tile && r.tileOk.getLsbD vp && r.gens.getD vp 0 == gen

/-- An operation's result is left unspecified: an operand or its tile was written after it was posted, or its output
overlaps an operand (R106, R135; log 91). -/
def leftOpen (w : Mach) (r : FieldRun) (d : FD) : Bool :=
  let ins := readSide w r d
  (notedSince w r.entry.mark).any (noteOpens r ins) || (sideOf true w r d).any fun e => ins.any (piecesMeet e)

/-- The rows of the output, as codes, after everything that computing them counts (R96, R99); RM 0b11 counts once
(R64, R74), on the die of the lowest plot (log 97). -/
def definedResult (d : FD) (r : FieldRun) (w : Mach) : List (List Nat) × Mach :=
  let W := widthOf w d.plots
  let lowest := d.plots.headD 0 / 16
  let w := rwCount lowest d.slot
    (decodeEvents d r W w ++ (if d.rm == 3 then [.reservedCode] else [])) w
  (List.range d.M).foldl (fun (acc : List (List Nat) × Mach) m =>
    let (row, w) := (List.range d.N).foldl (fun (acc : List Nat × Mach) n =>
      let (c, w) := if d.matmul then matmulElement d r W m n acc.2 else ewiseElement d r m n acc.2
      (acc.1 ++ [c], w)) ([], acc.2)
    (acc.1 ++ [row], w)) ([], w)

/-- The rows that an operation writes: free values where the result is left unspecified (log 91). -/
def fieldResult (d : FD) (r : FieldRun) (w : Mach) : List (List Nat) × Mach :=
  let x := definedResult d r w
  if leftOpen w r d then
    let (k, w) := drawFree x.2
    ((List.range d.M).map fun m => (List.range d.N).map fun n =>
      Config.unspecified k (m * d.N + n) % 2 ^ fmtBits d.fmto, w)
  else x

end Sys2Proof.Machine
end

