-- ==== Sys2Proof/Machine/Field.lean ====
section
/-! DEFINITION. The field's queues and its one operation (R102 to R108, R112, R122, R125, R139). -/

namespace Sys2Proof.Machine
open Sys2Proof

/-! ### Field queues (R104, R338) -/

/-- Whose field queue a thread posts to (R104, R338). -/
def fieldOwner (th : Thread) : Option Owner :=
  match th.binding with
  | .plan c _ => some (.plan c)
  | .inv i _ => some (.inv i)
  | _ => none

/-- A field queue. -/
def fieldQueue (w : Mach) (o : Owner) : FieldQueue := ((w.m.fqueues.find? fun e => e.1 == o).map (·.2)).getD {}

/-- Change a field queue that exists. -/
def updQueue (o : Owner) (f : FieldQueue → FieldQueue) (w : Mach) : Mach :=
  onM (fun m => { m with fqueues := m.fqueues.map fun e => if e.1 == o then (o, f e.2) else e }) w

/-- A field queue begins empty at step 0 (R104, R338). -/
def newQueue (o : Owner) (digest : W64) (w : Mach) : Mach :=
  onM (fun m => { m with fqueues := (m.fqueues.filter fun e => e.1 != o) ++ [(o, { digest := digest })] }) w

/-- SEQ of a queued descriptor. -/
def entrySeq (e : FieldEntry) : Nat := bits e.desc 96 32

/-- The distance of a SEQ from the queue's step counter (R104). -/
def seqDistance (q : FieldQueue) (seq : Nat) : Nat := (seq + 2 ^ 32 - q.step.toNat % 2 ^ 32) % 2 ^ 32

/-- The plots of a descriptor times its cost, as energy in hundredths of a nanojoule (R44). -/
def fieldEnergy (d : FD) : Nat := d.cost * d.plots.length * 550

/-- What an operation charges at admission: field beats, energy, and sectors at each tier (R107). -/
def fieldRequests (w : Mach) (e : FieldEntry) : List GateReq :=
  let d := fdOf e.desc
  let units := (tread 0 w.m.hw.residues 0 + fieldEnergy d) / energyUnit
  [⟨.field, 0, e.cls, d.cost, .field, none⟩, ⟨.energy, 0, e.cls, units, .field, none⟩]
  ++ (demandOf w e.ctx (planesOf d (widthOf w d.plots))).map fun x => ⟨.tier, x.1, e.cls, x.2, .field, none⟩

/-- What a posted descriptor carries of its thread (R104, R361, R493), and what it will ask the gates for (R41). -/
def fieldEntryOf (w : Mach) (t : Tid) (th : Thread) (desc : Nat) : FieldEntry :=
  let e : FieldEntry :=
    { thr := tkey t, desc := desc, seed := th.seed, entropy := usesEntropy th, cls := th.cls, lopid := th.lopid,
      ctx := ctxOf th, mark := w.m.wlog.length }
  { e with asks := fieldRequests w e }

/-- The physical ranges of an operation's output: those of its pages that have translations. -/
def outputRanges (w : Mach) (c : Ctx) (d : FD) : List (Nat × Nat) :=
  ((planesOf d (widthOf w d.plots)).filter (·.write)).flatMap fun p => (List.range p.rows).flatMap fun r =>
    (cutPages (p.len / 4096 + 2) (p.base + r * p.stride) p.len).flatMap fun (a, k) =>
      match pieces w [] c .write (isDevice w) a k with
      | .ok cs => cs.filterMap fun c => c.pa.map fun a => (a, c.len)
      | .error _ => []

/-- An operation's output is open until an FWAIT covers its step (R106; log 91). -/
def openOuts (step : Nat) (rs : List (Nat × Nat)) (q : FieldQueue) : FieldQueue :=
  { q with outs := (step, rs) :: q.outs.filter (·.1 != step) }

/-- One event of an operation or transfer, for the thread that issued it (R491, R493). -/
def countIssued (k : Nat) (priv : Bool) (ev n : Nat) (g : Tag) (w : Mach) : Mach :=
  let w := if priv then w
    else updThr (tidOf k) (fun th => { countUser ev n { th with priv := false } with priv := th.priv }) w
  countGlobal ev n g w

/-- The tag of an operation's events. -/
def entryTag (e : FieldEntry) : Tag := ⟨e.thr / 128, e.cls, e.lopid⟩

/-! ### FOP and FWAIT (R104, R105, R112, R125) -/

/-- Post a descriptor or refuse it by its SEQ (R104), then `fin`; the descriptor of a stopped operation replaces the one
held (R125). -/
def postField (t : Tid) (desc : Nat) (fin : Mach → Mach) (w : Mach) : Mach :=
  match fieldOwner (thr w t) with
  | none => w
  | some o =>
    let w := forgetNotes w
    let q := fieldQueue w o
    let e := fieldEntryOf w t (thr w t) desc
    let seq := entrySeq e
    let d := seqDistance q seq
    let opens := openOuts (q.step.toNat + d) (outputRanges w e.ctx (fdOf desc))
    if q.entries.any fun x => x.stopped && x.thr == tkey t && entrySeq x == seq then
      fin (updQueue o (fun q => opens { q with entries := q.entries.map fun x => if entrySeq x == seq then e else x }) w)
    else if 2 ^ 31 ≤ d ∨ q.entries.any (fun x => entrySeq x == seq) then failThreadCommand t erFopSeq (fin w)
    else if 16 ≤ d then threadEnergy t 30 (updThr t (parkOn (.fopQueue (toBytes 128 desc))) w)
    else fin (updQueue o (fun q => opens { q with entries := q.entries ++ [e] }) w)

/-- FOP (R104, R106, R112, R163): drains, reads the descriptor, tests it and posts it. -/
def execFop (t : Tid) (ra : Reg) (s : State) : Host.Outcome State Fault Refusal :=
  issue t (fun w =>
    let word := wordR 0x21 0 ra 0 0
    let w := drainStores t w
    let va := (getG (thr w t) ra).toNat / 64 * 64
    let w := threadWalks t va 128 w
    match threadPieces w t .read va 128 with
    | .error a => raise t (absentData akFop false a) w
    | .ok cs =>
      let desc := ofBytes (seenPieces w cs)
      let w := tookOpen cs w
      let w := piecesTraffic t false cs (logDenied t false word cs w)
      if (badPiece w cs).isSome then done t 2 (readCheck t cs w)
      else
        let w := readCheck t cs w
        let err := fopRefusal w (fdOf desc)
        if err ≠ 0 then failThreadCommand t err (done t 2 w)
        else postField t desc (done t 2) w) s

/-- A stopped operation of a thread runs again (R125): what was written since its FOP still counts (R106), and pages that
its output has got since are open too. -/
def rerunStopped (t : Tid) (w : Mach) (q : FieldQueue) : FieldQueue :=
  let mine (x : FieldEntry) : Bool := x.thr == tkey t && x.stopped
  let q := (q.entries.filter mine).foldl (fun q x =>
    openOuts (q.step.toNat + seqDistance q (entrySeq x)) (outputRanges w x.ctx (fdOf x.desc)) q) q
  { q with entries := q.entries.map fun x => if mine x then { x with stopped := false } else x }

/-- The field waits for a re-executed FWAIT of the thread whose operation stopped (R125). -/
def restartField (t : Tid) (w : Mach) : Mach :=
  let th := thr w t
  match fieldOwner th with
  | some o => if th.priv then w else updQueue o (rerunStopped t w) w
  | none => w

/-- FWAIT (R105, R125): goes on once the field step counter has reached the value. -/
def execFwait (t : Tid) (ra : Reg) (s : State) : Host.Outcome State Fault Refusal :=
  issue t (fun w =>
    let w := restartField t w
    let th := thr w t
    match fieldOwner th with
    | none => w
    | some o =>
      let v := getG th ra
      if v.toNat ≤ (fieldQueue w o).step.toNat then done t 1 (updQueue o (coverOuts v.toNat) w)
      else threadEnergy t 15 (updThr t (parkOn (.fwait v)) w)) s

/-- A wait ends for what waited, which is about to retire. -/
def readyWait (g : Option Nat) (th : Thread) : Thread :=
  match g with
  | none => { th with park := .none }
  | some j => { th with groups := th.groups.map fun (i, x) => (i, if i = j then { x with wait := .ready } else x) }

/-- The waits of a queue's threads that its step counter now meets: FWAITs retire (R105), and parked FOPs post their
descriptors (R104). -/
def wakeField (o : Owner) (w : Mach) : Mach :=
  iterate 256 (fun k w =>
    let t := tidOf k
    if fieldOwner (thr w t) ≠ some o then w
    else (waitsOf (thr w t)).foldl (fun w e =>
      match e.2 with
      | .fwait v =>
        if v.toNat ≤ (fieldQueue w o).step.toNat then
          asGroup t e.1 (retire t { cost := 8, energy := some 0 })
            (updThr t (readyWait e.1) (updQueue o (coverOuts v.toNat) w))
        else w
      | .fopQueue bs =>
        if seqDistance (fieldQueue w o) (bits (ofBytes bs) 96 32) < 16 then
          asGroup t e.1 (postField t (ofBytes bs) (retire t { cost := 16, energy := some 0 })) (updThr t (readyWait e.1) w)
        else w
      | _ => w) w) w

/-! ### Admission (R107, R112, R123, R139) -/

/-- A queue's next operation, where its owner may run and it does not wait for its thread (R104, R125, R406). -/
def nextEntry (w : Mach) (o : Owner) (q : FieldQueue) : Option FieldEntry :=
  let alive := match o with
    | .plan c => !(planOf w c).aborted && !(match (planOf w c).replay with | some r => r.stopped | none => false)
    | .inv i => match tget w.m.s.invs i with | some x => !(planOf w x.plan).aborted | none => true
  if alive then q.entries.find? fun e => entrySeq e == q.step.toNat % 2 ^ 32 && !e.stopped else none

/-- The order of a class's candidates: plans by intake stamp, then invocations by number (R107). -/
def ownerRank (w : Mach) (o : Owner) : List Nat :=
  match o with
  | .plan c => let d := cmdOf w c; [0, d.tick, d.src.toNat, d.sq.toNat, c]
  | .inv i => [1, i / 2, i % 2]

/-- Lists in lexicographic order. -/
def lexLt : List Nat → List Nat → Bool
  | a :: r, b :: s => if a = b then lexLt r s else decide (a < b)
  | [], _ :: _ => true
  | _, _ => false

/-- A gate admits under R39, without surplus. -/
def admitsByBalance (w : Mach) (q : GateReq) : Bool :=
  let b := balOf w q.res q.inst q.cls
  q.cost == 0 || (!(grantOf w q.cls).hold && decide (0 < b.carry + b.current))

/-- The candidates, class by class from the one above the class last completed (R107). -/
def fieldFirsts (w : Mach) : List (Owner × FieldEntry) :=
  let start := match w.m.fieldCls with | some c => (c + 1) % 64 | none => 0
  let all := w.m.fqueues.filterMap fun (o, q) => (nextEntry w o q).map fun e => (o, e)
  let first (c : Nat) : Option (Owner × FieldEntry) :=
    (all.filter fun x => x.2.cls == c).foldl (fun b x =>
      match b with
      | some y => if lexLt (ownerRank w x.1) (ownerRank w y.1) then some x else b
      | none => some x) none
  (List.range 64).filterMap fun i => first ((start + i) % 64)

/-- An operation makes its requests at the operation boundary that may admit it: those of its class that wait at one of its
gates came first (R42, R107; log 103). -/
def fieldCandidates (w : Mach) : List (Owner × FieldEntry) :=
  (fieldFirsts w).filter fun x => !(fieldRequests w x.2).any fun q => q.cost != 0 && w.m.gateQ.any (sameLine q)

/-- The operation that the field takes next (R107). -/
def fieldChoice (w : Mach) : Option (Owner × FieldEntry) :=
  let cs := fieldCandidates w
  match cs.find? fun x => (fieldRequests w x.2).all (admitsByBalance w) with
  | some x => some x
  | none => cs.find? fun x => (fieldRequests w x.2).all fun q => q.cost == 0 || admissible w q

/-- The command that an owner works for. -/
def ownerCmd (w : Mach) (o : Owner) : Nat :=
  match o with
  | .plan c => c
  | .inv i => (tread {} w.m.s.invs i).plan

/-- A plot may read its tile for an operation: the tile is assigned to a thread of the same plan (R139). -/
def plotReadsTile (w : Mach) (cmd tile p : Nat) : Bool :=
  match tileOwner (vpOf w p).tmap tile with
  | some i => cmdOfThread (thr w (tidOf (p * 8 + i))) == some cmd
  | none => false

/-- The pages of some planes, in ascending order. -/
def planePages (ps : List Plane) : List Nat :=
  ((ps.foldl (fun (t : Table Unit) p =>
    (List.range p.rows).foldl (fun t r =>
      (pagesOf (p.base + r * p.stride) p.len).foldl (fun t a => tput t (a / 4096) ()) t) t) []).map (·.1)).map (4096 * ·)

/-- The table walks of an operation (R284), by a plot of a die: each page once. -/
def fieldWalks (e : FieldEntry) (die : Nat) (ps : List Plane) (w : Mach) : Mach :=
  chargeWalks .field e.cls die [] e.ctx (planePages ps) w

/-- What an operation's operands, or its output, miss in the near-memory cache (R107, R302): charged as it occurs. -/
def fieldNear (who : Asker) (e : FieldEntry) (write : Bool) (ps : List Plane) (w : Mach) : Mach :=
  let cs := (ps.filter fun p => p.write == write).flatMap fun p =>
    match planeChunks w e.ctx p with
    | .ok cs => cs
    | .error _ => []
  (spansOf (distinctSectors cs)).foldl (fun w r =>
    let (w, k) := nearAccess who e.cls (256 * r.1) (256 * r.2) 0 write w
    countIssued e.thr e.ctx.priv 0x17 (8 * k) (entryTag e) (countIssued e.thr e.ctx.priv 0x16 k (entryTag e) w)) w

/-- FIELD_ADMISSION (R102, R107, R112, R123, R139): at an operation boundary the field admits its next operation and
charges its class; one whose plan was compiled for another geometry fails its command instead. -/
def execFieldAdmission (s : State) : Host.Outcome State Fault Refusal :=
  run (fun w =>
    if w.m.fieldRun.isSome then w
    else match fieldChoice w with
      | none => w
      | some (o, e) =>
        let cmd := ownerCmd w o
        if (fieldQueue w o).digest.toNat ≠ geomDigest w then failCmd cmd erGeometry w
        else
          let d := fdOf e.desc
          let W := widthOf w d.plots
          let tile := stationaryTile d
          let ok := match tile with
            | some k => d.plots.filter (plotReadsTile w cmd k)
            | none => []
          let mask (ps : List Nat) : BitVec 32 := BitVec.ofNat 32 ((ps.map fun p => 2 ^ p).sum)
          let qs := fieldRequests w e
          let fs := fetchesOf d W
          let flits := (List.range 2).map fun dir => (dir, ceilDiv (bridgeBytes w e.ctx fs dir) 64)
          let sectors := ((qs.drop 2).map (·.cost)).sum
          let w := qs.foldl (fun w q => if q.cost = 0 then w else admitGate (entryTag e) q w) w
          let w := onHw (fun h =>
            { h with residues := twrite 0 h.residues 0 ((tread 0 h.residues 0 + fieldEnergy d) % energyUnit) }) w
          let w := flits.foldl (fun w f => request ⟨.brab, f.1, e.cls, f.2, .field, none⟩ w) w
          let planes := planesOf d W
          let w := fieldNear .field e false planes (fieldWalks e (d.plots.headD 0 / 16) planes w)
          let w := if tile.isSome then
              (d.plots.filter fun p => !ok.contains p).foldl (fun w p =>
                violation (0x2000 + p) vcTileOwner false false 0 0 w) w
            else w
          let count (ev n : Nat) (w : Mach) : Mach := countIssued e.thr e.ctx.priv ev n (entryTag e) w
          let w := count 0x18 ((flits.map (·.2)).sum) (count 0x15 sectors (count 0x07 d.cost (count 0x06 1 w)))
          let g := geomNow w
          let r : FieldRun :=
            { owner := o, entry := e, tile := tile, plots := mask d.plots, tileOk := mask ok, cost := d.cost,
              gens := (List.range 32).map fun p => (tile.map (tileGen (vpOf w p))).getD 0,
              op := (fieldQueue w o).step.toNat, geom := g, lo := (List.range 32).map (plotLo w) }
          onM (fun m => { m with fieldRun := some r }) w) s

/-! ### Completion and stops (R105, R122, R125) -/

/-- The operation leaves the field: its tiles' uses end (R129), and geometry changes take effect (R122). The changes that came
while it ran are one change of the table at its boundary, and none where they undid each other (DESIGN CHOICE; log 125). -/
def leaveField (r : FieldRun) (w : Mach) : Mach :=
  let w := withGeom (onM fun m => { m with fieldRun := none }) w
  match r.tile with
  | some k => iterate 32 (fun p w => if r.plots.getLsbD p then endTileUse p k w else w) w
  | none => w

/-- Write an operation's output rows; a piece that may not be written is a violation (R241). -/
def writeRows (r : FieldRun) (d : FD) (rows : List (List Nat)) (w : Mach) : Mach :=
  let unit := 0x2000 + d.plots.headD 0
  (List.range rows.length).foldl (fun w m =>
    let bs := (rows.getD m []).flatMap fun c => toBytes (fmtBits d.fmto / 8) c
    match pieces w [] r.entry.ctx .write (isDevice w) (d.out + m * d.ldo) bs.length with
    | .ok cs => storePieces none cs bs (logUnit unit true cs w)
    | .error _ => w) w

/-- An owner's work is aborted on an uncorrectable granule (R405). -/
def abortOwner (o : Owner) (gran : Nat) (step : W64) (w : Mach) : Mach :=
  match o with
  | .plan c => abortPlan c gran step w
  | .inv i => abortInv i gran step w

/-- The operation in the field is of a run of an invocation that was aborted (R346): nothing waits for it. -/
def ownerDropped (w : Mach) (o : Owner) : Bool :=
  match o with
  | .plan _ => false
  | .inv id => invDropped w id

/-- A replay of kind FIELD stops when the field step counter reaches its target (R367). -/
def fieldStop (o : Owner) (w : Mach) : Mach :=
  match o with
  | .plan c =>
    match (planOf w c).replay with
    | some r =>
      if r.kind = 1 ∧ (fieldQueue w o).step.toNat = r.step then
        stopThreads (fun th => cmdOfThread th == some c)
          (updPlan c (fun p => { p with replay := some { r with stopped := true, reached := true, tick := w.m.tick } }) w)
      else w
    | none => w
  | .inv _ => w

/-- FIELD_COMPLETION (R105, R405, and what the operation computes): the outputs are written, the step counter advances,
and what waited for it goes on. An operation whose ranges are not all mapped cannot complete (R125). -/
def execFieldCompletion (s : State) : Host.Outcome State Fault Refusal :=
  run (fun w =>
    match w.m.fieldRun with
    | none => w
    | some r =>
      let d := fdOf r.entry.desc
      if waitsAtGate w .field || !(absentIn w r.entry.ctx (planesOf d (widthOf w d.plots))).isEmpty then w
      else
        let cs := readSide w r d
        let bad := badPiece w cs
        let w := logUnit (0x2000 + d.plots.headD 0) false cs (correctPieces cs w)
        let (rows, w) := fieldResult d r w
        let w := fieldNear (.keeper 0) r.entry true (planesOf d (widthOf w d.plots)) (writeRows r d rows w)
        let outs := outputRanges w r.entry.ctx d
        let left := onM fun m => { m with fieldCls := some r.entry.cls }
        if ownerDropped w r.owner then left (leaveField r w)
        else
          let w := updQueue r.owner (openOuts r.op outs) w
          let w := match bad with
            | some g => abortOwner r.owner g (BitVec.ofNat 64 r.op) w
            | none => w
          let w := left (leaveField r w)
          let w := updQueue r.owner (fun q =>
            { q with step := q.step + 1, entries := q.entries.filter fun e => entrySeq e != entrySeq r.entry }) w
          let w := fieldStop r.owner (wakeField r.owner w)
          match r.owner with
          | .inv id => endContext id (if leftBehind w id then patchPast outs w else w)
          | .plan _ => w) s

/-- FIELD_ABSENT_STOP (R125): an operation that meets an absent translation stops; its descriptor stays at the head of
its queue, and the thread that issued it faults with one of the addresses not found, which the spec leaves open. -/
def execFieldAbsentStop (s : State) : Host.Outcome State Fault Refusal :=
  run (fun w =>
    match w.m.fieldRun with
    | none => w
    | some r =>
      let d := fdOf r.entry.desc
      let miss := absentIn w r.entry.ctx (planesOf d (widthOf w d.plots))
      let t := tidOf r.entry.thr
      let th := thr w t
      let bound := fieldOwner th == some r.owner
      if miss.isEmpty || (bound && th.cause.isSome) then w
      else
        let (n, w) := drawFree w
        let (va, wr) := miss.getD (Config.pick n % miss.length) (0, false)
        let w := leaveField r w
        let stop (e : FieldEntry) : FieldEntry :=
          if entrySeq e = entrySeq r.entry then { e with stopped := true } else e
        if ownerDropped w r.owner then w else
        let w := updQueue r.owner (fun q => { q with entries := q.entries.map stop }) w
        if bound then raise t (absentData akField wr va) w
        else match r.owner with
          -- nobody is left to map the page: the operations of an ended invocation end with it
          | .inv id => endContext id (updQueue r.owner (fun q => { q with entries := [] }) w)
          | .plan _ => w) s

/-- A field operation is lost to a failed column: its command rolls back, its invocation is aborted (R122, R406). -/
def rollBackOwner (o : Owner) (w : Mach) : Mach :=
  if ownerDropped w o then w
  else match o with
  | .plan c =>
    stopThreads (fun th => cmdOfThread th == some c) (updPlan c (fun p => { p with aborted := true, granule := none }) w)
  | .inv i => dropInv i w

/-- COLUMN_FAIL (R119 to R122, R417): a column of an array of the admitted operation fails. The operation is aborted at
its boundary; a spare takes over, the array narrows, or below 60 columns its plot goes to PUPA. -/
def execColumnFail (plot : BitVec 5) (array : BitVec 2) (s : State) : Host.Outcome State Fault Refusal :=
  run (fun w =>
    match w.m.fieldRun with
    | none => w
    | some r =>
      let p := plot.toNat
      if !r.plots.getLsbD p then w
      else
        let k := p * 4 + array.toNat
        let w := errorRecord ecColumnFail
          { unit := 0x3000 + k, cmd := ownerCmd w r.owner, step := BitVec.ofNat 64 r.op,
            attempt := match r.owner with | .plan c => (planOf w c).attempts | .inv _ => 0 } w
        let w := rollBackOwner r.owner (leaveField r w)
        if tread 0 w.m.hw.failed k < 6 then
          writeRepair (withGeom (onHw fun h => { h with failed := tput h.failed k (tread 0 h.failed k + 1) }) w)
        else pupate (0x2000 + p) w) s

end Sys2Proof.Machine
end

