-- ==== Sys2Proof/Machine/Func.lean ====
section
/-! DEFINITION. The Function stage (R216, R217): the exact value rounded to the format, moved by an error that the spec
bounds and does not state (log 7). Exact values are computed in fixed point with far more bits than any format keeps. -/

namespace Sys2Proof.Machine
open Sys2Proof FFmtOps

/-- Fraction bits of the fixed-point work. -/
def fxBits : Nat := 400

/-- ln 2 in fixed point: the sum of 1 ÷ (k × 2^k). -/
def ln2Fx : Nat := iterate 420 (fun i a => a + 2 ^ (fxBits + 16) / ((i + 1) * 2 ^ (i + 1))) 0 / 2 ^ 16

/-- e^x for a fixed-point x in [0, 1): its series. -/
def expFx (x : Nat) : Nat :=
  (iterate 110 (fun i (p : Nat × Nat) =>
    let term := p.2 * x / 2 ^ fxBits / (i + 1)
    (p.1 + term, term)) (2 ^ fxBits, 2 ^ fxBits)).1

/-- 2^f for a fixed-point f in [0, 1). -/
def exp2Fx (f : Nat) : Nat := expFx (f * ln2Fx / 2 ^ fxBits)

/-- log2 of a fixed-point y in [1, 2), to `n` bits: each squaring gives one bit. -/
def log2Fx : Nat → Nat → Nat → Nat
  | 0, _, acc => acc
  | n + 1, y, acc =>
    let y2 := y * y / 2 ^ (2 * fxBits)
    if 2 ^ (2 * fxBits + 1) ≤ y2 then log2Fx n (y2 / 2) (2 * acc + 1) else log2Fx n y2 (2 * acc)

/-- A finite value in fixed point: floor of m × 2^e × 2^fxBits, for a value below 2^64. -/
def toFx (m : Nat) (e : Int) : Nat :=
  if 0 ≤ e + fxBits then m <<< (e + fxBits).toNat else m >>> (-(e + fxBits)).toNat

/-- A function of the stage. -/
inductive FuncOp where
  | exp2 | log2 | rcp | rsqrt | tanh
  deriving DecidableEq, Repr

/-- 2^x: x beyond any format's exponents is brought in first; sticky below. -/
def exp2N (neg : Bool) (m : Nat) (e : Int) : Num :=
  if magLt 5000 0 m e then (if neg then .fin false 1 (-6000) else .fin false 1 6000)
  else
    let a := toFx m e
    let one := 2 ^ fxBits
    let exact := decide (0 ≤ e) || m % 2 ^ (-e).toNat == 0
    if exact then
      let n : Int := a / one
      .fin false 1 (if neg then -n else n)
    else
      -- x = n + f with 0 <= f < 1
      let x : Int := if neg then -(a : Int) - 1 else a
      let n : Int := x / one
      let f := (x % one).toNat
      .fin false (2 * exp2Fx f + 1) (n - fxBits - 1)

/-- log2 of a positive finite value. -/
def log2N (m : Nat) (e : Int) : Num :=
  let k := m.log2
  let n : Int := e + k
  if m = 2 ^ k then ofInt n
  else
    let y := (m <<< (2 * fxBits)) >>> k
    let f := log2Fx 250 y 0
    let v : Int := n * 2 ^ 250 + f
    .fin (decide (v < 0)) (2 * v.natAbs + 1) (-251)

/-- 1 ÷ √x of a positive finite value. -/
def rsqrtN (m : Nat) (e : Int) : Num :=
  let (m, e) := if e % 2 = 0 then (m, e) else (2 * m, e - 1)
  let k := 200 + m.log2
  let r := isqrt (2 ^ (2 * k) / m)
  .fin false (2 * r + b2n (r * r * m != 2 ^ (2 * k))) (-(e / 2) - k - 1)

/-- tanh of a finite value: the value itself where the cube is below rounding, 1 where the rest is. -/
def tanhN (neg : Bool) (m : Nat) (e : Int) : Num :=
  if magLt m e 1 (-28) then .fin neg m e
  else if magLt 64 0 m e then .fin neg 1 0
  else
    -- e^(2x) = 2^n * 2^f
    let y := toFx m (e + 1) * 2 ^ fxBits / ln2Fx
    let n := y / 2 ^ fxBits
    let p := exp2Fx (y % 2 ^ fxBits) <<< n
    let one := 2 ^ fxBits
    match divN 200 (.fin false (p - one) 0) (.fin false (p + one) 0) with
    | .fin _ m e => .fin neg (2 * m + 1) (e - 1)
    | x => x

/-- The exact value of a function (R217), or what R217 gives in its place. -/
def funcExact (op : FuncOp) (x : Num) : Num :=
  match op, x with
  | _, .nan => .nan
  | _, .over => .nan
  | .exp2, .inf s => if s then .fin false 0 0 else .inf false
  | .exp2, .fin s m e => if m = 0 then .fin false 1 0 else exp2N s m e
  | .log2, .inf s => if s then .nan else .inf false
  | .log2, .fin s m e => if m = 0 then .inf true else if s then .nan else log2N m e
  | .rcp, .inf s => .fin s 0 0
  | .rcp, .fin s m e => if m = 0 then .inf s else divN 64 (.fin false 1 0) (.fin s m e)
  | .rsqrt, .inf s => if s then .nan else .fin false 0 0
  | .rsqrt, .fin s m e => if m = 0 then .inf s else if s then .nan else rsqrtN m e
  | .tanh, .inf s => .fin s 1 0
  | .tanh, .fin s m e => if m = 0 then .fin s 0 0 else tanhN s m e

/-- The value that a result encodes (R217): VRCP and VRSQRT of a zero give the infinity of its sign. -/
def funcValue (op : FuncOp) (x : Num) : Num := funcExact op x

/-- The error bound in units of the last place (R216): 0 for binary16, which is correctly rounded. -/
def funcBound (op : FuncOp) (f : FFmt) : Nat :=
  if f = b16 then 0
  else if f = b32 then (match op with | .tanh => 2 | _ => 1)
  else match op with
    | .exp2 => 2 | .log2 => 2 | .rcp => 1 | .rsqrt => 1 | .tanh => 3

/-- The number by which a free error is asked for. -/
def funcNum : FuncOp → Nat
  | .exp2 => 0 | .log2 => 1 | .rcp => 2 | .rsqrt => 3 | .tanh => 4

/-- R217 fixes the result exactly: an integer under VEXP2, a power of two under VLOG2, and every special case. -/
def funcFixed (op : FuncOp) (x : Num) : Bool :=
  match op, x with
  | .exp2, .fin _ m e => m == 0 || decide (0 ≤ e) || m % 2 ^ (-e).toNat == 0
  | .log2, .fin _ m _ => m == 0 || m == 2 ^ m.log2
  | _, .fin _ m _ => m == 0
  | _, _ => true

/-- The place of an encoding among its format's values, in their order. -/
def placeOf (f : FFmt) (b : Nat) : Int :=
  let sign := 2 ^ (f.eb + f.fb)
  if b < sign then b else -(b % sign : Nat)

/-- The functions that never decrease (R217). -/
def monotone : FuncOp → Bool
  | .exp2 => true | .log2 => true | .tanh => true | _ => false

/-- The places between which R217 keeps a result that it does not fix: VEXP2 those of the integers about x, VLOG2 those of the
powers of two about it, VTANH zero and one of its sign. -/
def bracket (op : FuncOp) (f : FFmt) (x : Num) : Int × Int :=
  let at' (n : Num) : Int := placeOf f (rneF f n)
  match op, x with
  | .exp2, .fin s m e =>
    let k : Int := if s then -(m >>> (-e).toNat : Nat) - 1 else (m >>> (-e).toNat : Nat)
    let pow (k : Int) : Int := at' (.fin false 1 (max (-6000) (min 6000 k)))
    (pow k, pow (k + 1))
  | .log2, .fin _ m e => (at' (ofInt (e + m.log2)), at' (ofInt (e + m.log2 + 1)))
  | .tanh, .fin s _ _ => if s then (at' (.fin true 1 0), 0) else (0, at' (.fin false 1 0))
  | _, _ => (-(maxCode f : Int), maxCode f)

/-- The greatest place of lo to lo + n that a monotone function has reached at an input: lo it has, and any other from a first
input on, which the model leaves free (log 7). -/
def reached (op : FuncOp) (f : FFmt) (b : Nat) (lo : Int) (n : Nat) : Int :=
  iterate n (fun i best =>
    let c := lo + i + 1
    if Config.funcStep (funcNum op) (f.eb + f.fb) c ≤ placeOf f b then c else best) lo

/-- The result of a function on an encoding (R216, R217): within the bound of the rounded exact value. Where it stands there
the model leaves free: for VEXP2, VLOG2 and VTANH as a function that never decreases and keeps R217's exact values, for the
others as any function. -/
def funcResult (op : FuncOp) (f : FFmt) (b : Nat) : Nat :=
  let x := decodeF f b
  let r := rneF f (funcValue op x)
  let n := funcBound op f
  let sign := 2 ^ (f.eb + f.fb)
  let mag := r % sign
  if funcFixed op x || n == 0 || maxCode f < mag then r
  else if monotone op then
    let p := placeOf f r
    let (a, z) := bracket op f x
    let lo := max a (p - n)
    let hi := min (min z (maxCode f)) (p + n)
    r - mag + (reached op f b lo (hi - lo).toNat).natAbs
  else
    let d : Int := (Config.funcError (funcNum op) (f.eb + f.fb) b) % (2 * n + 1) - n
    r - mag + (max 0 (min (maxCode f : Int) (mag + d))).toNat

end Sys2Proof.Machine
end

