-- ==== Sys2Proof/Machine/VecOps.lean ====
section
/-! DEFINITION. Vector operations on elements (R193 to R222): each stage's result for given registers, and the registers
after one operation. Memory, chains and retirement are in Machine/Vector.lean. -/

namespace Sys2Proof.Machine
open Sys2Proof FFmtOps

/-- One vector operation: its major and minor codes, its V-form fields, and its word for VCVT. -/
structure VOp where
  major : Nat
  minor : Nat
  x     : VF
  word  : W32 := 0
  deriving DecidableEq, Repr

/-- Bits of an element of an etype (R167). -/
def etBits (et : BitVec 2) : Nat := 8 * 2 ^ et.toNat

/-- Element `i` of `w` bits of a register. -/
def vget (w : Nat) (v : VReg) (i : Nat) : Nat := (v.toNat >>> (i * w)) % 2 ^ w

/-- A register with some elements of `w` bits replaced. -/
def vset (w : Nat) (v : VReg) (es : List (Nat × Nat)) : VReg :=
  BitVec.ofNat 65536 (es.foldl (fun n (i, x) =>
    n - ((n >>> (i * w)) % 2 ^ w) <<< (i * w) + (x % 2 ^ w) <<< (i * w)) v.toNat)

/-- The floating-point format of a stage at an etype (R211, R216): `bf` selects BF16 at e16. -/
def vfmt (et : BitVec 2) (bf : Bool) : Option FFmt :=
  match et.toNat with
  | 1 => some (if bf then bf16 else b16)
  | 2 => some b32
  | 3 => some b64
  | _ => none

/-- The fields of a VCVT word (R173). -/
structure CvtF where
  src : Nat
  dst : Nat
  rm  : Nat
  sat : Bool
  deriving DecidableEq, Repr

/-- VCVT's fields. -/
def cvtOf (word : W32) : CvtF :=
  let n := word.toNat
  ⟨bits n 12 4, bits n 1 4, bits n 5 2, bit n 0⟩

/-- The widest element that an operation reads or writes (R195). -/
def vwide (o : VOp) : Nat :=
  let w := etBits o.x.et
  if o.major = 0x29 then max (fmtBits (cvtOf o.word).src) (fmtBits (cvtOf o.word).dst)
  else if o.major = 0x28 ∧ (o.minor = 7 ∨ o.minor = 8) then 2 * w
  else w

/-- The element count L for a widest element of `w` bits (R195). -/
def vlenFor (th : Thread) (w : Nat) : Nat := min th.vln.toNat (65536 / w)

/-- Passes of 8,192 bits (R172). -/
def passes (l w : Nat) : Nat := max 1 (ceilDiv (l * w) 8192)

/-- The stage occupancy (R173). -/
def occupancy (o : VOp) : Nat :=
  match o.major with
  | 0x27 => if o.minor = 0xA ∨ o.minor = 0xB then 8 else 1
  | 0x2B => 4
  | 0x2D => if o.minor = 2 ∨ o.minor = 3 then 2 else if o.minor = 4 ∨ o.minor = 6 then 3
            else if o.minor = 5 ∨ o.minor = 7 then 2 else 1
  | _ => 1

/-- The cost in beats of an operation alone (R172, R173). -/
def vcost (o : VOp) (np : Nat) : Nat :=
  match o.major with
  | 0x25 => if o.minor = 1 ∨ o.minor = 3 then 4 + np else 3 + np
  | 0x2C => 10 + np
  | 0x2F => 5 + np
  | _ => 3 + occupancy o * np

/-- The cost in beats of an operation on `l` elements: with none of them, 3 and its occupancy (R195). -/
def vcostOf (o : VOp) (l : Nat) : Nat := if l = 0 then 3 + occupancy o else vcost o (passes l (vwide o))

/-- A word that the stage has no meaning for (R169): a reserved minor or code, an etype the stage does not take, or PE
where it must be 0 or 1. `l` is the element count. -/
def vreserved (o : VOp) (l : Nat) : Bool :=
  let et := o.x.et.toNat
  match o.major with
  | 0x25 => decide (3 < o.minor)
  | 0x26 => et == 0 || (decide (6 < o.minor ∧ o.minor < 0x10)) || decide (0x16 < o.minor)
            || (decide (0x10 ≤ o.minor) && et != 1)
  | 0x27 => decide (0x0C < o.minor)
  | 0x28 => decide (8 < o.minor) || ((o.minor == 7 || o.minor == 8) && et == 3)
  | 0x29 =>
    let c := cvtOf o.word
    !hasPath c.src c.dst || (fmtMx c.src && fmtMx c.dst) || bit o.word.toNat 11 ||
      ((fmtMx c.src || fmtMx c.dst) && (o.x.pe || l % 32 != 0))
  | 0x2A =>
    let m := o.minor
    let badP := decide (7 < o.x.vd.toNat)
    if m < 8 then decide (5 < m) || badP
    else if m < 0x10 then decide (m < 0xA ∨ 0xD < m) || badP
    else if m < 0x18 then decide (0x16 < m) || et == 0 || badP
    else if m = 0x18 then o.x.pe
    else if m = 0x1D ∨ m = 0x1E then et == 0
    else decide (0x1E < m)
  | 0x2B => decide (4 < o.minor) || et == 0
  | 0x2C => decide (7 < o.minor) || ((o.minor == 1 || o.minor == 4 || o.minor == 5) && et == 0)
  | 0x2D =>
    match o.minor with
    | 0 => false | 1 => false
    | 2 => !o.x.pe | 3 => !o.x.pe
    | 4 => false | 6 => false
    | 5 => o.x.pe | 7 => o.x.pe
    | _ => true
  | 0x2E =>
    decide (6 < o.minor) || (o.minor != 4 && decide (7 < o.x.vd.toNat)) || decide (7 < o.x.va.toNat)
      || decide (7 < o.x.vb.toNat)
  | 0x2F => decide (1 < o.minor) || (o.minor == 0 && (et == 0 || et == 1))
  | _ => true

/-! ### Elements -/

/-- The events of a floating-point result (R222): an infinity from finite inputs, a NaN from inputs that are none. -/
def madeEvents (f : FFmt) (ins : List Num) (r : Nat) : List Watch :=
  match decodeF f r with
  | .nan => if ins.contains .nan then [] else [.nanMade]
  | .inf _ => if ins.all (fun x => match x with | .fin _ _ _ => true | _ => false) then [.infMade] else []
  | _ => []

/-- The FMA stage (R211): `d` is the addend element. -/
def fmaElem (minor : Nat) (f : FFmt) (a b d : Nat) : Nat × List Watch :=
  let x := decodeF f a
  let y := decodeF f b
  let z := decodeF f d
  let (v, ins) := match minor % 16 with
    | 0 => (addN x y, [x, y])
    | 1 => (addN x (negN y), [x, y])
    | 2 => (mulN x y, [x, y])
    | 3 => (fmaN x y z, [x, y, z])
    | 4 => (fmaN x y (negN z), [x, y, z])
    | 5 => (fmaN (negN x) y (negN z), [x, y, z])
    | _ => (fmaN (negN x) y z, [x, y, z])
  let r := rneF f v
  (r, madeEvents f ins r)

/-- The ALU stage (R212), VBCAST apart. -/
def aluElem (minor w a b : Nat) : Nat :=
  let sa := toSigned w a
  let sb := toSigned w b
  let n := b % w
  match minor with
  | 0 => (a + b) % 2 ^ w
  | 1 => wrapInt w ((a : Int) - b)
  | 2 => a &&& b
  | 3 => a ||| b
  | 4 => a ^^^ b
  | 5 => (a <<< n) % 2 ^ w
  | 6 => a >>> n
  | 7 => wrapInt w (sa / 2 ^ n)
  | 8 => (a * b) % 2 ^ w
  | 9 => wrapInt w (sa * sb / 2 ^ w)
  | 0xA => if b = 0 then 2 ^ w - 1 else wrapInt w (sa.tdiv sb)
  | _ => if b = 0 then 2 ^ w - 1 else a / b

/-- Saturate an exact value to a range (R213). -/
def saturateTo (lo hi : Int) (w : Nat) (v : Int) : Nat × List Watch :=
  if v < lo then (wrapInt w lo, [.saturate]) else if hi < v then (wrapInt w hi, [.saturate]) else (wrapInt w v, [])

/-- Round a quotient by 2^w to nearest, ties to even. -/
def divRne (v : Int) (w : Nat) : Int :=
  let q := v / 2 ^ w
  let r := v % 2 ^ w
  let half : Int := 2 ^ (w - 1)
  if half < r ∨ (r = half ∧ q % 2 = 1) then q + 1 else q

/-- The Fixed-point stage (R213), the narrowing operations with `a` of 2w bits. -/
def fixElem (minor w a b : Nat) : Nat × List Watch :=
  let lo : Int := -(2 ^ (w - 1))
  let hi : Int := 2 ^ (w - 1) - 1
  let umax : Int := 2 ^ w - 1
  let sa := toSigned w a
  let sb := toSigned w b
  match minor with
  | 0 => saturateTo lo hi w (sa + sb)
  | 1 => saturateTo 0 umax w ((a : Int) + b)
  | 2 => saturateTo lo hi w (sa - sb)
  | 3 => saturateTo 0 umax w ((a : Int) - b)
  | 4 => saturateTo lo hi w ((2 * sa * sb + 2 ^ (w - 1)) / 2 ^ w)
  | 5 => saturateTo lo hi w (divRne (2 * sa * sb) w)
  | 6 =>
    let sh := b % w
    if sh = 0 then (a, []) else saturateTo lo hi w ((sa + 2 ^ (sh - 1)) / 2 ^ sh)
  | 7 => saturateTo lo hi w (toSigned (2 * w) a)
  | _ => saturateTo 0 umax w (toSigned (2 * w) a)

/-- A comparison by its cc code (R173): `lt`, `eq` and `un` of the operands. -/
def ccHolds (cc : Nat) (lt eq un : Bool) : Bool :=
  match cc with
  | 0 => eq && !un
  | 1 => !(eq && !un)
  | 2 => lt && !un
  | 3 => (lt || eq) && !un
  | 4 => !lt && !eq && !un
  | 5 => !lt && !un
  | _ => un

/-- VCMP, VCMPU, VFCMP on one element (R215). -/
def cmpElem (minor w : Nat) (f : Option FFmt) (a b : Nat) : Bool :=
  if minor < 8 then ccHolds minor (decide (toSigned w a < toSigned w b)) (a == b) false
  else if minor < 0x10 then ccHolds (minor - 8) (decide (a < b)) (a == b) false
  else match f with
    | some f =>
      let x := decodeF f a
      let y := decodeF f b
      ccHolds (minor - 0x10) (ltN x y) (eqN x y) (unordN x y)
    | none => false

/-- VMIN to VFMAX on one element (R215). -/
def minMaxElem (minor w : Nat) (f : Option FFmt) (a b : Nat) : Nat :=
  let sa := toSigned w a
  let sb := toSigned w b
  match minor with
  | 0x19 => if sb < sa then b else a
  | 0x1A => if sa < sb then b else a
  | 0x1B => min a b
  | 0x1C => max a b
  | 0x1D => (f.map fun f => maxMinF f false a b).getD 0
  | _ => (f.map fun f => maxMinF f true a b).getD 0

/-- The Function stage's operation with a minor code. -/
def funcOf (minor : Nat) : FuncOp :=
  match minor with
  | 0 => .exp2 | 1 => .log2 | 2 => .rcp | 3 => .rsqrt | _ => .tanh

/-! ### Reductions (R218) -/

/-- One step of the pairwise tree. -/
def pairUp {α : Type} (op : α → α → α) : List α → List α
  | a :: b :: r => op a b :: pairUp op r
  | l => l

/-- The value of the fixed pairwise tree over at least one element. -/
def treeFold {α : Type} (op : α → α → α) (dflt : α) (xs : List α) : α :=
  (iterate 14 (fun _ l => pairUp op l) xs).headD dflt

/-- The identity of a reduction. -/
def redIdentity (minor w : Nat) (f : Option FFmt) : Nat :=
  match minor with
  | 1 => 2 ^ (w - 1)
  | 2 => 2 ^ (w - 1) - 1
  | 3 => 2 ^ (w - 1)
  | 4 => (f.map fun f => (encodeF f .rne false (.inf false)).1).getD 0
  | 5 => (f.map fun f => (encodeF f .rne false (.inf true)).1).getD 0
  | 6 => 2 ^ w - 1
  | _ => 0

/-- One combination of a reduction with its events (R218, R222). -/
def redOp (minor w : Nat) (f : Option FFmt) (x y : Nat × List Watch) : Nat × List Watch :=
  let a := x.1
  let b := y.1
  let ev := x.2 ++ y.2
  match minor, f with
  | 1, some f => let r := fmaElem 0 f a b 0; (r.1, ev ++ r.2)
  | 4, some f => (maxMinF f false a b, ev)
  | 5, some f => (maxMinF f true a b, ev)
  | 2, _ => (minMaxElem 0x19 w none a b, ev)
  | 3, _ => (minMaxElem 0x1A w none a b, ev)
  | 6, _ => (a &&& b, ev)
  | 7, _ => (a ||| b, ev)
  | _, _ => ((a + b) % 2 ^ w, ev)

/-! ### Sorted sets (R182, R183) -/

/-- The key of an element: signed integer, or totalOrder key (R73, R182). -/
def setKey (flt : Bool) (w b : Nat) : Int := if flt then (orderKey w b : Int) else toSigned w b

/-- VMERGEC's procedure (R182): the output, newest first, and the consumed counts. -/
def mergeSets (flt : Bool) (w n : Nat) (a b : Nat → Nat) : Nat → Nat → Nat → List Nat → List Nat × Nat × Nat
  | 0, i, j, out => (out, i, j)
  | fuel + 1, i, j, out =>
    if n ≤ out.length ∨ (n ≤ i ∧ n ≤ j) then (out, i, j)
    else if n ≤ j ∨ (i < n ∧ setKey flt w (a i) < setKey flt w (b j)) then
      mergeSets flt w n a b fuel (i + 1) j (a i :: out)
    else if n ≤ i ∨ setKey flt w (b j) < setKey flt w (a i) then
      mergeSets flt w n a b fuel i (j + 1) (b j :: out)
    else mergeSets flt w n a b fuel (i + 1) (j + 1) (a i :: out)

/-- VINTER's procedure (R183): the count of common keys. -/
def interSets (flt : Bool) (w n : Nat) (a b : Nat → Nat) : Nat → Nat → Nat → Nat → Nat
  | 0, _, _, c => c
  | fuel + 1, i, j, c =>
    if n ≤ i ∨ n ≤ j then c
    else if setKey flt w (a i) < setKey flt w (b j) then interSets flt w n a b fuel (i + 1) j c
    else if setKey flt w (b j) < setKey flt w (a i) then interSets flt w n a b fuel i (j + 1) c
    else interSets flt w n a b fuel (i + 1) (j + 1) (c + 1)

/-! ### One operation on registers -/

/-- The values an operation works on: the thread's registers as the operation sees them, the link with the width of its
elements (0 for bits without elements: what register v0 held before the chain, or an MX plane), the registers that members
have written, each with such a width, the draw of what a wider member finds above a narrower one's elements (log 105), and
whether v0 names the link (R206). -/
structure VEnv where
  th    : Thread
  link  : VReg := 0
  width : Nat := 0
  wrote : List (Reg × Nat) := []
  draw  : Nat := 0
  chain : Bool := false
  /-- Element 0 of the destinations of reductions, written at the end of a chain (R219): register, width, value. -/
  late  : List (Reg × Nat × Nat) := []
  evs   : List Watch := []
  deriving DecidableEq, Repr

/-- Elements of `old` bits as elements of `w` bits: element i is element i (R206); a narrower one is its low bits, a wider
one has free bits above it, which under DET hang on the element alone (R11; log 105). -/
def resized (draw old w : Nat) (v : VReg) : VReg :=
  if old = 0 ∨ old = w then v
  else
    vset w 0 ((List.range (65536 / max w old)).map fun i =>
      let x := vget old v i
      (i, x + (if old < w then Config.linkAbove draw i old w x % 2 ^ (w - old) * 2 ^ old else 0)))

/-- The link as elements of `w` bits. -/
def linkAt (e : VEnv) (w : Nat) : VReg := resized e.draw e.width w e.link

/-- A source register as elements of `w` bits: the link, a register that a member before has written, or one from before
the chain (R206). -/
def vsrc (e : VEnv) (w : Nat) (r : Reg) : VReg :=
  if e.chain && r == 0 then linkAt e w
  else match e.wrote.find? (·.1 == r) with
    | some (_, old) => resized e.draw old w (getV e.th r)
    | none => getV e.th r

/-- A source register as bits, whatever its elements: what an MX block is read from (R214). -/
def vbits (e : VEnv) (r : Reg) : VReg := if e.chain && r == 0 then e.link else getV e.th r

/-- An element may be active (R196, R225): its predicate bit with PE, its lane in the issuing group in group mode. -/
def activeAt (th : Thread) (x : VF) (i : Nat) : Bool :=
  (!x.pe || (getP th x.p).getLsbD i) &&
  (match curGroup th with
   | some (_, g) => g.mask.getLsbD i
   | none => true)

/-- The active elements below `l`. -/
def actives (th : Thread) (x : VF) (l : Nat) : List Nat := (List.range l).filter (activeAt th x)

/-- The lanes of a thread's group among elements below `l`: what an operation without predication acts on. -/
def laneOn (th : Thread) (l : Nat) : List Nat := actives th ⟨0, 0, 0, false, 0, 0⟩ l

/-- Put a result in the destination: in a chain the link takes it, and v0 names the link alone (R206). -/
def vput (e : VEnv) (r : Reg) (w : Nat) (es : List (Nat × Nat)) : VEnv :=
  let e1 := if e.chain then { e with link := vset w (linkAt e w) es, width := w } else e
  if e.chain && r == 0 then e1
  else { e1 with th := putV r (vset w (getV e.th r) es) e1.th,
                 wrote := if e.chain then (r, w) :: e1.wrote else e1.wrote }

/-- An MX plane and its scales are the result, which stand as bits without elements (R214; log 105). -/
def asBits (r : Reg) (e : VEnv) : VEnv :=
  if e.chain then { e with width := 0, wrote := (r, 0) :: e.wrote } else e

/-- Write predicate bits (R196, R215). -/
def pput (th : Thread) (p : BitVec 3) (es : List (Nat × Bool)) : Thread :=
  putP p (BitVec.ofNat 8192 (es.foldl (fun n (i, b) =>
    n - ((n >>> i) % 2) <<< i + (b2n b) <<< i) (getP th p).toNat)) th

/-- VCVT (R214): `rms` is the rounding of each element. Elements of other groups' lanes are not written, and count as zero
in a block (R225; log 105). -/
def cvtExec (e : VEnv) (o : VOp) (l : Nat) (rms : Nat → Rm) : VEnv :=
  let c := cvtOf o.word
  let src := if fmtMx c.src then vbits e o.x.va else vsrc e (fmtBits c.src) o.x.va
  let on := activeAt e.th o.x
  let inBlock (b : Nat) : Bool := (List.range 32).any fun i => on (32 * b + i)
  let badRm : List Watch := if c.rm = 3 then [.reservedCode] else []
  if fmtMx c.dst then
    let xs := (List.range l).map fun i => if on i then decodeElem c.src (vget (fmtBits c.src) src i) else (.fin false 0 0, [])
    let w := fmtBits c.dst
    let blocks := (List.range (l / 32)).map fun b =>
      packBlock c.dst 0 c.sat (fun i => rms (32 * b + i)) (((xs.drop (32 * b)).take 32).map (·.1))
    let codes := blocks.flatMap (·.codes)
    let elems := ((List.range codes.length).filter on).map fun i => (i, codes.getD i 0)
    let scales := ((List.range blocks.length).filter inBlock).map fun b =>
      (l * w / 8 + b, (blocks.map (·.scale)).getD b 0)
    let e := vput e o.x.vd w elems
    let e := asBits o.x.vd (vput { e with width := 8 } o.x.vd 8 scales)
    { e with evs := e.evs ++ badRm ++ xs.flatMap (·.2) ++ blocks.flatMap (·.evs) }
  else if fmtMx c.src then
    let res32 := ((List.range (l / 32)).filter inBlock).map fun b =>
      (b, unpackBlock c.src (bits src.toNat (l * fmtBits c.src + 8 * b) 8)
        ((List.range 32).map fun i => vget (fmtBits c.src) src (32 * b + i)) none)
    let ev := res32.flatMap (·.2.2)
    let res := res32.flatMap fun r =>
      ((List.range 32).filter fun i => on (32 * r.1 + i)).map fun i =>
        (32 * r.1 + i, mxResult c.dst (rms (32 * r.1 + i)) c.sat (r.2.1.getD i .nan))
    let e := vput e o.x.vd (fmtBits c.dst) (res.map fun r => (r.1, r.2.1))
    { e with evs := e.evs ++ badRm ++ ev ++ res.flatMap (·.2.2) }
  else
    let res := (actives e.th o.x l).map fun i =>
      (i, convertElem c.src c.dst (rms i) c.sat (vget (fmtBits c.src) src i))
    let e := vput e o.x.vd (fmtBits c.dst) (res.map fun r => (r.1, r.2.1))
    { e with evs := e.evs ++ badRm ++ res.flatMap (·.2.2) }

/-- The source element of a narrowing operation (R213): from va, then from vb; from the link alone where va is the
link. -/
def narrowSrc (e : VEnv) (o : VOp) (i : Nat) : Nat :=
  let w := etBits o.x.et
  let half := 32768 / w
  if e.chain && o.x.va == 0 then vget (2 * w) (linkAt e (2 * w)) i
  else if i < half then vget (2 * w) (vsrc e (2 * w) o.x.va) i
  else vget (2 * w) (vsrc e (2 * w) o.x.vb) (i - half)

/-- Elements of a reduction: identities where inactive (R218). -/
def redElems (e : VEnv) (o : VOp) (l : Nat) : List (Nat × List Watch) :=
  let w := etBits o.x.et
  let a := vsrc e w o.x.va
  (List.range (max l 1)).map fun i =>
    (if i < l && activeAt e.th o.x i then vget w a i else redIdentity o.minor w (vfmt o.x.et false), [])

/-- One operation of a stage that touches no memory, on `l` elements (R211 to R220). With no element nothing is written and
nothing counted, a VCVT's reserved RM among it: R64 counts one RESERVED_CODE for each instruction that names it, and R195
says only that no register changes (DESIGN CHOICE; log 124). -/
def vexec (e : VEnv) (o : VOp) (l : Nat) (rms : Nat → Rm) : VEnv :=
  let x := o.x
  let w := etBits x.et
  let a := vsrc e w x.va
  let b := vsrc e w x.vb
  let act := actives e.th x l
  let simple (f : Nat → Nat) : VEnv := vput e x.vd w (act.map fun i => (i, f i))
  let counted (f : Nat → Nat × List Watch) : VEnv :=
    let rs := act.map fun i => (i, f i)
    let e := vput e x.vd w (rs.map fun r => (r.1, r.2.1))
    { e with evs := e.evs ++ rs.flatMap (·.2.2) }
  if l = 0 then e
  else match o.major with
  | 0x26 =>
    match vfmt x.et (decide (0x10 ≤ o.minor)) with
    | some f =>
      let d := vsrc e w x.vd
      counted fun i => fmaElem o.minor f (vget w a i) (vget w b i) (vget w d i)
    | none => e
  | 0x27 =>
    if o.minor = 0xC then simple fun _ => (getG e.th x.va).toNat % 2 ^ w
    else simple fun i => aluElem o.minor w (vget w a i) (vget w b i)
  | 0x28 =>
    if o.minor = 7 ∨ o.minor = 8 then counted fun i => fixElem o.minor w (narrowSrc e o i) 0
    else counted fun i => fixElem o.minor w (vget w a i) (vget w b i)
  | 0x29 => cvtExec e o l rms
  | 0x2A =>
    if o.minor < 0x18 then
      let bs := act.map fun i => (i, cmpElem o.minor w (vfmt x.et false) (vget w a i) (vget w b i))
      { e with th := pput e.th (x.vd.setWidth 3) bs }
    else if o.minor = 0x18 then
      vput e x.vd w ((laneOn e.th l).map fun i =>
        (i, if (getP e.th x.p).getLsbD i then vget w a i else vget w b i))
    else simple fun i => minMaxElem o.minor w (vfmt x.et false) (vget w a i) (vget w b i)
  | 0x2B =>
    match vfmt x.et false with
    | some f =>
      counted fun i =>
        let r := funcResult (funcOf o.minor) f (vget w a i)
        (r, madeEvents f [decodeF f (vget w a i)] r)
    | none => e
  | 0x2C =>
    let f := vfmt x.et false
    let op := redOp o.minor w f
    let tree := treeFold op (0, []) (redElems e o l)
    let r := op (vget w b 0, []) tree
    if e.chain then
      { e with link := a, width := w, evs := e.evs ++ r.2,
               late := if x.vd = 0 then e.late else e.late ++ [(x.vd, w, r.1)] }
    else { e with th := putV x.vd (vset w (getV e.th x.vd) [(0, r.1)]) e.th, evs := e.evs ++ r.2 }
  | 0x2D =>
    let k := (getG e.th x.vb).toNat
    let sel := (laneOn e.th l).filter fun i => (getP e.th x.p).getLsbD i
    match o.minor with
    | 0 => vput e x.vd w ((act.filter (k ≤ ·)).map fun i => (i, vget w a (i - k)))
    | 1 => simple fun i => if i + k < l then vget w a (i + k) else 0
    | 2 => vput e x.vd w ((laneOn e.th l).map fun j => (j, (sel[j]?).elim 0 (vget w a)))
    | _ => vput e x.vd w ((List.range sel.length).map fun c => (sel.getD c 0, vget w a c))
  | _ => e

/-- The end of a chain: reductions write their results (R219). -/
def vfinish (e : VEnv) : Thread :=
  e.late.foldl (fun th (r, w, v) => putV r (vset w (getV th r) [(0, v)]) th) e.th

end Sys2Proof.Machine
end

