-- ==== Sys2Proof/Machine/Vector.lean ====
section
/-! DEFINITION. Vector instructions (R181 to R183, R193 to R222): single instructions, memory access and chains. -/

namespace Sys2Proof.Machine
open Sys2Proof

/-- The energy of a vector instruction: 1.0 nJ and 0.6 nJ a pass (R44). -/
def vecEnergy (np members : Nat) : Nat := 100 + 60 * np * members

/-- A vector instruction is counted (R490): the instruction, its active lanes and its lane slots. -/
def countVector (t : Tid) (active np : Nat) (w : Mach) : Mach :=
  countThread t 0x05 (128 * np) (countThread t 0x04 active (countThread t 0x03 1 w))

/-- A vector instruction retires at its cost (R172). -/
def vretire (t : Tid) (o : VOp) (l active : Nat) (w : Mach) : Mach :=
  let np := passes l (vwide o)
  retire t { cost := vcostOf o l, energy := some (vecEnergy np 1) } (countVector t active np w)

/-- The roundings of a VCVT's elements (R65, R90): the step counter as the operation, hop 127. Inside a chain that is the
step counter before the VCHAIN, since all of them retire together (R208; DESIGN CHOICE: R65 names no value for a member;
log 124). Draws of hardware entropy advance the free values. -/
def cvtRoundings (t : Tid) (rm l : Nat) (w : Mach) : (Nat → Rm) × Mach :=
  let th := thr w t
  if rm = 2 then
    if usesEntropy th then
      let n := w.m.free
      (fun i => .sr ((Config.entropy (n + i)).setWidth 16).toNat, onM (fun m => { m with free := m.free + l }) w)
    else (fun i => .sr (drawSr th.seed th.step.toNat i 127), w)
  else (fun _ => if rm = 1 then .rtz else .rne, w)

/-- The range-watch events of a vector operation, in the thread's CVT_SLOT (R222). -/
def vcount (t : Tid) (es : List Watch) (w : Mach) : Mach :=
  rwCount (dieOfVp t.vp.toNat) (thr w t).cvtSlot es w

/-- One instruction of a stage that touches no memory: reserved words are undefined (R169). -/
def vsingle (t : Tid) (o : VOp) : Mach → Mach := fun w =>
  let th := thr w t
  let l := vlenFor th (vwide o)
  if vreserved o l then undefinedWord t o.word w
  else
    let (rms, w) := cvtRoundings t (if o.major = 0x29 then (cvtOf o.word).rm else 0) l w
    let e := vexec { th := th } o l rms
    vretire t o l (actives th o.x l).length (vcount t e.evs (setThr t e.th w))

/-- The operation of a V-form instruction. -/
def vop (major minor : Nat) (x : VF) : VOp :=
  ⟨major, minor, x, wordV (BitVec.ofNat 6 major) x (BitVec.ofNat 5 minor)⟩

/-! ### Memory (R199 to R201) -/

/-- The start address of a vector access: VLD and VST drop bits [5:0]. -/
def vbase (o : VOp) (th : Thread) : Nat :=
  let a := (getG th o.x.va).toNat
  if o.minor = 0 ∨ o.minor = 2 then a / 64 * 64 else a

/-- The physical address of byte `k` of translated pieces; none where it is denied. -/
def pieceAddr (cs : List Chunk) (va : Nat) : Option Nat :=
  (cs.find? fun c => decide (c.va ≤ va ∧ va < c.va + c.len)).bind fun c => c.pa.map (· + (va - c.va))

/-- The bytes at virtual addresses, one by one; a denied byte is zero. -/
def gatherBytes (w : Mach) (cs : List Chunk) (va n : Nat) : List Byte :=
  (List.range n).map fun i => ((pieceAddr cs (va + i)).map (seenByte w)).getD 0

/-- The pieces that some active element touches: only they can be violated (R200). -/
def touched (cs : List Chunk) (base eb : Nat) (act : List Nat) : List Chunk :=
  cs.filter fun c => act.any fun i => decide (base + i * eb < c.va + c.len ∧ c.va < base + (i + 1) * eb)

/-- The part of a piece from one virtual address to before another. -/
def clip (lo hi : Nat) (c : Chunk) : Option Chunk :=
  let a := max lo c.va
  let b := min hi (c.va + c.len)
  if a < b then some { c with va := a, len := b - a, pa := c.pa.map (· + (a - c.va)) } else none

/-- The bytes of the active elements, as pieces: only they are read (R199, R200). -/
def activePieces (cs : List Chunk) (base eb : Nat) (act : List Nat) : List Chunk :=
  (spansOf act).flatMap fun r => cs.filterMap (clip (base + r.1 * eb) (base + (r.1 + r.2) * eb))

/-- The loaded elements. -/
def vloadElems (w : Mach) (cs : List Chunk) (base eb : Nat) (act : List Nat) : List (Nat × Nat) :=
  act.map fun i => (i, ofBytes (gatherBytes w cs (base + i * eb) eb))

/-- Store elements: denied bytes are dropped, other VPs' copies go first (R161, R200, R201), and the granules that the
elements cover whole are new codewords (R409); the sectors are dirty in the VP's data cache (R306). -/
def vstoreElems (t : Tid) (cs : List Chunk) (base eb : Nat) (es : List (Nat × Nat)) (w : Mach) : Mach :=
  let vp := t.vp.toNat
  let written := es.flatMap fun e => (List.range eb).filterMap fun k => pieceAddr cs (base + e.1 * eb + k)
  dirtyBytes t written <| renewCovered written <|
  es.foldl (fun w (i, x) =>
    iterate eb (fun k w =>
      match pieceAddr cs (base + i * eb + k) with
      | some a => putByte a (BitVec.ofNat 8 (x >>> (8 * k))) (dropCopies (some vp) a 1 w)
      | none => w) w)
    (notePieces .thread (activePieces cs base eb (es.map (·.1))) w)

/-- A vector load (R199, R200). -/
def vload (t : Tid) (o : VOp) : Mach → Mach := fun w =>
  let w := drainStores t w
  let th := thr w t
  let wd := etBits o.x.et
  let l := vlenFor th wd
  let eb := wd / 8
  let base := vbase o th
  let w := threadWalks t base (l * eb) w
  match threadPieces w t .read base (l * eb) with
  | .error a => raise t (absentData akVector false a) w
  | .ok cs =>
    let act := actives th o.x l
    let es := vloadElems w cs base eb act
    let rd := activePieces cs base eb act
    let ms := (missing w t.vp.toNat rd).eraseDups
    let w := tookOpen rd (logDenied t false o.word (touched cs base eb act) w)
    let w := updThr t (putV o.x.vd (vset wd (getV th o.x.vd) es)) w
    readCheck t rd (missSectors t ms (vretire t o l act.length) w)

/-- A vector store (R199 to R201). -/
def vstore (t : Tid) (o : VOp) : Mach → Mach := fun w =>
  let w := drainStores t w
  let th := thr w t
  let wd := etBits o.x.et
  let l := vlenFor th wd
  let eb := wd / 8
  let base := vbase o th
  let w := threadWalks t base (l * eb) w
  match threadPieces w t .write base (l * eb) with
  | .error a => raise t (absentData akVector true a) w
  | .ok cs =>
    let act := actives th o.x l
    let v := getV th o.x.vd
    let w := logDenied t true o.word (touched cs base eb act) w
    let w := vstoreElems t cs base eb (act.map fun i => (i, vget wd v i)) w
    vretire t o l act.length w

/-! ### VSETL, predicates, VMAC2 and the sorted sets -/

/-- VSETL (R193): a violation in group mode (R226). -/
def execVsetl (t : Tid) (rd ra : Reg) (et : BitVec 2) (s : State) : Host.Outcome State Fault Refusal :=
  issue t (fun w =>
    let th := thr w t
    let word := wordV 0x24 ⟨rd, ra, 0, false, 0, et⟩ 0
    if th.gm then done t 1 (violThread t vcGroupMode false (pcOf th).toNat word w)
    else
      let n := min (getG th ra).toNat (65536 / etBits et)
      done t 1 (setG t rd (BitVec.ofNat 64 n) (updThr t (fun th => { th with vln := BitVec.ofNat 32 n }) w))) s

/-- The predicate bits that an instruction acts on: in group mode those of the group's lanes (R225). -/
def predLanes (th : Thread) : PReg :=
  match curGroup th with
  | some (_, g) => g.mask.setWidth 8192
  | none => BitVec.allOnes 8192

/-- Write a predicate's bits, those that the instruction acts on. -/
def predWrite (p : BitVec 3) (v : PReg) (th : Thread) : Thread :=
  putP p (v &&& predLanes th ||| getP th p &&& ~~~ predLanes th) th

/-- pd = pa op pb. -/
def pbinary (x : VF) (f : PReg → PReg → PReg) (th : Thread) : Thread :=
  predWrite (x.vd.setWidth 3) (f (getP th (x.va.setWidth 3)) (getP th (x.vb.setWidth 3))) th

/-- The low `n` bits of a predicate set. -/
def lowBits (n : Nat) : PReg := BitVec.ofNat 8192 (2 ^ n - 1)

/-- A predicate operation on a thread (R197): all 8,192 bits, or those below VLN. -/
def predOp (o : VOp) (th : Thread) : Thread :=
  let x := o.x
  match o.minor with
  | 0 => pbinary x (· &&& ·) th
  | 1 => pbinary x (· ||| ·) th
  | 2 => pbinary x (· ^^^ ·) th
  | 3 => pbinary x (fun a _ => ~~~ a) th
  | 4 =>
    let set := getP th (x.va.setWidth 3) &&& predLanes th
    putG x.vd (BitVec.ofNat 64 (popCount set.toNat (min th.vln.toNat 8192))) th
  | 5 => predWrite (x.vd.setWidth 3) (lowBits (min th.vln.toNat 8192)) th
  | _ => predWrite (x.vd.setWidth 3) 0 th

/-- A predicate instruction (R197): 1 turn. -/
def predicate (t : Tid) (o : VOp) : Mach → Mach := fun w =>
  if vreserved o 0 then undefinedWord t o.word w else done t 1 (updThr t (predOp o) w)

/-- VMAC2 (R181): two streams, every translation before any element; both pointers advance by the full length. -/
def execVmac2 (t : Tid) (x : VF) (int : Bool) (s : State) : Host.Outcome State Fault Refusal :=
  issue t (fun w =>
    let o := vop 0x2F (b2n int) x
    let w := drainStores t w
    let th := thr w t
    let wd := etBits x.et
    let l := vlenFor th wd
    let eb := wd / 8
    if vreserved o l then undefinedWord t o.word w
    else
      let base (r : Reg) : Nat := (getG th r).toNat / eb * eb
      let w := threadWalks t (base x.va) (l * eb) w
      let w := if base x.va = base x.vb then w else threadWalks t (base x.vb) (l * eb) w
      match threadPieces w t .read (base x.va) (l * eb), threadPieces w t .read (base x.vb) (l * eb) with
      | .error a, _ => raise t (absentData akVmac2 false a) w
      | _, .error a => raise t (absentData akVmac2 false a) w
      | .ok ca, .ok cb =>
        let act := actives th x l
        let val (cs : List Chunk) (r : Reg) (i : Nat) : Nat := ofBytes (gatherBytes w cs (base r + i * eb) eb)
        let d := getV th x.vd
        let rs := act.map fun i =>
          let a := val ca x.va i
          let b := val cb x.vb i
          let c := vget wd d i
          (i, if int then ((a * b + c) % 2 ^ wd, []) else
            match vfmt x.et false with
            | some f => fmaElem 3 f a b c
            | none => (c, []))
        let rd := activePieces ca (base x.va) eb act ++ activePieces cb (base x.vb) eb act
        let ms := (missing w t.vp.toNat rd).eraseDups
        let w := logDenied t false o.word (touched ca (base x.va) eb act ++ touched cb (base x.vb) eb act) w
        let w := tookOpen rd w
        let w := updThr t (putV x.vd (vset wd d (rs.map fun r => (r.1, r.2.1)))) w
        let adv := BitVec.ofNat 64 (th.vln.toNat * eb)
        let w := setG t x.va (getG th x.va + adv) w
        let w := if x.va = x.vb then w else setG t x.vb (getG th x.vb + adv) w
        readCheck t rd
          (missSectors t ms (vretire t o l act.length) (vcount t (rs.flatMap (·.2.2)) w))) s

/-- VMERGEC and VMERGEC.F (R182): the bits of PE and p name the counts register. -/
def mergeExec (t : Tid) (o : VOp) (flt : Bool) : Mach → Mach := fun w =>
  let th := thr w t
  let wd := etBits o.x.et
  let l := vlenFor th wd
  if vreserved o l then undefinedWord t o.word w
  else if l = 0 then vretire t o l 0 w
  else
    let a := getV th o.x.va
    let b := getV th o.x.vb
    let (out, i, j) := mergeSets flt wd l (vget wd a) (vget wd b) (2 * l + 1) 0 0 []
    let res := out.reverse
    let es := (laneOn th l).map fun k => (k, res.getD k 0)
    let gd : Reg := (0 : BitVec 1) ++ BitVec.ofBool o.x.pe ++ o.x.p
    let w := updThr t (putV o.x.vd (vset wd (getV th o.x.vd) es)) w
    let w := setG t gd (BitVec.ofNat 64 (out.length + i <<< 21 + j <<< 42)) w
    vretire t o l l w

/-- VINTER and VINTER.F (R183): the count of common keys to a g register. -/
def interExec (t : Tid) (o : VOp) (flt : Bool) : Mach → Mach := fun w =>
  let th := thr w t
  let wd := etBits o.x.et
  let l := vlenFor th wd
  if vreserved o l then undefinedWord t o.word w
  else if l = 0 then vretire t o l 0 w
  else
    let c := interSets flt wd l (vget wd (getV th o.x.va)) (vget wd (getV th o.x.vb)) (2 * l + 1) 0 0 0
    vretire t o l l (setG t o.x.vd (BitVec.ofNat 64 c) w)

/-! ### Chains (R205 to R210) -/

/-- The vector operation that a word spells, if its major is chainable or vector memory. -/
def vopOfWord (word : W32) : VOp :=
  let n := word.toNat
  let x : VF := ⟨BitVec.ofNat 5 (bits n 21 5), BitVec.ofNat 5 (bits n 16 5), BitVec.ofNat 5 (bits n 11 5), bit n 10,
    BitVec.ofNat 3 (bits n 7 3), BitVec.ofNat 2 (bits n 5 2)⟩
  ⟨bits n 26 6, bits n 0 5, x, word⟩

/-- The stage that a chain member uses (R202, R205): 0 load, 1 store, 2 FMA, 3 ALU, 4 Fixed-point, 5 Convert, 6 Compare,
7 Function, 8 Reduce; none where it is not chainable. -/
def stageOf (o : VOp) : Option Nat :=
  match o.major with
  | 0x25 => if o.minor < 2 then some 0 else some 1
  | 0x26 => some 2 | 0x27 => some 3 | 0x28 => some 4 | 0x29 => some 5 | 0x2A => some 6 | 0x2B => some 7
  | 0x2C => some 8
  | _ => none

/-- Members of a stage among operations. -/
def countStage (k : Nat) (os : List VOp) : Nat := (os.filter fun o => stageOf o == some k).length

/-- A chain is legal (R205): `pc` is the address of VCHAIN. A member whose word is undefined is not chainable. -/
def chainLegal (th : Thread) (pc : Addr) (n : Nat) (os : List VOp) (l : Nat) : Bool :=
  let k := os.length
  let atLoop (i : Nat) : Bool :=
    let a := pc + BitVec.ofNat 48 (4 * (i + 1))
    (th.lc0 != 0 && th.le0 == a) || (th.lc1 != 0 && th.le1 == a)
  decide (2 ≤ n ∧ n ≤ 10) && k == n
    && os.all (fun o => (stageOf o).isSome && !vreserved o l)
    && (List.range k).all (fun i =>
      match (os[i]?).bind stageOf with
      | some 0 => i == 0
      | some 1 => i + 1 == k
      | _ => true)
    && decide (countStage 2 os ≤ 2)
    && ([3, 4, 5, 6, 7, 8].all fun s => decide (countStage s os ≤ 1))
    && (List.range (k - 1)).all fun i => !atLoop i

/-- The cost of a legal chain (R207). -/
def chainCost (os : List VOp) (np : Nat) : Nat :=
  let n := os.length
  let a := (os.filter fun o => o.major == 0x25 && (o.minor == 1 || o.minor == 3)).length
  let r := if countStage 8 os = 0 then 0 else 1
  let smax := os.foldl (fun m o => max m (occupancy o)) 1
  3 + 2 * (n - 1) + a + 7 * r + smax * np

/-- The pieces that a chain member reads or writes; none for a member that touches no memory. -/
def memberPieces (w : Mach) (t : Tid) (l : Nat) (o : VOp) : Except Nat (List Chunk) :=
  if o.major = 0x25 then
    threadPieces w t (if o.minor < 2 then .read else .write) (vbase o (thr w t)) (l * (etBits o.x.et / 8))
  else .ok []

/-- The first absent translation of a chain's load and store ranges, with whether it is the store's (R208). -/
def chainAbsent (w : Mach) (t : Tid) (l : Nat) (os : List VOp) : Option (Nat × Bool) :=
  os.findSome? fun o =>
    match memberPieces w t l o with
    | .error a => some (a, decide (2 ≤ o.minor))
    | .ok _ => none

/-- The pieces of a chain's load, or of its store. -/
def chainPieces (store : Bool) (w : Mach) (t : Tid) (l : Nat) (os : List VOp) : List Chunk :=
  os.flatMap fun o =>
    if o.major = 0x25 ∧ decide (2 ≤ o.minor) = store then
      match memberPieces w t l o with
      | .ok cs => cs
      | .error _ => []
    else []

/-- What the active elements of a chain's load read (R200). -/
def chainReads (w : Mach) (t : Tid) (l : Nat) (os : List VOp) : List Chunk :=
  match os with
  | o :: _ => activePieces (chainPieces false w t l os) (vbase o (thr w t)) (etBits o.x.et / 8) (actives (thr w t) o.x l)
  | [] => []

/-- A byte at virtual address `a` of the load's pieces overlaps a store's, denied or not: the same virtual address, or the
same physical one. -/
def inPieces (cs st : List Chunk) (a : Nat) : Bool :=
  st.any fun c => decide (c.va ≤ a ∧ a < c.va + c.len) ||
    (match c.pa, pieceAddr cs a with | some p, some x => decide (p ≤ x ∧ x < p + c.len) | _, _ => false)

/-- Two ranges are the same, by their virtual addresses or by their physical ones. -/
def sameRange (cs st : List Chunk) : Bool :=
  cs.map (fun c => (c.va, c.len)) == st.map (fun c => (c.va, c.len)) ||
    cs.map (fun c => (c.pa, c.len)) == st.map (fun c => (c.pa, c.len))

/-- What a chain loads where its store's range `st` overlaps the load's range `cs` without being the same: free values
(R209; log 7). -/
def overlapLoad (n : Nat) (cs st : List Chunk) (base eb : Nat) (es : List (Nat × Nat)) : List (Nat × Nat) :=
  if sameRange cs st then es
  else es.map fun (i, x) =>
    (i, if (List.range eb).any fun k => inPieces cs st (base + i * eb + k)
        then Config.unspecified n i % 2 ^ (8 * eb) else x)

/-- One member of a running chain; `st` are the pieces of its store's range, and draw `n` is the overlap's. A VCVT rounds by
the step counter as it stands before the VCHAIN (log 124). -/
def chainMember (t : Tid) (l n : Nat) (st : List Chunk) (ew : VEnv × Mach) (o : VOp) : VEnv × Mach :=
  let (e, w) := ew
  let wd := etBits o.x.et
  let eb := wd / 8
  match o.major with
  | 0x25 =>
    let base := vbase o e.th
    let act := actives e.th o.x l
    match memberPieces w t l o with
    | .error _ => (e, w)
    | .ok cs =>
      if o.minor < 2 then
        (vput e o.x.vd wd (overlapLoad n cs st base eb (vloadElems w cs base eb act)),
          logDenied t false o.word (touched cs base eb act) w)
      else
        let v := vsrc e wd o.x.vd
        (e, vstoreElems t cs base eb (act.map fun i => (i, vget wd v i))
          (logDenied t true o.word (touched cs base eb act) w))
  | 0x29 =>
    let (rms, w) := cvtRoundings t (cvtOf o.word).rm l w
    (vexec e o l rms, w)
  | _ => (vexec e o l (fun _ => .rne), w)

/-- A legal chain runs (R206 to R209): every translation first, the members in order on the links, and the VCHAIN and
its members retire together. -/
def chainRun (t : Tid) (os : List VOp) (l wide : Nat) : Mach → Mach := fun w =>
  let w := if os.any (fun o => o.major == 0x25) then drainStores t w else w
  let w := os.foldl (fun w o =>
    if o.major = 0x25 then threadWalks t (vbase o (thr w t)) (l * (etBits o.x.et / 8)) w else w) w
  match chainAbsent w t l os with
  | some (a, st) => raise t (absentData akVector st a) w
  | none =>
    let th := thr w t
    let n := os.length
    let np := passes l wide
    let read := chainReads w t l os
    let ms := (missing w t.vp.toNat read).eraseDups
    let st := chainPieces true w t l os
    let (k, w) := drawFree w
    let (e, w) := os.foldl (chainMember t l k st) ({ th := th, link := getV th 0, draw := if th.det then 0 else k, chain := true }, w)
    let w := tookOpen read w
    let act := (laneOn th l).length
    let w := setThr t (vfinish e) w
    let w := vcount t e.evs w
    let w := countVector t act np w
    -- the VCHAIN and all members but the last retire first (R208); the loop test of the VCHAIN's own address may go back
    -- (R149; log 106)
    let fin (w : Mach) : Mach :=
      let steps := if th.priv then 0 else n
      let (th1, back) := loopBack (pcOf (thr w t)) 1 (thr w t)
      let w := setThr t (setPc (pcOf th1 + BitVec.ofNat 48 (4 * n)) (iterate n (fun _ th => stepOne th) th1)) w
      let w := if steps = 0 then w else countThread t 0x01 steps w
      retire t { cost := 8 + chainCost os np, target := back, energy := some (15 + vecEnergy np n) } w
    readCheck t read (missSectors t ms fin w)

/-- VCHAIN (R207 to R210): an illegal chain retires as a no-op and its members run singly. -/
def execVchain (t : Tid) (n : BitVec 5) (members : List (BitVec 32)) (s : State) :
    Host.Outcome State Fault Refusal :=
  issue t (fun w =>
    let th := thr w t
    let os := members.map vopOfWord
    let wide := os.foldl (fun m o => max m (vwide o)) 8
    let l := vlenFor th wide
    let pc := pcOf th
    if chainLegal th pc n.toNat os l then chainRun t os l wide w
    else done t 1 (violThread t vcChainIllegal false pc.toNat ((0x30 : BitVec 6) ++ n ++ (0 : BitVec 21)) w)) s

/-! ### One definition for each instruction -/

/-- VFADD (R211). -/
def execVfadd (t : Tid) (x : VF) (bf : Bool) (s : State) : Host.Outcome State Fault Refusal :=
  issue t (vsingle t (vop 0x26 (if bf then 0x10 else 0x0) x)) s

/-- VFSUB (R211). -/
def execVfsub (t : Tid) (x : VF) (bf : Bool) (s : State) : Host.Outcome State Fault Refusal :=
  issue t (vsingle t (vop 0x26 (if bf then 0x11 else 0x1) x)) s

/-- VFMUL (R211). -/
def execVfmul (t : Tid) (x : VF) (bf : Bool) (s : State) : Host.Outcome State Fault Refusal :=
  issue t (vsingle t (vop 0x26 (if bf then 0x12 else 0x2) x)) s

/-- VFMA (R211). -/
def execVfma (t : Tid) (x : VF) (bf : Bool) (s : State) : Host.Outcome State Fault Refusal :=
  issue t (vsingle t (vop 0x26 (if bf then 0x13 else 0x3) x)) s

/-- VFMS (R211). -/
def execVfms (t : Tid) (x : VF) (bf : Bool) (s : State) : Host.Outcome State Fault Refusal :=
  issue t (vsingle t (vop 0x26 (if bf then 0x14 else 0x4) x)) s

/-- VFNMA (R211). -/
def execVfnma (t : Tid) (x : VF) (bf : Bool) (s : State) : Host.Outcome State Fault Refusal :=
  issue t (vsingle t (vop 0x26 (if bf then 0x15 else 0x5) x)) s

/-- VFNMS (R211). -/
def execVfnms (t : Tid) (x : VF) (bf : Bool) (s : State) : Host.Outcome State Fault Refusal :=
  issue t (vsingle t (vop 0x26 (if bf then 0x16 else 0x6) x)) s

/-- VADD (R212). -/
def execVadd (t : Tid) (x : VF) (s : State) : Host.Outcome State Fault Refusal :=
  issue t (vsingle t (vop 0x27 0x0 x)) s

/-- VSUB (R212). -/
def execVsub (t : Tid) (x : VF) (s : State) : Host.Outcome State Fault Refusal :=
  issue t (vsingle t (vop 0x27 0x1 x)) s

/-- VAND (R212). -/
def execVand (t : Tid) (x : VF) (s : State) : Host.Outcome State Fault Refusal :=
  issue t (vsingle t (vop 0x27 0x2 x)) s

/-- VOR (R212). -/
def execVor (t : Tid) (x : VF) (s : State) : Host.Outcome State Fault Refusal :=
  issue t (vsingle t (vop 0x27 0x3 x)) s

/-- VXOR (R212). -/
def execVxor (t : Tid) (x : VF) (s : State) : Host.Outcome State Fault Refusal :=
  issue t (vsingle t (vop 0x27 0x4 x)) s

/-- VSHL (R212). -/
def execVshl (t : Tid) (x : VF) (s : State) : Host.Outcome State Fault Refusal :=
  issue t (vsingle t (vop 0x27 0x5 x)) s

/-- VSHR (R212). -/
def execVshr (t : Tid) (x : VF) (s : State) : Host.Outcome State Fault Refusal :=
  issue t (vsingle t (vop 0x27 0x6 x)) s

/-- VSAR (R212). -/
def execVsar (t : Tid) (x : VF) (s : State) : Host.Outcome State Fault Refusal :=
  issue t (vsingle t (vop 0x27 0x7 x)) s

/-- VMUL (R212). -/
def execVmul (t : Tid) (x : VF) (s : State) : Host.Outcome State Fault Refusal :=
  issue t (vsingle t (vop 0x27 0x8 x)) s

/-- VMULH (R212). -/
def execVmulh (t : Tid) (x : VF) (s : State) : Host.Outcome State Fault Refusal :=
  issue t (vsingle t (vop 0x27 0x9 x)) s

/-- VDIV (R212). -/
def execVdiv (t : Tid) (x : VF) (s : State) : Host.Outcome State Fault Refusal :=
  issue t (vsingle t (vop 0x27 0xa x)) s

/-- VDIVU (R212). -/
def execVdivu (t : Tid) (x : VF) (s : State) : Host.Outcome State Fault Refusal :=
  issue t (vsingle t (vop 0x27 0xb x)) s

/-- VBCAST (R212). -/
def execVbcast (t : Tid) (x : VF) (s : State) : Host.Outcome State Fault Refusal :=
  issue t (vsingle t (vop 0x27 0xc x)) s

/-- VSADD (R213). -/
def execVsadd (t : Tid) (x : VF) (s : State) : Host.Outcome State Fault Refusal :=
  issue t (vsingle t (vop 0x28 0x0 x)) s

/-- VSADDU (R213). -/
def execVsaddu (t : Tid) (x : VF) (s : State) : Host.Outcome State Fault Refusal :=
  issue t (vsingle t (vop 0x28 0x1 x)) s

/-- VSSUB (R213). -/
def execVssub (t : Tid) (x : VF) (s : State) : Host.Outcome State Fault Refusal :=
  issue t (vsingle t (vop 0x28 0x2 x)) s

/-- VSSUBU (R213). -/
def execVssubu (t : Tid) (x : VF) (s : State) : Host.Outcome State Fault Refusal :=
  issue t (vsingle t (vop 0x28 0x3 x)) s

/-- VSDMULH_RHU (R213). -/
def execVsdmulhRhu (t : Tid) (x : VF) (s : State) : Host.Outcome State Fault Refusal :=
  issue t (vsingle t (vop 0x28 0x4 x)) s

/-- VSDMULH_RNE (R213). -/
def execVsdmulhRne (t : Tid) (x : VF) (s : State) : Host.Outcome State Fault Refusal :=
  issue t (vsingle t (vop 0x28 0x5 x)) s

/-- VRSHR (R213). -/
def execVrshr (t : Tid) (x : VF) (s : State) : Host.Outcome State Fault Refusal :=
  issue t (vsingle t (vop 0x28 0x6 x)) s

/-- VNARROWS (R213). -/
def execVnarrows (t : Tid) (x : VF) (s : State) : Host.Outcome State Fault Refusal :=
  issue t (vsingle t (vop 0x28 0x7 x)) s

/-- VNARROWU (R213). -/
def execVnarrowu (t : Tid) (x : VF) (s : State) : Host.Outcome State Fault Refusal :=
  issue t (vsingle t (vop 0x28 0x8 x)) s

/-- VCMP (R215). -/
def execVcmp (t : Tid) (x : VF) (cc : BitVec 3) (s : State) : Host.Outcome State Fault Refusal :=
  issue t (vsingle t (vop 0x2a (0x0 + cc.toNat) x)) s

/-- VCMPU (R215). -/
def execVcmpu (t : Tid) (x : VF) (cc : BitVec 3) (s : State) : Host.Outcome State Fault Refusal :=
  issue t (vsingle t (vop 0x2a (0x8 + cc.toNat) x)) s

/-- VFCMP (R215). -/
def execVfcmp (t : Tid) (x : VF) (cc : BitVec 3) (s : State) : Host.Outcome State Fault Refusal :=
  issue t (vsingle t (vop 0x2a (0x10 + cc.toNat) x)) s

/-- VSEL (R198). -/
def execVsel (t : Tid) (x : VF) (s : State) : Host.Outcome State Fault Refusal :=
  issue t (vsingle t (vop 0x2a 0x18 x)) s

/-- VMIN (R215). -/
def execVmin (t : Tid) (x : VF) (s : State) : Host.Outcome State Fault Refusal :=
  issue t (vsingle t (vop 0x2a 0x19 x)) s

/-- VMAX (R215). -/
def execVmax (t : Tid) (x : VF) (s : State) : Host.Outcome State Fault Refusal :=
  issue t (vsingle t (vop 0x2a 0x1a x)) s

/-- VMINU (R215). -/
def execVminu (t : Tid) (x : VF) (s : State) : Host.Outcome State Fault Refusal :=
  issue t (vsingle t (vop 0x2a 0x1b x)) s

/-- VMAXU (R215). -/
def execVmaxu (t : Tid) (x : VF) (s : State) : Host.Outcome State Fault Refusal :=
  issue t (vsingle t (vop 0x2a 0x1c x)) s

/-- VFMIN (R215). -/
def execVfmin (t : Tid) (x : VF) (s : State) : Host.Outcome State Fault Refusal :=
  issue t (vsingle t (vop 0x2a 0x1d x)) s

/-- VFMAX (R215). -/
def execVfmax (t : Tid) (x : VF) (s : State) : Host.Outcome State Fault Refusal :=
  issue t (vsingle t (vop 0x2a 0x1e x)) s

/-- VEXP2 (R216, R217). -/
def execVexp2 (t : Tid) (x : VF) (s : State) : Host.Outcome State Fault Refusal :=
  issue t (vsingle t (vop 0x2b 0x0 x)) s

/-- VLOG2 (R216, R217). -/
def execVlog2 (t : Tid) (x : VF) (s : State) : Host.Outcome State Fault Refusal :=
  issue t (vsingle t (vop 0x2b 0x1 x)) s

/-- VRCP (R216, R217). -/
def execVrcp (t : Tid) (x : VF) (s : State) : Host.Outcome State Fault Refusal :=
  issue t (vsingle t (vop 0x2b 0x2 x)) s

/-- VRSQRT (R216, R217). -/
def execVrsqrt (t : Tid) (x : VF) (s : State) : Host.Outcome State Fault Refusal :=
  issue t (vsingle t (vop 0x2b 0x3 x)) s

/-- VTANH (R216, R217). -/
def execVtanh (t : Tid) (x : VF) (s : State) : Host.Outcome State Fault Refusal :=
  issue t (vsingle t (vop 0x2b 0x4 x)) s

/-- VREDSUM (R218). -/
def execVredsum (t : Tid) (x : VF) (s : State) : Host.Outcome State Fault Refusal :=
  issue t (vsingle t (vop 0x2c 0x0 x)) s

/-- VFREDSUM (R218). -/
def execVfredsum (t : Tid) (x : VF) (s : State) : Host.Outcome State Fault Refusal :=
  issue t (vsingle t (vop 0x2c 0x1 x)) s

/-- VREDMIN (R218). -/
def execVredmin (t : Tid) (x : VF) (s : State) : Host.Outcome State Fault Refusal :=
  issue t (vsingle t (vop 0x2c 0x2 x)) s

/-- VREDMAX (R218). -/
def execVredmax (t : Tid) (x : VF) (s : State) : Host.Outcome State Fault Refusal :=
  issue t (vsingle t (vop 0x2c 0x3 x)) s

/-- VFREDMIN (R218). -/
def execVfredmin (t : Tid) (x : VF) (s : State) : Host.Outcome State Fault Refusal :=
  issue t (vsingle t (vop 0x2c 0x4 x)) s

/-- VFREDMAX (R218). -/
def execVfredmax (t : Tid) (x : VF) (s : State) : Host.Outcome State Fault Refusal :=
  issue t (vsingle t (vop 0x2c 0x5 x)) s

/-- VREDAND (R218). -/
def execVredand (t : Tid) (x : VF) (s : State) : Host.Outcome State Fault Refusal :=
  issue t (vsingle t (vop 0x2c 0x6 x)) s

/-- VREDOR (R218). -/
def execVredor (t : Tid) (x : VF) (s : State) : Host.Outcome State Fault Refusal :=
  issue t (vsingle t (vop 0x2c 0x7 x)) s

/-- VSLIDEUP (R220). -/
def execVslideup (t : Tid) (x : VF) (s : State) : Host.Outcome State Fault Refusal :=
  issue t (vsingle t (vop 0x2d 0x0 x)) s

/-- VSLIDEDN (R220). -/
def execVslidedn (t : Tid) (x : VF) (s : State) : Host.Outcome State Fault Refusal :=
  issue t (vsingle t (vop 0x2d 0x1 x)) s

/-- VCOMPRESS (R220). -/
def execVcompress (t : Tid) (x : VF) (s : State) : Host.Outcome State Fault Refusal :=
  issue t (vsingle t (vop 0x2d 0x2 x)) s

/-- VEXPAND (R220). -/
def execVexpand (t : Tid) (x : VF) (s : State) : Host.Outcome State Fault Refusal :=
  issue t (vsingle t (vop 0x2d 0x3 x)) s

/-- VMERGEC (R182). -/
def execVmergec (t : Tid) (x : VF) (s : State) : Host.Outcome State Fault Refusal :=
  issue t (mergeExec t (vop 0x2D 4 x) false) s

/-- VMERGEC_F (R182). -/
def execVmergecF (t : Tid) (x : VF) (s : State) : Host.Outcome State Fault Refusal :=
  issue t (mergeExec t (vop 0x2D 6 x) true) s

/-- VINTER (R183). -/
def execVinter (t : Tid) (x : VF) (s : State) : Host.Outcome State Fault Refusal :=
  issue t (interExec t (vop 0x2D 5 x) false) s

/-- VINTER_F (R183). -/
def execVinterF (t : Tid) (x : VF) (s : State) : Host.Outcome State Fault Refusal :=
  issue t (interExec t (vop 0x2D 7 x) true) s

/-- VLD (R199 to R201). -/
def execVld (t : Tid) (x : VF) (s : State) : Host.Outcome State Fault Refusal :=
  issue t (vload t (vop 0x25 0 x)) s

/-- VLDU (R199 to R201). -/
def execVldu (t : Tid) (x : VF) (s : State) : Host.Outcome State Fault Refusal :=
  issue t (vload t (vop 0x25 1 x)) s

/-- VST (R199 to R201). -/
def execVst (t : Tid) (x : VF) (s : State) : Host.Outcome State Fault Refusal :=
  issue t (vstore t (vop 0x25 2 x)) s

/-- VSTU (R199 to R201). -/
def execVstu (t : Tid) (x : VF) (s : State) : Host.Outcome State Fault Refusal :=
  issue t (vstore t (vop 0x25 3 x)) s

/-- VCVT (R214). -/
def execVcvt (t : Tid) (vd va : Reg) (src dst : BitVec 4) (pe : Bool) (p : BitVec 3) (rm : BitVec 2) (sat : Bool)
    (s : State) : Host.Outcome State Fault Refusal :=
  issue t (vsingle t ⟨0x29, 0, ⟨vd, va, 0, pe, p, 0⟩, wordVcvt vd va src dst pe p rm sat⟩) s

/-- PAND (R197). -/
def execPand (t : Tid) (x : VF) (s : State) : Host.Outcome State Fault Refusal :=
  issue t (predicate t (vop 0x2E 0 x)) s

/-- POR (R197). -/
def execPor (t : Tid) (x : VF) (s : State) : Host.Outcome State Fault Refusal :=
  issue t (predicate t (vop 0x2E 1 x)) s

/-- PXOR (R197). -/
def execPxor (t : Tid) (x : VF) (s : State) : Host.Outcome State Fault Refusal :=
  issue t (predicate t (vop 0x2E 2 x)) s

/-- PNOT (R197). -/
def execPnot (t : Tid) (x : VF) (s : State) : Host.Outcome State Fault Refusal :=
  issue t (predicate t (vop 0x2E 3 x)) s

/-- PCNT (R197): set bits below VLN, to a g register. -/
def execPcnt (t : Tid) (x : VF) (s : State) : Host.Outcome State Fault Refusal :=
  issue t (predicate t (vop 0x2E 4 x)) s

/-- PSET (R197): bits below VLN set, all others clear. -/
def execPset (t : Tid) (x : VF) (s : State) : Host.Outcome State Fault Refusal :=
  issue t (predicate t (vop 0x2E 5 x)) s

/-- PCLR (R197). -/
def execPclr (t : Tid) (x : VF) (s : State) : Host.Outcome State Fault Refusal :=
  issue t (predicate t (vop 0x2E 6 x)) s

end Sys2Proof.Machine
end

