-- ==== Sys2Proof/Machine/Custom.lean ====
section
/-! DEFINITION. Custom instructions (R184 to R188): an entry of the writable decode table runs its micro-operations in
order on a copy of the thread, and everything takes effect together. -/

namespace Sys2Proof.Machine
open Sys2Proof

/-- The decode table that a die's VPs use. -/
def decodeTab (w : Mach) (die : Nat) : DecodeTab := tread {} w.m.decTab die

/-- The X-form operands (R167). -/
structure XF where
  rd  : Reg
  ra  : Reg
  rb  : Reg
  imm : BitVec 5
  deriving DecidableEq, Repr

/-- A micro-operation's fields (R185). -/
structure Uop where
  major : Nat
  minor : Nat
  dst   : Nat
  srcA  : Nat
  srcB  : Nat
  srcC  : Nat
  mod   : Nat
  imm   : BitVec 16
  deriving DecidableEq, Repr

/-- The fields of a micro-operation's 64 bits. -/
def uopOf (n : Nat) : Uop :=
  ⟨bits n 56 8, bits n 48 8, bits n 42 6, bits n 36 6, bits n 30 6, bits n 24 6, bits n 16 8, BitVec.ofNat 16 n⟩

/-- The register number that a selector names, if it names a register (R185). -/
def selReg (x : XF) (s : Nat) : Option Reg :=
  if s < 0x20 then some (BitVec.ofNat 5 s)
  else if s = 0x20 then some x.rd else if s = 0x21 then some x.ra else if s = 0x22 then some x.rb else none

/-- What the micro-operations work on: the copy of the thread, the scratch registers, the stores so far, what happens
besides when the instruction completes, and the fault that discards it all. -/
structure CEnv where
  th     : Thread
  u      : Table W64 := []
  sb     : List StoreEntry := []
  misses : List Nat := []
  reads  : List Chunk := []
  evs    : List Watch := []
  post   : Mach → Mach := id
  fault  : Option Cause := none

/-- A scalar source: a g or f register, imm5, or a scratch register. -/
def cSrc (x : XF) (e : CEnv) (flt : Bool) (s : Nat) : W64 :=
  match selReg x s with
  | some r => if flt then getF e.th r else getG e.th r
  | none => if s = 0x23 then x.imm.setWidth 64 else tread 0 e.u (s - 0x24)

/-- A scalar destination. -/
def cDst (x : XF) (flt : Bool) (s : Nat) (v : W64) (e : CEnv) : CEnv :=
  match selReg x s with
  | some r => { e with th := if flt then putF r v e.th else putG r v e.th }
  | none => { e with u := twrite 0 e.u (s - 0x24) v }

/-- The register number that a vector or code field takes from a selector. -/
def cNum (x : XF) (s : Nat) : Reg := (selReg x s).getD (BitVec.ofNat 5 s)

/-- Add to what happens when the instruction completes. -/
def cPost (f : Mach → Mach) (e : CEnv) : CEnv := { e with post := f ∘ e.post }

/-- The address of a memory micro-operation: the width is IMM[15:13], the offset IMM[12:0]. -/
def cAddr (x : XF) (e : CEnv) (u : Uop) : Nat :=
  (cSrc x e false u.srcA + (u.imm.setWidth 13).signExtend 64).toNat

/-- A load micro-operation: the instruction's own stores are seen byte by byte (R188). Its width is read from IMM; an
accepted table has the same in MINOR (log 127). -/
def cLoad (t : Tid) (x : XF) (word : W32) (w : Mach) (u : Uop) (flt : Bool) (e : CEnv) : CEnv :=
  let wd := (u.imm >>> 13).toNat
  match (if flt then some (2 ^ wd, false) else loadShape wd) with
  | none => e
  | some (n, sg) =>
    let e := cPost (threadWalks t (cAddr x e u) n) e
    match scalarPieces w t .read (cAddr x e u) n with
    | .error a => { e with fault := some (absentData akCustom false a) }
    | .ok cs =>
      match windowOf cs with
      | some a =>
        let rd := if a < 0xFF8000000000 then winRead t word (a - 0xFF0000000000) n else keeperRead t word (a - 0xFF8000000000) n
        cPost (fun w => (rd w).2)
          (cDst x flt u.dst (if flt then BitVec.ofNat 64 (rd w).1 else extendLoad n sg (toBytes n (rd w).1)) e)
      | none =>
        let bs := loadPieces w { e.th with sbuf := e.th.sbuf ++ e.sb } cs
        let v := if flt then BitVec.ofNat 64 (ofBytes bs) else extendLoad n sg bs
        cPost (fun w => tookOpen cs (logDenied t false word cs w))
          (cDst x flt u.dst v { e with misses := e.misses ++ missing w t.vp.toNat cs, reads := e.reads ++ cs })

/-- A store micro-operation: the destination field names the register stored. -/
def cStore (t : Tid) (x : XF) (word : W32) (w : Mach) (u : Uop) (flt : Bool) (e : CEnv) : CEnv :=
  let n := 2 ^ (u.imm >>> 13).toNat
  let v := cSrc x e flt u.dst
  let bs := toBytes n v.toNat
  let e := cPost (threadWalks t (cAddr x e u) n) e
  match scalarPieces w t .write (cAddr x e u) n with
  | .error a => { e with fault := some (absentData akCustom true a) }
  | .ok cs =>
    match windowOf cs with
    | some a =>
      cPost (if a < 0xFF8000000000 then winWrite t word (a - 0xFF0000000000) n (ofBytes bs)
             else violThread t vcProtWrite true a word) e
    | none => cPost (logDenied t true word cs) { e with sb := e.sb ++ storeChunks cs bs }

/-- Majors 0x01 to 0x08: integer operations. -/
def cInt (x : XF) (u : Uop) (e : CEnv) : CEnv :=
  let a := cSrc x e false u.srcA
  let b := cSrc x e false u.srcB
  let sx : W64 := u.imm.signExtend 64
  let zx : W64 := u.imm.setWidth 64
  let put (v : W64) : CEnv := cDst x false u.dst v e
  match u.major with
  | 1 => match intOfMinor u.minor with | some op => put (intOp op a b) | none => e
  | 2 => put (intOp .add a sx)
  | 3 => put (intOp .and a zx)
  | 4 => put (intOp .or a zx)
  | 5 => put (intOp .xor a zx)
  | 6 => put (intOp .slt a sx)
  | 7 =>
    let n : W64 := (u.imm.setWidth 6).setWidth 64
    match bits u.imm.toNat 6 2 with
    | 0 => put (intOp .shl a n) | 1 => put (intOp .shr a n) | 2 => put (intOp .sar a n) | _ => e
  | _ => put ((u.imm ++ (0 : BitVec 16)).signExtend 64)

/-- The operation of major 0x1B with a minor code on f registers. -/
def fpOfMinor (n : Nat) : Option FpOp :=
  ([.add, .sub, .mul, .div, .sqrt, .min, .max, .neg, .abs, .sgn] : List FpOp)[n]?

/-- Majors 0x1B and 0x1C: scalar floating point; MOD holds bits [10:6] of the source form. Bit [5] of 0x1C's source form, its
precision, is bit 5 of MINOR (DESIGN CHOICE: R185 gives it no place; log 127). -/
def cFp (x : XF) (rm : Rm) (u : Uop) (e : CEnv) : CEnv :=
  if u.major = 0x1C then
    let dbl := bit u.minor 5
    let v (s : Nat) : Nat := scalarIn dbl (cSrc x e true s)
    let op : FmaOp := match u.minor % 32 with | 0 => .fma | 1 => .fms | 2 => .fnma | _ => .fnms
    cDst x true u.dst (BitVec.ofNat 64 (fmaOp op (scalarFmt dbl) (v u.srcA) (v u.srcB) (v u.srcC))) e
  else
    let dbl := bit u.mod 0
    let v (s : Nat) : Nat := scalarIn dbl (cSrc x e true s)
    let cmp (c : FpCmp) : CEnv := cDst x false u.dst (flag64 (fpCmp c (scalarFmt dbl) (v u.srcA) (v u.srcB))) e
    match fpOfMinor u.minor with
    | some op => cDst x true u.dst (BitVec.ofNat 64 (fpOp op (scalarFmt dbl) (v u.srcA) (v u.srcB))) e
    | none =>
      match u.minor with
      | 0xA => cmp .eq
      | 0xB => cmp .lt
      | 0xC => cmp .le
      | 0xD => cmp .un
      | 0xE =>
        let op := (cNum x u.srcB).toNat
        let r := fcvtValue op dbl rm (cSrc x e true u.srcA) (cSrc x e false u.srcA)
        cDst x (!(op == 1 || op == 3)) u.dst (BitVec.ofNat 64 r) e
      | 0xF => cDst x true u.dst (BitVec.ofNat 64 (scalarIn dbl (cSrc x e false u.srcA))) e
      | 0x10 => cDst x false u.dst (BitVec.ofNat 64 (scalarIn dbl (cSrc x e true u.srcA))) e
      | _ => e

/-- The V-form word of a vector micro-operation: MOD holds its bits [10:5]. -/
def uopWord (x : XF) (u : Uop) : W32 :=
  (BitVec.ofNat 6 u.major) ++ cNum x u.dst ++ cNum x u.srcA ++ cNum x u.srcB ++ BitVec.ofNat 6 u.mod
    ++ BitVec.ofNat 5 u.minor

/-- A vector micro-operation. -/
def cVec (x : XF) (u : Uop) (e : CEnv) : CEnv :=
  let o := vopOfWord (uopWord x u)
  if o.major = 0x2E then { e with th := predOp o e.th }
  else
    let l := vlenFor e.th (vwide o)
    let rm : Rm := if o.major = 0x29 && (cvtOf o.word).rm == 1 then .rtz else .rne
    let v := vexec { th := e.th } o l (fun _ => rm)
    { e with th := v.th, evs := e.evs ++ v.evs }

/-- The micro-operation is a vector one for cost and energy (R187). -/
def uopVector (u : Uop) : Bool := ([0x26, 0x27, 0x28, 0x29, 0x2A] : List Nat).contains u.major

/-- One micro-operation; after a fault nothing more happens. -/
def cStep (t : Tid) (x : XF) (word : W32) (w : Mach) (rm : Rm) (e : CEnv) (u : Uop) : CEnv :=
  if e.fault.isSome then e
  else if u.major ≤ 8 then cInt x u e
  else if u.major = 9 then cLoad t x word w u false e
  else if u.major = 0xA then cStore t x word w u false e
  else if u.major = 0xB then cLoad t x word w u true e
  else if u.major = 0xC then cStore t x word w u true e
  else if u.major = 0x1B ∨ u.major = 0x1C then cFp x rm u e
  else cVec x u e

/-- The micro-operations of an entry. -/
def entryUops (d : DecodeTab) (e : Nat) : List Uop :=
  (List.range (bits e 24 5 + 1)).map fun i => uopOf (tread 0 d.uops (bits e 32 10 + i))

/-- The turns of a scalar micro-operation's source instruction (R187). -/
def uopTurns (u : Uop) : Nat :=
  match u.major with
  | 1 => (intOfMinor u.minor).elim 1 intTurns
  | 0x1B => (fpOfMinor u.minor).elim 1 fpTurns
  | _ => 1

/-- The passes of an entry's vector micro-operations, from its etype (R187); an entry whose only ones are VCVT has none, and
takes its first one's width (log 113). -/
def entryPasses (th : Thread) (x : XF) (us : List Uop) : Nat :=
  match (us.find? fun u => uopVector u && u.major != 0x29) <|> us.find? uopVector with
  | some u =>
    let o := vopOfWord (uopWord x u)
    let wd := if o.major = 0x29 then vwide o else etBits o.x.et
    passes (vlenFor th wd) wd
  | none => 0

/-- The word of a custom instruction. -/
def customWord (entry : BitVec 6) (rd ra rb : Reg) (imm : BitVec 5) : W32 := wordX entry rd ra rb imm

/-- CUSTOM_INSTRUCTION (R184, R188): an entry that is not valid is an undefined word (R169); an absent translation
discards every result. -/
def execCustomInstruction (t : Tid) (entry : BitVec 6) (rd ra rb : Reg) (imm : BitVec 5) (s : State) :
    Host.Outcome State Fault Refusal :=
  let word := customWord entry rd ra rb imm
  issue t (fun w =>
    let d := decodeTab w (dieOfVp t.vp.toNat)
    let ent := tread 0 d.entries entry.toNat
    if !bit ent 29 then undefinedWord t word w
    else
      let th := thr w t
      let x : XF := ⟨rd, ra, rb, imm⟩
      let us := entryUops d ent
      let rmOf (u : Uop) : Rm :=
        match bits u.mod 1 2 with
        | 1 => .rtz
        | 2 => .sr (drawSr th.seed th.step.toNat 0 127)
        | _ => .rne
      let e := us.foldl (fun e u => cStep t x word w (rmOf u) e u) { th := th }
      match e.fault with
      | some c => raise t c w
      | none =>
        let np := entryPasses th x us
        let cost := bits ent 0 16 + bits ent 16 8 * np
        let energy := us.foldl (fun n u => n + (if uopVector u then vecEnergy np 1 else 15 * uopTurns u)) 0
        let w := vcount t e.evs (e.post (setThr t e.th w))
        readCheck t e.reads
          (missSectors t e.misses (bufferStore t e.sb (retire t { cost := cost, energy := some energy })) w)) s

end Sys2Proof.Machine
end

