-- ==== Sys2Proof/Machine/Control.lean ====
section
/-! DEFINITION. Control flow (R148 to R150, R173, R178 to R180): branches, calls, hardware loops, register frames. -/

namespace Sys2Proof.Machine
open Sys2Proof

/-- A taken control transfer retires; to address 0 it ends the invocation that makes it (R343). -/
def transfer (t : Tid) (turns words : Nat) (a : Addr) : Mach → Mach := fun w =>
  let th := thr w t
  let w := jump t turns words a w
  match th.binding, th.priv with
  | .inv _ _, false => if (a >>> 2) <<< 2 = 0 then endInvocation t ((getG th 1).toNat % 2 ^ 32) w else w
  | _, _ => w

/-- A conditional branch: taken, or on to the next instruction. -/
def branchIf (t : Tid) (taken : Bool) (off : BitVec 16) : Mach → Mach := fun w =>
  if taken then transfer t 1 1 (targetB (pcOf (thr w t)) off) w else done t 1 w

/-- The comparison of a conditional branch (R173). -/
inductive Cond where
  | eq | ne | lt | ge | ltu | geu
  deriving DecidableEq, Repr

/-- Whether a comparison holds. -/
def condHolds (c : Cond) (a b : W64) : Bool :=
  match c with
  | .eq => a == b
  | .ne => a != b
  | .lt => a.slt b
  | .ge => !a.slt b
  | .ltu => a.ult b
  | .geu => !a.ult b

/-- A conditional branch on two registers. -/
def branchOn (t : Tid) (c : Cond) (ra rb : Reg) (off : BitVec 16) : Mach → Mach := fun w =>
  let th := thr w t
  branchIf t (condHolds c (getG th ra) (getG th rb)) off w

/-- BEQ (R173). -/
def execBeq (t : Tid) (ra rb : Reg) (off : BitVec 16) (s : State) : Host.Outcome State Fault Refusal :=
  issue t (branchOn t .eq ra rb off) s

/-- BNE (R173). -/
def execBne (t : Tid) (ra rb : Reg) (off : BitVec 16) (s : State) : Host.Outcome State Fault Refusal :=
  issue t (branchOn t .ne ra rb off) s

/-- BLT (R173). -/
def execBlt (t : Tid) (ra rb : Reg) (off : BitVec 16) (s : State) : Host.Outcome State Fault Refusal :=
  issue t (branchOn t .lt ra rb off) s

/-- BGE (R173). -/
def execBge (t : Tid) (ra rb : Reg) (off : BitVec 16) (s : State) : Host.Outcome State Fault Refusal :=
  issue t (branchOn t .ge ra rb off) s

/-- BLTU (R173). -/
def execBltu (t : Tid) (ra rb : Reg) (off : BitVec 16) (s : State) : Host.Outcome State Fault Refusal :=
  issue t (branchOn t .ltu ra rb off) s

/-- BGEU (R173). -/
def execBgeu (t : Tid) (ra rb : Reg) (off : BitVec 16) (s : State) : Host.Outcome State Fault Refusal :=
  issue t (branchOn t .geu ra rb off) s

/-- B (R173). -/
def execB (t : Tid) (off : BitVec 26) (s : State) : Host.Outcome State Fault Refusal :=
  issue t (fun w => transfer t 1 1 (targetJ (pcOf (thr w t)) off) w) s

/-- CALL (R173): g30 receives the address of the next word. -/
def execCall (t : Tid) (off : BitVec 26) (s : State) : Host.Outcome State Fault Refusal :=
  issue t (fun w =>
    let pc := pcOf (thr w t)
    transfer t 1 1 (targetJ pc off) (setG t 30 ((pc + 4).setWidth 64) w)) s

/-- BR (R173). -/
def execBr (t : Tid) (ra : Reg) (s : State) : Host.Outcome State Fault Refusal :=
  issue t (fun w => transfer t 1 1 ((getG (thr w t) ra).setWidth 48) w) s

/-- CALLR (R173): g30 is set after ra is read. -/
def execCallr (t : Tid) (ra : Reg) (s : State) : Host.Outcome State Fault Refusal :=
  issue t (fun w =>
    let th := thr w t
    transfer t 1 1 ((getG th ra).setWidth 48) (setG t 30 ((pcOf th + 4).setWidth 64) w)) s

/-- RET (R173): BR g30. -/
def execRet (t : Tid) (s : State) : Host.Outcome State Fault Refusal :=
  issue t (fun w => transfer t 1 1 ((getG (thr w t) 30).setWidth 48) w) s

/-- JL (R173): the long branch. -/
def execJl (t : Tid) (target : BitVec 48) (s : State) : Host.Outcome State Fault Refusal :=
  issue t (transfer t 1 2 target) s

/-- CALLL (R173): g30 receives the address after both words. -/
def execCalll (t : Tid) (target : BitVec 48) (s : State) : Host.Outcome State Fault Refusal :=
  issue t (fun w => transfer t 1 2 target (setG t 30 ((pcOf (thr w t) + 8).setWidth 64) w)) s

/-- LOOP (R148): arms a level as part of its own turn; a count of 0 skips the body, without a loop test of the
other level (log 99). -/
def execLoop (t : Tid) (gs : Reg) (level : Bool) (imm : BitVec 12) (s : State) : Host.Outcome State Fault Refusal :=
  issue t (fun w =>
    let th := thr w t
    let ls := pcOf th + 4
    let le := ls + imm.setWidth 48 * 4
    let n := getG th gs
    -- what CRW had left waiting for these registers is overwritten (R152)
    let th := if level then
        { th with ls1 := ls, le1 := le, lc1 := n, pend := tdel (tdel (tdel th.pend 0x11) 0x14) 0x15 }
      else { th with ls0 := ls, le0 := le, lc0 := n, pend := tdel (tdel (tdel th.pend 0x10) 0x12) 0x13 }
    let w := setThr t th w
    if n = 0 then retire t { cost := 8, target := some (le + 4) } w else done t 1 w) s

/-! ### CALLM and RETM (R178 to R180) -/

/-- The registers that a mask selects, in frame order: g8 to g23, then f8 to f15; `true` marks an f register. -/
def maskRegs (mask : BitVec 24) : List (Bool × Reg) :=
  ((List.range 16).filterMap fun i => if mask.getLsbD i then some (false, BitVec.ofNat 5 (8 + i)) else none) ++
  ((List.range 8).filterMap fun i => if mask.getLsbD (16 + i) then some (true, BitVec.ofNat 5 (8 + i)) else none)

/-- The frame size: 8 bytes for the return address and for each register, rounded up to 16. -/
def frameSize (c : Nat) : Nat := ceilDiv (8 * (1 + c)) 16 * 16

/-- CALLM (R178, R180): the frame is translated as a whole before any byte of it is written. -/
def execCallm (t : Tid) (imm : BitVec 48) (s : State) : Host.Outcome State Fault Refusal :=
  issue t (fun w =>
    let w := drainStores t w
    let th := thr w t
    let mask : BitVec 24 := (imm >>> 24).setWidth 24
    let off : BitVec 24 := imm.setWidth 24
    let rs := maskRegs mask
    let f := frameSize rs.length
    let pc := pcOf th
    let sp := ((getG th 31 >>> 4) <<< 4) - BitVec.ofNat 64 f
    let ret : W64 := (pc + 8).setWidth 64
    let word := wordL 0 3 imm
    let w := threadWalks t sp.toNat f w
    match threadPieces w t .write sp.toNat f with
    | .error a => raise t (absentData akFrame true a) w
    | .ok cs =>
      let vals := ret :: rs.map fun (fl, r) => if fl then getF th r else getG th r
      let bs := vals.flatMap fun v => toBytes 8 v.toNat
      let w := threadStorePieces (some t.vp.toNat) cs bs (logDenied t true word cs w)
      let w := dirtyBytes t (pieceBytes cs) w
      let w := setG t 30 ret (setG t 31 sp w)
      transfer t (1 + ceilDiv rs.length 4) 2 (pc + off.signExtend 48 * 4) w) s

/-- RETM (R179, R180): restores by its own mask, pops the frame and returns. -/
def execRetm (t : Tid) (mask : BitVec 24) (s : State) : Host.Outcome State Fault Refusal :=
  issue t (fun w =>
    let w := drainStores t w
    let th := thr w t
    let rs := maskRegs mask
    let f := frameSize rs.length
    let sp := getG th 31
    let word : W32 := (0x1D : BitVec 6) ++ (0 : BitVec 2) ++ mask
    let w := threadWalks t sp.toNat f w
    match threadPieces w t .read sp.toNat f with
    | .error a => raise t (absentData akFrame false a) w
    | .ok cs =>
      let bs := seenPieces w cs
      let ms := missing w t.vp.toNat cs
      let dw (i : Nat) : W64 := BitVec.ofNat 64 (ofBytes ((bs.drop (8 * i)).take 8))
      let w := tookOpen cs (logDenied t false word cs w)
      let (w, _) := rs.foldl (fun (wi : Mach × Nat) (fr : Bool × Reg) =>
        (if fr.1 then updThr t (putF fr.2 (dw wi.2)) wi.1 else setG t fr.2 (dw wi.2) wi.1, wi.2 + 1)) (w, 1)
      let w := setG t 31 (sp + BitVec.ofNat 64 f) w
      -- an uncorrectable frame aborts the invocation that this return would end (R346, R405)
      let bad := (badPiece w cs).isSome && (match (thr w t).binding with | .inv _ _ => true | _ => false)
      if bad then readCheck t cs w
      else readCheck t cs (missSectors t ms (transfer t (1 + ceilDiv rs.length 4) 1 ((dw 0).setWidth 48)) w)) s

end Sys2Proof.Machine
end

