-- ==== Sys2Proof/Machine/System.lean ====
section
/-! DEFINITION. Control registers (R151 to R153, R171, R255, R263, R274), CSYNC and signals (R270). -/

namespace Sys2Proof.Machine
open Sys2Proof

/-! ### What a control register is -/

/-- The level of a control register: `some true` for supervisor, `none` for an unassigned number (R151, R171, R274). -/
def crLevel (n : Nat) : Option Bool :=
  if ([0x000, 0x002, 0x003, 0x010, 0x011, 0x012, 0x013, 0x014, 0x015, 0x031, 0x040, 0x041, 0x100, 0x101, 0x161,
       0x170, 0x171, 0x172, 0x173, 0x174, 0x175] : List Nat).contains n then some false
  else if ([0x001, 0x020, 0x021, 0x030, 0x032, 0x102, 0x103, 0x160] : List Nat).contains n then some true
  else if (0x110 ≤ n ∧ n ≤ 0x124) ∨ (0x130 ≤ n ∧ n ≤ 0x15F) then some true
  else none

/-- The registers whose writes wait for CSYNC (R152, R274). -/
def crWaits (n : Nat) : Bool :=
  ([0x010, 0x011, 0x012, 0x013, 0x014, 0x015, 0x020, 0x021, 0x030, 0x11C, 0x11E, 0x11F] : List Nat).contains n

/-- TSR (R255): IE reads 0 in WINDOW mode (R260). -/
def tsrOf (v : Vp) (th : Thread) : W64 :=
  BitVec.ofNat 64 (th.wleft.toNat <<< 32 + th.rlvl.toNat <<< 24 + b2n th.gm <<< 2 + b2n (th.ie && !v.imode) <<< 1
    + b2n th.priv)

/-- The bits that ESTAT holds (R255). -/
def estatMask : W64 := 0x00000FFF1FFF3F0F

/-- The newest frame, or zeros (R255). -/
def topFrame (th : Thread) : Frame := th.bank.headD {}

/-- Change the newest frame, if there is one (R255). -/
def updFrame (f : Frame → Frame) (th : Thread) : Thread :=
  match th.bank with
  | [] => th
  | x :: r => { th with bank := f x :: r }

/-- GSTAT (R236). -/
def gstatOf (th : Thread) : W64 :=
  BitVec.ofNat 64 (b2n th.family <<< 31 + b2n th.barinc <<< 30 + b2n th.ovf <<< 29 + th.groups.length <<< 16
    + th.missing.toNat)

/-- TSTAT (R128). -/
def tstatOf (w : Mach) (vp : Nat) : W64 :=
  let pend := (List.range 8).foldl (fun n i => n + b2n (tileBusy w vp i) <<< i) 0
  BitVec.ofNat 64 (pend <<< 8 + (vpOf w vp).full.toNat)


/-! ### Pending interrupts (R274) -/

/-- IPEND (R274). -/
def ipendOf (w : Mach) (t : Tid) : W64 :=
  let th := thr w t
  let lines := (List.range 48).foldl (fun n i => n + b2n (linePending w t i) <<< i) 0
  BitVec.ofNat 64 (lines + b2n th.timer0 <<< 48 + b2n th.timer1 <<< 49 + b2n (ackOut th.sig != 0) <<< 50
    + b2n (alertPending w t) <<< 51)

/-! ### The group table through GTIDX and GTDATA (R224, R263) -/

/-- A group's doublewords: lane mask 0 to 15, program counter 16, tick of the creation stamp 17, the wait 18 to 35, the
stamp's source and sequence 36, a lock's register or what follows a barrier 37, the scalar file 46 to 77 and 79 for LIVE;
the layout within the 640 bytes is the model's (log 14). -/
def waitKind : GroupWait → Nat
  | .ready => 0 | .join _ => 1 | .holder _ _ => 2 | .lock _ _ => 3 | .barrier _ _ => 4 | .on _ => 5

/-- One doubleword of a slot. -/
def gtRead (th : Thread) (slot dw : Nat) : W64 :=
  match tget th.groups slot with
  | none => 0
  | some g =>
    if dw < 16 then ((g.mask >>> (64 * dw)).setWidth 64)
    else if dw = 16 then g.pc.setWidth 64
    else if dw = 17 then BitVec.ofNat 64 g.stamp.tick
    else if dw = 18 then BitVec.ofNat 64 (waitKind g.wait)
    else if dw = 19 then
      match g.wait with
      | .holder l a => BitVec.ofNat 64 (l <<< 48 + a)
      | .lock _ a => BitVec.ofNat 64 a
      | .barrier i _ => i.setWidth 64
      | _ => 0
    else if 20 ≤ dw ∧ dw < 36 then
      match g.wait with
      | .join p => ((p >>> (64 * (dw - 20))).setWidth 64)
      | _ => 0
    else if dw = 36 then BitVec.ofNat 64 (g.stamp.unit <<< 32 + g.stamp.seq)
    else if dw = 37 then
      match g.wait with
      | .lock ra _ => ra.setWidth 64
      | .barrier _ next => next.setWidth 64
      | _ => 0
    else if 46 ≤ dw ∧ dw < 78 then tread 0 g.g (dw - 46)
    else if dw = 79 then 1
    else 0

/-- Replace bits [64 k + 63:64 k] of a lane mask. -/
def putLaneWord (k : Nat) (v : W64) (m : Lanes) : Lanes :=
  (m &&& ~~~ ((BitVec.allOnes 64).setWidth 1024 <<< (64 * k))) ||| (v.setWidth 1024 <<< (64 * k))

/-- The table's groups change: the live lanes are those of its groups, and a family is live while it holds any (R223,
R224). -/
def withGroups (gs : Table Group) (th : Thread) : Thread :=
  { th with groups := gs, live := gs.foldl (fun m e => m ||| e.2.mask) 0, family := !gs.isEmpty }

/-- Write one doubleword of a slot: writing LIVE 0 frees it, and any other write makes it. -/
def gtWrite (slot dw : Nat) (v : W64) (th : Thread) : Thread :=
  let g := tread {} th.groups slot
  let put (g : Group) : Thread := withGroups (tput th.groups slot g) th
  if dw = 79 then (if v = 0 then withGroups (tdel th.groups slot) th else put g)
  else if dw < 16 then put { g with mask := putLaneWord dw v g.mask }
  else if dw = 16 then put { g with pc := v.setWidth 48 }
  else if dw = 17 then put { g with stamp := { g.stamp with tick := v.toNat } }
  else if dw = 18 then
    put { g with wait :=
      match v.toNat with
      | 1 => .join 0 | 2 => .holder 0 0 | 3 => .lock 0 0 | 4 => .barrier 0 0 | 5 => g.wait | _ => .ready }
  else if dw = 19 then
    put { g with wait :=
      match g.wait with
      | .holder _ _ => .holder (v.toNat >>> 48) (v.toNat % 2 ^ 48)
      | .lock ra _ => .lock ra v.toNat
      | .barrier _ next => .barrier (v.setWidth 16) next
      | x => x }
  else if 20 ≤ dw ∧ dw < 36 then
    put { g with wait := match g.wait with | .join p => .join (putLaneWord (dw - 20) v p) | x => x }
  else if dw = 36 then put { g with stamp := { g.stamp with unit := v.toNat / 2 ^ 32, seq := v.toNat % 2 ^ 32 } }
  else if dw = 37 then
    put { g with wait :=
      match g.wait with
      | .lock _ a => .lock (v.setWidth 5) a
      | .barrier i _ => .barrier i (v.setWidth 48)
      | x => x }
  else if 46 ≤ dw ∧ dw < 78 then put { g with g := twrite 0 g.g (dw - 46) v }
  else th

/-- GTDATA moves one doubleword and GTIDX's doubleword index advances (R263). -/
def gtAdvance (th : Thread) : Thread :=
  let slot := th.gtidx.toNat % 16
  let dw := (th.gtidx.toNat / 16 + 1) % 80
  { th with gtidx := BitVec.ofNat 11 (dw * 16 + slot) }

/-! ### Reading -/

/-- The value in force of a control register (R151, R171, R255, R274, R494). -/
def crValue (w : Mach) (t : Tid) (n : Nat) : W64 :=
  let th := thr w t
  let v := vpOf w t.vp.toNat
  let f := topFrame th
  if n = 0x000 then BitVec.ofNat 64 (if th.det && !th.priv then th.intake else w.m.tick)
  else if n = 0x001 then th.seed
  else if n = 0x002 then th.cvtSlot.setWidth 64
  else if n = 0x003 then th.tstart.setWidth 64
  else if n = 0x010 then th.lc0
  else if n = 0x011 then th.lc1
  else if n = 0x012 then th.ls0.setWidth 64
  else if n = 0x013 then th.le0.setWidth 64
  else if n = 0x014 then th.ls1.setWidth 64
  else if n = 0x015 then th.le1.setWidth 64
  else if n = 0x020 then th.xlbase
  else if n = 0x021 then th.asid.setWidth 64
  else if n = 0x030 then v.vecbaseW
  else if n = 0x031 then v.tmap.setWidth 64
  else if n = 0x032 then tstatOf w t.vp.toNat
  else if n = 0x040 then th.vln.setWidth 64
  else if n = 0x041 then (pcOf th).setWidth 64
  else if n = 0x100 then gstatOf th
  else if n = 0x101 then th.gblim.setWidth 64
  else if n = 0x102 then th.gtidx.setWidth 64
  else if n = 0x103 then gtRead th (th.gtidx.toNat % 16) (th.gtidx.toNat / 16)
  else if n = 0x110 then tsrOf v th
  else if n = 0x111 then f.pc.setWidth 64
  else if n = 0x112 then f.estat
  else if 0x113 ≤ n ∧ n ≤ 0x119 then tread 0 f.g (n - 0x112)
  else if n = 0x11A then th.eaddr
  else if n = 0x11B then BitVec.ofNat 64 (th.bank.length + th.spilled.toNat <<< 16)
  else if n = 0x11C then th.fsp
  else if n = 0x11D then th.ssp
  else if n = 0x11E then v.gatebaseW
  else if n = 0x11F then BitVec.ofNat 64 (b2n v.imodeW)
  else if n = 0x120 then th.tmcmp0
  else if n = 0x121 then th.tmcmp1
  else if n = 0x123 then (ackOut th.sig).setWidth 64
  else if n = 0x124 then ipendOf w t
  else if 0x130 ≤ n ∧ n ≤ 0x15F then (ackOut (tread {} v.xcnt (n - 0x130))).setWidth 64
  else if n = 0x160 then BitVec.ofNat 64 (b2n th.rngsel)
  else if n = 0x161 then th.pltid.setWidth 64
  else if n = 0x170 then th.ucsel.setWidth 64
  else if 0x171 ≤ n ∧ n ≤ 0x174 then tread 0 th.ucnt (n - 0x171)
  else if n = 0x175 then th.lopid.setWidth 64
  else 0

/-- What CRR returns: the stored value of a register whose write waits for CSYNC (R152); a vector processor's is that of its
last writer. -/
def crRead (w : Mach) (t : Tid) (n : Nat) : W64 := (tget (thr w t).pend n).getD (crValue w t n)

/-- A read of GTDATA advances its index. -/
def crAfterRead (t : Tid) (n : Nat) (w : Mach) : Mach := if n = 0x103 then updThr t gtAdvance w else w

/-- CRR of a register by number: a refused read gives zero and is logged (R151, R171). -/
def controlRead (t : Tid) (rd : Reg) (n : Nat) : Mach → Mach := fun w =>
  let word := wordI 0x1A rd 0 (BitVec.ofNat 16 n)
  match crLevel n with
  | none => done t 1 (setG t rd 0 (violThread t vcRegUnassigned false n word w))
  | some sup =>
    if sup && !(thr w t).priv then done t 1 (setG t rd 0 (violThread t vcPrivReg false n word w))
    else done t 1 (setG t rd (crRead w t n) (crAfterRead t n w))

/-! ### Writing -/

/-- The stored form of a value that waits for CSYNC. -/
def crStored (n : Nat) (v : W64) : W64 :=
  if 0x012 ≤ n ∧ n ≤ 0x015 then (v.setWidth 48).setWidth 64
  else if n = 0x021 then (v.setWidth 16).setWidth 64
  else if n = 0x11F then v &&& 1
  else v

/-- A line counter or SIGCNT acknowledged (R10): 32 bits of the value (log 90), and a refused count is logged. -/
def crAck (t : Tid) (n : Nat) (v : W64) (word : W32) (c : AckCtr) (k : AckCtr → Mach → Mach) (w : Mach) : Mach :=
  match ackWrite c (v.setWidth 32) with
  | some c => k c w
  | none => violThread t vcAccessCode true n word w

/-- A signal is counted for its target (R270); the count reports an event it cannot hold (R10). -/
def signalTo (t : Tid) (v : W64) (word : W32) (w : Mach) : Mach :=
  let u : Tid := ⟨v.setWidth 5, (v >>> 5).setWidth 3⟩
  if unitState w (unitVp u.vp.toNat) ≠ .inService then violThread t vcSignalTarget true 0x122 word w
  else if ackFull (thr w u).sig then saturated 0x123 w
  else updThr u (fun th => { th with sig := ackEvent th.sig }) w

/-- One event on a line of a VP (R247). -/
def lineEvent (vp n : Nat) (w : Mach) : Mach :=
  let c := tread {} (vpOf w vp).xcnt n
  if ackFull c then saturated (0x130 + n) w
  else updVp vp (fun v => { v with xcnt := twrite {} v.xcnt n (ackEvent c) }) w

/-- The registers of a vector processor that wait for CSYNC (R151, R274): VECBASE, GATEBASE, IMODE. -/
def crOfVp (n : Nat) : Bool := n == 0x030 || n == 0x11E || n == 0x11F

/-- What the other threads of the vector processor wrote to a register of its waits no more (R152). -/
def dropPend (t : Tid) (n : Nat) (w : Mach) : Mach :=
  onM (fun m => { m with threads := m.threads.map fun (k, th) =>
    (k, if k / 8 = t.vp.toNat ∧ k ≠ tkey t then { th with pend := tdel th.pend n } else th) }) w

/-- Write a control register that the thread may write (R151, R255, R274): read-only registers ignore it (R8). -/
def crWrite (t : Tid) (n : Nat) (v : W64) (word : W32) (w : Mach) : Mach :=
  let th := thr w t
  let vp := t.vp.toNat
  let upd (f : Thread → Thread) : Mach := updThr t f w
  if n = 0x11F ∧ w.m.cfglock then violThread t vcAccessCode true n word w
  else if crWaits n then
    let v := crStored n v
    -- a vector processor's register holds the later value: an earlier writer's CSYNC no longer has one to make effective
    let w := if crOfVp n then dropPend t n w else w
    let w := updThr t (fun th => { th with pend := tput th.pend n v }) w
    if n = 0x030 then updVp vp (fun x => { x with vecbaseW := v }) w
    else if n = 0x11E then updVp vp (fun x => { x with gatebaseW := v }) w
    else if n = 0x11F then updVp vp (fun x => { x with imodeW := v != 0 }) w
    else w
  else if n = 0x001 then upd fun th => { th with seed := v }
  else if n = 0x002 then upd fun th => { th with cvtSlot := v.setWidth 12 }
  else if n = 0x003 then upd fun th => { th with tstart := v.setWidth 6 }
  else if n = 0x101 then upd fun th => { th with gblim := v.setWidth 32 }
  else if n = 0x102 then upd fun th => { th with gtidx := v.setWidth 11 }
  else if n = 0x103 then
    upd fun th => gtAdvance (gtWrite (th.gtidx.toNat % 16) (th.gtidx.toNat / 16) v th)
  else if n = 0x110 then (if (vpOf w vp).imode then w else upd fun th => { th with ie := v.getLsbD 1 })
  else if n = 0x111 then upd (updFrame fun f => { f with pc := v.setWidth 48 })
  else if n = 0x112 then upd (updFrame fun f => { f with estat := v &&& estatMask })
  else if 0x113 ≤ n ∧ n ≤ 0x119 then upd (updFrame fun f => { f with g := twrite 0 f.g (n - 0x112) v })
  else if n = 0x11D then upd fun th => { th with ssp := v }
  else if n = 0x120 then upd fun th => { th with tmcmp0 := v, timer0 := false }
  else if n = 0x121 then upd fun th => { th with tmcmp1 := v, timer1 := false }
  else if n = 0x122 then signalTo t v word w
  else if n = 0x123 then crAck t n v word th.sig (fun c => updThr t fun th => { th with sig := c }) w
  else if 0x130 ≤ n ∧ n ≤ 0x15F then
    crAck t n v word (tread {} (vpOf w vp).xcnt (n - 0x130))
      (fun c => updVp vp fun x => { x with xcnt := twrite {} x.xcnt (n - 0x130) c }) w
  else if n = 0x160 then upd fun th => { th with rngsel := v.getLsbD 0 }
  else if n = 0x170 then upd fun th => { th with ucsel := v.setWidth 32 }
  else if 0x171 ≤ n ∧ n ≤ 0x174 then upd fun th => { th with ucnt := twrite 0 th.ucnt (n - 0x171) v }
  else if n = 0x175 then upd fun th => { th with lopid := v.setWidth 32 }
  else w

/-- CRW of a register by number: a refused write is ignored and logged (R151, R171). -/
def controlWrite (t : Tid) (rd : Reg) (n : Nat) : Mach → Mach := fun w =>
  let word := wordI 0x1A rd 1 (BitVec.ofNat 16 n)
  match crLevel n with
  | none => done t 1 (violThread t vcRegUnassigned true n word w)
  | some sup =>
    if sup && !(thr w t).priv then done t 1 (violThread t vcPrivReg true n word w)
    else
      let w := crWrite t n (getG (thr w t) rd) word w
      -- a new step limit may leave a barrier with nobody to wait for (R235)
      done t 1 (if n = 0x101 then settleBarriers t w else w)

/-- CRR (R171). -/
def execCrr (t : Tid) (rd : Reg) (num : BitVec 16) (s : State) : Host.Outcome State Fault Refusal :=
  issue t (controlRead t rd num.toNat) s

/-- CRW (R171). -/
def execCrw (t : Tid) (rd : Reg) (num : BitVec 16) (s : State) : Host.Outcome State Fault Refusal :=
  issue t (controlWrite t rd num.toNat) s

/-- SIGSEND (R270): a CRW of SIGSEND. -/
def execSigsend (t : Tid) (rd : Reg) (s : State) : Host.Outcome State Fault Refusal :=
  issue t (controlWrite t rd 0x122) s

/-- GTDATA (R263): a CRR or CRW of GTDATA. -/
def execGtdata (t : Tid) (write : Bool) (rd : Reg) (s : State) : Host.Outcome State Fault Refusal :=
  issue t (if write then controlWrite t rd 0x103 else controlRead t rd 0x103) s

/-! ### CSYNC -/

/-- One waiting write takes effect (R152, R153). -/
def syncOne (t : Tid) (w : Mach) (e : Nat × W64) : Mach :=
  let (n, v) := e
  let vp := t.vp.toNat
  let a : Addr := v.setWidth 48
  let upd (f : Thread → Thread) : Mach := updThr t f w
  if n = 0x010 then upd fun th => { th with lc0 := v }
  else if n = 0x011 then upd fun th => { th with lc1 := v }
  else if n = 0x012 then upd fun th => { th with ls0 := a }
  else if n = 0x013 then upd fun th => { th with le0 := a }
  else if n = 0x014 then upd fun th => { th with ls1 := a }
  else if n = 0x015 then upd fun th => { th with le1 := a }
  else if n = 0x020 then upd fun th => { th with xlbase := v }
  else if n = 0x021 then upd fun th => { th with asid := v.setWidth 16 }
  else if n = 0x11C then upd fun th => { th with fsp := v }
  else if n = 0x030 then updVp vp (fun x => { x with vecbase := v }) w
  else if n = 0x11E then updVp vp (fun x => { x with gatebase := v }) w
  else if n = 0x11F then updVp vp (fun x => { x with imode := v != 0 }) w
  else w

/-- The writes of a thread that wait for CSYNC take effect. -/
def syncAll (t : Tid) (w : Mach) : Mach :=
  let th := thr w t
  th.pend.foldl (syncOne t) (setThr t { th with pend := [] } w)

/-- CSYNC (R152): 2 turns, and it drains no stores. -/
def execCsync (t : Tid) (s : State) : Host.Outcome State Fault Refusal :=
  issue t (fun w => done t 2 (syncAll t w)) s

/-- NOP (R173). -/
def execNop (t : Tid) (s : State) : Host.Outcome State Fault Refusal := issue t (done t 1) s

end Sys2Proof.Machine
end

