-- ==== Sys2Proof/Machine/Entry.lean ====
section
/-! DEFINITION. Exceptions and interrupts (R239 to R264): entry and return as shared operations, call gates and their
checks (R265 to R267), timers and windows. -/

namespace Sys2Proof.Machine
open Sys2Proof

/-! ### Frames (R255 to R257) -/

/-- The spilled record of a frame: PC, ESTAT, g1 to g7 and a zero doubleword (R256). -/
def frameBytes (f : Frame) : List Byte :=
  toBytes 8 f.pc.toNat ++ toBytes 8 f.estat.toNat ++
    (List.range 7).flatMap (fun i => toBytes 8 (tread 0 f.g (i + 1)).toNat) ++ toBytes 8 0

/-- The frame that a record holds. -/
def frameOf (bs : List Byte) : Frame :=
  let dw (i : Nat) : W64 := BitVec.ofNat 64 (ofBytes ((bs.drop (8 * i)).take 8))
  { pc := (dw 0).setWidth 48, estat := dw 1 &&& estatMask,
    g := iterate 7 (fun i g => twrite 0 g (i + 1) (dw (i + 2))) [] }

/-- A frame record at this address lies in near memory or HBM. -/
def frameAddrOk (w : Mach) (a : Nat) : Bool := isDevice w a && isDevice w (a + 79)

/-- FSP without the bits it ignores. -/
def fspAddr (th : Thread) : W64 := (th.fsp >>> 4) <<< 4

/-- The code of a frame access that nothing answers: STALE_UNIT on a fenced unit, else SPILL_ADDR (R243, R256, R413). -/
def frameCode (w : Mach) (a : Nat) : Nat := if fencedAddr w a || fencedAddr w (a + 79) then vcStaleUnit else vcSpillAddr

/-- A read without translation (R245, R265): its traffic, and the violation where nothing answers (R275, R300, R413). -/
def physRead (t : Tid) (word : W32) (a n : Nat) (w : Mach) : Mach :=
  let cs := physPieces w a n
  piecesTraffic t false cs (logDenied t false word cs w)

/-- With four frames in use the oldest is spilled below FSP (R256), for the instruction with this word. -/
def spillIfFull (t : Tid) (word : W32) (w : Mach) : Mach :=
  let th := thr w t
  if th.bank.length < 4 then w
  else
    let a := (fspAddr th - 80).toNat
    let f := th.bank.getLastD {}
    let w := updThr t (fun th => { th with bank := th.bank.dropLast, fsp := th.fsp - 80, spilled := th.spilled + 1 }) w
    if frameAddrOk w a then threadStore none a (frameBytes f) (threadTraffic t true a 80 w)
    else violThread t (frameCode w a) true a word w

/-- A return that empties the bank reloads the spilled record at FSP (R257), an uncorrectable one aborting what runs (R240):
the turns it adds. -/
def refillIfEmpty (t : Tid) (word : W32) (w : Mach) : Mach × Nat :=
  let th := thr w t
  if th.bank.isEmpty && th.spilled != 0 then
    let a := (fspAddr th).toNat
    let ok := frameAddrOk w a
    let f := if ok then frameOf ((List.range 80).map fun i => seenByte w (a + i)) else {}
    let w := if ok then tookOpen (physPieces w a 80) (threadTraffic t false a 80 w) else w
    let w := updThr t (fun th => { th with bank := [f], fsp := th.fsp + 80, spilled := th.spilled - 1 }) w
    (if ok then readCheck t (physPieces w a 80) w else violThread t (frameCode w a) false a word w, 2)
  else (w, 0)

/-- Exchange g31 and SSP (R251, R261, R267). -/
def swapStack (th : Thread) : Thread := { putG 31 th.ssp th with ssp := getG th 31 }

/-- The program counter that an entry saves (R263): that of the group that would issue, or of the oldest. -/
def entryPc (th : Thread) : Addr :=
  if th.gm then
    match curGroup th with
    | some (_, g) => g.pc
    | none => ((oldest th.groups).map (·.2.pc)).getD th.pc
  else th.pc

/-! ### Fetch (R239, R246) -/

/-- What a fetch of four bytes at `a` meets: the vector of its fault, or the physical line that must be cached. -/
inductive Fetch where
  | fault (vec : Nat) (va : Nat)
  | ok
  deriving DecidableEq, Repr

/-- The fetch test of one word: execute is needed, and the word lies in near memory or HBM, of a fenced unit too (R239, R275,
R413). -/
def fetchWord (w : Mach) (vp : Nat) (c : Ctx) (a : Nat) : Fetch :=
  match translate w (vpOf w vp).tlb c a with
  | .absent => .fault 1 a
  | .page pa b => if grants b c.priv .exec && (isDevice w pa || fencedAddr w pa) then .ok else .fault 0 a

/-- The word at `pc` begins a long form (R166); from a fenced unit it reads as zero (R413). -/
def longAt (w : Mach) (vp : Nat) (c : Ctx) (pc : Addr) : Bool :=
  match translate w (vpOf w vp).tlb c pc.toNat with
  | .page pa _ => physNum w pa 4 >>> 26 == 0x3C
  | .absent => false

/-- The fetch test of the instruction at `pc`: both words of a long form (R170). -/
def fetchTest (w : Mach) (vp : Nat) (c : Ctx) (pc : Addr) : Fetch :=
  match fetchWord w vp c pc.toNat with
  | .fault v a => .fault v a
  | .ok => if longAt w vp c pc then fetchWord w vp c (pc + 4).toNat else .ok

/-- The instruction-cache lines that the words at `pc` lie in, by address space (R145, R170). -/
def fetchLines (w : Mach) (vp : Nat) (c : Ctx) (pc : Addr) : List Nat :=
  let line (a : Addr) : Nat := c.asid.toNat * 2 ^ 48 + a.toNat / 256 * 256
  if longAt w vp c pc then [line pc, line (pc + 4)] else [line pc]

/-! ### Entry (R251 to R254) -/

/-- Transfers between rows stop, and a thread's wait for a step value or a transfer count ends: the instruction
re-executes (R249). -/
def stopWaits (t : Tid) (w : Mach) : Mach :=
  (waitsOf (thr w t)).foldl (fun w e =>
    match e with
    | (g, .tile _ _ k _ next _ _ _) => stopTile t g k next w
    | (none, .fwait _) => updThr t (endWait none) w
    | (none, .xwait _) => updThr t (endWait none) w
    | _ => w) w

/-- A double fault (R246): the thread stops issuing with its state kept, the keeper logs it, the command fails and the
VP drains (R422). -/
def doubleFault (t : Tid) (w : Mach) : Mach :=
  let th := thr w t
  let u := unitVp t.vp.toNat
  let cmd := match th.binding with | .plan c _ => c | .inv _ c => c | _ => 0
  let w := updThr t (fun th => { th with stopped := true, dead := true }) w
  let attempt := match th.binding with | .plan c _ => (planOf w c).attempts | _ => 0
  let w := errorRecord ecDoubleFault { unit := u, cmd := cmd, step := th.step, attempt := attempt } w
  unitToDraining u (failThreadCommand t erDoubleFault w)

/-- The instruction word at a thread's virtual address, zero where its tables map none (R242; log 101). -/
def wordAt (w : Mach) (t : Tid) (pc : Addr) : W32 :=
  match translate w (vpOf w t.vp.toNat).tlb (ctxOf (thr w t)) pc.toNat with
  | .page pa _ => if isDevice w pa then BitVec.ofNat 32 (readNum w pa 4) else 0
  | .absent => 0

/-- The uncorrectable granule that an entry reads of its own (R240): in the vector table, or in the walk behind a handler's
address that has no translation where that would be a double fault. -/
def entryBad (w : Mach) (t : Tid) (vec : Nat) : Option Nat :=
  (badPiece w (physPieces w (vecAddr w t.vp.toNat vec) 16)).or
    (let h := (vecEntry w t.vp.toNat vec).handler.toNat
     let c := { ctxOf (thr w t) with priv := true }
     if 1 < vec then none
     else match translate w (vpOf w t.vp.toNat).tlb c h with
       | .absent => walkBad w c.xlbase h
       | .page _ _ => none)

/-- Enter through a vector (R251, R252, R271): waiting control-register writes take effect; PC, status and g1 to g7 go
into a new frame; the thread runs the handler at supervisor level in normal mode, an interrupt's at its level. An
uncorrectable granule that the entry reads aborts what runs in its place (R240). -/
def enterVector (t : Tid) (c : Cause) (level : Option Nat) (w : Mach) : Mach :=
  let word := wordAt w t (c.pc.getD (entryPc (thr w t)))
  let w := syncAll t w
  match entryBad w t c.vec with
  | some g => abortThread t g w
  | none =>
  let at_ := vecAddr w t.vp.toNat c.vec
  let w := stopWaits t (physRead t word at_ 16 (correctPieces (physPieces w at_ 16) w))
  let w := spillIfFull t word w
  let th := thr w t
  let v := vpOf w t.vp.toNat
  let e := vecEntry w t.vp.toNat c.vec
  let status := tsrOf v th ||| BitVec.ofNat 64 (c.detail <<< 16 + c.vec <<< 8)
  let f : Frame :=
    { pc := c.pc.getD (entryPc th), estat := status,
      g := th.g.filter fun x => decide (1 ≤ x.1 ∧ x.1 ≤ 7) }
  let th := { th with
    bank := f :: th.bank, cause := none, eaddr := if c.vec ≤ 2 then c.eaddr else th.eaddr }
  let w := countThread t 0x19 1 (setThr t th w)
  let w := if c.vec = 7 then updVp t.vp.toNat (fun v => { v with alert := false }) w else w
  let handlerFaults := fetchTest w t.vp.toNat { ctxOf th with priv := true } e.handler != .ok
  if c.vec ≤ 1 && handlerFaults then doubleFault t w
  else
    updThr t (fun th =>
      let wasPriv := th.priv
      let th := { th with gm := false }
      let th := if wasPriv then th else swapStack th
      { th with
        priv := true, pc := e.handler,
        rlvl := match level with | some l => BitVec.ofNat 5 l | none => th.rlvl,
        ie := if v.imode then th.ie else false,
        wleft := if v.imode then e.window else th.wleft }) w

/-! ### When an interrupt is taken (R248, R249) -/

/-- A wait that an interrupt can end (R249). -/
def waitInterruptible (p : Park) : Bool :=
  match p with
  | .none => true
  | .fwait _ => true
  | .xwait _ => true
  | .tile _ _ _ _ next _ _ _ => decide (next < 64)
  | _ => false

/-- The thread is at an instruction boundary or in an interruptible wait (R248, R249). -/
def interruptible (th : Thread) : Bool :=
  (match th.binding with | .plan _ _ => true | .inv _ _ => true | _ => false)
  && !th.stopped && th.gateWaits == 0 && waitInterruptible th.park && !heldByService th
  && (!th.gm || (issuer th).isSome || th.groups.all fun e =>
      match e.2.wait with
      | .on p => waitInterruptible p
      | _ => true)

/-- The uncorrectable granule that the walk behind an absent translation read: its zeros are why it is absent, and what
runs is aborted in place of entering a handler (R240, R405). -/
def badWalk (w : Mach) (th : Thread) (c : Cause) : Option Nat :=
  if c.vec = 1 ∨ c.vec = 2 then walkBad w th.xlbase c.eaddr.toNat else none

/-- The vectors of the interrupts that are asked for: the VP reads their entries for their level, thread and enable (R245 to
R247). -/
def askedVectors (w : Mach) (t : Tid) : List Nat :=
  let th := thr w t
  let v := vpOf w t.vp.toNat
  (if v.alert then [7] else []) ++ (if th.timer0 then [4] else []) ++ (if th.timer1 then [5] else [])
    ++ (if ackOut th.sig = 0 then [] else [6])
    ++ ((List.range 48).filter fun n => ackOut (tread {} v.xcnt n) != 0).map (16 + ·)

/-- The pieces of their entries. -/
def askedEntries (w : Mach) (t : Tid) : List Chunk :=
  (askedVectors w t).flatMap fun v => physPieces w (vecAddr w t.vp.toNat v) 16

/-- The key of an entry's and of a fetch's requests. -/
def entryKey : Nat := 2 ^ 50

/-- A fetch misses in the instruction cache (R145): its line is read by the thread's translation, and the thread waits for it
(R284, R300, R302). -/
def missLine (t : Tid) (line : Nat) (w : Mach) : Mach :=
  let w := threadWalks t (line % 2 ^ 48) 4 w
  countThread t 0x12 1 (updThr t (parkOn (.fetchMiss line)) (piecesTraffic t false (linePieces w t line) w))

/-- The fetch test at the program counter: its fault is entered, and a miss in the instruction cache parks the thread (R145,
R239). -/
def fetchNext (t : Tid) (w : Mach) : Mach :=
  let th := thr w t
  let vp := t.vp.toNat
  let pc := pcOf th
  match fetchTest w vp (ctxOf th) pc with
  | .fault v a =>
    let c : Cause := { vec := v, eaddr := BitVec.ofNat 64 a }
    match badWalk w th c with
    | some g => abortThread t g w
    | none => paying t entryKey (fun w => enterVector t c none (threadWalks t a 4 w)) w
  | .ok =>
    match (fetchLines w vp (ctxOf th) pc).find? fun l => !(vpOf w vp).icache.contains l with
    | none => w
    | some line => paying t entryKey (missLine t line) w

/-- EXCEPTION_ENTRY (R239, R248, R251, R253, R254): a fault or TRAP that the thread has to enter; else the acceptable
interrupt of the highest level, one that arrived during the entry included; else the fetch test. An uncorrectable entry of an
interrupt that is asked for aborts what runs (R240), and one outside near memory and HBM reads as zero (R275; log 74). -/
def execExceptionEntry (t : Tid) (s : State) : Host.Outcome State Fault Refusal :=
  run (fun w =>
    let th := thr w t
    if th.gateWaits ≠ 0 then w
    else match th.cause with
    | some c =>
      if th.stopped || !waitInterruptible th.park || heldByService th then w
      else match badWalk w th c with
        | some g => abortThread t g w
        | none => paying t entryKey (enterVector t c none) w
    | none =>
      if !interruptible th then w
      else
        let asked := askedEntries w t
        match badPiece w asked with
        | some g => abortThread t g w
        | none =>
          let w := logDenied t false 0 asked (correctPieces asked w)
          match bestVector ((pendingVectors w t).filter fun e => unmasked (vpOf w t.vp.toNat) th e.1) with
          | some (level, v) => paying t entryKey (enterVector t { vec := v } (some level)) w
          | none => if canIssue th then fetchNext t w else w) s

/-! ### Returning (R261 to R263) -/

/-- ERET (R257, R261, R262): PC and status come back from the newest frame, which goes; at user level the return stays
at user level. With no frame it is a logged no-op. -/
def execEret (t : Tid) (s : State) : Host.Outcome State Fault Refusal :=
  let word := wordS 0 0 0 4
  issue t (fun w =>
    let th := thr w t
    match th.bank with
    -- a return makes no loop test (R149, R273)
    | [] => retire t { cost := 16, target := some (pcOf th + 4) } (violThread t vcEretEmpty false 0 word w)
    | f :: r =>
      let st := f.estat
      let wasPriv := th.priv
      let wantPriv := st.getLsbD 0
      let w := if wantPriv && !wasPriv then violThread t vcEretPriv false 0 word w else w
      let refills := r.isEmpty && th.spilled != 0
      -- the return retires at its own level; what it restores follows. A group that returns to the normal stream goes on to
      -- its own next instruction (DESIGN CHOICE; log 14)
      let leaves := th.gm && !st.getLsbD 2
      let w := retire t { cost := if refills then 32 else 16, target := some (if leaves then pcOf th + 4 else f.pc) } w
      let w := updThr t (fun th =>
        let th := if leaves then { th with gm := false, pc := (f.pc >>> 2) <<< 2 } else th
        let th := if st.getLsbD 3 then th
          else iterate 7 (fun i th => putG (BitVec.ofNat 5 (i + 1)) (tread 0 f.g (i + 1)) th) th
        let th := if wasPriv && !wantPriv then swapStack th else th
        { th with
          bank := r, priv := wantPriv && wasPriv, ie := st.getLsbD 1, gm := st.getLsbD 2,
          rlvl := (st >>> 24).setWidth 5, wleft := (st >>> 32).setWidth 12 }) w
      -- back in group mode, a barrier that the handler left with nobody to wait for releases (R235)
      let w := (refillIfEmpty t word w).1
      if (thr w t).gm then settleBarriers t w else w) s

/-- TRAP (R264): retires, and is then entered through vector 3. -/
def execTrap (t : Tid) (n : BitVec 8) (s : State) : Host.Outcome State Fault Refusal :=
  issue t (fun w => raise t { vec := 3, detail := n.toNat } (done t 1 w)) s

/-! ### Call gates (R265 to R268) -/

def gateInvalid : W64 := 0xFFFFFFFFFFFFFF01
def gateRange : W64 := 0xFFFFFFFFFFFFFF02
def gateLen : W64 := 0xFFFFFFFFFFFFFF03
def gateAbsent : W64 := 0xFFFFFFFFFFFFFF04
def gatePtr : W64 := 0xFFFFFFFFFFFFFF05
def keeperPrivError : W64 := 0xFFFFFFFFFFFFFF10
def kservNone : W64 := 0xFFFFFFFFFFFFFF11
def kservArg : W64 := 0xFFFFFFFFFFFFFF12
def kservBusy : W64 := 0xFFFFFFFFFFFFFF13

/-- The size of the page that holds `va` (R277): that of its leaf, or of the leaves that a look-aside entry merges (R283). -/
def pageSize (w : Mach) (tlb : List TlbEntry) (c : Ctx) (va : Nat) : Nat :=
  match tlbHit tlb c.asid va with
  | some e => if e.size < 2 ^ 21 then 2 ^ 12 else if e.size < 2 ^ 30 then 2 ^ 21 else 2 ^ 30
  | none => ((walk w c.xlbase va).map (·.size)).getD 4096

/-- The pages of a pointer range, from the one that holds `va` to the one that holds `last`: how many were tested, and the
error with its address, if one fails. -/
def gatePages (w : Mach) (tlb : List TlbEntry) (c : Ctx) (n : Need) (last : Nat) :
    Nat → Nat → Nat → Nat × Option (W64 × Nat)
  | 0, _, k => (k, none)
  | left + 1, va, k =>
    match translate w tlb c va with
    | .absent => (k + 1, some (gateAbsent, va))
    | .page _ b =>
      let next := (va / pageSize w tlb c va + 1) * pageSize w tlb c va
      if !grants b false n then (k + 1, some (gatePtr, va))
      else if last < next then (k + 1, none)
      else gatePages w tlb c n last left next (k + 1)

/-- The check of one argument (R265, R266): its turns, and its error with the address of the page at fault. -/
def gateCheck (w : Mach) (t : Tid) (kind : Nat) (arg len bound : W64) : Nat × Option (W64 × Nat) :=
  if kind = 0 then (0, none)
  else if kind = 1 then (1, if bound < arg then some (gateRange, 0) else none)
  else if bound < len then (1, some (gateLen, 0))
  else if len = 0 then (1, none)
  else
    let th := thr w t
    let need : Need := if kind = 2 then .read else if kind = 3 then .write else .both
    let last := arg.toNat + len.toNat - 1
    let (k, e) := gatePages w (vpOf w t.vp.toNat).tlb (ctxOf th) need last (last / 4096 - arg.toNat / 4096 + 1) arg.toNat 0
    (1 + (k - 1), e)

/-- The checks of the arguments in ascending order, to the first failure (R266). -/
def gateChecks (w : Mach) (t : Tid) (d : Nat) (argc : Nat) : Nat × Option (W64 × Nat) :=
  let th := thr w t
  let arg (i : Nat) : W64 := getG th (BitVec.ofNat 5 (2 + i))
  (List.range argc).foldl (fun (r : Nat × Option (W64 × Nat)) i =>
    match r.2 with
    | some _ => r
    | none =>
      let k := gateCheck w t (bits d (64 + 8 * i) 4) (arg i) (arg (bits d (64 + 8 * i + 4) 3))
        (BitVec.ofNat 64 (bits d (128 + 64 * i) 64))
      (r.1 + k.1, k.2)) (0, none)

/-- The walks of the pointer pages that the checks test (R266, R284): each argument's in turn, to the first failure. -/
def gateWalks (t : Tid) (d argc : Nat) (w : Mach) : Mach :=
  ((List.range argc).foldl (fun (r : Mach × Bool) i =>
    if r.2 then r
    else
      let th := thr w t
      let kind := bits d (64 + 8 * i) 4
      let arg := getG th (BitVec.ofNat 5 (2 + i))
      let len := getG th (BitVec.ofNat 5 (2 + bits d (64 + 8 * i + 4) 3))
      let bound := BitVec.ofNat 64 (bits d (128 + 64 * i) 64)
      let e := (gateCheck w t kind arg len bound).2
      let n := match e with | some (_, va) => va + 1 - arg.toNat | none => len.toNat
      (if kind < 2 ∨ bound < len then r.1 else threadWalks t arg.toNat n r.1, e.isSome)) (w, false)).1

/-- A gate descriptor is valid (R265): VALID, at most six arguments, no reserved check kind or length argument. -/
def gateValid (d : Nat) : Bool :=
  bit d 52 && bits d 48 3 != 7
  && (List.range 6).all fun i => decide (bits d (64 + 8 * i) 4 ≤ 4) &&
      (decide (bits d (64 + 8 * i) 4 ≤ 1) || decide (bits d (64 + 8 * i + 4) 3 ≤ 5))

/-- GATE (R265 to R268): the checks; then a gate frame and the gate routine at supervisor level, or a keeper service
that the thread waits for. -/
def execGate (t : Tid) (n : BitVec 8) (s : State) : Host.Outcome State Fault Refusal :=
  let word := wordS 0 0 n 3
  issue t (fun w0 =>
    let w := w0
    let a := (vpOf w t.vp.toNat).gatebase.toNat / 64 * 64 + 64 * n.toNat
    let d := physNum w a 64
    let fail (turns : Nat) (e : W64) (w : Mach) : Mach := done t turns (setG t 1 e w)
    let own := physPieces w a 64
    let w := physRead t word a 64 (correctPieces own w)
    match badPiece w own with
    | some g => abortThread t g (done t 2 w)
    | none =>
    if !gateValid d then fail 2 gateInvalid w
    else
      let (k, e) := gateChecks w t d (bits d 48 3)
      let w := gateWalks t d (bits d 48 3) w
      match e with
      | some (e, va) =>
        -- a page that is absent because its walk met an uncorrectable granule aborts what runs (R240)
        match if e = gateAbsent then walkBad w (thr w t).xlbase va else none with
        | some g => abortThread t g (done t (2 + k) w)
        | none => fail (2 + k) e w
      | none =>
        if bit d 51 then
          let sv := bits d 56 8
          -- a reply at once is recorded, and waits for the staging buffer as any other (R362, R376)
          if (sv < 1 ∨ 4 < sv ∨ (thr w t).priv = false) ∧ ((cmdOfThread (thr w t)).any fun c => inputWaits w c 1) = true then w0
          else if sv < 1 ∨ 4 < sv then recordReply t (fail (2 + k) kservNone w)
          else if !(thr w t).priv then
            recordReply t (fail (2 + k) keeperPrivError (violThread t vcKeeperPriv false 0 word w))
          else
            let u := unitVp t.vp.toNat
            parkThen t (.service sv word (nextStamp u w)) (done t (2 + k)) (takeStamp u w)
        else
          let full := !decide ((thr w t).bank.length < 4)
          let wasPriv := (thr w t).priv
          let w := spillIfFull t word (done t (2 + k + (if full then 2 else 0)) w)
          updThr t (fun th =>
            let f : Frame := { pc := pcOf th, estat := (tsrOf (vpOf w t.vp.toNat) th) ||| 8, g := [] }
            let th := { th with bank := f :: th.bank, priv := true }
            setPc (BitVec.ofNat 48 (bits d 0 48 / 4 * 4)) (if wasPriv then th else swapStack th)) w) s

/-! ### Timers and windows (R260, R270) -/

/-- WINDOW_EXPIRY (R260): the slots of the handler have counted WLEFT down to 0, and the mask lifts. -/
def execWindowExpiry (t : Tid) (s : State) : Host.Outcome State Fault Refusal :=
  run (updThr t fun th => { th with wleft := 0 }) s

/-- TIMER_COMPARE (R270): the tick has reached a nonzero compare value; its vector is pending until the register is
written. -/
def execTimerCompare (t : Tid) (second : Bool) (s : State) : Host.Outcome State Fault Refusal :=
  run (fun w => updThr t (fun th =>
    let reached (v : W64) : Bool := v != 0 && decide (v.toNat ≤ w.m.tick)
    if second then { th with timer1 := th.timer1 || reached th.tmcmp1 }
    else { th with timer0 := th.timer0 || reached th.tmcmp0 }) w) s

end Sys2Proof.Machine
end

