-- ==== Sys2Proof/Machine/MoverDesc.lean ====
section
/-! DEFINITION. Mover descriptors (R308 to R315): fields, refusals, runs and documented cost. -/

namespace Sys2Proof.Machine
open Sys2Proof

/-- A mover descriptor's fields (R308). -/
structure XD where
  kind    : Nat
  mover   : Nat
  shint   : BitVec 2
  dhint   : BitVec 2
  rm      : Nat
  sat     : Bool
  ely     : Bool
  eln     : Nat
  dig     : Bool
  cplen   : Bool
  irq     : Bool
  line    : Nat
  sfmt    : Nat
  dfmt    : Nat
  slot    : BitVec 12
  esize   : Nat
  xseq    : Nat
  rows    : Nat
  rowlen  : Nat
  sstride : Nat
  dstride : Nat
  src     : Nat
  dst     : Nat
  index   : Nat
  sscale  : Nat
  sside   : Nat
  dscale  : Nat
  dside   : Nat
  digaddr : Nat
  cpl     : Nat
  raw     : Nat
  deriving DecidableEq, Repr

/-- The fields of 128 bytes (R308). -/
def xdOf (d : Nat) : XD :=
  { kind := bits d 0 4, mover := bits d 4 5, shint := BitVec.ofNat 2 (bits d 9 2), dhint := BitVec.ofNat 2 (bits d 11 2),
    rm := bits d 13 2, sat := bit d 15, ely := bit d 16, eln := bits d 17 1, dig := bit d 18, cplen := bit d 19,
    irq := bit d 20, line := bits d 21 4, sfmt := bits d 32 4, dfmt := bits d 36 4,
    slot := BitVec.ofNat 12 (bits d 40 12), esize := 2 ^ bits d 52 2, xseq := bits d 64 31, rows := bits d 128 24,
    rowlen := bits d 160 24, sstride := bits d 192 32, dstride := bits d 224 32, src := bits d 256 48,
    dst := bits d 320 48, index := bits d 384 48, sscale := bits d 448 48, sside := bits d 512 48,
    dscale := bits d 576 48, dside := bits d 640 48, digaddr := bits d 704 48, cpl := bits d 768 48, raw := d }

/-- The bits that R308 does not list. -/
def xdReserved (d : Nat) : Nat :=
  bits d 25 7 + bits d 54 10 + bits d 95 33 + bits d 152 8 + bits d 184 8 + bits d 304 16 + bits d 368 16
  + bits d 432 16 + bits d 496 16 + bits d 560 16 + bits d 624 16 + bits d 688 16 + bits d 752 16 + bits d 816 208

/-- Raw bytes on a side (R308). -/
def isRaw (f : Nat) : Bool := f == 0xF

/-- Bits of an element on a side. -/
def xBits (f : Nat) : Nat := if isRaw f then 8 else fmtBits f

/-- The transfer converts between two formats (R310). -/
def converts (d : XD) : Bool := d.sfmt != d.dfmt

/-- An MX format on either side. -/
def anyMx (d : XD) : Bool := !isRaw d.sfmt && fmtMx d.sfmt || !isRaw d.dfmt && fmtMx d.dfmt

/-- The bytes of a row on the source and on the destination. -/
def srcRow (d : XD) : Nat := ceilDiv (d.rowlen * xBits d.sfmt) 8
def dstRow (d : XD) : Nat := ceilDiv (d.rowlen * xBits d.dfmt) 8

/-- GATHER or SCATTER. -/
def indexed (d : XD) : Bool := d.kind == 2 || d.kind == 3

/-- Rows of 8 bytes or less (R312): the longer of the two sides decides (log 24). -/
def smallRows (d : XD) : Bool := decide (max (srcRow d) (dstRow d) ≤ 8)

/-- A row of `n` bytes at `a` crosses a 256-byte sector. -/
def crosses (a n : Nat) : Bool := decide (256 < a % 256 + n)

/-- The sector rule of R312 for rows of 8 bytes or less. -/
def sectorRuleBroken (d : XD) : Bool :=
  if !smallRows d then false
  else if d.kind = 1 then
    (List.range d.rows).any fun i =>
      crosses (d.src + i * d.sstride) (srcRow d) || crosses (d.dst + i * d.dstride) (dstRow d)
  else if indexed d then
    let b := 2 ^ log2Up (max (srcRow d) (dstRow d))
    decide (d.src % b ≠ 0 ∨ d.dst % b ≠ 0 ∨ d.sstride % b ≠ 0 ∨ d.dstride % b ≠ 0)
  else false

/-- The first check of R311 that a descriptor fails: its error, 0 for none. -/
def xferRefusal (d : XD) : Nat :=
  if d.kind = 0 ∨ 5 < d.kind ∨ ([0xD, 0xE] : List Nat).contains d.sfmt ∨ ([0xD, 0xE] : List Nat).contains d.dfmt
      ∨ xdReserved d.raw ≠ 0 then erXferReserved
  else if (isRaw d.sfmt != isRaw d.dfmt)
      ∨ (!isRaw d.sfmt ∧ !isRaw d.dfmt ∧ fmtMx d.sfmt ∧ fmtMx d.dfmt)
      ∨ (!isRaw d.sfmt ∧ !isRaw d.dfmt ∧ converts d ∧ !hasPath d.sfmt d.dfmt)
      ∨ (d.ely ∧ !elytraFmt d.sfmt ∧ !elytraFmt d.dfmt)
      ∨ ((d.kind = 4 ∨ d.kind = 5) ∧ (!isRaw d.sfmt ∨ !isRaw d.dfmt))
      ∨ (d.dig ∧ d.kind = 5) then erXferFormat
  else if d.rows = 0 ∨ d.rowlen = 0 ∨ (anyMx d ∧ d.rowlen % 32 ≠ 0) ∨ (d.kind = 5 ∧ d.dst % 2048 ≠ 0)
      ∨ sectorRuleBroken d then erXferShape
  else 0

/-! ### Runs (R312) -/

/-- A piece of one row: the row's number in the transfer, its number on each side, and its elements. -/
structure XPiece where
  i    : Nat
  srow : Nat
  drow : Nat
  k0   : Nat
  n    : Nat
  deriving DecidableEq, Repr

/-- One run (R312): pieces of rows, a block of a transposition, or a zeroed line. -/
inductive XUnit where
  | rows (ps : List XPiece)
  | block (r0 c0 nr nc : Nat)
  | line (i : Nat)
  deriving DecidableEq, Repr

/-- The elements from `a` on that lie before the next 2 KiB boundary; one that crosses it stands alone. -/
def roomFor (a bitsEach : Nat) : Nat := max 1 ((2048 - a % 2048) * 8 / bitsEach)

/-- A row's number on each side (R309). -/
def rowPiece (d : XD) (idx i k0 n : Nat) : XPiece :=
  { i := i, srow := if d.kind = 2 then idx else i, drow := if d.kind = 3 then idx else i, k0 := k0, n := n }

/-- The addresses of a piece's elements. -/
def pieceSrc (d : XD) (p : XPiece) : Nat := d.src + p.srow * d.sstride + p.k0 * xBits d.sfmt / 8
def pieceDst (d : XD) (p : XPiece) : Nat := d.dst + p.drow * d.dstride + p.k0 * xBits d.dfmt / 8

/-- The run that begins at a row and element, and where the next begins; `idx` gives the indices. -/
def unitAt (d : XD) (idx : Nat → Nat) (row off : Nat) : Option (XUnit × Nat × Nat) :=
  if d.kind = 5 then (if row < d.rows then some (.line row, row + 1, 0) else none)
  else if d.kind = 4 then
    if row < d.rows then
      let nr := min 32 (d.rows - row)
      let nc := min 32 (d.rowlen - off)
      some (.block row off nr nc, if off + nc < d.rowlen then (row, off + nc) else (row + nr, 0))
    else none
  else if d.rows ≤ row then none
  else if indexed d && smallRows d then
    let n := min 16 (d.rows - row)
    some (.rows ((List.range n).map fun x => rowPiece d (idx (row + x)) (row + x) 0 d.rowlen), row + n, 0)
  else
    let p := rowPiece d (idx row) row off 0
    let n := min (roomFor (pieceSrc d p) (xBits d.sfmt)) (roomFor (pieceDst d p) (xBits d.dfmt))
    let n := min (if anyMx d then ceilDiv n 32 * 32 else n) (d.rowlen - off)
    some (.rows [{ p with n := n }], if off + n < d.rowlen then (row, off + n) else (row + 1, 0))

/-- A range that a run reads or writes. -/
structure XRange where
  va    : Nat
  len   : Nat
  write : Bool
  deriving DecidableEq, Repr

/-- The ranges of a run: index entries, elements, scales and side words (R310, R316). -/
def unitRanges (d : XD) (u : XUnit) : List XRange :=
  match u with
  | .line i => [⟨d.dst + i * 2048, 2048, true⟩]
  | .block r0 c0 nr nc =>
    ((List.range nr).map fun r => (⟨d.src + (r0 + r) * d.sstride + c0 * d.esize, nc * d.esize, false⟩ : XRange))
    ++ (List.range nc).map fun c => ⟨d.dst + (c0 + c) * d.dstride + r0 * d.esize, nr * d.esize, true⟩
  | .rows ps =>
    (match indexed d, ps.head? with
     | true, some p => [(⟨d.index + 4 * p.i, 4 * ps.length, false⟩ : XRange)]
     | _, _ => [])
    ++ ps.flatMap fun p =>
      [⟨pieceSrc d p, ceilDiv (p.n * xBits d.sfmt) 8, false⟩]
      ++ (if !isRaw d.sfmt && fmtMx d.sfmt then
            [⟨d.sscale + (p.srow * d.rowlen + p.k0) / 32, p.n / 32, false⟩]
            ++ (if d.ely then [⟨d.sside + (p.srow * d.rowlen + p.k0) / 8, p.n / 8, false⟩] else [])
          else [])
      ++ [⟨pieceDst d p, ceilDiv (p.n * xBits d.dfmt) 8, true⟩]
      ++ (if !isRaw d.dfmt && fmtMx d.dfmt then
            [⟨d.dscale + (p.drow * d.rowlen + p.k0) / 32, p.n / 32, true⟩]
            ++ (if d.ely then [⟨d.dside + (p.drow * d.rowlen + p.k0) / 8, p.n / 8, true⟩] else [])
          else [])

/-- Conversion rate in elements per beat (R315). -/
def convRate (d : XD) : Nat :=
  if d.ely && !isRaw d.dfmt && fmtMx d.dfmt then 64 else if anyMx d then 128 else 256

/-- The beats of a run (R315). -/
def unitBeats (d : XD) (u : XUnit) : Nat :=
  match u with
  | .line _ => 1
  | .block _ _ nr nc => 2 + ceilDiv (nr * nc * d.esize) 256
  | .rows ps =>
    if indexed d && smallRows d then 1
    else ((ps.map fun p =>
      1 + max (ceilDiv (max (ceilDiv (p.n * xBits d.sfmt) 8) (ceilDiv (p.n * xBits d.dfmt) 8)) 512)
        (if converts d then ceilDiv p.n (convRate d) else 0))).sum

/-- Every run from a row and element on, at most `fuel` of them. -/
def unitsFrom (d : XD) (idx : Nat → Nat) : Nat → Nat → Nat → List XUnit
  | 0, _, _ => []
  | fuel + 1, row, off =>
    match unitAt d idx row off with
    | none => []
    | some (u, row', off') => u :: unitsFrom d idx fuel row' off'

/-- More runs than any transfer of this shape has: a run holds a row, an element of one, or a block. -/
def unitFuel (d : XD) : Nat := d.rows * (d.rowlen + 1) + 1

/-- The documented cost of runs (R315), with the transfer digested or not. -/
def xferBeats (dig : Bool) (d : XD) (us : List XUnit) : Nat := 16 + (us.map (unitBeats d)).sum + (if dig then 72 else 0)

end Sys2Proof.Machine
end

