-- ==== Sys2Proof/Machine/Movers.lean ====
section
/-! DEFINITION. Movers (R285, R286, R298, R307 to R316): posting, runs, completion; and the pieces of a MOVE (R460). -/

namespace Sys2Proof.Machine
open Sys2Proof

/-- A mover, by die × 32 + mover. -/
def moverOf (w : Mach) (n : Nat) : Mover := tread {} w.m.hw.movers n

/-- Change a mover. -/
def updMover (n : Nat) (f : Mover → Mover) (w : Mach) : Mach :=
  onHw (fun h => { h with movers := twrite {} h.movers n (f (tread {} h.movers n)) }) w

/-- Change the transfer that a mover runs. -/
def updRun (n : Nat) (f : XRun → XRun) (w : Mach) : Mach := updMover n (fun v => { v with run := v.run.map f }) w

/-! ### Access by a mover (R282, R286, R297, R298) -/

/-- What a mover finds for its ranges: pieces, an address without a translation, or a page that ATS has still to
translate. -/
inductive XLook where
  | ok (cs : List (XRange × List Chunk))
  | absent (va : Nat)
  | ask (page : Nat)

/-- Look up one range for a mover. -/
def lookRange (w : Mach) (n : Nat) (e : XEntry) (r : XRange) : XLook :=
  match pieces w (moverOf w n).tlb e.ctx (if r.write then .write else .read) (moverMayReach w) r.va r.len with
  | .error a => .absent a
  | .ok cs =>
    match (hostNeed w e.fn 0 (cs.map fun c => (r.write, c))).2 with
    | .ready => .ok [(r, cs)]
    | .ask page => .ask page
    | .denied va => .absent va

/-- Look up a run's ranges: the first address that is absent or has to be asked for decides. -/
def lookRanges (w : Mach) (n : Nat) (e : XEntry) (rs : List XRange) : XLook :=
  rs.foldl (fun x r =>
    match x with
    | .ok cs => match lookRange w n e r with
      | .ok c => .ok (cs ++ c)
      | y => y
    | y => y) (.ok [])

/-- The bytes of a range as a mover reads them: host bytes as the draw numbered `k` has them, zeros where nothing may be
read (R241, R275). -/
def moverBytes (w : Mach) (k n : Nat) (e : XEntry) (va len : Nat) : List Byte :=
  match pieces w (moverOf w n).tlb e.ctx .read (moverMayReach w) va len with
  | .ok cs => cs.flatMap fun c =>
      match c.pa with
      | some a => if isHost a then (List.range c.len).map fun i => hostAt w k (a + i) else readBytes w a c.len
      | none => List.replicate c.len 0
  | .error _ => List.replicate len 0

/-- The draw that a transfer's index list in host memory has: one for all its runs, since entries are read ahead (log 24). -/
def indexDraw (w : Mach) (n : Nat) (e : XEntry) : Nat :=
  match (moverOf w n).run with
  | some r => if r.entry == e then r.draw else w.m.free
  | none => w.m.free

/-- Index i of a GATHER or SCATTER (R308). -/
def indexOf (w : Mach) (n : Nat) (e : XEntry) (d : XD) (i : Nat) : Nat :=
  ofBytes (moverBytes w (indexDraw w n e) n e (d.index + 4 * i) 4)

/-- Translations made for a run, as a rule ahead of it: a page that has a leaf enters the mover's buffer, and an address
that has none is noted for the run that it stops (R282 to R286). -/
def translateAhead (n : Nat) (e : XEntry) (rs : List XRange) (w : Mach) : Mach :=
  rs.foldl (fun w r =>
    (pagesOf r.va r.len).foldl (fun w va =>
      if (tlbHit (moverOf w n).tlb e.ctx.asid va).isSome then w
      else
        let w := (walkTables w va 3 (bits e.ctx.xlbase.toNat 12 36 * 4096)).foldl
          (fun w a => chargeTableRead (.mover n) e.cls (n / 32) a w) w
        match walk w e.ctx.xlbase va with
        | none => updRun n (fun r => { r with fails := va :: r.fails }) w
        | some l =>
          let x := entryOf w l e.ctx.asid
          if adviceForbids w (n / 32) e.ctx.asid x.va x.size then w
          else
            let (k, w) := drawFree w
            updMover n (fun v => { v with tlb := tlbInsert 1024 (Config.pick k) x v.tlb }) w) w) w

/-- The first address of a run that was found absent when it was translated ahead (R286). -/
def failedAhead (r : XRun) (rs : List XRange) : Option Nat :=
  rs.findSome? fun x => r.fails.find? fun va => decide (x.va ≤ va ∧ va < x.va + x.len)

/-- Where DIGADDR and CPL lie, as a mover finds them. -/
def markRanges (d : XD) : List XRange :=
  (if d.dig then [⟨d.digaddr, 32, true⟩] else []) ++ (if d.cplen then [⟨d.cpl, 32, true⟩] else [])

/-- What a mover finds for its next run: before the first one its digest and record addresses have to be there too (R286,
R314). -/
def runLook (w : Mach) (n : Nat) (r : XRun) (u : XUnit) : XLook :=
  let d := xdOf r.entry.desc
  match if r.done = 0 then lookRanges w n r.entry (markRanges d) else .ok [] with
  | .ok _ =>
    match failedAhead r (unitRanges d u) with
    | some va => .absent va
    | none => lookRanges w n r.entry (unitRanges d u)
  | x => x

/-! ### Charges (R302, R316) -/

/-- The pieces of some ranges that a mover may access, as far as they have translations, each with its direction. -/
def moverPieces (w : Mach) (n : Nat) (e : XEntry) (rs : List XRange) : List (Bool × Chunk) :=
  rs.flatMap fun r =>
    match pieces w (moverOf w n).tlb e.ctx (if r.write then .write else .read) (moverMayReach w) r.va r.len with
    | .ok cs => cs.map fun c => (r.write, c)
    | .error _ => []

/-- What a mover's accesses cost: sectors by tier, flits by direction, PCIe bytes in and out, HBM granules. -/
structure XCharge where
  sectors : Table Nat := []
  flits   : Table Nat := []
  pin     : Nat := 0
  pout    : Nat := 0
  gran    : Nat := 0

/-- The units of device memory of a size that some pieces touch, each once for reading and once for writing. -/
def unitsTouched (size : Nat) (ps : List (Bool × Chunk)) : List Nat :=
  (ps.foldl (fun (t : Table Unit) p =>
    match p.2.pa with
    | some a =>
      if isHost a || p.2.len == 0 then t
      else (List.range ((a + p.2.len - 1) / size - a / size + 1)).foldl
        (fun t i => tput t (2 * (a / size + i) + p.1.toNat) ()) t
    | none => t) []).map (·.1)

/-- The bytes of some pieces, one way, that meet a test on their address. -/
def bytesWhere (write : Bool) (p : Nat → Bool) (ps : List (Bool × Chunk)) : Nat :=
  (ps.map fun x => match x.2.pa with | some a => if x.1 == write && p a then x.2.len else 0 | none => 0).sum

/-- What a run's pieces cost (R300, R316); the sectors that the run before touched too are charged with it (log 24). -/
def chargeOf (w : Mach) (die : Nat) (before : List Nat) (ps : List (Bool × Chunk)) : XCharge :=
  let new := (unitsTouched 256 ps).filter fun k => !before.contains k
  let far (a : Nat) : Bool := !isHost a && dieOfAddr w a != die
  let hbm (a : Nat) : Bool := match regionOf w a with | .hbm _ _ => true | _ => false
  { sectors := new.foldl (fun t k => let i := tierOfAddr w (k / 2 * 256); tput t i (tread 0 t i + 1)) []
    flits := [(die, ceilDiv (bytesWhere true far ps) 64), (1 - die, ceilDiv (bytesWhere false far ps) 64)]
    pin := bytesWhere false isHost ps
    pout := bytesWhere true isHost ps
    gran := ((unitsTouched 32 ps).filter fun k => hbm (k / 2 * 32)).length }

/-- The sum of a table's entries. -/
def tsum (t : Table Nat) : Nat := (t.map (·.2)).sum

/-- The documented energy of a transfer in hundredths of a nanojoule (R316); every HBM granule counts as a miss
(log 24). Under DET a transfer that reads the host window is digested as well (R354). -/
def xferEnergy (w : Mach) (n : Nat) (e : XEntry) (d : XD) : Nat :=
  let us := (unitsFrom d (indexOf w n e d) (unitFuel d) 0 0).map fun u => (u, moverPieces w n e (unitRanges d u))
  let fromHost := us.any fun x => x.2.any fun p => !p.1 && p.2.pa.any isHost
  (us.foldl (fun (x : Nat × List Nat) u =>
    let c := chargeOf w (n / 32) x.2 u.2
    (x.1 + 45 * tsum c.sectors + 80 * c.gran + 60 * tsum c.flits, unitsTouched 256 u.2))
    (5 * xferBeats (d.dig || e.det && fromHost) d (us.map (·.1)), [])).1

/-- Count an event of a transfer for the thread that issued it (R491); a command's transfer has none. -/
def countXfer (e : XEntry) (n ev k : Nat) (w : Mach) : Mach :=
  match e.who with
  | .thread key _ => countIssued key e.ctx.priv ev k ⟨n / 32, e.cls, e.lopid⟩ w
  | .cmd _ _ => countGlobal ev k ⟨n / 32, e.cls, e.lopid⟩ w

/-- Ask at the gates for pieces that a mover of a die moves (R300, R302, R316): what lies in HBM goes through the near-memory
cache under the hint for its direction. -/
def askPieces (who : Asker) (cls die : Nat) (hint : Bool → BitVec 2) (c : XCharge) (count : Nat → Nat → Mach → Mach)
    (ps : List (Bool × Chunk)) (w : Mach) : Mach :=
  let ask (res : Res) (inst cost : Nat) : Mach → Mach := request ⟨res, inst, cls, cost, who, none⟩
  let w := c.sectors.foldl (fun w x => ask .tier x.1 x.2 w) w
  let w := c.flits.foldl (fun w x => ask .brab x.1 x.2 w) w
  let w := ask .pcieOut 0 c.pout (ask .pcieIn 0 c.pin w)
  let w := ask .brk (brkOf die true) (ceilDiv c.pout 64) (ask .brk (brkOf die false) (ceilDiv c.pin 64) w)
  let w := count 0x18 (tsum c.flits) (count 0x15 (tsum c.sectors) w)
  ps.foldl (fun w p =>
    match p.2.pa with
    | some a => (tierParts w a p.2.len).foldl (fun w x =>
      let (w, k) := nearAccess who cls x.1 x.2 (hint p.1) p.1 w
      count 0x17 (8 * k) (count 0x16 k (ask .tier (tierOfAddr w x.1) k w))) w
    | none => w) w

/-- The energy of what moves to and from the host, in hundredths of a nanojoule: its bytes, and the flits of the keeper bridge
that they cross (R35, R44). -/
def hostEnergy (c : XCharge) : Nat := 2 * (c.pin + c.pout) + 60 * (ceilDiv c.pin 64 + ceilDiv c.pout 64)

/-- Ask at the gates for a run's pieces (R316); parts of an energy unit wait in the mover's residue (R44). -/
def askRun (n : Nat) (e : XEntry) (before : List Nat) (ps : List (Bool × Chunk)) (w : Mach) : Mach :=
  let c := chargeOf w (n / 32) before ps
  let d := xdOf e.desc
  let r := (moverOf w n).residue + hostEnergy c
  let w := request ⟨.energy, 0, e.cls, r / energyUnit, .mover n, none⟩ (updMover n (fun v => { v with residue := r % energyUnit }) w)
  askPieces (.mover n) e.cls (n / 32) (fun write => if write then d.dhint else d.shint) c (countXfer e n) ps w

/-! ### Posting (R307, R311, R417) -/

/-- The mover of a die that takes transfers to a number: the next in service, in ascending number (R417). -/
def takerOf (w : Mach) (die mover : Nat) : Nat :=
  let n := ((List.range 32).map fun i => (mover + i) % 32).find? fun k => inService w (unitMover (die * 32 + k))
  die * 32 + n.getD mover

/-- A transfer that a thread posts (R308, R361, R362, R493). -/
def threadXfer (w : Mach) (t : Tid) (desc : Nat) : XEntry :=
  let th := thr w t
  { who := .thread (tkey t) th.xferPosted, desc := desc, seed := th.seed, entropy := usesEntropy th, det := th.det,
    cls := th.cls, fn := th.fn, lopid := th.lopid, ctx := ctxOf th, cmd := (cmdOfThread th).getD 0,
    inv := (match th.binding with | .inv i _ => some i | _ => none),
    lthread := (match th.binding with | .plan _ k => k | _ => 0), step := th.step, mark := w.m.wlog.length }

/-- Post a thread's transfer where its mover's queue of 16 has room, else wait (R307). -/
def postXfer (t : Tid) (desc : Nat) (fin : Mach → Mach) (w : Mach) : Mach :=
  let n := takerOf w (dieOfVp t.vp.toNat) (xdOf desc).mover
  if (moverOf w n).queue.length < 16 then
    let w := forgetNotes w
    let e := threadXfer w t desc
    fin (updThr t (fun th => { th with xferPosted := th.xferPosted + 1 })
      (checkTally (.queue (512 + n)) (updMover n (fun v => { v with queue := v.queue ++ [e] }) w)))
  else threadEnergy t 30 (updThr t (parkOn (.xferQueue (toBytes 128 desc))) w)

/-- XFER (R163, R307, R311): drains, reads and checks the descriptor, and posts it. -/
def execXfer (t : Tid) (ra : Reg) (s : State) : Host.Outcome State Fault Refusal :=
  issue t (fun w =>
    let word := wordR 0x22 0 ra 0 0
    let w := drainStores t w
    let va := (getG (thr w t) ra).toNat / 64 * 64
    let w := threadWalks t va 128 w
    match threadPieces w t .read va 128 with
    | .error a => raise t (absentData akXfer false a) w
    | .ok cs =>
      let desc := ofBytes (seenPieces w cs)
      let w := tookOpen cs w
      let w := piecesTraffic t false cs (logDenied t false word cs w)
      if (badPiece w cs).isSome then done t 2 (readCheck t cs w)
      else
        let w := readCheck t cs w
        let err := xferRefusal (xdOf desc)
        if err ≠ 0 then failThreadCommand t err (done t 2 w)
        else postXfer t desc (done t 2) w) s

/-- An XWAIT for `v` orders the thread's transfers below it before what follows (R307, R308). -/
def coverMoved (t : Tid) (v : Nat) (w : Mach) : Mach :=
  orderMoved (fun o => match o.who with | .thread k post => k == tkey t && decide (post < v) | .cmd _ _ => false) w

/-- XWAIT (R307): goes on once the thread's completed transfers reach the count. -/
def execXwait (t : Tid) (ra : Reg) (s : State) : Host.Outcome State Fault Refusal :=
  issue t (fun w =>
    let th := thr w t
    let v := getG th ra
    if v.toNat ≤ th.xferDone then done t 1 (coverMoved t v.toNat w)
    else threadEnergy t 15 (updThr t (parkOn (.xwait v)) w)) s

/-! ### Pieces of a MOVE (R460) -/

/-- The bytes of piece k of a MOVE: where it begins in the range, and how many. -/
def movePiece (c : Cmd) (k : Nat) : Nat × Nat :=
  let dst := cmdBits c 0x18 0 48
  let len := cmdBits c 0x20 0 48
  let first := min len (2048 - dst % 2048)
  if k = 0 then (0, first)
  else
    let a := first + (k - 1) * 2048
    (a, min 2048 (len - a))

/-- The pieces of a MOVE. -/
def movePieces (c : Cmd) : Nat :=
  let dst := cmdBits c 0x18 0 48
  let len := cmdBits c 0x20 0 48
  let first := min len (2048 - dst % 2048)
  if len = 0 then 0 else 1 + ceilDiv (len - first) 2048

/-- The transfer that a piece of a MOVE is: a raw COPY in the command's space at user privilege. -/
def moveXfer (w : Mach) (seq k : Nat) : XEntry :=
  let c := cmdOf w seq
  let (off, len) := movePiece c k
  let desc := 1 + 0xFF <<< 32 + 1 <<< 128 + len <<< 160 + (cmdBits c 0x10 0 48 + off) <<< 256
    + (cmdBits c 0x18 0 48 + off) <<< 320
  { who := .cmd seq k, desc := desc, det := c.det, cls := cmdBits c 0x28 16 6, fn := c.fn, lopid := lopidOf c,
    ctx := asidCtx w (BitVec.ofNat 16 (cmdBits c 0x28 0 16)), cmd := seq, mark := w.m.wlog.length }

/-- The die whose movers make a MOVE (R460). -/
def moveDie (w : Mach) (c : Cmd) : Nat :=
  let ctx := asidCtx w (BitVec.ofNat 16 (cmdBits c 0x28 0 16))
  let home (va : Nat) : Option Nat :=
    match translate w [] ctx va with
    | .page pa _ => if isDevice w pa then some (dieOfAddr w pa) else none
    | .absent => none
  let d := ((home (cmdBits c 0x18 0 48)) <|> (home (cmdBits c 0x10 0 48))).getD 0
  if unitState w d == .inService then d else 1 - d

/-- Post the pieces of a MOVE for which there is room, in order (R460). -/
def postPieces (seq : Nat) : Nat → Mach → Mach
  | 0, w => w
  | fuel + 1, w =>
    let c := cmdOf w seq
    if c.absent || decide (movePieces c ≤ c.posted) || !isRunning w seq then w
    else
      let n := takerOf w (moveDie w c) (c.posted % 32)
      if (moverOf w n).queue.length < 16 then
        let w := forgetNotes w
        let e := moveXfer w seq c.posted
        postPieces seq fuel (updCmd seq (fun c => { c with posted := c.posted + 1 })
          (checkTally (.queue (512 + n)) (updMover n (fun v => { v with queue := v.queue ++ [e] }) w)))
      else w

/-- The longest written prefix of a MOVE (R460). -/
def movePrefix (c : Cmd) : Nat → Nat → Nat
  | 0, _ => 0
  | fuel + 1, k =>
    let n := (tread [] c.parts k).length
    if n = (movePiece c k).2 ∧ k < movePieces c then n + movePrefix c fuel (k + 1) else n

/-- The number of a command's piece that an entry is. -/
def pieceOf (seq : Nat) (e : XEntry) : Option Nat :=
  match e.who with
  | .cmd s k => if s = seq then some k else none
  | _ => none

/-- A command's piece is on a mover or waits in its queue. -/
def pieceMoving (w : Mach) (seq : Nat) : Bool :=
  w.m.hw.movers.any fun e =>
    (match e.2.run with
     | some r => (pieceOf seq r.entry).isSome
     | none => false) || e.2.queue.any fun x => (pieceOf seq x).isSome

/-- A piece of a MOVE has ended: what it wrote, and whether it met an absent translation, after which no later piece
starts. PROGRESS follows, and with the last piece the command ends (R460). -/
def endPiece (seq k : Nat) (bs : List Byte) (absent : Bool) (w : Mach) : Mach :=
  let w := updCmd seq (fun c => { c with parts := tput c.parts k bs, absent := c.absent || absent }) w
  let later (e : XEntry) : Bool := match pieceOf seq e with | some j => decide (k < j) | none => false
  let w := if absent then
      onHw (fun h => { h with movers := h.movers.map fun (i, v) => (i, { v with queue := v.queue.filter fun e => !later e }) }) w
    else w
  let c := cmdOf w seq
  let w := setProgress seq (movePrefix c (movePieces c + 1) 0) w
  if c.absent then (if pieceMoving w seq then w else failCmd seq erXlateAbsent w)
  else if c.parts.length = movePieces c then
    let all := c.parts.flatMap (·.2)
    finishCmd seq 0 (if cmdBits c 0x28 22 1 = 1 || withholds w seq then sha256 all else []) w
  else postPieces seq 32 w

/-! ### Completion (R307, R313, R314) -/

/-- Room in a mover's queue goes to the threads that wait to post, and to MOVEs (R307, R460). -/
def refillMovers (w : Mach) : Mach :=
  let w := iterate 256 (fun k w =>
    let t := tidOf k
    (waitsOf (thr w t)).foldl (fun w e =>
      match e.2 with
      | .xferQueue bs =>
        let n := takerOf w (dieOfVp t.vp.toNat) (xdOf (ofBytes bs)).mover
        if (moverOf w n).queue.length < 16 then
          asGroup t e.1 (postXfer t (ofBytes bs) (retire t { cost := 16, energy := some 0 })) (updThr t (readyWait e.1) w)
        else w
      | _ => w) w) w
  (w.m.h.cmds.filter fun e => opcodeOf e.2 == 2).foldl (fun w e => postPieces e.1 32 w) w

/-- Completed posts move the count on as far as they are contiguous (R307). -/
def settlePosts (th : Thread) : Thread :=
  iterate (th.xferEnded.length + 1) (fun _ th =>
    if th.xferEnded.contains th.xferDone then
      { th with xferDone := th.xferDone + 1, xferEnded := th.xferEnded.filter (· != th.xferDone) }
    else th) th

/-- A thread's transfer counts as completed: XWAITs that it meets go on (R307). -/
def endPost (key post : Nat) (w : Mach) : Mach :=
  let t := tidOf key
  let w := updThr t (fun th => settlePosts { th with xferEnded := th.xferEnded ++ [post] }) w
  (waitsOf (thr w t)).foldl (fun w e =>
    match e.2 with
    | .xwait v =>
      if v.toNat ≤ (thr w t).xferDone then
        asGroup t e.1 (retire t { cost := 8, energy := some 0 }) (updThr t (readyWait e.1) (coverMoved t v.toNat w))
      else w
    | _ => w) w

/-- Write bytes for a mover at a virtual address; with `log`, pieces it may not write are violations (R241). -/
def moverPut (log : Bool) (n : Nat) (e : XEntry) (va : Nat) (bs : List Byte) (w : Mach) : Mach :=
  match lookRange w n e ⟨va, bs.length, true⟩ with
  | .ok [(_, cs)] =>
    writeChunks cs bs (notePieces (.mover e.who) cs (if log then logUnit (unitMover n) true cs w else w))
  | _ => w

/-- The same as a run, a digest or a record is written. -/
def moverWrite (n : Nat) (e : XEntry) (va : Nat) (bs : List Byte) (w : Mach) : Mach := moverPut true n e va bs w

/-! ### What is left unspecified (R308; log 91) -/

/-- The physical ranges that a transfer reads and writes, as far as they have translations, its digest and record
apart. -/
def footprint (w : Mach) (n : Nat) (e : XEntry) : Moved :=
  let d := xdOf e.desc
  let ps := moverPieces w n e ((unitsFrom d (indexOf w n e d) (unitFuel d) 0 0).flatMap (unitRanges d))
  let way (write : Bool) : List (Nat × Nat) :=
    ps.filterMap fun p => if p.1 == write then p.2.pa.map fun a => (a, p.2.len) else none
  { who := e.who, cmd := e.cmd, reads := way false, writes := way true }

/-- Of two transfers one writes bytes that the other reads or writes. -/
def conflict (a b : Moved) : Bool := rangesMeet a.writes (b.reads ++ b.writes) || rangesMeet b.writes a.reads

/-- The transfers that nothing orders with one of `who`: on a mover, in its queue, or completed with no XWAIT since. -/
def otherMoves (w : Mach) (who : XWho) : List Moved :=
  ((w.m.hw.movers.flatMap fun v =>
      ((v.2.run.map (·.entry)).toList ++ v.2.queue).map (footprint w v.1))
    ++ w.m.hw.moved.filter fun o => !isOver w o.cmd).filter fun o => o.who != who

/-- A noted write leaves a transfer open: a thread's that it reads, or another transfer's that it reads or writes. -/
def noteSpoils (f : Moved) (n : WNote) : Bool :=
  match n with
  | .thread a len => rangesMeet [(a, len)] f.reads
  | .mover who a len => who != f.who && rangesMeet [(a, len)] (f.reads ++ f.writes)
  | .tile _ _ _ => false

/-- A transfer's result is left unspecified: its source and destination overlap, its source was written after it was posted,
or a transfer that nothing orders with it meets it (R308; log 91). -/
def xferOpen (w : Mach) (n : Nat) (e : XEntry) : Bool :=
  let f := footprint w n e
  rangesMeet f.reads f.writes || (notedSince w e.mark).any (noteSpoils f) || (otherMoves w e.who).any (conflict f)

/-- Bytes that an unordered transfer had written are free values from now on. -/
def loosen (o : Moved) (w : Mach) : Mach :=
  let (k, w) := drawFree w
  o.writes.foldl (fun w r =>
    if isHost r.1 then w
    else storeBytes none r.1 ((List.range r.2).map fun i => BitVec.ofNat 8 (Config.unspecified k (r.1 + i))) w) w

/-- A transfer starts: those completed before it that nothing orders with it, and that it meets, are open too. -/
def spoilMoved (n : Nat) (e : XEntry) (w : Mach) : Mach :=
  let f := footprint w n e
  (w.m.hw.moved.filter fun o => o.who != e.who && !isOver w o.cmd && conflict f o).foldl (fun w o => loosen o w) w

/-- The bytes that a transfer has written, in the digest's order (R313). -/
def outBytes (r : XRun) : List Byte := r.out.flatMap (·.2.2)

/-- An open transfer's bytes are free values where it completes (log 91). -/
def settleOut (n : Nat) (r : XRun) (w : Mach) : XRun × Mach :=
  if xferOpen w n r.entry then
    let (k, w) := drawFree w
    let out := r.out.map fun x =>
      (x.1, x.2.1, (List.range x.2.2.length).map fun i => BitVec.ofNat 8 (Config.unspecified k (x.1 + i)))
    ({ r with out := out }, out.foldl (fun w x => moverPut false n r.entry x.2.1 x.2.2 w) w)
  else (r, w)

/-- The completion record (R314). -/
def completionRecord (w : Mach) (d : XD) (status runs va : Nat) : List Byte :=
  toBytes 4 status ++ toBytes 4 runs ++ toBytes 8 va ++ toBytes 8 w.m.tick ++ toBytes 8 d.xseq

/-- The keeper's record of a transfer's input (R313, R362, R432): its digest where it computes one, else under DET the
SHA-256 of the host bytes it read (log 24). -/
def recordXfer (e : XEntry) (r : XRun) (dig : Option (List Byte)) (w : Mach) : Mach :=
  let w := if e.det && !r.host.isEmpty then shipInput e.cls r.host.length w else w
  match dig with
  | some h => inputRecord e.cmd 1 e.lthread e.step.toNat h w
  | none => if e.det && !r.host.isEmpty then inputRecord e.cmd 1 e.lthread e.step.toNat (sha256 r.host) w else w

/-- A thread still runs what posted a transfer: its plan, or the same invocation (R338, R344). -/
def postedBy (th : Thread) (e : XEntry) : Bool :=
  match th.binding with
  | .plan c _ => c == e.cmd
  | .inv i _ => e.inv == some i
  | _ => false

/-- A transfer of an aborted plan, or of a run of an invocation that was aborted (R406; log 129): it does not start, and ends
at the boundary of the run that it makes. -/
def xferDropped (w : Mach) (e : XEntry) : Bool :=
  (planOf w e.cmd).aborted || (match e.inv with | some id => invDropped w id | none => false)

/-- Such a transfer ends where it stands, with nothing more written. -/
def dropRun (n : Nat) (w : Mach) : Mach := updMover n (fun v => { v with run := none }) w

/-- A transfer completes with DONE or ABSENT (R286, R313, R314): digest, record, line, count; the mover is free. -/
def endXfer (n : Nat) (status va : Nat) (w : Mach) : Mach :=
  match (moverOf w n).run with
  | none => w
  | some r =>
    let e := r.entry
    let d := xdOf e.desc
    let (r, w) := settleOut n r w
    let dig := if d.dig && status == 0 then some (sha256 (outBytes r)) else none
    let w := match dig with | some h => moverWrite n e d.digaddr h w | none => w
    let w := if d.cplen then moverWrite n e d.cpl (completionRecord w d status r.done va) w else w
    let done := footprint w n e
    let w := countXfer e n 0x08 1 (updMover n (fun v => { v with run := none }) (recordXfer e r dig w))
    let w := onHw (fun h => { h with moved := done :: h.moved }) w
    match e.who with
    | .thread key post =>
      let t := tidOf key
      let w := if d.irq then lineEvent t.vp.toNat (16 + d.line) w else w
      if postedBy (thr w t) e then endPost key post w else w
    | .cmd seq k => orderMoved (fun o => isOver w o.cmd) (endPiece seq k (outBytes r) (status == 1) w)

/-- A transfer ends once the host pages of its digest and record have been translated, and what it writes there is admitted
at its gates (R298, R300, R314). -/
def closeXfer (n : Nat) (r : XRun) (status va : Nat) (w : Mach) : Mach :=
  let e := r.entry
  let d := xdOf e.desc
  match lookRanges w n e (markRanges d) with
  | .ask page => askPage e.fn page w
  | _ =>
    let rs := markRanges { d with dig := d.dig && status == 0 }
    let w := if r.asked then w else askRun n e [] (moverPieces w n e rs) (updRun n (fun r => { r with asked := true }) w)
    let records := d.dig && status == 0 || e.det && !r.host.isEmpty
    if waitsAtGate w (.mover n) || records && inputWaits w e.cmd 1 then w else endXfer n status va w

/-! ### Starting (R285, R314, R316) -/

/-- MOVER_TRANSFER_START (R285, R314, R316): the next queued transfer starts and is charged its energy; its digest and
record addresses and its first four runs are translated. One whose digest or record address has no translation completes
at once. -/
def execMoverTransferStart (die : BitVec 1) (mover : BitVec 5) (s : State) : Host.Outcome State Fault Refusal :=
  run (fun w =>
    let n := die.toNat * 32 + mover.toNat
    let v := moverOf w n
    let st := unitState w (unitMover n)
    match v.run, v.queue with
    | none, e :: q =>
      if st != .inService && st != .draining then w
      else if xferDropped w e then refillMovers (updMover n (fun v => { v with queue := q }) w)
      else
        let d := xdOf e.desc
        let (k, w) := drawFree w
        let w := updMover n (fun v => { v with queue := q, run := some { entry := e, draw := k } }) w
        let idx := indexOf w n e d
        let w := spoilMoved n e w
        let w := request ⟨.energy, 0, e.cls, ceilDiv (xferEnergy w n e d) energyUnit, .mover n, none⟩ w
        let w := if d.rm == 3 then rwCount die.toNat d.slot [.reservedCode] w else w
        let ahead := ((unitsFrom d idx 4 0 0).flatMap (unitRanges d)) ++ markRanges d
        let w := translateAhead n e ahead w
        refillMovers (match lookRanges w n e (markRanges d) with
          | .absent va => closeXfer n ((moverOf w n).run.getD { entry := e }) 1 va w
          | .ask page => askPage e.fn page w
          | .ok _ => w)
    | _, _ => w) s

/-! ### Runs (R309, R310, R312) -/

/-- Element codes as bytes (R50). -/
def bytesOfCodes (fmt : Nat) (cs : List Nat) : List Byte :=
  let k := fmtBits fmt
  if 8 ≤ k then cs.flatMap (toBytes (k / 8))
  else toBytes (cs.length * k / 8) ((List.range cs.length).foldl (fun a i => a + (cs.getD i 0) <<< (i * k)) 0)

/-- The bytes that a piece writes: elements, scales and side words, with what converting counts (R310). -/
def convertPiece (e : XEntry) (d : XD) (p : XPiece) (src scales sides : List Byte) (w : Mach) :
    (List Byte × List Byte × List Byte × List Watch) × Mach :=
  if !converts d then ((src, [], [], []), w)
  else
    let (rms, w) := (List.range p.n).foldl (fun (r : List Rm × Mach) k =>
      let (m, w) := roundingOf d.rm e.entropy e.seed d.xseq (p.i * d.rowlen + p.k0 + k) 127 r.2
      (r.1 ++ [m], w)) ([], w)
    let rm (k : Nat) : Rm := rms.getD k .rne
    let codes := codesOf d.sfmt src p.n
    if fmtMx d.dfmt then
      let res := (List.range (p.n / 32)).map fun b =>
        packBlock d.dfmt (if d.ely then d.eln + 1 else 0) d.sat (fun k => rm (32 * b + k))
          ((codes.drop (32 * b)).take 32 |>.map fun c => (decodeElem d.sfmt c).1)
      ((bytesOfCodes d.dfmt (res.flatMap (·.codes)), res.map (fun r => BitVec.ofNat 8 r.scale),
        if d.ely then res.flatMap (fun r => toBytes 4 r.side) else [], res.flatMap (·.evs)), w)
    else if fmtMx d.sfmt then
      let res := (List.range (p.n / 32)).map fun b =>
        unpackBlock d.sfmt (scales.getD b 0).toNat ((codes.drop (32 * b)).take 32)
          (if d.ely then some (ofBytes ((sides.drop (4 * b)).take 4)) else none)
      let out := (List.range p.n).map fun k =>
        mxResult d.dfmt (rm k) d.sat ((res.flatMap (·.1)).getD k (.fin false 0 0))
      ((bytesOfCodes d.dfmt (out.map (·.1)), [], [], res.flatMap (·.2) ++ out.flatMap (·.2)), w)
    else
      let out := (List.range p.n).map fun k => convertElem d.sfmt d.dfmt (rm k) d.sat (codes.getD k 0)
      ((bytesOfCodes d.dfmt (out.map (·.1)), [], [], out.flatMap (·.2)), w)

/-- The place of written bytes in the digest's order: plane, row, byte within the row (R313). -/
def outKey (plane row off : Nat) : Nat := (plane * 2 ^ 24 + row) * 2 ^ 40 + off

/-- Write a piece of a plane and note its bytes for the digest. -/
def putOut (n : Nat) (e : XEntry) (plane row off va : Nat) (bs : List Byte) (w : Mach) : Mach :=
  if bs.isEmpty then w
  else updRun n (fun r => { r with out := tput r.out (outKey plane row off) (va, bs) }) (moverWrite n e va bs w)

/-- One piece of a row moves (R309, R310). -/
def movePieceBytes (k n : Nat) (e : XEntry) (d : XD) (p : XPiece) (w : Mach) : Mach :=
  let src := moverBytes w k n e (pieceSrc d p) (ceilDiv (p.n * xBits d.sfmt) 8)
  let scales := if !isRaw d.sfmt && fmtMx d.sfmt then
    moverBytes w k n e (d.sscale + (p.srow * d.rowlen + p.k0) / 32) (p.n / 32) else []
  let sides := if !isRaw d.sfmt && fmtMx d.sfmt && d.ely then
    moverBytes w k n e (d.sside + (p.srow * d.rowlen + p.k0) / 8) (p.n / 8) else []
  let ((bs, sc, sd, ev), w) := convertPiece e d p src scales sides w
  let w := rwCount (n / 32) d.slot ev w
  let w := putOut n e 0 p.i (p.k0 * xBits d.dfmt / 8) (pieceDst d p) bs w
  let w := putOut n e 1 p.i (p.k0 / 32) (d.dscale + (p.drow * d.rowlen + p.k0) / 32) sc w
  putOut n e 2 p.i (p.k0 / 8) (d.dside + (p.drow * d.rowlen + p.k0) / 8) sd w

/-- The bytes of a run move; what it reads of host memory is the draw `k`. -/
def moveUnit (k n : Nat) (e : XEntry) (d : XD) (u : XUnit) (w : Mach) : Mach :=
  match u with
  | .line i => putOut n e 0 i 0 (d.dst + i * 2048) (List.replicate 2048 0) w
  | .rows ps => ps.foldl (fun w p => movePieceBytes k n e d p w) w
  | .block r0 c0 nr nc =>
    let rows := (List.range nr).map fun r =>
      moverBytes w k n e (d.src + (r0 + r) * d.sstride + c0 * d.esize) (nc * d.esize)
    (List.range nc).foldl (fun w c =>
      let bs := rows.flatMap fun row => (row.drop (c * d.esize)).take d.esize
      putOut n e 0 (c0 + c) (r0 * d.esize) (d.dst + (c0 + c) * d.dstride + r0 * d.esize) bs w) w

/-- The host addresses that a run's range reads, in order. -/
def hostAddrs (x : XRange × List Chunk) : List Nat :=
  if x.1.write then []
  else x.2.flatMap fun c =>
    match c.pa with
    | some a => if isHost a then (List.range c.len).map fun i => a + i else []
    | none => []

/-- The host bytes that a run reads (R362): its index entries as the transfer has them, the rest by the draw `k`. -/
def hostReads (w : Mach) (k n : Nat) (e : XEntry) (cs : List (XRange × List Chunk)) : List Byte :=
  let index := if indexed (xdOf e.desc) then 1 else 0
  (cs.take index).flatMap (fun x => (hostAddrs x).map (hostAt w (indexDraw w n e)))
    ++ (cs.drop index).flatMap fun x => (hostAddrs x).map (hostAt w k)

/-- The lead's host bytes that a follower's run reads next, none where they have not all come (R432): tagged by command,
logical thread and step, and past the command's named inputs. -/
def shippedBytes (w : Mach) (r : XRun) (len : Nat) : Option (List Byte) :=
  let e := r.entry
  let tag := (e.cmd * 2 ^ 16 + e.lthread) * 2 ^ 64 + e.step.toNat
  let first := match e.who with | .cmd _ piece => piece | _ => (planOf w e.cmd).ins.length
  match w.m.twin.inputs.find? fun x => x.1 / 2 ^ 32 == tag && decide (first ≤ x.1 % 2 ^ 32) with
  | some (_, bs) => if r.host.length + len ≤ bs.length then some ((bs.drop r.host.length).take len) else none
  | none => none

/-- On a follower the run sees the lead's host bytes; none where it has to wait for them (R432). -/
def withShipped (r : XRun) (cs : List (XRange × List Chunk)) (w : Mach) : Option Mach :=
  let as := cs.flatMap hostAddrs
  if w.m.twin.role ≠ 2 ∨ as.isEmpty = true then some w
  else (shippedBytes w r as.length).map fun bs => onTwin (fun t => { t with view := (as.zip bs).foldl (fun v e => tput v e.1 e.2) [] }) w

/-- A transfer that met an uncorrectable granule ends: its command is aborted and no record is written (R314, R405). -/
def abortXfer (n : Nat) (e : XEntry) (g : Nat) (w : Mach) : Mach :=
  let w := updMover n (fun v => { v with run := none }) w
  match e.who with
  | .cmd seq _ => failCmd seq erUncorrectable (errorRecord ecUeRead { addr := 32 * g, cmd := seq } w)
  | .thread key _ =>
    if postedBy (thr w (tidOf key)) e then abortThread (tidOf key) g w
    else errorRecord ecUeRead { addr := 32 * g, cmd := e.cmd, step := e.step } w

/-- MOVER_RUN (R285, R298, R309, R310, R312, R316, R405): the next run is admitted at its gates and moves; the run four
on is translated ahead. A run that meets no translation waits for MOVER_ABSENT_STOP, one that needs ATS for its
completion. -/
def execMoverRun (die : BitVec 1) (mover : BitVec 5) (s : State) : Host.Outcome State Fault Refusal :=
  run (fun w =>
    let n := die.toNat * 32 + mover.toNat
    match (moverOf w n).run with
    | none => w
    | some r =>
      let e := r.entry
      let d := xdOf e.desc
      if waitsAtGate w (.mover n) then w
      else if xferDropped w e && !r.asked then dropRun n w
      else match unitAt d (indexOf w n e d) r.row r.off with
        | none => w
        | some (u, row', off') =>
          match runLook w n r u with
          | .absent _ => w
          | .ask page => askPage e.fn page w
          | .ok cs =>
            let ps := cs.flatMap fun x => x.2.map fun c => (x.1.write, c)
            let w := if r.asked then w
              else askRun n e r.touched ps
                (translateAhead n e (unitRanges d u) (updRun n (fun r => { r with asked := true }) w))
            if waitsAtGate w (.mover n) then w
            else match withShipped r cs w with
            | none => w
            | some w =>
              let later := (unitsFrom d (indexOf w n e d) 5 r.row r.off).drop 4
              let w := translateAhead n e (later.flatMap (unitRanges d)) w
              let reads := (cs.filter fun x => !x.1.write).flatMap (·.2)
              let bad := badPiece w reads
              let w := logUnit (unitMover n) false reads (correctPieces reads w)
              let (k, w) := drawFree w
              let host := hostReads w k n e cs
              let w := moveUnit k n e d u w
              let w := updRun n (fun r =>
                { r with done := r.done + 1, row := row', off := off', asked := false, host := r.host ++ host,
                         touched := unitsTouched 256 ps }) w
              let w := if e.inv.any (leftBehind w) then
                  patchPast (ps.filterMap fun p => if p.1 then p.2.pa.map fun a => (a, p.2.len) else none) w
                else w
              match bad with
              | none => if xferDropped w e then dropRun n w else w
              | some g => abortXfer n e g w) s

/-- MOVER_ABSENT_STOP (R286, R298, R314, R405): a transfer reaches a run with no translation, or has none for its digest or
record before its first run, and completes with ABSENT. -/
def execMoverAbsentStop (die : BitVec 1) (mover : BitVec 5) (s : State) : Host.Outcome State Fault Refusal :=
  run (fun w =>
    let n := die.toNat * 32 + mover.toNat
    match (moverOf w n).run with
    | none => w
    | some r =>
      let e := r.entry
      let d := xdOf e.desc
      if waitsAtGate w (.mover n) then w
      else if xferDropped w e then dropRun n w
      else match unitAt d (indexOf w n e d) r.row r.off with
      | none => w
      | some (u, _, _) =>
        match runLook w n r u with
        | .absent va =>
          match walkBad w e.ctx.xlbase va with
          | some g => abortXfer n e g w
          | none => closeXfer n r 1 va w
        | _ => w) s

/-- MOVER_TRANSFER_COMPLETE (R307, R313, R314): a transfer whose runs have all moved completes. -/
def execMoverTransferComplete (die : BitVec 1) (mover : BitVec 5) (s : State) : Host.Outcome State Fault Refusal :=
  run (fun w =>
    let n := die.toNat * 32 + mover.toNat
    match (moverOf w n).run with
    | none => w
    | some r =>
      let d := xdOf r.entry.desc
      if waitsAtGate w (.mover n) || (unitAt d (fun _ => 0) r.row r.off).isSome then w
      else if xferDropped w r.entry then dropRun n w
      else closeXfer n r 0 0 w) s

end Sys2Proof.Machine
end

