-- ==== Sys2Proof/Machine/Rings.lean ====
section
/-! DEFINITION. Rings, doorbells, intake of commands and the journal's commits (R373 to R378, R449, R452 to R457), and the
commands NOP and RELEASE (R458, R460). -/

namespace Sys2Proof.Machine
open Sys2Proof

/-- The distance from one free-running count to another (R452). -/
def countGap (a b : Nat) : Nat := (b + 2 ^ 32 - a % 2 ^ 32) % 2 ^ 32

/-- Recovery (R489). -/
def inRecovery (w : Mach) : Bool := bit w.m.sec.bootBits 0

/-- A write of a producer count: accepted when it advances by less than 2^31 and leaves the ring no more than full
(R453). -/
def producerOk (p c size d : Nat) : Bool := decide (countGap p d < 2 ^ 31 ∧ countGap c d ≤ size)

/-- The slots that a function fills come first; the count moves on or the write is refused (R453), as every write is in
recovery (R489). -/
def producerWrite (fn owner addr pi ci size d : Nat) (fill : Mach → Mach) (w : Mach) : Mach :=
  if fn ≠ owner ∨ inRecovery w = true then hostViolation fn addr true w
  else
    let w := fill w
    if producerOk (ringCount w pi) (ringCount w ci) size d then setCount pi d w else hostViolation fn addr true w

/-- Slots of a ring with their new contents. -/
def fillSlots (key size : Nat) (slots : List (Nat × Nat)) (t : Table Nat) : Table Nat :=
  slots.foldl (fun t e => twrite 0 t (key * 2 ^ 12 + e.1 % size) e.2) t

/-- CMD_PCOUNT_WRITE (R453): the host fills slots of a command ring and advances its producer count. -/
def execCmdPcountWrite (fn : BitVec 5) (ring : BitVec 5) (value : BitVec 32) (slots : List (Nat × BitVec 512))
    (s : State) : Host.Outcome State Fault Refusal :=
  run (fun w =>
    let r := ring.toNat
    producerWrite fn.toNat (cmdRingFn w r) (0xF00000 + 4 * r) r (64 + r) 256 value.toNat
      (onH fun h => { h with cmdSlots := fillSlots r 256 (slots.map fun e => (e.1, e.2.toNat)) h.cmdSlots }) w) s

/-- EVT_PCOUNT_WRITE (R453): the host fills slots of an event ring and advances its producer count. -/
def execEvtPcountWrite (fn : BitVec 5) (ring : BitVec 6) (value : BitVec 32) (slots : List (Nat × BitVec 1024))
    (s : State) : Host.Outcome State Fault Refusal :=
  run (fun w =>
    let r := ring.toNat
    producerWrite fn.toNat (evRingFn w r) (0xF00100 + 4 * r) (128 + r) (192 + r) 1024 value.toNat
      (onH fun h => { h with evSlots := fillSlots r 1024 (slots.map fun e => (e.1, e.2.toNat)) h.evSlots }) w) s

/-- RSP_CCOUNT_WRITE (R454): the host returns response slots it has consumed; more than were posted is refused
(log 25). -/
def execRspCcountWrite (fn : BitVec 5) (ring : BitVec 6) (value : BitVec 32) (s : State) :
    Host.Outcome State Fault Refusal :=
  run (fun w =>
    let r := ring.toNat
    let c := ringCount w (320 + r)
    if fn.toNat ≠ evRingFn w r ∨ inRecovery w = true ∨ countGap c (ringCount w (256 + r)) < countGap c value.toNat then
      hostViolation fn.toNat (0xF00200 + 4 * r) true w
    else setCount (320 + r) value.toNat w) s

/-- MSG_PCOUNT_WRITE (R453, R456): the host fills slots of a message channel and advances its producer count. -/
def execMsgPcountWrite (fn : BitVec 5) (channel : BitVec 4) (value : BitVec 32) (slots : List (Nat × BitVec 512))
    (s : State) : Host.Outcome State Fault Refusal :=
  run (fun w =>
    let k := channel.toNat
    producerWrite fn.toNat fn.toNat (0xF00900 + 4 * k) (384 + k) (448 + k) 16 value.toNat
      (onH fun h => { h with msgSlots := fillSlots k 16 (slots.map fun e => (e.1, e.2.toNat)) h.msgSlots }) w) s

/-- One event through a route of HIF_ROUTE into line `n` of its VP; with EN 0 it is discarded and logged (R456). -/
def routeEvent (route n fn addr : Nat) (w : Mach) : Mach :=
  let r := tread 0 w.m.h.routes route
  if r.getLsbD 5 then lineEvent (r.toNat % 32) n w else hostViolation fn addr true w

/-- HOST_DOORBELL (R456, R489): a write of any value to host doorbell d. -/
def execHostDoorbell (fn : BitVec 5) (d : BitVec 3) (s : State) : Host.Outcome State Fault Refusal :=
  run (fun w =>
    let a := 0xF00800 + 4 * d.toNat
    if inRecovery w then hostViolation fn.toNat a true w else routeEvent (16 + d.toNat) (40 + d.toNat) fn.toNat a w) s

/-- MESSAGE_INTAKE (R456): the keeper takes the next message of a channel. -/
def execMessageIntake (channel : BitVec 4) (s : State) : Host.Outcome State Fault Refusal :=
  run (fun w =>
    let k := channel.toNat
    let c := ringCount w (448 + k)
    if c = ringCount w (384 + k) then w
    else routeEvent k k 0 (0xF00900 + 4 * k) (setCount (448 + k) (c + 1) w)) s

/-! ### The journal (R373 to R378) -/

/-- The keeper takes an entry that makes some journal records: intake is open, the bank holds 45 J, the journal has room
(R376, R377, R385, R387). -/
def intakeOpen (w : Mach) (n : Nat := 1) : Bool :=
  w.m.sec.intake && decide (45 ≤ w.m.power.joules) && jRoom w n

/-- A full ring or staging buffer holds an entry up: the alert goes out once until there is room at a boundary (R377;
log 48). -/
def backpressure (n : Nat) (w : Mach) : Mach :=
  if jRoom w n || w.m.k.jAlert || !w.m.sec.intake then w
  else alert alJournal 0 (jResident w) (onK (fun k => { k with jAlert := true }) w)

/-- A ring is served by this module (R433, R438, R455): a follower takes command rings only; a fenced module takes nothing new
but TWIN commands, from ring 31. -/
def ringServed (w : Mach) (event : Bool) (r : Nat) : Bool :=
  match w.m.twin.role with
  | 2 => !event
  | 3 => !event && r == 31 && isTwinOp (bits (tread 0 w.m.h.cmdSlots (r * 2 ^ 12 + ringCount w (64 + r) % 256)) 0 8)
  | _ => true

/-- Responses of an event ring that are owed or not yet taken by the host: below 1,024 an event has its slot (R454). -/
def ringOwes (w : Mach) (r : Nat) : Nat :=
  countGap (ringCount w (320 + r)) (ringCount w (256 + r)) + ringCount w (512 + r)

/-- A ring has an entry that the keeper may take, command rings first in number (R454): of an event ring while its response
has a slot and its session's home has room for it (R336). -/
def ringWaits (w : Mach) (k : Nat) : Bool :=
  if k < 32 then ringCount w (64 + k) != ringCount w k && ringServed w false k
  else
    let r := k - 32
    let n := ringCount w (192 + r)
    let sid := bits (tread 0 w.m.h.evSlots (r * 2 ^ 12 + n % 1024)) 0 20
    n != ringCount w (128 + r) && ringServed w true r && decide (ringOwes w r < 1024 ∧ poolUsed w (homeDie w sid) < 524288)

/-- It is a ring's turn: none that waits comes sooner after the one served last (R454). -/
def ringTurn (w : Mach) (k : Nat) : Bool :=
  let away (j : Nat) : Nat := (j + 95 - w.m.h.turn) % 96
  (List.range 96).all fun j => j == k || !ringWaits w j || decide (away k < away j)

/-- A ring is served. -/
def serveRing (k : Nat) (w : Mach) : Mach := onH (fun h => { h with turn := k }) w

/-- A journal record of a ring's entry (R374). -/
def entryRecord (typ ring rseq body : Nat) (st : Stamp) (epoch : Nat) : JRec :=
  { typ := typ, ring := ring, rseq := rseq, body := body, tick := st.tick, src := sourceOf st.unit,
    sq := BitVec.ofNat 16 st.seq, epoch := epoch }

/-- COMMAND_INTAKE (R373, R454, R457): the keeper takes the next entry of a command ring whose turn it is. One whose status word is not IDLE
or not its function's is discarded and logged; any other is numbered, stamped, journalled and QUEUED. -/
def execCommandIntake (ring : BitVec 5) (s : State) : Host.Outcome State Fault Refusal :=
  run (fun w =>
    let r := ring.toNat
    let n := ringCount w (64 + r)
    let fn := cmdRingFn w r
    if n = ringCount w r ∨ !ringServed w false r ∨ !ringTurn w r then w
    else if !intakeOpen w then backpressure 1 w
    else
      let entry := tread 0 w.m.h.cmdSlots (r * 2 ^ 12 + n % 256)
      let w := setCount (64 + r) (n + 1) (serveRing r w)
      let sw := bits entry 16 15
      if (tget w.m.h.sw sw).isSome ∨ tread 0 w.m.h.swOwn (sw / 1024) ≠ fn then hostViolation fn (0xD00000 + 64 * sw) true w
      else
        let local' := w.m.twin.role == 2
        let seq := if local' then 2 ^ 31 + w.m.twin.cmdLocal else w.m.h.cmdNext
        let st := nextStamp unitKeeper w
        let c : Cmd := { entry := entry, fn := fn, ring := r, rseq := n, tick := st.tick, src := sourceOf unitKeeper,
                         sq := BitVec.ofNat 16 st.seq, jseq := nextJseq w, epoch := w.m.epoch }
        let word : StatusW := { seq := seq, state := 1, opcode := bits entry 0 8, tag := bits entry 32 32, rseq := n,
                                ring := r, tick := st.tick, epoch := w.m.epoch, upd := 1 }
        let w := onH (fun h => { h with cmds := tput h.cmds seq c, sw := tput h.sw sw word }) (takeStamp unitKeeper w)
        let w := if local' then onTwin (fun t => { t with cmdLocal := t.cmdLocal + 1 }) w
          else onH (fun h => { h with cmdNext := if seq + 1 = 2 ^ 32 then 1 else seq + 1 }) w
        checkTally (.queue (64 + r)) (journalAdd (entryRecord 2 r n (n + entry <<< 256) st w.m.epoch) w)) s

/-- A committed command that no row carries out: an unlisted opcode, a PF command of a VF, a TWIN command off ring 31, and
any other command of a follower's own rings (R433, R455, R458). -/
def refuseAtCommit (seq : Nat) (w : Mach) : Mach :=
  let c := cmdOf w seq
  if stateOf w seq ≠ 1 then w
  else if w.m.twin.role = 2 ∧ fromTwin c = false ∧ isTwinOp (opcodeOf c) = false then showEnd seq erTwinRole 0 w
  else match opcodeInfo (opcodeOf c) with
    | none => failCmd seq erOpcode w
    | some vf =>
      if c.fn ≠ 0 && !vf then failCmd seq erFunction w
      else if isTwinOp (opcodeOf c) && c.ring != 31 then failCmd seq erTwinRole w
      else w

/-- A record goes to the twin, under the class of its command or session (R427, R430); ring 31 is local (R455). -/
def shipRecord (j : Nat) (r : JRec) (w : Mach) : Mach :=
  if r.typ = 2 ∧ r.ring = 31 then w
  else
    let cls := if r.typ = 1 then (sessOf w (bits r.body 0 20)).cls
      else match w.m.h.cmds.find? fun e => if r.typ = 3 then e.1 == bits (r.body >>> 256) 0 32 else e.2.jseq == j with
        | some (_, c) => cmdClass w c
        | none => 0
    sendFrame 1 cls 5 w

/-- A lead that ships its journal: paired, or with the snapshot of a pairing gone out (R428, R442). -/
def ships (w : Mach) : Bool :=
  w.m.twin.role == 1 && (w.m.twin.mode != 0 || (match w.m.twin.pairing with | some (_, _, b) => b | none => false))

/-- JOURNAL_COMMIT (R376, R430): the oldest staged record is written and read back while the ring has space. What waited for it
goes on. -/
def execJournalCommit (s : State) : Host.Outcome State Fault Refusal :=
  run (fun w =>
    let space := decide (jResident w < ringRecords)
    match w.m.k.journal.find? fun e => !e.2.committed && (space || decide (2 ^ 62 ≤ e.1)) with
    | none => w
    | some (j, r) =>
      let w := putRecord j { r with committed := true } w
      let w := if ships w then shipRecord j r w else w
      let w := match w.m.h.cmds.find? fun e => e.2.jseq == j && r.typ == 2 with
        | some (seq, _) => refuseAtCommit seq w
        | none => w
      releaseResponses w) s

/-- SEGMENT_DRAIN (R378): the oldest full segment of committed records has been programmed in NAND under its header and
checked, and leaves the ring. -/
def execSegmentDrain (s : State) : Host.Outcome State Fault Refusal :=
  run (fun w =>
    let d := w.m.k.jDrained
    let waiting := w.m.k.journal.any fun e => decide (d ≤ e.1 ∧ e.1 < d + segmentRecords) && !e.2.committed
    if w.m.k.jseq < d + segmentRecords ∨ waiting then w
    else
      let h := segHead w d
      checkTally .journal (drainTo (d + segmentRecords) (onK (fun k => { k with segs := tput k.segs d h }) w))) s

/-! ### NOP and RELEASE -/

/-- NOP_COMMAND (R458). -/
def execNopCommand (seq : Nat) (s : State) : Host.Outcome State Fault Refusal :=
  run (command seq 0x00 fun _ => checkedCmd seq [] fun _ => atOnce seq id) s

/-- RELEASE (R460): finished status words of the range that the function owns become IDLE. -/
def execRelease (seq : Nat) (s : State) : Host.Outcome State Fault Refusal :=
  run (command seq 0x18 fun _ => checkedCmd seq [(128, 15), (144, 16)] fun c w =>
    let first := cmdBits c 0x10 0 15
    let n := cmdBits c 0x10 16 16
    let own := swordOf c
    if n = 0 ∨ 32768 < n ∨ (first ≤ own ∧ own < first + n) then failCmd seq erFormat w
    else
      let gone (e : Nat × StatusW) : Bool :=
        decide (first ≤ e.1 ∧ e.1 < first + n) && (e.2.state == 4 || e.2.state == 5)
        && tread 0 w.m.h.swOwn (e.1 / 1024) == c.fn
      let k := (w.m.h.sw.filter gone).length
      atOnce seq (fun w => setProgress seq k (onH (fun h => { h with sw := h.sw.filter fun e => !gone e }) w)) w) s

end Sys2Proof.Machine
end

