-- ==== Sys2Proof/Machine/PlanCore.lean ====
section
/-! DEFINITION. Plans: reading an image (R459), binding threads (R525, R526), rolling back (R408), and the dump of a
replay (R369). -/

namespace Sys2Proof.Machine
open Sys2Proof

/-! ### The image (R459) -/

/-- Pairs of an address and a length from 16-byte entries. -/
def rangeEntries (v n : Nat) : List (Nat × Nat) :=
  (List.range n).map fun i => (bits v (128 * i) 48, bits v (128 * i + 64) 64)

/-- A checkpoint of T threads from its bytes. -/
def checkpointOf (t v : Nat) : CkPoint :=
  { f := bits v 0 64, out := bits v 64 64,
    thr := (List.range t).map fun k => (bits v (128 + 128 * k) 64, bits v (192 + 128 * k) 48) }

/-- Two byte ranges, the first from 0 of `n` bytes, overlap. -/
def overHeader (off len : Nat) : Bool := decide (off < 0x28 ∧ len ≠ 0)

/-- The plan that a RUN_PLAN names, none where the image or the arguments break R459. -/
def readPlan (w : Mach) (c : Cmd) : Option Plan :=
  let asid := BitVec.ofNat 16 (cmdBits c 0x18 0 16)
  let image := cmdBits c 0x10 0 48
  let nin := cmdBits c 0x30 0 8
  let nout := cmdBits c 0x30 8 8
  let serve := cmdBits c 0x18 22 1 == 1
  do
    let ab ← asidRead w asid (cmdBits c 0x28 0 48) (16 * (nin + nout) + if serve then 16 else 0)
    let hb ← asidRead w asid image 0x28
    let h := ofBytes hb
    let t := bits h 32 16
    let eo := bits h (8 * 0x18) 32
    let ec := bits h (8 * 0x1C) 32
    let co := bits h (8 * 0x20) 32
    let cc := bits h (8 * 0x24) 32
    let csize := 16 + 16 * t
    if bits h 0 32 ≠ 0x4E414C50 ∨ t = 0 ∨ 256 < t ∨ cc = 0 ∨ 65536 < ec ∨ overHeader eo (8 * ec) = true
        ∨ overHeader co (csize * cc) = true then none
    else
      let eb ← asidRead w asid (image + eo) (8 * ec)
      let cb ← asidRead w asid (image + co) (csize * cc)
      let a := ofBytes ab
      let ev := ofBytes eb
      some
        { t := t, serve := serve, die := cmdBits c 0x18 23 1, asid := asid, cls := cmdBits c 0x18 16 6,
          outdig := cmdBits c 0x18 24 1 == 1, seed := BitVec.ofNat 64 (cmdBits c 0x20 0 64),
          geom := bits h 64 64, dec := bits h 128 64,
          entries := (List.range ec).map fun i => bits ev (64 * i) 48,
          cks := (List.range cc).map fun i => checkpointOf t (ofBytes ((cb.drop (csize * i)).take csize)),
          ins := rangeEntries a nin,
          outs := (rangeEntries a (nin + nout)).drop nin,
          lend := if serve then bits a (128 * (nin + nout)) 128 else 0,
          lopid := lopidOf c, intake := c.tick,
          image := [(image, 0x28), (image + eo, 8 * ec), (image + co, csize * cc)],
          imgKey := ofBytes (sha256 (hb ++ eb ++ cb)),
          imgSize := 0x28 + 8 * ec + csize * cc + ((rangeEntries a nin).map (·.2)).sum }

/-- The bytes of named ranges in order, none where one has no translation (R459, R362). -/
def rangeBytes (asid : BitVec 16) (rs : List (Nat × Nat)) (w : Mach) : Option (List (List Byte)) × Mach :=
  rs.foldl (fun (r : Option (List (List Byte)) × Mach) x =>
    match r.1, asidPieces r.2 asid .read x.1 x.2 with
    | some out, .ok cs =>
      let (b, w) := readChunks cs r.2
      (some (out ++ [b]), w)
    | _, _ => (none, r.2)) (some [], w)

/-! ### Binding (R525, R526) -/

/-- The checkpoint that a plan resumes from. -/
def resumeAt (p : Plan) : CkPoint := p.cks.getD p.ck { f := 0, out := 0, thr := [] }

/-- What every binding clears in a thread (R337, R525): user state, with the values that wait for a CSYNC, and all that a
context before it had under way. -/
def freshState (th : Thread) : Thread :=
  { th with
    g := [], v := [], p := [], vln := 0, lc0 := 0, lc1 := 0, ls0 := 0, ls1 := 0, le0 := 0, le1 := 0, pend := [],
    tstart := 0, cvtSlot := 0, gm := false, priv := false, bank := [], pltid := 0, ucsel := 0, ucnt := [], step := 0,
    family := false, famCount := 0, live := 0, laneStep := [], laneBase := [], groups := [], acting := none, ovf := false,
    barinc := false, missing := 0, gblim := 0, xferPosted := 0, xferEnded := [], xferDone := 0, park := .none,
    gateWaits := 0, paid := [], cause := none, stopped := false, costSum := 0 }

/-- A thread bound to logical thread `k` of a plan (R360, R492, R525): user state is cleared, supervisor control registers
stay as they were. -/
def bindState (w : Mach) (seq k : Nat) (th : Thread) : Thread :=
  let c := cmdOf w seq
  let p := planOf w seq
  let (step, pc) := (resumeAt p).thr.getD k (0, 0)
  { freshState th with
    pc := BitVec.ofNat 48 pc, seed := splitMix (p.seed ^^^ BitVec.ofNat 64 k), pltid := BitVec.ofNat 16 (k + (p.t - 1) <<< 8),
    lopid := p.lopid, step := BitVec.ofNat 64 step, binding := .plan seq k, cls := p.cls, fn := c.fn, intake := p.intake,
    det := c.det, costLimit := 0,
    stopAt := match p.replay with
      | some r => if r.kind = 0 ∧ r.lthread = k then some (BitVec.ofNat 64 r.step) else none
      | none => none }

/-- The threads that may be bound: on VPs in service, bound to nothing and lent to nobody (R526), and with no store of what
they ran before still in the buffer. -/
def freeThreadsOf (w : Mach) : List Nat :=
  (List.range 256).filter fun k =>
    (tread {} w.m.threads k).binding == .free && !(tread {} w.m.threads k).dead
      && (tread {} w.m.threads k).sbuf.isEmpty && inService w (unitVp (k / 8))

/-- Those of a list that a preference names come first. -/
def preferred (prefs ks : List Nat) : List Nat :=
  (prefs.filter ks.contains).eraseDups ++ ks.filter fun k => !prefs.contains k

/-- The plan's field queue begins at a checkpoint, and its logical threads are bound to the threads given (R360, R525). -/
def bindPlan (seq : Nat) (ks : List Nat) (w : Mach) : Mach :=
  let p := planOf w seq
  let w := updQueue (.plan seq) (fun q => { q with step := BitVec.ofNat 64 (resumeAt p).f })
    (newQueue (.plan seq) (BitVec.ofNat 64 p.geom) w)
  let w := (List.range p.t).foldl (fun w k =>
    match ks[k]? with
    | some i => updThr (tidOf i) (bindState w seq k) (freshMover i w)
    | none => w) w
  let w := updPlan seq (fun p => { p with bound := true, aborted := false, granule := none, stall := 0 }) w
  -- a replay whose target lies at the start stops there (R367)
  match p.replay with
  | some r =>
    if r.step = 0 then
      stopThreads (fun th => cmdOfThread th == some seq)
        (updPlan seq (fun p => { p with replay := some { r with stopped := true, reached := true, tick := w.m.tick } }) w)
    else w
  | none => w

/-! ### What a plan still does (R356, R357, R406) -/

/-- A transfer of a command is on a mover or in a queue. -/
def transfersOf (w : Mach) (seq : Nat) : Bool :=
  w.m.hw.movers.any fun e => e.2.queue.any (fun x => x.cmd == seq) ||
    (match e.2.run with | some r => r.entry.cmd == seq | none => false)

/-- The field runs an operation of a plan or of an invocation that it serves. -/
def inField (w : Mach) (seq : Nat) : Bool :=
  match w.m.fieldRun with
  | some r => ownerOf w seq r.owner
  | none => false

/-- Some mover runs a transfer of the command. -/
def onMover (w : Mach) (seq : Nat) : Bool :=
  w.m.hw.movers.any fun e => match e.2.run with | some r => r.entry.cmd == seq | none => false

/-- The threads bound to a plan, with their logical numbers. -/
def boundTo (w : Mach) (seq : Nat) : List (Nat × Thread) :=
  w.m.threads.filter fun e => match e.2.binding with | .plan c _ => c == seq | _ => false

/-- Nothing of the plan is in flight any more: no operation, transfer, buffered store, request or entry, and no
invocation on a thread that it lends. -/
def planQuiet (w : Mach) (seq : Nat) : Bool :=
  !inField w seq && !transfersOf w seq
  && (match w.m.fqueues.find? fun e => e.1 == .plan seq with | some e => e.2.entries.isEmpty | none => true)
  && (boundTo w seq).all (fun e => e.2.sbuf.isEmpty && e.2.gateWaits == 0 && e.2.cause == none)
  && w.m.threads.all fun e => match e.2.binding with | .inv _ c => c != seq | _ => true

/-- The outputs' digest, none where a byte has no translation (R434, R459). -/
def outputDigest (seq : Nat) (w : Mach) : Option (List Byte) × Mach :=
  let p := planOf w seq
  let (r, w) := rangeBytes p.asid p.outs w
  (r.map fun bs => sha256 (bs.flatMap id), w)

/-! ### The dump of a replay (R369) -/

/-- The body of a dump of kind THREAD. -/
def threadDump (w : Mach) (t : Tid) : List Byte :=
  let th := thr w t
  let v := vpOf w t.vp.toNat
  let d (n : Nat) : List Byte := toBytes 8 n
  let head := (List.range 32).flatMap (fun i => if i = 0 then d 0 else d (tread 0 th.g i).toNat)
    ++ d th.pc.toNat ++ d th.vln.toNat ++ d th.lc0.toNat ++ d th.lc1.toNat ++ d th.ls0.toNat ++ d th.le0.toNat
    ++ d th.ls1.toNat ++ d th.le1.toNat ++ d th.tstart.toNat ++ d th.seed.toNat ++ d v.full.toNat
    ++ d (gstatOf th).toNat ++ List.replicate 0x60 0
  let ps := (List.range 8).flatMap fun i => toBytes 1024 (tread 0 th.p i).toNat
  let vs := (List.range 32).flatMap fun i => toBytes 8192 (tread 0 th.v i).toNat
  let tiles := ((List.range 8).filter fun k => v.full.getLsbD k && tileOwner v.tmap k == some t.th.toNat).flatMap
    fun k => (List.range 64).flatMap fun r => toBytes 256 (tread 0 v.tiles (tileKey (tileGen v k) k r)).toNat
  let slots := if th.family then
      ((List.range 16).filter fun k => (tget th.groups k).isSome).flatMap fun k =>
        (List.range 80).flatMap fun dw => d (gtRead th k dw).toNat
    else []
  head ++ ps ++ vs ++ tiles ++ slots

/-- The header of a dump, with the tick stamp of the stop. -/
def dumpHeader (tick kind : Nat) (reached : Bool) (stepr : Nat) (body : List Byte) : List Byte :=
  toBytes 8 (kind + b2n reached <<< 2) ++ toBytes 8 stepr ++ toBytes 8 tick ++ toBytes 8 body.length ++ sha256 body

/-- Host bytes by their IOVA, as pieces of the host window (R275). -/
def hostPieces (write : Bool) (iova len : Nat) : List (Bool × Chunk) :=
  (cutPages (len / 4096 + 2) (0x800000000000 + iova) len).map fun p => (write, ⟨p.1, p.2, some p.1, none⟩)

/-- The host's list of ranges that a replay of kind FIELD reads (R365). -/
def listPieces (c : Cmd) : List (Bool × Chunk) :=
  if cmdBits c 0x10 0 2 = 1 then hostPieces false (cmdBits c 0x30 0 48) (16 * cmdBits c 0x18 8 5) else []

/-- The dump leaves, once ATS grants its pages (R298) and the gates admit it (R42), as PCIe payload of the replay's class with
the bytes `ps` that it was read from, and the command is DONE (R369, R458, R461). -/
def endReplay (seq tick kind : Nat) (reached : Bool) (stepr : Nat) (ps : List (Bool × Chunk)) (body : List Byte) (w : Mach) :
    Mach :=
  let c := cmdOf w seq
  let head := dumpHeader tick kind reached stepr body
  let out := if cmdBits c 0x10 2 1 = 1 then head else head ++ body
  let cls := cmdBits c 0x10 24 6
  withHost seq (listPieces c ++ hostPieces true (cmdBits c 0x28 0 48) out.length)
    (fun _ => failCmd seq erXlateAbsent)
    (keeperPays (workOf seq 3) fun w =>
      let w := if stateOf w seq = 1 then startCmd seq w else w
      let w := chargeKeeper cls false (ps.map (·.2)) w
      let w := keeperEnergy cls (2 * out.length) (request ⟨.pcieOut, 0, cls, out.length, keeperNow w, none⟩ w)
      let w := updWord seq (fun s => { s with step := stepr }) w
      finishCmd seq 0 (sha256 out) (updCmd seq (fun c => { c with prog := out.length }) w)) w

/-- The host bytes of a list of IOVA ranges (R365): free values. -/
def hostBytes (iova n : Nat) (w : Mach) : List Byte × Mach := readAny (0x800000000000 + iova) n w

/-- A replay of a plan stands at its stop, or the plan has ended: its dump (R367, R369). -/
def dumpReplay (seq : Nat) (w : Mach) : Mach :=
  let c := cmdOf w seq
  let p := planOf w seq
  match p.replay with
  | none => w
  | some r =>
    if r.kind = 0 then
      match w.m.threads.find? fun e => e.2.binding == .plan seq r.lthread with
      | some (k, th) => endReplay seq r.tick 0 r.reached th.step.toNat [] (threadDump w (tidOf k)) w
      | none => endReplay seq r.tick 0 r.reached 0 [] [] w
    else
      withHost seq (listPieces c) (fun _ => failCmd seq erXlateAbsent) (fun w =>
        let (list, w) := hostBytes (cmdBits c 0x30 0 48) (16 * cmdBits c 0x18 8 5) w
        let rs := (List.range (cmdBits c 0x18 8 5)).map fun i =>
          (bits (ofBytes list) (128 * i) 64, bits (ofBytes list) (128 * i + 64) 64)
        let (body, w) := rs.foldl (fun (x : List Byte × Mach) e =>
          match asidPieces x.2 p.asid .read e.1 e.2 with
          | .ok cs => let (b, w) := readChunks cs x.2; (x.1 ++ b, w)
          | .error _ => (x.1 ++ List.replicate e.2 0, x.2)) ([], w)
        endReplay seq r.tick 1 r.reached (fieldQueue w (.plan seq)).step.toNat (listPieces c ++ namedPieces w p.asid rs) body w) w

end Sys2Proof.Machine
end

