-- ==== Sys2Proof/Machine/Plans.lean ====
section
/-! DEFINITION. The commands RUN_PLAN, MOVE and JOURNAL_READ (R459, R460), and what happens to a plan: binding (R526),
checkpoints (R407), rollback (R408), stalls (R357) and its end. -/

namespace Sys2Proof.Machine
open Sys2Proof

/-! ### RUN_PLAN (R191, R382, R459, R526) -/

/-- An accepted decode table waits to be installed (R191). -/
def decodeWaits (w : Mach) : Bool := w.m.sec.decNext.isSome

/-- The table that a plan was compiled for is installed (R191). -/
def decodeMatches (w : Mach) (dec : Nat) : Bool :=
  dec == 0 || (List.range 2).all fun d =>
    unitState w d != .inService || ((tread {} w.m.decTab d).digest.toNat == dec)

/-- The bytes of the serving-plan images that snapshots keep beside a new one (R382): each counted once by its digest. -/
def imagesKept (w : Mach) (key : Nat) : Nat :=
  let live (e : Nat × Plan) : Bool := e.2.serve && (!e.2.ended ||
    w.m.s.sessions.any fun s => s.2.state != 0 && s.2.plan == e.1)
  let ks := ((w.m.h.plans.filter live).map fun e => (e.2.imgKey, e.2.imgSize)).eraseDups
  ((ks.filter fun k => k.1 != key).map (·.2)).sum

/-- A follower's named inputs (R432): once the lead's bytes and records of all of them have come, device ranges are
written and host ranges are seen. None where it has to wait. -/
def takeInputs (seq kind : Nat) (asid : BitVec 16) (ins : List (Nat × Nat)) (w : Mach) : Option Mach :=
  if !mirrorFollower w then some w
  else (List.range ins.length).foldl (fun (x : Option Mach) i =>
    match x with
    | none => none
    | some w =>
      let (va, len) := ins.getD i (0, 0)
      let bs := tread [] w.m.twin.inputs (seq * 2 ^ 112 + i)
      if bs.length < len ∨ (findInput w seq fun k _ _ n => k == kind && n == i).isNone = true then none
      else match asidPieces w asid .read va len with
        | .error _ => some w
        | .ok cs =>
          let as := cs.flatMap fun c => (List.range c.len).map fun j => c.pa.getD 0 + j
          let seen := (as.zip bs).filter fun e => isHost e.1
          let w := onTwin (fun t => { t with view := seen.foldl (fun v e => tput v e.1 e.2) t.view }) w
          some (writeChunks cs bs w)) (some w)

/-- The checks of R459 on a RUN_PLAN, then it waits for its threads; `stage` 1 says that they have passed. -/
def startPlan (seq : Nat) (c : Cmd) (w : Mach) : Mach :=
  let asid := BitVec.ofNat 16 (cmdBits c 0x18 0 16)
  let err := useCheck w c.fn (cmdBits c 0x18 16 6) (some asid)
  if 64 < cmdBits c 0x30 0 8 ∨ 64 < cmdBits c 0x30 8 8 then failCmd seq erFormat w
  else if err ≠ 0 then failCmd seq err w
  else match readPlan w c with
    | none => failCmd seq erPlanFormat w
    | some p =>
      if p.geom ≠ geomDigest w then failCmd seq erGeometry w
      else if p.dec ≠ 0 && decodeWaits w then w
      else if !decodeMatches w p.dec then failCmd seq erDecodeChanged w
      else match takeInputs seq 0 asid p.ins w with
      | none => w
      | some w =>
       if inputWaits w seq p.ins.length then w else
       let ps := namedPieces w asid p.ins
       withHost seq ps (fun _ => failCmd seq erXlateAbsent) (keeperReads seq 4 p.cls ps fun w =>
        match rangeBytes asid p.ins w with
        | (none, w) => failCmd seq erXlateAbsent w
        | (some bs, w) =>
          let key := ofBytes (sha256 (toBytes 32 p.imgKey ++ bs.flatMap sha256))
          let p := { p with imgKey := key }
          if p.serve ∧ 2 ^ 36 < imagesKept w key + p.imgSize then failCmd seq erKeepFull w
          else
            let w := bs.foldl (fun w b => inputRecord seq 0 0 0 (sha256 b) (shipInput p.cls b.length w)) w
            let w := updCmd seq (fun c => { c with stage := 1, ats := 0 }) (updPlan seq (fun _ => p) w)
            if threadsSuffice w p then w else failCmd seq erPlanThreads w) w

/-- RUN_PLAN (R42, R191, R459): the command's checks, its input digests, whose bytes its class is charged for, and its plan;
it then waits for PLAN_BIND. -/
def execRunPlan (seq : Nat) (s : State) : Host.Outcome State Fault Refusal :=
  run (command seq 0x01 fun c w =>
    if c.stage ≠ 0 then w
    else checkedCmd seq [(128, 48), (192, 25), (256, 64), (320, 48), (384, 16)] (startPlan seq) w) s

/-- The order of intake of two commands (R28, R526). -/
def stampRank (w : Mach) (seq : Nat) : List Nat :=
  let c := cmdOf w seq
  [c.tick, c.src.toNat, c.sq.toNat, seq]

/-- PLAN_BIND (R360, R525, R526): the earliest waiting plan binds its threads, those of `prefs` first, lends those of its
LEND mask, and goes RUNNING; where another decode table has come meanwhile, it ends FAILED (R191). -/
def execPlanBind (seq : Nat) (prefs : List Nat) (s : State) : Host.Outcome State Fault Refusal :=
  run (fun w =>
    let p := planOf w seq
    let earlier := w.m.h.plans.any fun e => planWaits w e.1 && lexLt (stampRank w e.1) (stampRank w seq)
    let free := freeThreadsOf w
    let lend := lendOf p
    let avail := preferred prefs (free.filter fun k => !lend.contains k)
    if planWaits w seq && stateOf w seq == 1 && !decodeWaits w && !decodeMatches w p.dec then failCmd seq erDecodeChanged w
    else if !planWaits w seq || dormant w || earlier
        || (p.dec != 0 && stateOf w seq == 1 && decodeWaits w) || !lend.all free.contains
        || decide (avail.length < p.t) then w
    else
      let w := if stateOf w seq = 1 then startCmd seq w else w
      let w := bindPlan seq avail w
      lend.foldl (fun w k => updThr (tidOf k) (fun th => { th with binding := .lent seq }) w) w) s

/-! ### Checkpoints, rollback, stalls -/

/-- CHECKPOINT (R406, R407): the next checkpoint is taken once the field and every logical thread have reached it, and
PROGRESS becomes its output bytes. -/
def execCheckpoint (seq : Nat) (s : State) : Host.Outcome State Fault Refusal :=
  run (fun w =>
    let p := planOf w seq
    match p.cks[p.ck + 1]? with
    | none => w
    | some k =>
      let reached := (List.range p.t).all fun i =>
        (boundTo w seq).any fun e => e.2.binding == .plan seq i && decide ((k.thr.getD i (0, 0)).1 ≤ e.2.step.toNat)
      if !p.bound || p.aborted || !isRunning w seq || (fieldQueue w (.plan seq)).step.toNat < k.f || !reached then w
      else
        let w := updPlan seq (fun p => { p with ck := p.ck + 1 }) w
        if p.replay.isSome then w
        else
          let w := setProgress seq k.out w
          if withholds w seq then w
          else updWord seq (fun s => { s with step := max s.step (fieldQueue w (.plan seq)).step.toNat }) w) s

/-- A granule lies in a named input range of a plan (R408). -/
def inNamedInput (w : Mach) (p : Plan) (gran : Nat) : Bool :=
  p.ins.any fun r =>
    match asidPieces w p.asid .read r.1 r.2 with
    | .ok cs => cs.any fun c => match c.pa with
        | some a => decide (c.len ≠ 0 ∧ a / 32 ≤ gran ∧ gran ≤ (a + c.len - 1) / 32)
        | none => false
    | .error _ => false

/-- An aborted plan's threads and posted work go; invocations on its lent threads will run again (R406, R410). -/
def clearPlan (seq : Nat) (w : Mach) : Mach :=
  let w := (boundTo w seq).foldl (fun w e => unbind .free e.1 w) w
  let w := onHw (fun h => { h with movers := h.movers.map fun (k, v) =>
      (k, { v with queue := v.queue.filter fun x => x.cmd != seq }) }) w
  (w.m.s.invs.filter fun e => e.2.plan == seq && e.2.thread.isSome).foldl (fun w e => dropInv e.1 w) w

/-- ROLLBACK (R408): an aborted plan whose work in flight has ended, its buffered stores too, resumes at a checkpoint, or its
command fails. -/
def execRollback (seq : Nat) (prefs : List Nat) (s : State) : Host.Outcome State Fault Refusal :=
  run (fun w =>
    let p := planOf w seq
    let c := cmdOf w seq
    let again := match p.granule with | some g => p.seen.contains g | none => false
    let stores := w.m.threads.any fun e => cmdOfThread e.2 == some seq && !e.2.sbuf.isEmpty
    if !p.aborted || inField w seq || onMover w seq || isOver w seq || stores then w
    else if !c.det then failCmd seq erUncorrectable w
    else if again && (match p.granule with | some g => inNamedInput w p g | none => false) then failCmd seq erDataLost w
    else if 8 ≤ p.attempts then failCmd seq erRollbackLimit w
    else
      let w := clearPlan seq w
      let avail := preferred prefs (freeThreadsOf w)
      if avail.length < p.t then w
      else
        let ck := if again then 0 else p.ck
        let at' := p.cks.getD ck { f := 0, out := 0, thr := [] }
        let w := errorRecord ecRollback
          { addr := 32 * p.granule.getD 0, cmd := seq, step := BitVec.ofNat 64 at'.f, attempt := p.attempts + 1 } w
        let w := updPlan seq (fun p =>
          { p with ck := ck, attempts := p.attempts + 1, seen := p.seen ++ p.granule.toList }) w
        bindPlan seq avail w) s

/-- A park that only other work ends, or an ordered atomic (R356). -/
def stallPark (p : Park) : Bool :=
  match p with
  | .atomic _ _ _ _ _ _ => true
  | .fopQueue _ => true
  | .fwait _ => true
  | .xwait _ => true
  | .xferQueue _ => true
  | _ => false

/-- A thread waits only in the parks named under R356. -/
def threadStalled (th : Thread) : Bool :=
  th.cause == none && th.gateWaits == 0 && th.sbuf.isEmpty && stallPark th.park ||
  (th.gm && th.cause == none && th.gateWaits == 0 && th.sbuf.isEmpty && th.groups.all fun e =>
    match e.2.wait with
    | .join _ => true
    | .holder _ _ => true
    | .lock _ _ => true
    | .barrier _ _ => true
    | .on p => stallPark p
    | .ready => false)

/-- A plan stands still (R357): every thread bound to it is parked so, no atomic of it may be applied (R356 advances that
plan always), and nothing of it is in flight. -/
def planStalled (w : Mach) (seq : Nat) : Bool :=
  let p := planOf w seq
  p.bound && !p.aborted && (cmdOf w seq).det && isRunning w seq && (boundTo w seq).all (fun e =>
      threadStalled e.2 && !atomicDue w (tidOf e.1))
  && !inField w seq && !transfersOf w seq && (nextEntry w (.plan seq) (fieldQueue w (.plan seq))).isNone

/-- HORIZON_STALL (R357): a plan that has stood still for 16 consecutive periods ends FAILED. -/
def execHorizonStall (seq : Nat) (s : State) : Host.Outcome State Fault Refusal :=
  run (fun w =>
    if planStalled w seq && decide (16 ≤ (planOf w seq).stall) then
      failCmd seq erHorizon (stopThreads (fun th => cmdOfThread th == some seq) w)
    else w) s

/-! ### The end of a plan (R367, R434, R459) -/

/-- A replay whose plan has ended stands there from the moment of its end, if it has not reached its stop (R367, R369). -/
def planEnded (seq : Nat) (w : Mach) : Mach :=
  updPlan seq (fun p => { p with replay := p.replay.map fun r =>
    if r.stopped then r else { r with stopped := true, tick := w.m.tick } }) w

/-- PLAN_DONE (R369, R459, R464): a plan with nothing left in flight has ended. Its outputs are digested where a digest is
computed, and the command ends with PROGRESS at all its output bytes (log 49); a replay that ends so has not reached its
target. -/
def execPlanDone (seq : Nat) (s : State) : Host.Outcome State Fault Refusal :=
  run (fun w =>
    let p := planOf w seq
    if !p.bound || p.aborted || !isRunning w seq || !planQuiet w seq then w
    else if p.replay.isSome then dumpReplay seq (planEnded seq w)
    else
      let all := (p.outs.map (·.2)).sum
      let full := updCmd seq fun c => { c with prog := max c.prog all }
      if p.outdig || withholds w seq then
        let ps := namedPieces w p.asid p.outs
        withHost seq ps (fun _ => failCmd seq erXlateAbsent) (keeperReads seq 5 p.cls ps fun w =>
          match outputDigest seq w with
          | (some d, w) => finishCmd seq 0 d (full w)
          | (none, w) => failCmd seq erXlateAbsent w) w
      else doneCmd seq (full w)) s

/-! ### MOVE and JOURNAL_READ (R460) -/

/-- MOVE (R460): its pieces go to the movers of one die. -/
def execMove (seq : Nat) (s : State) : Host.Outcome State Fault Refusal :=
  run (command seq 0x02 fun _ =>
    checkedCmd seq [(128, 48), (192, 48), (256, 48), (320, 23)] fun c w =>
      let err := useCheck w c.fn (cmdBits c 0x28 16 6) (some (BitVec.ofNat 16 (cmdBits c 0x28 0 16)))
      if err ≠ 0 then failCmd seq err w
      else if cmdBits c 0x20 0 48 = 0 then
        finishCmd seq 0 (if cmdBits c 0x28 22 1 = 1 || withholds w seq then sha256 [] else []) (startCmd seq w)
      else postPieces seq 1024 (startCmd seq w)) s

/-- Write bytes for a command in its address space at user privilege; none where a byte has no translation. -/
def keeperPut (asid : BitVec 16) (cls va : Nat) (bs : List Byte) (w : Mach) : Option Mach :=
  match asidPieces w asid .write va bs.length with
  | .error _ => none
  | .ok cs =>
    some (writeChunks cs bs (chargeKeeper cls true cs (logUnit unitKeeper true cs w)))

/-- Records from `first` go out one after another, until one meets an absent translation, as an address from `stop` on
is. -/
def writeRecords (seq : Nat) (asid : BitVec 16) (cls dst : Nat) (stop : Option Nat) (rs : List (List Byte)) (w : Mach) :
    Nat × Bool × Mach :=
  rs.foldl (fun (x : Nat × Bool × Mach) r =>
    let (n, ok, w) := x
    if !ok then x
    else if (match stop with | some va => decide (va < dst + 144 * (n + 1)) | none => false) then (n, false, w)
    else match keeperPut asid cls (dst + 144 * n) r w with
      | some w => (n + 1, true, setProgress seq (n + 1) w)
      | none => (n, false, w)) (0, true, w)

/-- JOURNAL_READ (R42, R379, R460): once the gates admit its bytes, committed records still kept are written in ascending JSEQ. -/
def execJournalRead (seq : Nat) (s : State) : Host.Outcome State Fault Refusal :=
  run (command seq 0x12 fun _ =>
    checkedCmd seq [(128, 64), (192, 21), (256, 48), (320, 22)] fun c w =>
      let first := cmdBits c 0x10 0 64
      let n := cmdBits c 0x18 0 21
      let cls := cmdBits c 0x28 16 6
      let asid := BitVec.ofNat 16 (cmdBits c 0x28 0 16)
      let err := useCheck w c.fn cls (some asid)
      if n = 0 ∨ 2 ^ 20 < n then failCmd seq erFormat w
      else if err ≠ 0 then failCmd seq err w
      else
        let rs := w.m.k.journal.filter fun e => decide (first ≤ e.1 ∧ e.1 < first + n) && e.2.committed
        if rs.length < n then failCmd seq erJournalRange w
        else
          let dst := cmdBits c 0x20 0 48
          let write (stop : Option Nat) : Mach → Mach := keeperPays (workOf seq 2) (fun w =>
            let bs := rs.map fun e => recordBytes e.1 e.2
            let (k, ok, w) := writeRecords seq asid cls dst stop bs (startCmd seq w)
            let w := updCmd seq (fun c => { c with prog := k }) w
            if ok then finishCmd seq 0 (if withholds w seq then sha256 (bs.flatMap id) else []) w
            else failCmd seq erXlateAbsent w)
          let cs := match asidPieces w asid .write dst (144 * n) with
            | .ok cs => cs.map fun c => (true, c)
            | .error _ => []
          withHost seq cs (fun va => write (some va)) (write none) w) s

end Sys2Proof.Machine
end

