-- ==== Sys2Proof/Machine/Rehome.lean ====
section
/-! DEFINITION. State blocks and how they move between dies (R332, R404, R419, R420). -/

namespace Sys2Proof.Machine
open Sys2Proof

/-- A physical range lies in the session region of a die, in that die's plain near memory (R332). -/
def inRegion (w : Mach) (die : Nat) (a n : Nat) : Bool :=
  let base := sessReg w die 1 * 0x200000
  decide (base ≤ a ∧ a + n ≤ base + sessReg w die 2 * 0x200000) &&
  (match regionOf w a with
   | .near t _ => t / 5 == die
   | _ => false)

/-- Write bytes over physical pieces. -/
def fillPieces (ps : List (Nat × Nat)) (bs : List Byte) (w : Mach) : Mach :=
  match ps with
  | [] => w
  | p :: r => fillPieces r (bs.drop p.2) (storeBytes none p.1 (bs.take p.2) w)

/-- The leaves of a range in ascending order, none where a page has no valid leaf. -/
def leavesOf (w : Mach) (xlbase : W64) : Nat → Nat → Nat → Option (List Leaf)
  | 0, _, _ => some []
  | fuel + 1, va, left =>
    match walk w xlbase va with
    | none => none
    | some l =>
      let step := l.va + l.size - va
      if left ≤ step then some [l] else (leavesOf w xlbase fuel (va + step) (left - step)).map (l :: ·)

/-- Write a leaf entry (R281, R294). -/
def putLeaf (a : Nat) (v : Nat) (w : Mach) : Mach := if isDevice w a then storeBytes none a (toBytes 8 v) w else w

/-- Copy bytes from one physical range to another: host bytes are free values, bytes to the host leave the module. -/
def copyPhys (src dst len : Nat) (w : Mach) : List Byte × Mach :=
  let (bs, w) := readAny src len w
  (bs, if isHost dst || !isDevice w dst then w else storeBytes none dst bs w)

/-! ### Uses of translations (R289) -/

/-- A wait whose access keeps its translation (R289). A tile transfer between rows and a GLOCK that waits translate anew,
and a store counts with the buffered ones. -/
def parkUses (p : Park) : Bool :=
  match p with
  | .dataMiss _ => true
  | .atomic _ _ _ _ _ _ => true
  | _ => false

/-- A wait is what is left of an access that waited as `p`: a load of several sectors still waits for some of them. -/
def leftOf (p q : Park) : Bool :=
  match p, q with
  | .dataMiss ss, .dataMiss rs => rs.all ss.contains
  | p, q => p == q

/-- The uses that have begun on some dies before shoot-down number `drop` (R289, R290). -/
def usesNow (w : Mach) (dies drop : Nat) : List TUse :=
  ((w.m.threads.filter fun e => bit dies (e.1 / 128)).flatMap fun e =>
      (if e.2.sbuf.isEmpty then [] else [TUse.stores e.1 drop])
      ++ ((waitsOf e.2).filter fun x => parkUses x.2).map fun x => TUse.access e.1 x.1 x.2)
  ++ (match w.m.fieldRun with | some r => [TUse.field r.owner r.op] | none => [])
  ++ (w.m.hw.movers.filter fun e => bit dies (e.1 / 32)).filterMap fun e =>
      e.2.run.bind fun r => if r.asked then some (.mover e.1 r.entry.who r.done) else none

/-- A use has ended (R289). -/
def useDrained (w : Mach) (u : TUse) : Bool :=
  match u with
  | .stores k drop => (thr w (tidOf k)).sbuf.all fun e => decide (drop ≤ e.born)
  | .access k g p => !(waitsOf (thr w (tidOf k))).any fun x => x.1 == g && leftOf p x.2
  | .field o op => match w.m.fieldRun with | some r => r.owner != o || r.op != op | none => true
  | .mover n who k => match (moverOf w n).run with | some r => !r.asked || r.entry.who != who || r.done != k | none => true

/-! ### Moving blocks to their home (R419, R420) -/

/-- The bytes of a session's block. -/
def blockSize (s : Session) : Nat := 512 * 2 ^ s.size

/-- The pages that hold a session's block, none where one has no leaf. -/
def blockLeaves (w : Mach) (s : Session) : Option (List Leaf) :=
  leavesOf w (asidCtx w s.asid).xlbase (blockSize s / 4096 + 2) s.stateVa (blockSize s)

/-- A page-sized place in a die's region that no block lies in, the first from a start that the spec leaves open
(log 34). -/
def freePlace (w : Mach) (die size start : Nat) : Option Nat :=
  let lo := ceilDiv (sessReg w die 1 * 0x200000) size
  let n := (sessReg w die 1 + sessReg w die 2) * 0x200000 / size - lo
  let used (a : Nat) : Bool := (w.m.s.sessions.any fun e => e.2.state != 0 && rangesMeet e.2.block [(a, size)])
    || w.m.x.relos.any fun r => rangesMeet [(r.dst, r.page.size)] [(a, size)]
  (List.range n).findSome? fun i =>
    let a := (lo + (start + i) % n) * size
    if inRegion w die a size && !used a then some a else none

/-- No look-aside buffer keeps a translation of a page (R290). -/
def forgetPage (p : MovePage) (w : Mach) : Mach :=
  let cut (t : List TlbEntry) : List TlbEntry := t.filter fun e => !(decide (e.pa < p.pa + p.size ∧ p.pa < e.pa + e.size))
  onM (fun m => { m with
    vps := m.vps.map fun e => (e.1, { e.2 with tlb := cut e.2.tlb })
    hw := { m.hw with movers := m.hw.movers.map fun e => (e.1, { e.2 with tlb := cut e.2.tlb }) } }) w

/-- A page stands at its new place: its leaf is written and the blocks in it lie there (R294, step 2). -/
def landPage (p : MovePage) (dst : Nat) (w : Mach) : Mach :=
  let piece (b : Nat × Nat) : Nat × Nat := if p.pa ≤ b.1 ∧ b.1 < p.pa + p.size then (b.1 - p.pa + dst, b.2) else b
  onS (fun s => { s with sessions := s.sessions.map fun e => (e.1, { e.2 with block := e.2.block.map piece }) })
    (putLeaf p.ent (dst + p.bits.toNat) (forgetPage p w))

/-- A page's bytes go to its new place with the errors that they carry (R404), charged to class 0 (R419). -/
def copyKept (p : MovePage) (dst : Nat) (w : Mach) : Mach :=
  let w := chargeKeeper 0 false [{ va := p.va, len := p.size, pa := some p.pa }] w
  let w := chargeKeeper 0 true [{ va := p.va, len := p.size, pa := some dst }] w
  let w := storeBytes none dst ((List.range p.size).map fun i => rawByte w (p.pa + i)) w
  (w.m.hw.bad.filter fun e => decide (p.pa / 32 ≤ e.1 ∧ e.1 < (p.pa + p.size) / 32)).foldl (fun w e =>
    onHw (fun h => { h with bad := tput h.bad (e.1 - p.pa / 32 + dst / 32) e.2 }) w) w

/-- A page can be read where it lies. -/
def pageLive (w : Mach) (p : MovePage) : Bool :=
  match unitState w (dieOfAddr w p.pa) with | .inService => true | .draining => true | _ => false

/-- The pages that move for the keeper and whose old uses have drained are copied as class 0's gates admit it, and land
(R42, R290, R294, R419). One whose die has been lost meanwhile lands without its bytes: its sessions are regenerated. -/
def settleRelos (w : Mach) : Mach :=
  (w.m.x.relos.filter fun r => r.uses.all (useDrained w)).foldl (fun w r =>
    let land (w : Mach) : Mach := landPage r.page r.dst (onX (fun x => { x with relos := x.relos.filter (· != r) }) w)
    if pageLive w r.page then keeperPays (2 ^ 49 + r.page.ent) (fun w => land (copyKept r.page r.dst w)) w
    else land w) w

/-- A page begins to move for the keeper as under a PREFETCH (R290, R294, R419): its leaf goes absent, no buffer keeps its
translation, and the copy waits for the uses begun before. Where the old die cannot be read only the leaf moves. -/
def relocatePage (l : Leaf) (dst : Nat) (w : Mach) : Mach :=
  let p : MovePage := { ent := l.ent, va := l.va, size := l.size, pa := l.pa, bits := l.bits }
  if !pageLive w p then landPage p dst w
  else
    let e := readNum w p.ent 8
    let w := forgetPage p (putLeaf p.ent (if bit e 0 then e - 1 else e) w)
    let drop := w.m.x.drops + 1
    onX (fun x => { x with drops := drop, relos := x.relos ++ [{ page := p, dst := dst, uses := usesNow w 3 drop }] }) w

/-- A page must wait: a block in it belongs to a RUNNING session (R419). -/
def pageBusy (w : Mach) (l : Leaf) : Bool :=
  w.m.s.sessions.any fun e => e.2.state == 3 && rangesMeet e.2.block [(l.pa, l.size)]

/-- A session's block is being moved, and its events wait (R419). -/
def blockMoves (w : Mach) (sid : Nat) : Bool :=
  w.m.x.relos.any fun r => rangesMeet (sessOf w sid).block [(r.page.pa, r.page.size)]

/-- A block lies on its session's home (R332). -/
def blockHome (w : Mach) (sid : Nat) : Bool :=
  let s := sessOf w sid
  s.state == 0 || s.block.all fun b => inRegion w (homeDie w sid) b.1 b.2

/-- A session's block moves to its home, page by page, as far as there is room and no RUNNING session is in a page; the
flag tells that room was lacking. -/
def rehomeBlock (wait : Bool) (sid : Nat) (w : Mach) : Mach × Bool :=
  if blockHome w sid then (w, false)
  else match blockLeaves w (sessOf w sid) with
    | none => (w, false)
    | some ls => ls.foldl (fun (r : Mach × Bool) l =>
        let w := r.1
        let d := homeDie w sid
        if inRegion w d l.pa l.size || (wait && pageBusy w l) then r
        else
          let (k, w) := drawFree w
          match freePlace w d l.size (Config.pick k) with
          | some a => (relocatePage l a w, r.2)
          | none => (w, true)) (w, false)

/-- Every session's block moves to its home as far as it can; the flag tells that room was lacking. -/
def rehomeBlocks (wait : Bool) (w : Mach) : Mach × Bool :=
  let (w, short) := (w.m.s.sessions.filter fun e => e.2.state != 0).foldl (fun (r : Mach × Bool) e =>
    let (w, b) := rehomeBlock wait e.1 r.1
    (w, r.2 || b)) (w, false)
  (settleRelos w, short)

/-- The descriptors are where R330 and R419 put them once the homes have changed: a place that held one by the other
numbering and is a FREE session's now reads as zero (R330). -/
def renumber (w : Mach) : Mach :=
  let ids := (w.m.s.sessions.filter fun e => e.2.state != 0).map (·.1)
  let free := (ids.flatMap fun i => [i / 2, 2 * i, 2 * i + 1]).eraseDups.filter fun i =>
    decide (i < 2 ^ 20) && (sessOf w i).state == 0
  (free ++ ids).foldl (fun w sid => putDesc sid w) w

/-- The sessions re-home (R329, R419): their blocks and their descriptors. -/
def rehomeAll (wait : Bool) (w : Mach) : Mach × Bool :=
  let (w, short) := rehomeBlocks wait w
  (renumber w, short)

/-- A session's descriptor has room in its home die's table (R419, R420). -/
def descFits (w : Mach) (sid : Nat) : Bool := (tableAt w (homeDie w sid)).isNone || isDevice w (descAddr w sid)

/-- The descriptors of every session have room in a die's table (R419, R420). -/
def tableFits (w : Mach) : Bool := (w.m.s.sessions.filter fun e => e.2.state != 0).all fun e => descFits w e.1


end Sys2Proof.Machine
end

