-- ==== Sys2Proof/Machine/Sessions.lean ====
section
/-! DEFINITION. Sessions and the dispatchers (R329 to R351): event intake, session commands, batches, invocations, and
regeneration (R410). -/

namespace Sys2Proof.Machine
open Sys2Proof

/-! ### Event intake (R335, R336, R373 to R375, R454) -/

/-- A session command of a SID that is not over, or that a restart applies again. -/
def sessionCommands (w : Mach) (sid : Nat) : List (Nat × Cmd) :=
  (w.m.h.cmds.filter fun e =>
    ([0x08, 0x09, 0x0A] : List Nat).contains (opcodeOf e.2) && cmdBits e.2 0x10 0 20 == sid && !isOver w e.1)
  ++ w.m.s.redo.filter fun e => cmdBits e.2 0x10 0 20 == sid

/-- An event's answer at intake (R336): 2 NO_SESSION, 3 FULL, none where it is queued. -/
def intakeStatus (w : Mach) (sid : Nat) : Option Nat :=
  let s := sessOf w sid
  if s.state = 0 ∨ s.state = 5 ∨ (sessionCommands w sid).any (fun e => opcodeOf e.2 == 0x09) = true then some 2
  else if 1024 ≤ s.queue.length then some 3
  else none

/-- The ring sequence of the last journal record of an event ring (R375). -/
def lastSeq (w : Mach) (ring : Nat) : Nat := tread 0 w.m.k.jLastSeq (64 + ring)

/-- An event is queued in a pool slot; an IDLE session becomes PENDING (R331, R336). -/
def queueEvent (sid : Nat) (e : QEv) (w : Mach) : Mach :=
  let (k, w) := drawFree w
  let home := homeDie w sid
  checkTally (.queue home) <| updSess sid (fun s =>
    { s with queue := s.queue ++ [{ e with slot := (Config.poolSlot k).toNat }], taken := s.taken + 1
             state := if s.state = 1 then 2 else s.state }) w

/-! ### Session commands (R333, R334) -/

/-- The physical pieces of a state block, none where R332 is not met: R, W and U throughout, on the home die's region. -/
def blockPieces (w : Mach) (sid va size : Nat) (asid : BitVec 16) : Option (List (Nat × Nat)) :=
  match asidPieces w asid .both va size with
  | .error _ => none
  | .ok cs => cs.mapM fun c => c.pa.bind fun a => if inRegion w (homeDie w sid) a c.len then some (a, c.len) else none

/-- A tick stamp of some epoch lies before a cut of this one: one of an earlier start-up does (R25, R380). -/
def beforeCut (w : Mach) (epoch tick cut : Nat) : Bool := epoch != w.m.epoch || decide (tick < cut)

/-- A session command whose intake lies past the cut of a snapshot waits until the snapshot has its contents (R380). -/
def pastCut (w : Mach) (c : Cmd) : Bool :=
  w.m.k.snapQ.any fun r => r.cut != 0 && r.snap.isNone && !beforeCut w c.epoch c.tick r.cut

/-- The operand bits of SESSION_OPEN (R333). -/
def openBits : List (Nat × Nat) :=
  [(128, 20), (152, 6), (159, 1), (160, 5), (176, 16), (192, 32), (224, 16), (256, 48), (320, 16), (384, 64), (448, 48)]

/-- The descriptor that a SESSION_OPEN writes (R333). -/
def openedSession (c : Cmd) (w : Mach) (ps : List (Nat × Nat)) : Session :=
  { state := 1, cls := cmdBits c 0x10 24 6, size := cmdBits c 0x14 0 3, gang := cmdBits c 0x14 3 2,
    blim := cmdBits c 0x14 16 16, plan := cmdBits c 0x18 0 32, entry := cmdBits c 0x1C 0 16,
    stateVa := cmdBits c 0x20 0 48, asid := BitVec.ofNat 16 (cmdBits c 0x28 0 16),
    seed := BitVec.ofNat 64 (cmdBits c 0x30 0 64), otick := c.tick, epoch := w.m.epoch, block := ps }

/-- The plan of a SESSION_OPEN serves its session (R333). -/
def servesOpen (w : Mach) (c : Cmd) : Bool :=
  let seq := cmdBits c 0x18 0 32
  match tget w.m.h.plans seq with
  | none => false
  | some p =>
    isRunning w seq && p.serve && p.replay.isNone && p.asid.toNat == cmdBits c 0x28 0 16
      && p.die == homeDie w (cmdBits c 0x10 0 20) && decide (cmdBits c 0x1C 0 16 < p.entries.length)

/-- The initial state of a block (R333): zeros, or the bytes at SRC; none where SRC has no translation. -/
def openSource (c : Cmd) (size : Nat) (w : Mach) : Option (List Byte) × Mach :=
  if cmdBits c 0x10 31 1 = 0 then (some (List.replicate size 0), w)
  else match asidPieces w (BitVec.ofNat 16 (cmdBits c 0x28 0 16)) .read (cmdBits c 0x38 0 48) size with
    | .error _ => (none, w)
    | .ok cs => let (b, w) := readChunks cs w; (some b, w)

/-- SRC lies in the host window, so that a twin needs its bytes (R432). -/
def hostSource (w : Mach) (c : Cmd) (size : Nat) : Bool :=
  cmdBits c 0x10 31 1 == 1 &&
  (match asidPieces w (BitVec.ofNat 16 (cmdBits c 0x28 0 16)) .read (cmdBits c 0x38 0 48) size with
   | .ok cs => cs.any fun p => match p.pa with | some a => isHost a | none => false
   | .error _ => false)

/-- SESSION_OPEN (R331, R333): its checks in order, the block's first contents, the descriptor. -/
def execSessionOpen (seq : Nat) (s : State) : Host.Outcome State Fault Refusal :=
  run (command seq 0x08 fun c w =>
    let sid := cmdBits c 0x10 0 20
    let size := 512 * 2 ^ cmdBits c 0x14 0 3
    let asid := BitVec.ofNat 16 (cmdBits c 0x28 0 16)
    let va := cmdBits c 0x20 0 48
    let err := useCheck w c.fn (cmdBits c 0x10 24 6) (some asid)
    if (sessionCommands w sid).any (fun e => decide (e.1 < seq)) || pastCut w c || w.m.s.regen.contains sid then w
    else if !operandsClean c openBits || cmdBits c 0x14 16 16 == 0 then failCmd seq erSessFormat w
    else if err ≠ 0 then failCmd seq err w
    else if (sessOf w sid).state ≠ 0 then failCmd seq erSessBusy w
    else if !servesOpen w c then failCmd seq erSessPlan w
    else if va % size ≠ 0 then failCmd seq erSessState w
    else match blockPieces w sid va size asid with
      | none => if w.m.x.relos.any fun r => overlaps r.page.va r.page.size va size then w else failCmd seq erSessState w
      | some ps =>
        if w.m.s.sessions.any fun e => e.2.state != 0 && e.1 != sid && rangesMeet e.2.block ps then
          failCmd seq erSessOverlap w
        else match (if hostSource w c size then takeInputs seq 1 asid [(cmdBits c 0x38 0 48, size)] w else some w) with
        | none => w
        | some w =>
         if cmdBits c 0x10 31 1 = 1 ∧ inputWaits w seq 1 = true then w else
         let src := if cmdBits c 0x10 31 1 = 1 then namedPieces w asid [(cmdBits c 0x38 0 48, size)] else []
         withHost seq src (fun _ => failCmd seq erSessState) (keeperReads seq 4 (cmdBits c 0x10 24 6) src fun w =>
         match openSource c size w with
          | (none, w) => failCmd seq erSessState w
          | (some bs, w) =>
            let w := startCmd seq w
            let w := if cmdBits c 0x10 31 1 = 1 then inputRecord seq 1 0 0 (sha256 bs)
                (if hostSource w c size then shipInput (cmdBits c 0x10 24 6) size w else w)
              else w
            let w := fillPieces ps bs w
            let w := onS (fun x => { x with past := tdel x.past sid }) w
            let w := updSess sid (fun _ => openedSession c w ps) w
            finishCmd seq 0 (if withholds w seq then sha256 bs else []) (notePast sid 0 w)) w) s

/-- Every event of a session with a lower intake stamp has been processed, and no earlier session command is open
(R334): JSEQ order is stamp order (R373). -/
def sessionTurn (w : Mach) (seq : Nat) (c : Cmd) (sid : Nat) : Bool :=
  !((sessOf w sid).queue.any fun q => decide (q.jseq < c.jseq)) && !((sessionCommands w sid).any fun e => decide (e.1 < seq))
  && !w.m.s.regen.contains sid && (sessOf w sid).state != 3

/-- A session command: it starts once its format is right, and `f` is its effect when its turn has come. -/
def sessionCommand (seq op : Nat) (used : List (Nat × Nat)) (f : Nat → Cmd → Mach → Mach) (w : Mach) : Mach :=
  let c := cmdOf w seq
  if pastCut w c then w else
  let w := if mayStart w seq op then
      (if tallyShut w c then failCmd seq erTally w
       else if operandsClean c used then startCmd seq w else failCmd seq erFormat w)
    else w
  if opcodeOf c = op ∧ isRunning w seq = true ∧ ¬ (w.m.twin.held.any fun h => h.ctx == .cmd seq) = true then
    f (cmdBits c 0x10 0 20) c w
  else w

/-- SESSION_CLOSE (R331, R334): after every earlier event the session is RETIRED. -/
def execSessionClose (seq : Nat) (s : State) : Host.Outcome State Fault Refusal :=
  run (sessionCommand seq 0x09 [(128, 20)] fun sid c w =>
    if !sessionTurn w seq c sid then w
    else
      let st := (sessOf w sid).state
      if st = 0 ∨ st = 5 then failCmd seq erSessState w
      else doneCmd seq (updSess sid (fun s => { s with state := 5, closed := c.tick, closedEp := c.epoch }) w)) s

/-- A restart applies session commands again that had ended before the cut (R388): each in its turn, unseen. -/
def settleRedo (w : Mach) : Mach :=
  w.m.s.redo.foldl (fun w e =>
    let c := e.2
    let sid := cmdBits c 0x10 0 20
    let s := sessOf w sid
    let resume := opcodeOf c == 0x0A && cmdBits c 0x10 31 1 == 1
    let turn := if resume then !((sessionCommands w sid).any fun x => decide (x.1 < e.1)) else sessionTurn w e.1 c sid
    if !turn then w
    else
      let w := onS (fun x => { x with redo := x.redo.filter fun y => y.1 != e.1 }) w
      if s.state = 0 ∨ s.state = 5 then w
      else if opcodeOf c = 0x09 then updSess sid (fun s => { s with state := 5, closed := c.tick, closedEp := c.epoch }) w
      else if resume then
        updSess sid (fun s => if s.state = 4 then { s with state := if s.queue.isEmpty then 1 else 2, parkwhy := 0 } else s) w
      else if s.state = 4 then w
      else takeOut sid (updSess sid (fun s => { s with state := 4, parkwhy := 2 }) w)) w

/-! ### Batches (R339, R341) -/

/-- What an event's invocation shares (R339). -/
def eventKey (w : Mach) (sid : Nat) : List Nat :=
  let s := sessOf w sid
  [s.plan, s.entry, s.cls, s.asid.toNat, s.gang]

/-- Put an event into a list in intake-stamp order. -/
def insertEvent (e : Nat × QEv) : List (Nat × QEv) → List (Nat × QEv)
  | [] => [e]
  | x :: r => if e.2.jseq < x.2.jseq then e :: x :: r else x :: insertEvent e r

/-- The unassigned events of a die whose sessions are not PARKED, of those that `pick` names by session, in stamp order. -/
def batchEvents (w : Mach) (die : Nat) (pick : Nat → QEv → Bool) : List (Nat × QEv) :=
  (w.m.s.sessions.flatMap fun e =>
    if homeDie w e.1 = die ∧ e.2.state ≠ 4 ∧ e.2.state ≠ 5 then
      (e.2.queue.filter fun q => !q.given && pick e.1 q).map fun q => (e.1, q)
    else []).foldr insertEvent []

/-- Cut events into invocations (R339). -/
def formFrom (w : Mach) : Nat → List (Nat × QEv) → List (List (Nat × QEv))
  | 0, _ => []
  | _, [] => []
  | fuel + 1, e :: r =>
    let key := eventKey w e.1
    let gang := (sessOf w e.1).gang
    let (inv, rest) := r.foldl (fun (x : List (Nat × QEv) × List (Nat × QEv)) f =>
      if x.1.length < gang + 1 && eventKey w f.1 == key && x.1.all (fun y => y.1 != f.1) then (x.1 ++ [f], x.2)
      else (x.1, x.2 ++ [f])) ([e], [])
    inv :: formFrom w fuel rest

/-- A batch becomes invocations, each with the die's next number (R339); `cut` is what closed it (R380). -/
def formBatch (die : Nat) (pick : Nat → QEv → Bool) (cut : Nat) (w : Mach) : Mach :=
  let es := batchEvents w die pick
  let w := es.foldl (fun w e => checkTally (.session e.1) w) w
  (formFrom w es.length es).foldl (fun w evs =>
    let num := tread 0 w.m.s.invNext die
    let s := sessOf w (evs.headD (0, {})).1
    let i : Inv := { die := die, evs := evs, plan := s.plan, entry := s.entry, cls := s.cls, det := w.m.det, cut := cut }
    let w := onS (fun x => { x with
      invs := tput x.invs (invKey die num) i, invNext := twrite 0 x.invNext die (num + 1) }) w
    evs.foldl (fun w e => updSess e.1 (fun s =>
      { s with queue := s.queue.map fun q => if q.jseq = e.2.jseq then { q with given := true } else q }) w) w) w

/-- The batch of the periods before a boundary: what came in before it, and the events that a restart left over (R339). -/
def closedBefore (w : Mach) (t : Nat) (q : QEv) : Bool :=
  decide (q.tick < t) || q.epoch != w.m.epoch && q.src.toNat / 2 ^ 13 != 3

/-- Batches of original periods (R388, R430): the unassigned events that `pick` names, one batch for each epoch and
period, in stamp order. -/
def formOriginal (pick : QEv → Bool) (cut : Nat) (w : Mach) : Mach :=
  let es := (w.m.s.sessions.flatMap fun e => (e.2.queue.filter fun q => !q.given && pick q).map fun q => (e.1, q)).foldr insertEvent []
  let ps := (es.map fun e => (e.2.epoch, e.2.tick / 4096)).eraseDups
  ps.foldl (fun w p =>
    (List.range 2).foldl (fun w d => formBatch d (fun _ q => pick q && q.epoch == p.1 && q.tick / 4096 == p.2) cut w) w) w

/-- What a restore replays runs with DET in force and under class 0 (R388): the invocations formed beside those that were
there. -/
def asReplay (had : Table Inv) (w : Mach) : Mach :=
  onS (fun s => { s with invs := s.invs.map fun e =>
    (e.1, if (tget had e.1).isSome then e.2 else { e.2 with det := true, cls := 0 }) }) w

/-- An invocation goes to the dispatcher of another die with its number, and the numbers that this die gives from then on
lie above it, so that the later events of its sessions have higher ones (R339, R340; log 111). -/
def giveInv (id die : Nat) (w : Mach) : Mach :=
  let i := tread {} w.m.s.invs id
  onS (fun s => { s with invs := tput s.invs id { i with die := die },
                         invNext := twrite 0 s.invNext die (max (tread 0 s.invNext die) (id / 2 + 1)) }) w

/-- What has not started on a die goes over to the other (R329, R419). -/
def handInvs (die : Nat) (w : Mach) : Mach :=
  (w.m.s.invs.filter fun e => e.2.die == die && e.2.thread.isNone && !e.2.ended).foldl (fun w e => giveInv e.1 (1 - die) w) w

/-- The homes of an invocation's sessions (R329). -/
def invHomes (w : Mach) (i : Inv) : List Nat := (i.evs.map fun e => homeDie w e.1).eraseDups

/-- Invocations that have never started and hold sessions of both homes, and the later ones that hold a session of such an
invocation (R329, R339). -/
def mixedInvs (w : Mach) : List (Nat × Inv) :=
  ((w.m.s.invs.filter fun e => e.2.thread.isNone && !e.2.ended && !e.2.again).foldl
    (fun (r : List (Nat × Inv) × List Nat) e =>
      let sids := e.2.evs.map (·.1)
      if 1 < (invHomes w e.2).length || sids.any r.2.contains then (r.1 ++ [e], r.2 ++ sids) else r) ([], [])).1

/-- Invocations are taken apart: their events are queued as before their batch, and with DET set they form invocations of
their homes at once, by their original periods (R329, R339; log 111). -/
def splitInvs (is : List (Nat × Inv)) (w : Mach) : Mach :=
  let back := is.flatMap fun e => e.2.evs.map (·.2.jseq)
  let cut := is.foldl (fun m e => min m e.2.cut) w.m.tick
  let w := onS (fun s => { s with
      invs := s.invs.filter fun e => !is.any fun x => x.1 == e.1
      sessions := s.sessions.map fun e => (e.1, { e.2 with
        queue := e.2.queue.map fun q => if back.contains q.jseq then { q with given := false } else q }) }) w
  if w.m.det then formOriginal (fun q => back.contains q.jseq) cut w else w

/-- A die serves its sessions again (R329, R419): what has not started of theirs comes back to it, and what holds sessions
of both homes is formed again; an invocation that was aborted keeps its events and its number (R410). -/
def takeInvs (die : Nat) (w : Mach) : Mach :=
  let w := splitInvs (mixedInvs w) w
  (w.m.s.invs.filter fun e => e.2.die != die && e.2.thread.isNone && !e.2.ended && invHomes w e.2 == [die]).foldl
    (fun w e => giveInv e.1 die w) w

/-! ### Invocations (R340 to R344, R380) -/

/-- The lent threads of a plan that are idle, on VPs in service: nothing of what they ran before is still in a store buffer. -/
def idleLent (w : Mach) (plan : Nat) : List Nat :=
  (List.range 256).filter fun k =>
    (tread {} w.m.threads k).binding == .lent plan && !(tread {} w.m.threads k).dead
      && (tread {} w.m.threads k).sbuf.isEmpty && inService w (unitVp (k / 8))

/-- What energy a dispatch charges: 10 nJ for each event (R44). -/
def dispatchEnergy (i : Inv) : Nat := 1000 * i.evs.length

/-- The energy request that a dispatch makes at its class's gate, parts of a unit left in the dispatcher's residue. -/
def dispatchRequest (w : Mach) (i : Inv) (who : Asker) : GateReq :=
  ⟨.energy, 0, i.cls, (tread 0 w.m.hw.residues (1 + i.die) + dispatchEnergy i) / energyUnit, who, none⟩

/-- An invocation may start but for a thread and its gates (R340, R380, R410): every earlier one that shares a session has
ended, on whichever die it stands: of one session's events an earlier one has the lower number. No session is PARKED or
moves (R419), no session command with an earlier stamp is open, its plan runs, and no snapshot holds its batch back. -/
def invReady (w : Mach) (id : Nat) (i : Inv) : Bool :=
  i.thread.isNone && !i.ended && isRunning w i.plan && !dormant w && invQuiet w id
  && !(w.m.s.invs.any fun e => e.1 != id && !e.2.ended
        && e.2.evs.any fun x => i.evs.any fun y => x.1 == y.1 && (decide (x.2.jseq < y.2.jseq) || e.2.thread.isSome))
  && i.evs.all (fun e => (sessOf w e.1).state != 4 && (sessOf w e.1).state != 5 && !blockMoves w e.1
        && !((sessionCommands w e.1).any fun c => decide (c.2.jseq < e.2.jseq)))
  && !(w.m.k.snapQ.any fun r => r.cut != 0 && r.snap.isNone && decide (r.cut < i.cut))

/-- Its class's gates admit it (R39, R340). -/
def invAdmitted (w : Mach) (i : Inv) : Bool :=
  !(grantOf w i.cls).hold && ((dispatchRequest w i (.keeper 0)).cost == 0 || admissible w (dispatchRequest w i (.keeper 0)))

/-- A thread as an invocation finds it (R337, R338, R342): user state begins afresh. -/
def invState (w : Mach) (id : Nat) (i : Inv) (key : Nat) (th : Thread) : Thread :=
  let e := i.evs.headD (0, {})
  let s := sessOf w e.1
  let n := i.evs.length
  let p := planOf w i.plan
  let arr (k : Nat) : W64 := BitVec.ofNat 64 (lentAt key k)
  { freshState th with
    g := twrite 0 (twrite 0 (twrite 0 (twrite 0 (twrite 0 [] 1 (BitVec.ofNat 64 n)) 2 (arr 0)) 3 (arr 1)) 4 (arr 2)) 5 (arr 3),
    pc := BitVec.ofNat 48 (p.entries.getD i.entry 0), seed := s.seed ^^^ BitVec.ofNat 64 s.step, lopid := p.lopid,
    binding := .inv id i.plan, cls := i.cls, fn := (cmdOf w i.plan).fn, intake := e.2.tick, det := i.det,
    costLimit := s.blim * 64 * n, stopAt := none }

/-- The bytes that a kernel sees of an event: bytes 0x10 to 0x1F are zero (R335, R374). -/
def eventBytes (body : Nat) : List Byte :=
  let b := toBytes 128 body
  b.take 16 ++ List.replicate 16 0 ++ b.drop 32

/-- Write an array of a lent thread's area (R342). -/
def putLent (key arr : Nat) (bs : List Byte) (w : Mach) : Mach := storePieces none (lentPieces w key arr bs.length) bs w

/-- An invocation binds a thread (R342): the area's arrays, the registers, the field context, and its sessions go
RUNNING. -/
def startInv (id key : Nat) (w : Mach) : Mach :=
  let i := tread {} w.m.s.invs id
  let n := i.evs.length
  let w := putLent key 0 (i.evs.flatMap fun e => eventBytes e.2.body) w
  let w := putLent key 1 (i.evs.flatMap fun e => toBytes 8 (sessOf w e.1).stateVa) w
  let w := putLent key 2 (List.replicate (32 * n) 0) w
  let w := putLent key 3 (i.evs.flatMap fun e => toBytes 8 (sessOf w e.1).step) w
  let w := newQueue (.inv id) (BitVec.ofNat 64 (planOf w i.plan).geom) w
  let w := updThr (tidOf key) (invState w id i key) (freshMover key w)
  let w := onS (fun s => { s with invs := tput s.invs id { i with thread := some key } }) w
  let w := i.evs.foldl (fun w e => updSess e.1 (fun s => { s with state := 3 }) w) w
  let w := if i.det then w else onM (fun m => { m with loose := true }) w
  let q := dispatchRequest w i (.thread key)
  let left := (tread 0 w.m.hw.residues (1 + i.die) + dispatchEnergy i) % energyUnit
  request q (onHw (fun h => { h with residues := twrite 0 h.residues (1 + i.die) left }) w)

/-- An event's plan has a lent thread free (R341). -/
def hasLent (w : Mach) (sid : Nat) : Bool := !(idleLent w (sessOf w sid).plan).isEmpty

/-- Only a free lent thread is missing for an invocation to start (R340, R351). -/
def lacksThread (w : Mach) (id : Nat) (i : Inv) : Bool :=
  invReady w id i && invAdmitted w i && (idleLent w i.plan).isEmpty

/-- Classes 8g to 8g + 7 could start an invocation on a die but for a free lent thread (R351); with DET clear an event that
waits for a thread to form its batch would be one (R341). -/
def shortOf (w : Mach) (die g : Nat) : Bool :=
  (w.m.s.invs.any fun e => e.2.die == die && e.2.cls / 8 == g && lacksThread w e.1 e.2)
  || !w.m.det && (batchEvents w die fun sid _ => (sessOf w sid).cls / 8 == g).any fun e =>
      let s := sessOf w e.1
      lacksThread w (invKey die (tread 0 w.m.s.invNext die))
        { die := die, evs := [e], plan := s.plan, entry := s.entry, cls := s.cls, det := false, cut := w.m.tick }

/-- A shortage of lent threads counts for the period in which it arises (R351). -/
def noteShort (w : Mach) : Mach :=
  let now := (List.range 16).filter fun k => shortOf w (k / 8) (k % 8)
  if now.all w.m.s.short.contains then w
  else onS (fun s => { s with short := (s.short ++ now).eraseDups }) w

/-- The lowest-numbered invocation of a die that may start (R340). -/
def nextInv (w : Mach) (die : Nat) : Option Nat :=
  (w.m.s.invs.find? fun e =>
    e.2.die == die && invReady w e.1 e.2 && invAdmitted w e.2 && !(idleLent w e.2.plan).isEmpty).map (·.1)

/-- The session commands under a cut that are not over (R380). -/
def coveredCmds (w : Mach) (cut : Nat) : List (Nat × Cmd) :=
  w.m.h.cmds.filter fun e => ([0x08, 0x09, 0x0A] : List Nat).contains (opcodeOf e.2) && beforeCut w e.2.epoch e.2.tick cut
    && !isOver w e.1

/-- The state of a snapshot once everything that its cut covers has ended (R380, R381): a session command that waits for
the events of a PARKED session is left, and the snapshot names it, so that a restart applies it (R388; log 131). -/
def snapReady (w : Mach) (cut : Nat) : Bool :=
  (w.m.s.invs.all fun e => e.2.ended || decide (cut < e.2.cut) || e.2.thread.isNone &&
    e.2.evs.all fun x => (sessOf w x.1).state == 4)
  && (coveredCmds w cut).all fun e => (sessOf w (cmdBits e.2 0x10 0 20)).state == 4

/-! ### What a snapshot holds (R381, R382) -/

/-- The bytes of a 4 KiB unit that do not read as zero. -/
def unitCells (w : Mach) (u : Nat) : Table Byte :=
  (((w.wr ++ w.mem).filter fun c => c.1 / 4096 == u).map (·.1)).foldl (fun t a => twrite 0 t a (rawByte w a)) []

/-- The 4 KiB units that the blocks of sessions lie in. -/
def blockUnits (ss : Table Session) : List Nat :=
  (ss.flatMap fun e => e.2.block.flatMap fun b =>
    (List.range ((b.1 + b.2 + 4095) / 4096 - b.1 / 4096)).map (b.1 / 4096 + ·)).eraseDups

/-- The snapshots that a restore of one reads: the newest full one up to it and the incremental ones from there on (R382,
R388). -/
def restoreSet (w : Mach) (num : Nat) : List Snap :=
  let ss := w.m.k.snaps.filter fun s => decide (s.num ≤ num)
  let full := ((ss.filter (·.full)).getLast?.map (·.num)).getD 0
  ss.filter fun s => decide (full ≤ s.num)

/-- The index of the newest copy of each unit (R382). -/
def newestUnits (w : Mach) (num : Nat) : Table (Table Byte) :=
  (restoreSet w num).foldl (fun t s => s.units.foldl (fun t e => tput t e.1 e.2) t) []

/-- A serving plan's image and named inputs as a snapshot copies them (R382): device memory's bytes; what lies in host memory
is not held (log 131). -/
def imageCopy (w : Mach) (p : Plan) : ImageCopy :=
  { size := p.imgSize,
    parts := (p.image ++ p.ins).map fun r =>
      match asidPieces w p.asid .read r.1 r.2 with
      | .ok cs =>
        let ps := cs.filterMap fun c => c.pa.map fun a => (a, c.len)
        (ps, ps.flatMap fun p => (List.range p.2).map fun i => if isDevice w p.1 then rawByte w (p.1 + i) else 0)
      | .error _ => ([], []) }

/-- The digest of an image as NAND holds it: the plan's tables, then its named inputs, as RUN_PLAN makes it (R382, R409). -/
def imageDigest (p : Plan) (c : ImageCopy) : Nat :=
  let n := p.image.length
  let tables := (c.parts.take n).flatMap (·.2)
  ofBytes (sha256 (toBytes 32 (ofBytes (sha256 tables)) ++ (c.parts.drop n).flatMap fun x => sha256 x.2))

/-- What a snapshot holds (R381, R382; log 32): of the blocks every unit, or, incremental, each that differs from its newest
copy; the images of serving plans that NAND has not got yet. -/
def snapNow (w : Mach) (r : SnapRun) : Snap :=
  let live := w.m.s.sessions.filter fun e => e.2.state != 0
  let serves := w.m.h.plans.filter fun e => e.2.serve && !e.2.ended
  let index := newestUnits w w.m.k.snapSeq
  { num := w.m.k.snapSeq + 1, full := r.full, epoch := w.m.epoch, cut := r.cut,
    sessions := live,
    units := (((blockUnits live).map fun u => (u, unitCells w u)).filter fun e => r.full || tget index e.1 != some e.2).foldl
      (fun t e => tput t e.1 e.2) [],
    regs := w.m.s.sessRegs,
    queued := live.flatMap fun e => (e.2.queue.filter fun q => decide (q.jseq < r.jcut)).map (·.jseq),
    jcut := r.jcut, counts := r.cnts, invNext := w.m.s.invNext,
    plans := serves.map (·.1),
    images := (serves.filter fun e => (tget w.m.k.images e.2.imgKey).isNone).foldl
      (fun t e => tput t e.2.imgKey (imageCopy w e.2)) [],
    waiting := (coveredCmds w r.cut).map (·.2.jseq), oldest := r.oldest }

/-- Where a session's descriptor is uncorrectable (R405). -/
def descBad (w : Mach) (sid : Nat) : Option Nat :=
  if (tableAt w (homeDie w sid)).isNone then none else badIn w (descAddr w sid) 256

/-- The sessions that a snapshot's copy finds uncorrectable, in their blocks or descriptors (R404). -/
def damaged (w : Mach) : List Nat :=
  if w.m.hw.bad.isEmpty then []
  else (w.m.s.sessions.filter fun e => e.2.state != 0 &&
    ((descBad w e.1).isSome || e.2.block.any fun b => (badIn w b.1 b.2).isSome)).map (·.1)

/-- The snapshot under way takes its contents as soon as it may (R380, R381): a damaged session is regenerated first, and
then copied (R404, R410). -/
def snapCapture (w : Mach) : Mach :=
  match w.m.k.snapQ with
  | r :: q =>
    if r.cut ≠ 0 ∧ r.snap.isNone = true ∧ snapReady w r.cut = true then
      if damaged w = [] then onK (fun k => { k with snapQ := { r with snap := some (snapNow w r) } :: q }) w
      else ((damaged w).filter fun sid => !w.m.s.regen.contains sid).foldl (fun w sid => startRegen sid w) w
    else w
  | [] => w

/-- The dispatcher reads a session's descriptor: what can be corrected is, and an uncorrectable one has the session
regenerated (R402, R405). -/
def readDesc (sid : Nat) (w : Mach) : Mach :=
  if (tableAt w (homeDie w sid)).isNone then w
  else
    let w := correctIn (descAddr w sid) 256 w
    match descBad w sid with
    | some g => startRegen sid (errorRecord ecUeRead { addr := 32 * g, step := BitVec.ofNat 64 (sessOf w sid).step } w)
    | none => w


/-- INVOCATION_START (R340 to R342, R344): the lowest-numbered invocation of a die that may start binds one of its plan's
idle threads, `pref` if it is one; one whose sessions' descriptors cannot be read waits (R405). With DET clear the batch is
what is queued now. -/
def execInvocationStart (die : BitVec 1) (pref : Nat) (s : State) : Host.Outcome State Fault Refusal :=
  run (fun w =>
    let d := die.toNat
    let w := snapCapture (settleRedo w)
    let w := if w.m.det then w else formBatch d (fun sid _ => hasLent w sid) w.m.tick w
    match nextInv w d with
    | none => noteShort w
    | some id =>
      let idle := idleLent w (tread {} w.m.s.invs id).plan
      match (if idle.contains pref then some pref else idle.head?) with
      | some k =>
        let sids := (tread {} w.m.s.invs id).evs.map (·.1)
        let w' := sids.foldl (fun w sid => readDesc sid w) w
        if sids.any fun sid => (descBad w sid).isSome then w' else noteShort (startInv id k w')
      | none => w) s

/-- INVOCATION_LIMIT (R331, R344): the cost sum of the invocation on a thread has reached its limit. -/
def execInvocationLimit (t : Tid) (s : State) : Host.Outcome State Fault Refusal :=
  run (fun w =>
    let th := thr w t
    if th.costLimit ≠ 0 ∧ th.costLimit ≤ th.costSum ∧ th.priv = false then closeInvocation t true 0 w else w) s

/-- Lines 32 to 39 count the periods in which lent threads were short, on every VP of the die (R247, R351; log 30). -/
def lentShortage (w : Mach) : Mach :=
  let w := noteShort w
  let was := w.m.s.short
  was.foldl (fun w k => iterate 16 (fun v w => lineEvent (k / 8 * 16 + v) (32 + k % 8) w) w)
    (onS (fun s => { s with short := [] }) w)

/-! ### What intake and RESUME can make ready (R334, R336, R351) -/

/-- EVENT_INTAKE (R30, R335, R336, R373, R375, R454): the keeper takes the next event of a ring whose turn it is and answers it
at once, or journals and queues it. -/
def execEventIntake (ring : BitVec 6) (s : State) : Host.Outcome State Fault Refusal :=
  run (fun w =>
    let r := ring.toNat
    let n := ringCount w (192 + r)
    if n = ringCount w (128 + r) ∨ !ringServed w true r ∨ 1024 ≤ ringOwes w r ∨ !ringTurn w (32 + r) then w
    else if !intakeOpen w then backpressure 1 w
    else
      let body := tread 0 w.m.h.evSlots (r * 2 ^ 12 + n % 1024)
      let sid := bits body 0 20
      let take (w : Mach) : Mach :=
        setCount (512 + r) (ringCount w (512 + r) + 1)
          (checkTally (.queue (128 + r)) (setCount (192 + r) (n + 1) (serveRing (32 + r) w)))
      match intakeStatus w sid with
      | some st =>
        let rec' := responseRecord sid st (bits body 32 32) w.m.tick 0 0 (List.replicate 32 0)
        postResponse r rec' (takeStamp unitKeeper (take w))
      | none =>
        if 524288 ≤ poolUsed w (homeDie w sid) then w
        else
          let near := decide (countGap (lastSeq w r) n < 2 ^ 17)
          if !near && !intakeOpen w 2 then backpressure 2 w else
          let w := take w
          let w := if near then w
            else
              let st := nextStamp unitKeeper w
              journalAdd (entryRecord 4 r n n st w.m.epoch) (takeStamp unitKeeper w)
          let st := nextStamp unitKeeper w
          let j := w.m.k.jseq
          let w := journalAdd (entryRecord 1 r n body st w.m.epoch) (takeStamp unitKeeper w)
          let w := onK (fun k => { k with jLastSeq := twrite 0 k.jLastSeq (64 + r) n }) w
          noteShort (queueEvent sid
            { ring := r, jseq := j, tick := st.tick, src := sourceOf unitKeeper, sq := BitVec.ofNat 16 st.seq,
              epoch := w.m.epoch, body := body } w)) s

/-- SESSION_PARK (R331, R334): after every earlier event an IDLE or PENDING session is PARKED; with RESUME a PARKED one,
whose events cannot be processed, goes back at once (log 29). -/
def execSessionPark (seq : Nat) (s : State) : Host.Outcome State Fault Refusal :=
  run (sessionCommand seq 0x0A [(128, 20), (159, 1)] fun sid c w =>
    let s := sessOf w sid
    if cmdBits c 0x10 31 1 = 1 then
      if w.m.s.regen.contains sid ∨ ((sessionCommands w sid).any fun e => decide (e.1 < seq)) = true then w
      else if s.state ≠ 4 then (if sessionTurn w seq c sid then failCmd seq erSessState w else w)
      else
        doneCmd seq (noteShort
          (updSess sid (fun s => { s with state := if s.queue.isEmpty then 1 else 2, parkwhy := 0 }) w))
    else if !sessionTurn w seq c sid then w
    else if s.state = 1 ∨ s.state = 2 then
      doneCmd seq (takeOut sid (updSess sid (fun s => { s with state := 4, parkwhy := 2 }) w))
    else failCmd seq erSessState w) s

/-! ### Regeneration (R410) -/

/-- A session's block and descriptor are rebuilt to the step it holds (R353, R368, R410): what they were at that step. -/
def rebuildSession (sid : Nat) (w : Mach) : Mach :=
  let s := sessOf w sid
  match tget (tread [] w.m.s.past sid) s.step with
  | some p => putDesc sid (fillPieces s.block p.block w)
  | none => putDesc sid w

/-- No aborted run of an invocation of a session can still write its block (R346). -/
def sessQuiet (w : Mach) (sid : Nat) : Bool :=
  w.m.s.invs.all fun e => !(e.2.evs.any fun x => x.1 == sid) || e.2.ended || invQuiet w e.1

/-- REGENERATION_COMPLETE (R331, R410, R420): the session has its state back and returns to IDLE or PENDING; one that its
home has no room for stays. -/
def execRegenerationComplete (sid : BitVec 20) (s : State) : Host.Outcome State Fault Refusal :=
  run (fun w =>
    let k := sid.toNat
    if !w.m.s.regen.contains k || (sessOf w k).state == 3 || !sessQuiet w k then w
    else
      let w := if blockHome w k then w else settleRelos (rehomeBlock true k w).1
      if !blockHome w k || !descFits w k then w else
      let w := rebuildSession k w
      let w := onS (fun s => { s with regen := s.regen.filter (· != k) }) w
      noteShort (updSess k
        (fun s => if s.state = 5 then s else { s with state := if s.queue.isEmpty then 1 else 2, parkwhy := 0 }) w)) s

end Sys2Proof.Machine
end

