-- ==== Sys2Proof/Machine/Store.lean ====
section
/-! DEFINITION. The keeping store (R379 to R384, R393, R397): snapshots and what NAND keeps. -/

namespace Sys2Proof.Machine
open Sys2Proof

/-- SNAPSHOT (R383): queued behind the snapshots under way; it takes its cut at a boundary and is DONE when it completes. -/
def execSnapshot (seq : Nat) (s : State) : Host.Outcome State Fault Refusal :=
  run (command seq 0x10 fun _ =>
    checkedCmd seq [(128, 1)] fun c w =>
      onK (fun k => { k with snapQ := k.snapQ ++ [{ cmd := some seq, full := cmdBits c 0x10 0 1 == 1 }] })
        (startCmd seq w)) s

/-- The fields of KEEP_SNAPCTL (R397). -/
def snapRetain (w : Mach) : Nat := bits w.m.k.snapctl.toNat 16 5
def snapHours (w : Mach) : Nat := bits w.m.k.snapctl.toNat 8 8
def snapMinutes (w : Mach) : Nat := bits w.m.k.snapctl.toNat 0 8

/-- A snapshot of a kind is already waiting for its turn on the schedule. -/
def scheduled (w : Mach) (full : Bool) : Bool := w.m.k.snapQ.any fun r => r.cmd.isNone && r.full == full

/-- At a boundary the schedule's snapshots join the queue, and the first in it takes its cut (R380, R381, R383). -/
def snapBoundary (w : Mach) : Mach :=
  let t := w.m.tick
  let w := if w.m.k.lastFull + snapHours w * 3600000000000 ≤ t && !scheduled w true then
      onK (fun k => { k with lastFull := t, lastInc := t, snapQ := k.snapQ ++ [{ full := true }] }) w
    else if w.m.k.lastInc + snapMinutes w * 60000000000 ≤ t && !scheduled w false then
      onK (fun k => { k with lastInc := t, snapQ := k.snapQ ++ [{}] }) w
    else w
  match w.m.k.snapQ with
  | r :: q =>
    if r.cut ≠ 0 then w
    else
      let cnts := w.m.h.counts.filter fun e => decide ((64 ≤ e.1 ∧ e.1 < 128) ∨ (192 ≤ e.1 ∧ e.1 < 256))
      snapCapture (onK (fun k =>
        { k with snapQ := { r with cut := t, jcut := k.jseq, cnts := cnts, oldest := oldestUnanswered w } :: q }) w)
  | [] => w

/-- What NAND keeps once a snapshot has completed (R384): the newest full ones, and the incrementals since the newest. -/
def keepSnaps (retain : Nat) (ss : List Snap) : List Snap :=
  let fulls := ss.filter (·.full)
  let oldest := (fulls.drop (fulls.length - retain)).map (·.num)
  let newest := (fulls.getLast?.map (·.num)).getD 0
  ss.filter fun s => if s.full then oldest.contains s.num else decide (newest < s.num)

/-- Journal segments older than the cut of the oldest kept full snapshot are reclaimed (R379). -/
def reclaimJournal (w : Mach) : Mach :=
  match (w.m.k.snaps.filter (·.full)).head? with
  | none => w
  | some s =>
    let from' := min s.jcut w.m.k.jDrained / segmentRecords * segmentRecords
    onK (fun k => { k with
      jKept := from', journal := k.journal.filter fun e => decide (from' ≤ e.1),
      segs := k.segs.filter fun e => decide (from' ≤ e.1) }) w

/-- RETIRED sessions whose close the snapshot covers become FREE (R331, R384). -/
def freeRetired (cut : Nat) (w : Mach) : Mach :=
  (w.m.s.sessions.filter fun e => e.2.state == 5 && beforeCut w e.2.closedEp e.2.closed cut).foldl (fun w e =>
    onS (fun s => { s with past := tdel s.past e.1, regen := s.regen.filter (· != e.1) }) (updSess e.1 (fun _ => {}) w)) w

/-- The ring sequence that a ring's next record follows (R375): where none of its records lies past the cut of the snapshot
just completed, that is the snapshot's CCOUNT. -/
def rebaseRings (sn : Snap) (w : Mach) : Mach :=
  let since (r : Nat) : Bool := w.m.k.journal.any fun e =>
    decide (sn.jcut ≤ e.1 ∧ e.1 < 2 ^ 62) && (e.2.typ == 1 || e.2.typ == 4) && e.2.ring == r
  onK (fun k => { k with jLastSeq := (List.range 64).foldl (fun t r =>
    if since r then t else twrite 0 t (64 + r) (tread 0 sn.counts (192 + r))) k.jLastSeq }) w

/-- The images of a completed snapshot stand in NAND (R382); those of plans that are over and that no session names go. -/
def storeImages (sn : Snap) (w : Mach) : Mach :=
  let live := (w.m.h.plans.filter fun e => e.2.serve && (!e.2.ended ||
    w.m.s.sessions.any fun s => s.2.state != 0 && s.2.plan == e.1)).map (·.2.imgKey)
  onK (fun k => { k with
    images := (sn.images.foldl (fun t e => tput t e.1 e.2) k.images).filter fun e => live.contains e.1 }) w

/-- The frames of a signed record's copy on the twin (R395, R396): header, body and both signatures. -/
def recordFrames (r : SignedRec) (w : Mach) : Mach :=
  onTwin (fun t => { t with recSent := tput t.recSent r.kind r.gen })
    (sendFrame 2 0 (ceilDiv (64 + 4 * r.body.length + 64 + 3309) 32) w)

/-- A lead ships each signed record that the twin does not hold with its newest GEN (R395). -/
def shipRecords (w : Mach) : Mach :=
  if w.m.twin.role ≠ 1 ∨ w.m.twin.link.up = false then w
  else (w.m.k.recs.filter fun r => decide (tread 0 w.m.twin.recSent r.kind < r.gen)).foldl (fun w r => recordFrames r w) w

/-- The frames of a snapshot's contents (R427, R428): its units, its sessions, and the images that are new in it. -/
def snapFrames (sn : Snap) (w : Mach) : Mach :=
  let size := 4096 * sn.units.length + 256 * sn.sessions.length + (sn.images.map fun e => e.2.size).sum
  sendFrame 2 0 (ceilDiv size 32) w

/-- A shipped snapshot has completed: its units, its images, the signed records and the journal from its cut go out (R395,
R442). -/
def shipSnapshot (sn : Snap) (w : Mach) : Mach :=
  match w.m.twin.pairing with
  | none => w
  | some (seq, mode, _) =>
    if w.m.twin.role ≠ 1 then w
    else
      let images := (w.m.h.plans.filter fun e => sn.plans.contains e.1).map fun e => (e.2.imgKey, e.2.imgSize)
      let size := 4096 * sn.units.length + 256 * sn.sessions.length + (images.eraseDups.map (·.2)).sum
      let w := shipRecords (onTwin (fun t => { t with recSent := [] }) (sendFrame 2 0 (ceilDiv size 32) w))
      let w := (w.m.k.journal.filter fun e => decide (sn.jcut ≤ e.1) && e.2.committed).foldl (fun w e => shipRecord e.1 e.2 w) w
      onTwin (fun t => { t with pairing := some (seq, mode, true) }) w

/-- SNAPSHOT_COMPLETE (R353, R379, R381, R383, R384): the header of the snapshot under way is programmed; its command is
DONE, and what it makes superfluous is reclaimed. -/
def execSnapshotComplete (s : State) : Host.Outcome State Fault Refusal :=
  run (fun w =>
    let w := snapCapture w
    match w.m.k.snapQ with
    | r :: q =>
      match r.snap with
      | none => w
      | some sn =>
        let retain := snapRetain w
        let w := onK (fun k => { k with
          snapQ := q, snapSeq := k.snapSeq + 1,
          snaps := keepSnaps retain (k.snaps ++ [{ sn with num := k.snapSeq + 1, images := [] }]) }) w
        let w := if r.full && w.m.det then onM (fun m => { m with loose := false }) w else w
        let w := storeImages sn (rebaseRings sn (trimAnswered sn.oldest w))
        let w := reclaimJournal (freeRetired r.cut w)
        -- a paired lead ships its later snapshots too (R428)
        let w := if r.ship then shipSnapshot { sn with num := w.m.k.snapSeq } w
          else if w.m.twin.role = 1 ∧ w.m.twin.mode ≠ 0 then snapFrames sn w else w
        match r.cmd with
        | some seq => doneCmd seq w
        | none => w
    | [] => w) s

/-- NAND_RETENTION_REFRESH (R393, R397): data older than 90 days, or weakly read, is copied to fresh blocks. What can be
seen of it is the endurance consumed, `used` in units of 0.01 percent, and the alert at 80 percent. -/
def execNandRetentionRefresh (used : BitVec 16) (s : State) : Host.Outcome State Fault Refusal :=
  run (fun w =>
    let was := w.m.k.wear
    let now := max was used.toNat
    let w := onK (fun k => { k with wear := now }) w
    if was < 8000 ∧ 8000 ≤ now then alert alNandWear 0 now w else w) s

end Sys2Proof.Machine
end

