-- ==== Sys2Proof/Machine/Replay.lean ====
section
/-! DEFINITION. REPLAY_TO (R365 to R369). -/

namespace Sys2Proof.Machine
open Sys2Proof

/-- The operand bits of REPLAY_TO (R365). -/
def replayBits : List (Nat × Nat) :=
  [(128, 3), (152, 6), (160, 32), (192, 13), (256, 64), (320, 48), (384, 48)]

/-- A reserved bit or code of REPLAY_TO is set (R366). -/
def replayMalformed (c : Cmd) : Bool :=
  !operandsClean c replayBits || cmdBits c 0x10 0 2 == 3 || decide (16 < cmdBits c 0x18 8 5)
  || (cmdBits c 0x10 0 2 == 2 && decide (2 ^ 20 ≤ cmdBits c 0x14 0 32))

/-- The first named input that differs from its record, by index (R366). -/
def changedInput (target : Nat) (p : Plan) (w : Mach) : Option Nat × Mach :=
  (List.range p.ins.length).foldl (fun (x : Option Nat × Mach) i =>
    if x.1.isSome then x
    else
      let (r, w) := rangeBytes p.asid [p.ins.getD i (0, 0)] x.2
      let now := r.map fun bs => ofBytes (sha256 (bs.flatMap id))
      let then' := (findInput w target fun k _ _ n => k == 0 && n == i).map (·.2)
      (if now.isSome ∧ now = then' then none else some i, w)) (none, w)

/-- The records of a plan are still kept (R366): of its command and of every input that it has read, named ranges first. -/
def recordsKept (w : Mach) (target : Nat) : Bool :=
  (tget w.m.k.journal (cmdOf w target).jseq).isSome &&
  (List.range (cmdOf w target).inputs).all fun i => (findInput w target fun _ _ _ n => n == i).isSome

/-- A replay of a plan starts (R366, R367). -/
def startReplay (seq : Nat) (c : Cmd) (w : Mach) : Mach :=
  let target := cmdBits c 0x14 0 32
  match tget w.m.h.plans target with
  | none => failCmd seq erReplayRange w
  | some p =>
    if !isOver w target && !p.ended then failCmd seq erReplayBusy w
    else if p.replay.isSome || !recordsKept w target then failCmd seq erReplayRange w
    else
     let ps := namedPieces w p.asid p.ins
     withHost seq ps (fun _ => failCmd seq erXlateAbsent) (keeperReads seq 4 (cmdBits c 0x10 24 6) ps fun w =>
      match changedInput target p w with
      | (some i, w) => failCmd seq erInputChanged (updCmd seq (fun c => { c with prog := i }) w)
      | (none, w) =>
        let r : ReplayOf := { kind := cmdBits c 0x10 0 2, target := target, lthread := cmdBits c 0x18 0 8,
                              step := cmdBits c 0x20 0 64 }
        let q : Plan := { p with
          serve := false, lend := 0, cls := cmdBits c 0x10 24 6, bound := false, aborted := false, ended := false,
          ck := 0, attempts := 0, granule := none, seen := [], stall := 0, replay := some r }
        let w := updCmd seq (fun c => { c with det := true, stage := 1, ats := 0 }) (updPlan seq (fun _ => q) (startCmd seq w))
        if threadsSuffice w q then w else failCmd seq erPlanThreads w) w

/-- The journal holds the events of a session that made its steps after `base` up to `step` (R366). -/
def eventsKept (w : Mach) (sid base step : Nat) : Bool :=
  (List.range (step - base)).all fun i =>
    match tget (tread [] w.m.s.past sid) (base + 1 + i) with
    | some p => (tget w.m.k.journal p.jseq).isSome
    | none => false

/-- A kept snapshot from which a session can be rebuilt to a step (R366): it holds the session, as it was opened last, at or
below the step, and the journal the events since. -/
def replayBase (w : Mach) (sid step : Nat) : Bool :=
  w.m.k.snaps.any fun s =>
    match tget s.sessions sid with
    | some x => x.otick == (sessOf w sid).otick && decide (x.step ≤ step) && eventsKept w sid x.step step
    | none => false

/-- A session is rebuilt in the keeper's scratch block and dumped (R366, R368): what it was at the step (log 28). -/
def replaySession (seq : Nat) (c : Cmd) (w : Mach) : Mach :=
  let sid := cmdBits c 0x14 0 20
  let step := cmdBits c 0x20 0 64
  let past := (tread [] w.m.s.past sid).filter fun e => decide (e.1 ≤ step)
  match past.getLast? with
  | none => failCmd seq erReplayRange w
  | some (k, p) =>
    if decide ((sessOf w sid).step < step) || !replayBase w sid step then failCmd seq erReplayRange w
    else endReplay seq w.m.tick 2 (k == step) k [] (toBytes 256 p.desc ++ p.block) w

/-- REPLAY_TO (R365 to R369): its checks and its start; once its plan stands at the stop, its dump. -/
def execReplayTo (seq : Nat) (s : State) : Host.Outcome State Fault Refusal :=
  run (fun w =>
    let c := cmdOf w seq
    if mayStart w seq 0x11 then
      let w := updCmd seq (fun c => { c with begun := true }) w
      let err := useCheck w c.fn (cmdBits c 0x10 24 6) none
      if tallyShut w c then failCmd seq erTally w
      else if replayMalformed c then failCmd seq erReplayFormat w
      else if err ≠ 0 then failCmd seq err w
      else if cmdBits c 0x10 0 2 = 2 then replaySession seq c w
      else startReplay seq c w
    else
      match (planOf w seq).replay with
      | some r => if r.stopped && isRunning w seq && !inField w seq then dumpReplay seq w else w
      | none => w) s

end Sys2Proof.Machine
end

