-- ==== Sys2Proof/Machine/Services.lean ====
section
/-! DEFINITION. The keeper gate services (R268, R269), decode tables (R189 to R192), signatures and signed records (R395,
R396, R469, R470). -/

namespace Sys2Proof.Machine
open Sys2Proof

/-! ### Signatures and signed records -/

/-- Both signatures verify over the same bytes with the signer's keys (R470). -/
def bothVerify (keys : Nat → Nat) (msg : List Byte) (ed mldsa : Nat) : Bool :=
  Config.verify 0 (keys 0) (ofBytes msg) ed && Config.verify 1 (keys 1) (ofBytes msg) mldsa

/-- The owner's keys, by scheme. -/
def ownerKeys (o : List Nat) (scheme : Nat) : Nat := o.getD scheme 0

/-- Whose signature decode tables carry (R469): the owner's, or Jarrun's while the module is unowned. -/
def decodeSigner (w : Mach) (scheme : Nat) : Nat :=
  match w.m.sec.owned with
  | some o => ownerKeys o scheme
  | none => Config.jarrunKey scheme

/-- The version floor of an image type (R473). -/
def floorOf (w : Mach) (typ : Nat) : Nat := tread 0 w.m.sec.floors typ

/-- A floor rises, and its record is written (R473). -/
def raiseFloor (typ v : Nat) (w : Mach) : Mach :=
  if v ≤ floorOf w typ then w
  else
    let w := onSec (fun s => { s with floors := twrite 0 s.floors typ v }) w
    writeRecord 2 ((List.range 3).map fun i => floorOf w (1 + i)) w

/-! ### Decode-table images (R184 to R190) -/

/-- A field of an image. -/
def imgNum (bs : List Byte) (off n : Nat) : Nat := ofBytes ((bs.drop off).take n)

/-- The entries and micro-operations of an image as a table. -/
def imageTable (bs : List Byte) : DecodeTab :=
  { entries := (List.range 64).foldl (fun t i => twrite 0 t i (imgNum bs (0x40 + 16 * i) 16)) [],
    uops := (List.range 1024).foldl (fun t i => twrite 0 t i (imgNum bs (0x440 + 8 * i) 8)) [],
    digest := BitVec.ofNat 64 (imgNum bs 0x20 8) }

/-- The entries of a table that define an instruction. -/
def validEntries (d : DecodeTab) : List Nat := (d.entries.map (·.2)).filter fun e => bit e 29

/-- MAGIC, FORMAT, counts, reserved fields and digest (R190, check 1). -/
def imageFormatOk (bs : List Byte) : Bool :=
  let d := imageTable bs
  let used := ((validEntries d).flatMap fun e => (List.range (bits e 24 5 + 1)).map fun i => bits e 32 10 + i).eraseDups
  imgNum bs 0 4 == 0x5444584C && imgNum bs 4 2 == 1 && imgNum bs 6 2 == (validEntries d).length
  && imgNum bs 8 2 == used.length && imgNum bs 0xA 2 == 0 && imgNum bs 0x10 16 == 0
  && d.entries.all (fun e => bits e.2 30 2 == 0 && bits e.2 42 22 == 0)
  && (bs.drop 0x20).take 32 == sha256 ((bs.drop 0x40).take 0x2400)

/-- A selector is one that an operation may name (R185). -/
def selectorOk (vector source : Bool) (s : Nat) : Bool :=
  if vector then decide (s ≤ 0x22) else decide (s < 0x28) && (source || s != 0x23)

/-- A micro-operation is a permitted operation (R185, R186, check 4): its fields spell an instruction of R173 that R169 does
not call undefined. A memory operation's width stands in MINOR and in IMM alike (log 127). -/
def uopOk (u : Uop) : Bool :=
  let x : XF := ⟨0, 0, 0, 0⟩
  let o := vopOfWord (uopWord x u)
  let vec := ([0x26, 0x27, 0x28, 0x29, 0x2A, 0x2E] : List Nat).contains u.major
  let width := (u.imm >>> 13).toNat
  let high := bits u.mod 1 4
  (if vec then decide (u.minor < 32) && !vreserved o 0 && (u.major != 0x29 || (cvtOf o.word).rm != 2)
   else if u.major = 1 then
     (intOfMinor u.minor).isSome && bits u.mod 0 5 == 0 && (u.minor < 0xE || 0x10 < u.minor || u.srcB == 0)
   else if u.major = 9 then u.minor == width && (loadShape width).isSome
   else if u.major = 0xA then u.minor == width && decide (width < 4)
   else if u.major = 0xB ∨ u.major = 0xC then u.minor == width && (width == 2 || width == 3)
   else if u.major = 7 then decide (bits u.imm.toNat 6 2 ≠ 3) && bits u.imm.toNat 8 8 == 0
   else if u.major = 8 then u.srcA == 0
   else if u.major = 0x1B then
     if u.minor = 0xE then decide (high < 4) && decide (u.srcB < 5) else decide (u.minor ≤ 0x10) && high == 0
   else if u.major = 0x1C then decide (u.minor < 64) && decide (u.minor % 32 ≤ 3)
   else decide (2 ≤ u.major ∧ u.major ≤ 0xC))
  && selectorOk vec false u.dst && selectorOk vec true u.srcA && selectorOk vec true u.srcB
  && selectorOk vec true u.srcC

/-- An entry's micro-operations meet R184 to R186; VCVT has format codes and no etype (R214). -/
def entryOk (d : DecodeTab) (e : Nat) : Bool :=
  let us := entryUops d e
  let ets := ((us.filter fun u => uopVector u && u.major != 0x29).map fun u => u.mod % 4).eraseDups
  decide (bits e 24 5 < 16) && decide (bits e 32 10 + bits e 24 5 < 1024) && us.all uopOk
  && decide ((us.filter fun u => u.major == 0xA || u.major == 0xC).length ≤ 4) && decide (ets.length ≤ 1)

/-- An entry declares the cost that its micro-operations have (R187, check 5). -/
def entryCostOk (d : DecodeTab) (e : Nat) : Bool :=
  let us := entryUops d e
  let x : XF := ⟨0, 0, 0, 0⟩
  let fixed := (us.map fun u => if uopVector u then 3 else 8 * uopTurns u).sum
  let pass := (us.map fun u => if uopVector u then occupancy (vopOfWord (uopWord x u)) else 0).sum
  bits e 0 16 == fixed && bits e 16 8 == pass

/-- The outcome of R190's checks: an error, 0 for none. -/
def imageError (w : Mach) (bs : List Byte) : Nat :=
  let d := imageTable bs
  if !imageFormatOk bs then erDecodeFormat
  else if !bothVerify (decodeSigner w) (bs.take 0x2440) (imgNum bs 0x2440 64) (imgNum bs 0x2480 3309) then erDecodeSig
  else if imgNum bs 0xC 4 < floorOf w 3 then erDecodeFloor
  else if !(validEntries d).all (entryOk d) then erDecodeUop
  else if !(validEntries d).all (entryCostOk d) then erDecodeCost
  else 0

/-! ### Replies and completion records (R268, R269) -/

/-- The thread, or the group, that waits for a service, and the word of its GATE. -/
def serviceWait (th : Thread) (n : Nat) : Option (Option Nat × W32) :=
  (waitsOf th).findSome? fun e =>
    match e.2 with
    | .service k word _ => if k = n then some (e.1, word) else none
    | _ => none

/-- A service replies: its effect for what waits, given the word of its GATE, the record of the reply (R362), and the wait's
end. -/
def serviceReply (t : Tid) (n : Nat) (f : W32 → Mach → Mach) (w : Mach) : Mach :=
  match serviceWait (thr w t) n with
  | none => w
  | some (g, word) =>
    if (cmdOfThread (thr w t)).any fun c => inputWaits w c 1 then w
    else wake t (endWait g) (asGroup t g (fun w => recordReply t (f word w)) w)

/-- A service argument. -/
def argOf (w : Mach) (t : Tid) (i : Nat) : Nat := (getG (thr w t) (BitVec.ofNat 5 i)).toNat

/-- A completion record's 32 bytes (R269). -/
def svcBytes (w : Mach) (r : SvcRec) (state err : Nat) : List Byte :=
  toBytes 8 (state + r.service <<< 8 + err <<< 16) ++ toBytes 8 w.m.tick ++ toBytes 8 w.m.epoch ++ toBytes 8 r.tag.toNat

/-- The pieces of a completion record as it is written: through its caller's translation, as it stands then (R269). -/
def svcPieces (w : Mach) (r : SvcRec) : List Chunk :=
  let u := unitVp (r.caller / 8)
  match pieces w (vpOf w (r.caller / 8)).tlb r.ctx .write (throughPort w u (isDevice w)) r.va 32 with
  | .ok cs => markPort w u cs
  | .error _ => []

/-- The keeper writes a completion record, whole, as the caller would (R269): a piece that the caller may not write takes
none of it and is a violation (R241, R413). -/
def putSvc (r : SvcRec) (state err : Nat) (w : Mach) : Mach :=
  let cs := svcPieces w r
  let deny (w : Mach) (c : Chunk) : Mach :=
    if c.pa.isNone then
      violation (unitVp (r.caller / 8)) (if c.stale.isSome then vcStaleUnit else vcProtWrite) true true c.va r.word w
    else w
  storePieces none cs (svcBytes w r state err) (cs.foldl deny w)

/-- A caller's completion record: under its translation and with its privilege at the call (R269). -/
def svcAt (w : Mach) (t : Tid) (word : W32) (service va tag : Nat) : SvcRec :=
  { va := va, ctx := ctxOf (thr w t), caller := tkey t, word := word, tag := BitVec.ofNat 64 tag, service := service }

/-- Bytes that the keeper writes for a caller; what the caller may not write is a violation (R241, R269). -/
def putCaller (t : Tid) (word : W32) (va : Nat) (bs : List Byte) (w : Mach) : Mach :=
  match threadPieces w t .write va bs.length with
  | .ok cs => storePieces none cs bs (logDenied t true word cs w)
  | .error _ => w

/-! ### DECODE_LOAD, DECODE_CHECK, DECODE_INSTALL (R189 to R192) -/

/-- DECODE_LOAD (R189, R190, R269): the image is taken, its record goes RUNNING, and the keeper replies at once. -/
def execDecodeLoad (t : Tid) (s : State) : Host.Outcome State Fault Refusal :=
  run (serviceReply t 1 fun word w =>
    if argOf w t 3 ≠ 12653 then setG t 1 kservArg w
    else if w.m.sec.decImg.isSome then setG t 1 kservBusy w
    else
      let cs := match threadPieces w t .read (argOf w t 2) 12653 with | .ok cs => cs | .error _ => []
      let r := svcAt w t word 1 (argOf w t 4) (argOf w t 6)
      let w := onSec (fun x => { x with decImg := some { bytes := readPieces w cs, svc := r } }) (logDenied t false word cs w)
      readCheck t cs (setG t 1 0 (putSvc r 2 0 w))) s

/-- DECODE_CHECK (R190): the checks of the waiting image end; an accepted one is in the keeping store and waits to be
installed. -/
def execDecodeCheck (s : State) : Host.Outcome State Fault Refusal :=
  run (fun w =>
    match w.m.sec.decImg with
    | none => w
    | some i =>
      let err := imageError w i.bytes
      let w := onSec (fun x => { x with decImg := none }) w
      if err ≠ 0 then putSvc i.svc 5 err w
      else putSvc i.svc 4 0 (onSec (fun x => { x with decNext := some i.bytes, decKept := i.bytes, decDone := [] }) w)) s

/-- A plan that uses major 0x3E is RUNNING on a die (R191): a thread there runs it, is lent by it or runs an invocation for
it. A RUNNING plan that no thread holds, between a rollback and its next binding, counts on both dies (DEDUCED: it may be
bound on either; log 128). -/
def customRunning (w : Mach) (die : Nat) : Bool :=
  w.m.h.plans.any fun e => e.2.dec != 0 && !e.2.ended && isRunning w e.1 &&
    (let on := w.m.threads.filter fun x =>
       match x.2.binding with
       | .free => false
       | .plan c _ => c == e.1
       | .lent c => c == e.1
       | .inv _ c => c == e.1
     on.isEmpty || on.any fun x => x.1 / 128 == die)

/-- The accepted table is installed on a die, or removed from it, once no such plan runs there (R191). -/
def installOn (bs : List Byte) (die : Nat) (w : Mach) : Mach :=
  if customRunning w die then w
  else onSec (fun x => { x with decDone := x.decDone ++ [die] })
    (onM (fun m => { m with decTab := if bs.isEmpty then tdel m.decTab die else tput m.decTab die (imageTable bs) }) w)

/-- DECODE_INSTALL (R191, R192, R473, R478): the accepted table is installed on each die that may take it, or after a
change of owner the table is removed; with both dies done, a floor that the installed image raises, rises. -/
def execDecodeInstall (s : State) : Host.Outcome State Fault Refusal :=
  run (fun w =>
    match w.m.sec.decNext with
    | none => w
    | some bs =>
      let w := (([0, 1] : List Nat).filter fun d => !w.m.sec.decDone.contains d).foldl (fun w d => installOn bs d w) w
      if !(([0, 1] : List Nat).all w.m.sec.decDone.contains) then w
      else
        let w := onSec (fun x => { x with
          decNext := none, decDone := [], decOn := bs, decKept := if bs.isEmpty then [] else x.decKept }) w
        if bs.isEmpty then w else raiseFloor 3 (imgNum bs 0xC 4) w) s

/-! ### VIOL_READ and ERR_READ (R244, R269, R422) -/

/-- A log is read for a caller: the acknowledging write first, then the records and the counts (R10, R269). -/
def logRead (t : Tid) (n : Nat) (slot : Mach → Nat → List Byte) (count : Module → AckCtr)
    (put : AckCtr → Module → Module) (next : Module → Nat) (word : W32) (w : Mach) : Mach :=
  let first := argOf w t 2
  let k := argOf w t 3
  let ack := argOf w t 5
  let none' := ack == 2 ^ 64 - 1
  if 4095 < first ∨ k < 1 ∨ 64 < k ∨ (2 ^ 32 ≤ ack ∧ none' = false) then setG t 1 kservArg w
  else
    let w := if none' then w
      else match ackWrite (count w.m) (BitVec.ofNat 32 ack) with
        | some c => onM (put c) w
        | none => violThread t vcAccessCode true (if n = 2 then 0x1030 else 0x1038) word w
    let bs := (List.range k).flatMap fun i => slot w ((first + i) % 4096)
    let w := putCaller t word (argOf w t 4) bs w
    setG t 1 0 (setG t 2 ((ackOut (count w.m)).setWidth 64) (setG t 3 (BitVec.ofNat 64 (next w.m)) w))

/-- VIOL_READ (R244, R269). -/
def execViolRead (t : Tid) (s : State) : Host.Outcome State Fault Refusal :=
  run (serviceReply t 2 (logRead t 2 violSlot (·.violCount) (fun c m => { m with violCount := c }) (·.violNext))) s

/-- ERR_READ (R269, R422). -/
def execErrRead (t : Tid) (s : State) : Host.Outcome State Fault Refusal :=
  run (serviceReply t 3 (logRead t 3 errSlot (·.errCount) (fun c m => { m with errCount := c }) (·.errNext))) s

end Sys2Proof.Machine
end

