-- ==== Sys2Proof/Machine/Xlat.lean ====
section
/-! DEFINITION. Shoot-downs, migration, advice and ATS (R288 to R299): INVALIDATE, XLINV, PREFETCH, ADVISE. -/

namespace Sys2Proof.Machine
open Sys2Proof

/-! ### Shoot-downs (R288 to R292) -/

/-- Two shoot-downs concern a common range of a common address space (R292). -/
def shootsMeet (a b : Shoot) : Bool :=
  overlaps a.va a.len b.va b.len && (a.asid == b.asid || a.asid.isNone || b.asid.isNone)

/-- The command of a shoot-down has not ended otherwise (R451). -/
def shootLive (w : Mach) (s : Shoot) : Bool := match s.cmd with | some seq => !isOver w seq | none => true

/-- The dies that may hold translations of a range (R290, R296): those that the advice on all of it allows. -/
def diesFor (w : Mach) (asid : Option (BitVec 16)) (va len : Nat) : Nat :=
  match asid with
  | none => 3
  | some a =>
    let hit := w.m.advice.filter fun x => x.asid == a && overlaps x.va x.len va len
    let covered := (hit.map fun x => min (x.va + x.len) (va + len) - max x.va va).sum
    if covered < len then 3
    else hit.foldl (fun m x => m ||| (if x.accessedBy = 0 then 3 else x.accessedBy.toNat)) 0

/-- The unit's look-aside entries that a shoot-down drops: those that overlap it, of its address space or global (R288,
R290). -/
def dropTlb (s : Shoot) (tlb : List TlbEntry) : List TlbEntry :=
  tlb.filter fun e => !(overlaps e.va e.size s.va s.len
    && (e.bits.getLsbD 6 || match s.asid with | some a => e.asid == a | none => true))


/-- Change the shoot-downs that meet a test. -/
def updShoots (p : Shoot → Bool) (f : Shoot → Shoot) (w : Mach) : Mach :=
  onX (fun x => { x with shoots := x.shoots.map fun s => if p s then f s else s }) w

/-- A shoot-down goes out at a boundary (R290): the command is RUNNING, every buffer of its dies drops its entries, and
the uses begun before are counted. -/
def sendShoot (s : Shoot) (w : Mach) : Mach :=
  let w := match s.cmd with
    | some seq => if stateOf w seq = 1 then startCmd seq w else w
    | none => w
  let vp (e : Nat × Vp) : Nat × Vp :=
    (e.1, if bit s.dies (dieOfVp e.1) then { e.2 with tlb := dropTlb s e.2.tlb } else e.2)
  let mover (e : Nat × Mover) : Nat × Mover :=
    (e.1, if bit s.dies (e.1 / 32) then { e.2 with tlb := dropTlb s e.2.tlb } else e.2)
  let w := onM (fun m => { m with vps := m.vps.map vp, hw := { m.hw with movers := m.hw.movers.map mover } }) w
  let drop := w.m.x.drops + 1
  onX (fun x => { x with drops := drop })
    (updShoots (fun x => x.order == s.order) (fun x => { x with sent := true, uses := usesNow w s.dies drop }) w)

/-- The range of an INVALIDATE (R288): LENGTH 0 is the whole space. -/
def invLen (len : Nat) : Nat := if len = 0 then 2 ^ 48 else len

/-- The shoot-down of an INVALIDATE, a PREFETCH or an ADVISE, by its operands. -/
def shootOf (w : Mach) (seq : Nat) : Option Shoot :=
  let c := cmdOf w seq
  let va := cmdBits c 0x10 0 48
  let len := cmdBits c 0x18 0 48
  let sh (asid : Option (BitVec 16)) (len : Nat) : Shoot :=
    { cmd := some seq, va := va, len := len, asid := asid, tick := c.tick, order := stampRank w seq,
      dies := diesFor w asid va len }
  match opcodeOf c with
  | 3 => some (sh (some (BitVec.ofNat 16 (cmdBits c 0x28 0 16))) len)
  | 4 => some (sh (some (BitVec.ofNat 16 (cmdBits c 0x20 0 16))) len)
  | 5 => some (sh (if cmdBits c 0x20 16 1 = 1 then none else some (BitVec.ofNat 16 (cmdBits c 0x20 0 16))) (invLen len))
  | _ => none

/-- An earlier invalidation that overlaps is not over, though it may not have begun (R292). -/
def shootBehind (w : Mach) (s : Shoot) : Bool :=
  let before (x : Shoot) : Bool := lexLt x.order s.order && shootsMeet x s && shootLive w x
  w.m.x.shoots.any before || w.m.h.cmds.any fun e => match shootOf w e.1 with | some x => before x | none => false

/-- At a boundary every shoot-down that waits on no earlier one goes out (R290, R292). -/
def sendShoots (w : Mach) : Mach :=
  (w.m.x.shoots.filter fun s => !s.sent && shootLive w s && decide (s.tick < w.m.tick)).foldl
    (fun w s => if shootBehind w s then w else sendShoot s w) w

/-- A shoot-down has drained (R290, R294): its command or record is DONE, and a PREFETCH goes on. -/
def endShoot (s : Shoot) (w : Mach) : Mach :=
  let gone := onX (fun x => { x with shoots := x.shoots.filter fun y => y.order != s.order })
  match s.cmd, s.svc with
  | some seq, _ =>
    if opcodeOf (cmdOf w seq) = 3 then updShoots (fun x => x.order == s.order) (fun x => { x with drained := true }) w
    else doneCmd seq (gone w)
  | none, some r => putSvc r 4 0 (gone w)
  | none, none => gone w

/-- SHOOTDOWN_DRAIN_REPORT (R290): one use of a shoot-down has drained and its unit reports; with the last report it
ends. -/
def execShootdownDrainReport (n use : Nat) (s : State) : Host.Outcome State Fault Refusal :=
  run (fun w =>
    match w.m.x.shoots[n]? with
    | none => w
    | some x =>
      if !x.sent || x.drained then w
      else
        let left := match x.uses[use]? with
          | some u => if useDrained w u then x.uses.eraseIdx use else x.uses
          | none => x.uses
        let w := updShoots (fun y => y.order == x.order) (fun y => { y with uses := left }) w
        if left.isEmpty then endShoot x w else w) s

/-- INVALIDATE (R288, R290): its checks; the shoot-down then waits for the boundary, the status word QUEUED. -/
def execInvalidate (seq : Nat) (s : State) : Host.Outcome State Fault Refusal :=
  run (command seq 0x05 fun c w =>
    if c.stage ≠ 0 then w
    else checkedCmd seq [(128, 48), (192, 48), (256, 17), (280, 6)] (fun c w =>
      let va := cmdBits c 0x10 0 48
      let len := cmdBits c 0x18 0 48
      let asid := BitVec.ofNat 16 (cmdBits c 0x20 0 16)
      let err := useCheck w c.fn (cmdBits c 0x20 24 6) (some asid)
      if err ≠ 0 then failCmd seq err w
      else if va % 4096 ≠ 0 ∨ len % 4096 ≠ 0 then failCmd seq erXlateAlign w
      else
        onX (fun x => { x with shoots := x.shoots ++ (shootOf w seq).toList }) (updCmd seq (fun c => { c with stage := 1 }) w)) w) s

/-- The error of XLINV's operand words (R288): the checks of INVALIDATE but for the function. -/
def xlinvError (g2 g3 g4 : Nat) : Nat :=
  if 2 ^ 48 ≤ g2 ∨ 2 ^ 48 ≤ g3 ∨ bits g4 17 7 ≠ 0 ∨ bits g4 30 34 ≠ 0 then erFormat
  else if bits g4 24 6 = 0 then erClass
  else if g2 % 4096 ≠ 0 ∨ g3 % 4096 ≠ 0 then erXlateAlign
  else 0

/-- XLINV (R269, R288): an INVALIDATE for the supervisor: its record goes RUNNING, and the invalidation runs after the
reply. -/
def execXlinv (t : Tid) (s : State) : Host.Outcome State Fault Refusal :=
  run (serviceReply t 4 fun word w =>
    let g2 := argOf w t 2
    let g3 := argOf w t 3
    let g4 := argOf w t 4
    let r := svcAt w t word 4 (argOf w t 5) (argOf w t 6)
    let w := putSvc r 2 0 (setG t 1 0 w)
    let err := xlinvError g2 g3 g4
    if err ≠ 0 then putSvc r 5 err w
    else
      let st := nextStamp unitKeeper w
      let a := if bit g4 16 then none else some (BitVec.ofNat 16 g4)
      let sh : Shoot := { svc := some r, va := g2, len := invLen g3, asid := a, tick := st.tick,
                          order := [st.tick, (sourceOf unitKeeper).toNat, st.seq, 0], dies := diesFor w a g2 (invLen g3) }
      onX (fun x => { x with shoots := x.shoots ++ [sh] }) (takeStamp unitKeeper w)) s

/-! ### PREFETCH (R281, R293, R294, R296) -/

/-- The regions of R275 by address: 1 near memory, 2 HBM, 3 the host window, 0 anything else. -/
def regionKind (a : Nat) : Nat :=
  if a < 0x780000000 then 1
  else if 0x010000000000 ≤ a ∧ a < 0x019000000000 then 2
  else if isHost a then 3
  else 0

/-- Before a page moves its leaf goes absent, or under READ_MOSTLY refuses writes (R294, step 1). -/
def fenceLeaf (asid : BitVec 16) (p : MovePage) (w : Mach) : Mach :=
  let e := readNum w p.ent 8
  if readMostlyAt w asid p.va p.size then putLeaf p.ent (if bit e 3 then e - 8 else e) w
  else putLeaf p.ent (if bit e 0 then e - 1 else e) w

/-- The checks of R293 and R296, then the leaves go absent and the invalidation waits for the boundary. -/
def startPrefetch (seq : Nat) (c : Cmd) (w : Mach) : Mach :=
  let va := cmdBits c 0x10 0 48
  let len := cmdBits c 0x18 0 48
  let dest := cmdBits c 0x20 0 48
  let asid := BitVec.ofNat 16 (cmdBits c 0x28 0 16)
  let force := cmdBits c 0x28 32 1 == 1
  let sh := (shootOf w seq).getD {}
  let err := useCheck w c.fn (cmdBits c 0x28 24 6) (some asid)
  if len = 0 then failCmd seq erFormat w
  else if err ≠ 0 then failCmd seq err w
  else if shootBehind w sh then w
  else match leavesOf w (asidCtx w asid).xlbase (len / 4096 + 1) va len with
    | none => failCmd seq erXlateShape w
    | some ls =>
      let big := ls.foldl (fun m l => max m l.size) 4096
      let kind := regionKind dest
      let pref := (adviceAt w asid va len).any fun a => a.preferred != 0 && a.preferred.toNat != kind
      if va % big ≠ 0 ∨ len % big ≠ 0 ∨ dest % big ≠ 0 ∨ kind = 0 ∨ regionKind (dest + len - 1) ≠ kind then
        failCmd seq erXlateShape w
      else if pref && !force then failCmd seq erXlateAdvice w
      else
        let ps := ls.map fun l => ({ ent := l.ent, va := l.va, size := l.size, pa := l.pa, bits := l.bits } : MovePage)
        let w := updCmd seq (fun c => { c with stage := 1 }) (startCmd seq w)
        let w := ps.foldl (fun w p => fenceLeaf asid p w) w
        onX (fun x => { x with shoots := x.shoots ++ [{ sh with tick := w.m.tick }], moves := tput x.moves seq ps }) w

/-- The die whose movers copy a page (R294, R460; log 109). -/
def copyDie (w : Mach) (src dst : Nat) : Nat :=
  let d := if isDevice w dst then dieOfAddr w dst else if isDevice w src then dieOfAddr w src else 0
  if unitState w d == .inService then d else 1 - d

/-- A physical range in pieces of one page, denied where the map has no memory (R275, R276). -/
def physRange (w : Mach) (va a len : Nat) : List Chunk :=
  (cutPages (len / 4096 + 2) a len).map fun p =>
    { va := va + (p.1 - a), len := p.2, pa := if moverMayReach w p.1 then some p.1 else none, stale := fencedDie w p.1 }

/-- Movers copy a page for the keeper (R44, R294, R316; log 109): charges, energy, violations, and the bytes. -/
def copyPage (cls die va src dst len : Nat) (w : Mach) : List Byte × Mach :=
  let rd := physRange w va src len
  let wr := physRange w va dst len
  let ps := rd.map (fun c => (false, c)) ++ wr.map fun c => (true, c)
  let c := chargeOf w die [] ps
  let beats := 16 + ceilDiv len 2048 + ceilDiv len 512
  let energy := 5 * beats + 45 * tsum c.sectors + 80 * c.gran + 60 * tsum c.flits
  let w := keeperEnergy cls (hostEnergy c) (request ⟨.energy, 0, cls, ceilDiv energy energyUnit, keeperNow w, none⟩ w)
  let w := askPieces (keeperNow w) cls die (fun _ => 0) c (fun ev k => countGlobal ev k ⟨die, cls, 0⟩) ps w
  let w := logUnit (unitMover (32 * die)) true wr (logUnit (unitMover (32 * die)) false rd (correctPieces rd w))
  let (bs, w) := readChunks rd w
  (bs, writeChunks wr bs w)

/-- The next page of a PREFETCH moves and its leaf is written (R294, steps 2 to 4). -/
def movePage (seq : Nat) (c : Cmd) (p : MovePage) (more : Bool) (w : Mach) : Mach :=
  let asid := BitVec.ofNat 16 (cmdBits c 0x28 0 16)
  let cls := cmdBits c 0x28 24 6
  let dst := cmdBits c 0x20 0 48 + (p.va - cmdBits c 0x10 0 48)
  let (bs, w) := copyPage cls (copyDie w p.pa dst) p.va p.pa dst p.size w
  let b := p.bits.toNat
  let b := if readMostlyAt w asid p.va p.size && bit b 3 then b - 8 else b
  let w := putLeaf p.ent (dst + b) (chargeKeeper cls true [⟨p.va, 8, some p.ent, none⟩] w)
  let w := updCmd seq (fun c => { c with posted := c.posted + 1, ats := 0, parts := tput c.parts c.posted bs }) w
  let w := setProgress seq (c.posted + 1) w
  if more then w
  else
    let all := (cmdOf w seq).parts.flatMap (·.2)
    let w := onX (fun x => { x with shoots := x.shoots.filter fun s => s.cmd != some seq, moves := tdel x.moves seq }) w
    finishCmd seq 0 (if withholds w seq then sha256 all else []) w

/-- The PREFETCH ends with an error in the middle of its pages. -/
def stopMove (seq err : Nat) (w : Mach) : Mach :=
  failCmd seq err (onX (fun x =>
    { x with shoots := x.shoots.filter fun s => s.cmd != some seq, moves := tdel x.moves seq }) w)

/-- The next page of a PREFETCH: it moves once ATS has granted its host pages and the gates admit it (R42, R294, R298). -/
def nextPage (seq : Nat) (c : Cmd) (w : Mach) : Mach :=
  let ps := tread [] w.m.x.moves seq
  match ps[c.posted]? with
  | none => w
  | some p =>
    let dst := cmdBits c 0x20 0 48 + (p.va - cmdBits c 0x10 0 48)
    match badIn w p.pa p.size with
    | some g => stopMove seq erUncorrectable (errorRecord ecUeRead { addr := 32 * g, cmd := seq } w)
    | none =>
      let cs := (physRange w p.va p.pa p.size).map (fun c => (false, c))
        ++ (physRange w p.va dst p.size).map fun c => (true, c)
      withHost seq cs (fun _ => stopMove seq erXlateAbsent)
        (keeperPays (workOf seq 1) (movePage seq c p (decide (c.posted + 1 < ps.length)))) w

/-- PREFETCH (R292 to R294, R296): its checks and the fencing of its leaves; once its invalidation has drained, one page
moves. -/
def execPrefetch (seq : Nat) (s : State) : Host.Outcome State Fault Refusal :=
  run (fun w =>
    let c := cmdOf w seq
    if c.stage = 0 then
      command seq 0x03 (fun _ =>
        checkedCmd seq [(128, 48), (192, 48), (256, 48), (320, 16), (344, 6), (352, 1)] (startPrefetch seq)) w
    else if opcodeOf c = 3 && isRunning w seq && w.m.x.shoots.any (fun x => x.cmd == some seq && x.drained) then
      nextPage seq c w
    else w) s

/-! ### ADVISE (R295, R296) -/

/-- The advice with a range's part taken out of every entry of an address space, which may split entries (R295). -/
def cutAdvice (asid : BitVec 16) (va len : Nat) (as : List Advice) : List Advice :=
  as.flatMap fun a =>
    if a.asid != asid || !overlaps a.va a.len va len then [a]
    else
      (if a.va < va then [{ a with len := va - a.va }] else [])
      ++ (if va + len < a.va + a.len then [{ a with va := va + len, len := a.va + a.len - (va + len) }] else [])

/-- ADVISE (R295): the attributes of the range are replaced; DONE follows its invalidation. -/
def execAdvise (seq : Nat) (s : State) : Host.Outcome State Fault Refusal :=
  run (command seq 0x04 fun c w =>
    if c.stage ≠ 0 then w
    else checkedCmd seq [(128, 48), (192, 48), (256, 22), (280, 6)] (fun c w =>
      let va := cmdBits c 0x10 0 48
      let len := cmdBits c 0x18 0 48
      let asid := BitVec.ofNat 16 (cmdBits c 0x20 0 16)
      let err := useCheck w c.fn (cmdBits c 0x20 24 6) (some asid)
      let sh := (shootOf w seq).getD {}
      if err ≠ 0 then failCmd seq err w
      else if shootBehind w sh then w
      else
        let cut := cutAdvice asid va len w.m.advice
        let new : Advice := { va := va, len := len, asid := asid, readMostly := cmdBits c 0x20 16 1 == 1,
                              preferred := BitVec.ofNat 2 (cmdBits c 0x20 17 2),
                              accessedBy := BitVec.ofNat 2 (cmdBits c 0x20 19 2) }
        let next := if cmdBits c 0x20 21 1 = 1 ∨ len = 0 then cut else cut ++ [new]
        if 4096 < next.length then failCmd seq erAdviceFull w
        else
          let w := onM (fun m => { m with advice := next }) (updCmd seq (fun c => { c with stage := 1 }) w)
          onX (fun x => { x with shoots := x.shoots ++ [sh] }) w) w) s

/-! ### ATS (R297 to R299) -/

/-- ATS_TRANSLATION_COMPLETION (R298): the completion for a page that a mover's run waits for enters the cache; a full
cache loses an entry that the model leaves open. -/
def execAtsTranslationCompletion (fn : BitVec 5) (page : Nat) (read write : Bool) (s : State) :
    Host.Outcome State Fault Refusal :=
  run (fun w =>
    if !w.m.x.atsReq.contains (fn.toNat, page) then w
    else
      let (k, w) := drawFree w
      onX (fun x =>
        let old := x.atc.filter fun e => !(e.fn == fn.toNat && e.page == page)
        let old := if old.length < 4096 then old else old.eraseIdx (Config.pick k % 4096)
        { x with atc := { fn := fn.toNat, page := page, r := read, w := write } :: old,
                 atsReq := x.atsReq.filter (· != (fn.toNat, page)) }) w) s

/-- The movers' runs in flight whose host requests may have used some pages of a function (R299). -/
def hostUses (w : Mach) (fn page pages : Nat) : List TUse :=
  w.m.hw.movers.filterMap fun e => e.2.run.bind fun r =>
    let d := xdOf r.entry.desc
    let hit (p : Bool × Chunk) : Bool := match p.2.pa with
      | some a => isHost a && decide (page ≤ (a - 0x800000000000) / 4096 ∧ (a - 0x800000000000) / 4096 < page + pages)
      | none => false
    let now := match unitAt d (indexOf w e.1 r.entry d) r.row r.off with
      | some (u, _, _) => unitRanges d u
      | none => markRanges d
    if r.asked && r.entry.fn == fn && (moverPieces w e.1 r.entry now).any hit then some (.mover e.1 r.entry.who r.done)
    else none

/-- The function's commands that wait with pages granted look them up again (R298, R299): nothing of theirs has gone out yet. -/
def regrant (fn : Nat) (w : Mach) : Mach :=
  onH (fun h => { h with cmds := h.cmds.map fun e => (e.1, if e.2.fn = fn then { e.2 with ats := 0 } else e.2) }) w

/-- ATS_INVALIDATE_REQUEST (R297 to R299): matching entries are dropped; the completion follows once their users have drained.
At most 32 requests are in the queue: a host sends no more (log 110). -/
def execAtsInvalidateRequest (fn : BitVec 5) (page pages : Nat) (s : State) : Host.Outcome State Fault Refusal :=
  run (fun w =>
    if 32 ≤ w.m.x.atsInv.length then w
    else
      let uses := hostUses w fn.toNat page pages
      onX (fun x =>
        { x with atc := x.atc.filter fun e => !(e.fn == fn.toNat && decide (page ≤ e.page ∧ e.page < page + pages)),
                 atsInv := x.atsInv ++ [{ fn := fn.toNat, page := page, pages := pages, uses := uses }] })
        (regrant fn.toNat w)) s

/-- INVALIDATE_COMPLETION (R299): sent for the oldest request whose users have all drained. -/
def execInvalidateCompletion (s : State) : Host.Outcome State Fault Refusal :=
  run (fun w =>
    match w.m.x.atsInv.findIdx? fun r => r.uses.all (useDrained w) with
    | some i => onX (fun x => { x with atsInv := x.atsInv.eraseIdx i }) w
    | none => w) s

end Sys2Proof.Machine
end

