-- ==== Sys2Proof/Machine/Repair.lean ====
section
/-! DEFINITION. Service of units (R411 to R421): drains, molts, failures, die loss and die reset, and the repair of banks
and channels. -/

namespace Sys2Proof.Machine
open Sys2Proof

/-! ### What a unit's loss takes with it (R122, R408, R417, R419) -/

/-- The commands with a thread bound on some threads. -/
def plansOn (w : Mach) (p : Nat → Bool) : List Nat :=
  (w.m.threads.filterMap fun e =>
    if p e.1 then (match e.2.binding with | .plan c _ => some c | _ => none) else none).eraseDups

/-- The commands that have threads lent on some threads. -/
def lendersOn (w : Mach) (p : Nat → Bool) : List Nat :=
  (w.m.threads.filterMap fun e =>
    if p e.1 then (match e.2.binding with | .lent c => some c | .inv _ c => some c | _ => none) else none).eraseDups

/-- The invocations that run on some threads. -/
def invsOn (w : Mach) (p : Nat → Bool) : List Nat :=
  w.m.threads.filterMap fun e => if p e.1 then (match e.2.binding with | .inv i _ => some i | _ => none) else none

/-- Plans bound to a VP roll back and rebind elsewhere (R408, R417). -/
def rollBackVp (vp : Nat) (w : Mach) : Mach :=
  (plansOn w fun k => k / 8 == vp).foldl (fun w c => rollBackOwner (.plan c) w) w

/-- The field's operation is lost with its plots (R122, R417). -/
def loseField (p : Nat → Bool) (w : Mach) : Mach :=
  match w.m.fieldRun with
  | none => w
  | some r =>
    if (List.range 32).any fun k => r.plots.getLsbD k && p k then rollBackOwner r.owner (leaveField r w) else w

/-- What a mover held goes to the next in service of its die, the transfer it ran from its beginning (R417; log 35). -/
def handMover (n : Nat) (w : Mach) : Mach :=
  let v := moverOf w n
  let work := (match v.run with | some r => [r.entry] | none => []) ++ v.queue
  let next := ((List.range 32).map fun i => n / 32 * 32 + (n + i) % 32).find? fun k =>
    k != n && inService w (unitMover k)
  let orphan (q : GateReq) : GateReq := if q.who == .mover n then { q with who := .keeper 0 } else q
  let w := onM (fun m => { m with gateQ := m.gateQ.map orphan }) w
  match next with
  | some k => onHw (fun h =>
      let h := { h with movers := twrite {} h.movers n {} }
      { h with movers := twrite {} h.movers k { moverOf w k with queue := (moverOf w k).queue ++ work } }) w
  | none => w

/-- The stack of a channel restripes (R418). -/
def startRestripe (u : Nat) (w : Mach) : Mach :=
  let s := u % 0x1000 / 32
  onHw (fun h => { h with restripe := if h.restripe.contains s then h.restripe else h.restripe ++ [s] }) w

/-- Pages that were on their way to a lost die stay where they are (R419). -/
def dropRelos (d : Nat) (w : Mach) : Mach :=
  (w.m.x.relos.filter fun r => dieOfAddr w r.dst == d).foldl (fun w r =>
    landPage r.page r.page.pa (onX (fun x => { x with relos := x.relos.filter (· != r) }) w)) w

/-- A die is lost (R411, R419): it and its units go to PUPA, what ran on it ends, its sessions are regenerated on the
other die, and those that do not fit stay PARKED (R420). -/
def failDie (d : Nat) (w : Mach) : Mach :=
  if unitState w d ≠ .inService ∧ unitState w d ≠ .draining then w
  else
    let on (k : Nat) : Bool := k / 128 == d
    let homed := (w.m.s.sessions.filter fun e => e.2.state != 0 && homeDie w e.1 == d).map (·.1)
    let moves := (w.m.hw.movers.filter fun e => e.1 / 32 == d).flatMap fun e =>
      ((match e.2.run with | some r => [r.entry] | none => []) ++ e.2.queue).filterMap fun x =>
        match x.who with | .cmd s _ => some s | _ => none
    let hit := (plansOn w on ++ lendersOn w on ++ moves).eraseDups
    let w := loseField (fun p => p / 16 == d) w
    let w := hit.foldl (fun w c => failCmd c erDieLost w) w
    let w := (unitsOfDie d).foldl (fun w u => pupate u w) (pupate d w)
    let orphan (q : GateReq) : GateReq := match q.who with
      | .mover n => if n / 32 = d then { q with who := .keeper 0 } else q
      | _ => q
    let w := onM (fun m => { m with
      gateQ := m.gateQ.map orphan
      hw := { m.hw with movers := m.hw.movers.filter fun e => e.1 / 32 != d } }) w
    let w := handInvs d (homed.foldl (fun w sid => startRegen sid w) w)
    let (w, short) := rehomeAll true (dropRelos d w)
    if short || !tableFits w then alert alSessOverflow d 0 w else w

/-- The tier's bank that a physical bank serves, if it serves one. -/
def servedBank (w : Mach) (tier phys : Nat) : Option Nat :=
  (List.range 48).find? fun b => servingBank w tier b == phys

/-- A spare bank of a tier that may take over (R417). -/
def freeSpare (w : Mach) (tier : Nat) : Option Nat :=
  ([48, 49, 50, 51] : List Nat).find? fun b =>
    unitState w (0x4000 + tier * 64 + b) == .inService && !(w.m.hw.spares.any fun e => e.1 / 64 == tier && e.2 == b)

/-- Where a bank's 64 MiB of a tier begin. -/
def bankBase (tier b : Nat) : Nat := tier * 0xC0000000 + b * 0x4000000

/-- The dirty sectors of the near-memory cache in a bank's part of a tier, by their HBM addresses (R303; log 130). -/
def bankSectors (w : Mach) (tier b : Nat) : List Nat :=
  w.m.hw.nmc.flatMap fun e => e.2.flatMap fun l =>
    if e.1 / 2 ^ 20 = tier then
      (List.range 8).filterMap fun s =>
        if l.dirty.getLsbD s && cacheBank w e.1 l.way == b then some (lineAddr (tier / 5) l.line + 256 * s) else none
    else []

/-- The lines of the near-memory cache in a bank's part of a tier leave (log 130). -/
def dropBankLines (tier b : Nat) (w : Mach) : Mach :=
  onHw (fun h => { h with nmc := (h.nmc.map fun e =>
    (e.1, if e.1 / 2 ^ 20 = tier then e.2.filter fun l => cacheBank w e.1 l.way != b else e.2)).filter fun e => !e.2.isEmpty }) w

/-- Granules that can no longer be read: zero data under check bytes that decode as uncorrectable (R418). -/
def loseGranules (a n : Nat) (w : Mach) : Mach :=
  onHw (fun h => { h with bad := (List.range n).foldl (fun t i => tput t (a / 32 + i) 0xFFFFFFFF) h.bad })
    (wipe (a / 32 * 32) (a / 32 * 32 + 32 * n) w)

/-- A tier bank has stopped at once (R417): a spare takes its place, and what the bank held can no longer be read; the
fifth bank to fail takes its die with it. -/
def failBank (u : Nat) (w : Mach) : Mach :=
  let t := u % 0x1000 / 64
  match servedBank w t (u % 64) with
  | none => w
  | some b =>
    match freeSpare w t with
    | none => failDie (dieOfUnit u) w
    | some n =>
      let lost := bankSectors w t b
      let plain := min 0x4000000 (plainBytes w t - b * 0x4000000)
      let w := loseGranules (bankBase t b) (plain / 32) (dropBankLines t b w)
      let w := lost.foldl (fun w a => loseGranules a 8 w) w
      writeRepair (onHw (fun h => { h with spares := tput h.spares (t * 64 + b) n }) w)

/-- A channel's drain that waited out its grace ends FAILED: the unit cannot be DRAINING any more (R411, R416). -/
def failDrains (u : Nat) (w : Mach) : Mach :=
  (w.m.h.cmds.filter fun e => opcodeOf e.2 == 0x14 && cmdBits e.2 0x10 0 16 == u && e.2.stage == 1 && !isOver w e.1).foldl
    (fun w e => failCmd e.1 erUnitState w) w

/-- A unit fails in a way that stops it at once (R411, R417, R419). -/
def failUnit (u : Nat) (w : Mach) : Mach :=
  let i := u % 0x1000
  if unitState w u ≠ .inService ∧ unitState w u ≠ .draining then w
  else match u / 0x1000 with
    | 0 => failDie i w
    | 1 =>
      let w := pupate u w
      (invsOn w fun k => k / 8 == i).foldl (fun w n => dropInv n w) (rollBackVp i w)
    | 2 => pupate u (loseField (· == i) w)
    | 3 => pupate (0x2000 + i / 4) (pupate u (loseField (· == i / 4) w))
    | 4 => failBank u (pupate u (onHw (fun h => { h with bankCopy := h.bankCopy.filter (· != u) }) w))
    | 5 => failDrains u (startRestripe u (pupate u (onHw (fun h => { h with grace := tdel h.grace u }) w)))
    | 6 => handMover i (pupate u w)
    | 7 => failDie (dieBehind u) (pupate u w)
    | 8 => failDie (dieBehind u) (pupate u w)
    | _ => pupate u w

/-- UNIT_FAILURE (R411, R417, R419): a unit in service or draining goes to PUPA. -/
def execUnitFailure (unit : Nat) (s : State) : Host.Outcome State Fault Refusal :=
  run (fun w => if isUnit unit then failUnit unit w else w) s

/-! ### The molt (R412 to R414, R509) -/

/-- The threads of a VP after its scrub: what a serving plan lends there stays lent. -/
def scrubThreads (vp : Nat) (t : Table Thread) : Table Thread :=
  t.filterMap fun e =>
    if e.1 / 8 ≠ vp then some e
    else match e.2.binding, e.2.dead with
      | .lent c, d => some (e.1, { binding := .lent c, stopped := d, dead := d })
      | _, true => some (e.1, { stopped := true, dead := true })
      | _, false => none

/-- The state of a unit is cleared (R414, step 1): of a plot, its tiles (R126); of a tier bank, the bytes and the lines that it
holds, with their errors; of a dispatcher, its energy residue (R44). An array holds nothing of its own, and what a
dispatcher queued has gone to the other die (R419). A channel's weevil that was running has stopped (R328); the restripe of
its stack has moved its lines (R417), so that no address still names a byte of it. -/
def scrubUnit (u : Nat) (w : Mach) : Mach :=
  let i := u % 0x1000
  match u / 0x1000 with
  | 1 => onM (fun m => { m with threads := scrubThreads i m.threads, vps := tdel m.vps i }) w
  | 2 => updVp i (fun v => { v with tiles := [], full := 0 }) w
  | 4 =>
    match servedBank w (i / 64) (i % 64) with
    | some b =>
      let a := bankBase (i / 64) b
      onHw (fun h => { h with bad := h.bad.filter fun e => !decide (a ≤ 32 * e.1 ∧ 32 * e.1 < a + 0x4000000) })
        (wipe a (a + 0x4000000) (dropBankLines (i / 64) b w))
    | none => w
  | 5 => onHw (fun h => { h with
      channels := twrite {} h.channels i { stopped := (tread {} h.channels i).busy } }) w
  | 6 => onHw (fun h => { h with movers := tdel h.movers i }) w
  | 7 => onHw (fun h => { h with residues := tdel h.residues (1 + i) }) w
  | _ => w

/-- The die of an address whether or not its memory answers now. -/
def dieOfPlace (a : Nat) : Nat :=
  if a < 0x780000000 then a / 0x3C0000000 else (a - 0x010000000000) / 0x4800000000

/-- A die's state is cleared (R301, R414, R509): its memory is zero, its caches are empty, its blocks are reset, and the
tier split that was written takes effect. -/
def scrubDie (d : Nat) (w : Mach) : Mach :=
  let keepAt (a : Nat) : Bool := dieOfPlace a != d
  let w := (unitsOfDie d).foldl (fun w u => scrubUnit u w) w
  let w := wipe (d * 0x3C0000000) (d * 0x3C0000000 + 0x3C0000000)
    (wipe (0x010000000000 + d * 0x4800000000) (0x010000000000 + d * 0x4800000000 + 0x4800000000) w)
  onM (fun m => { m with
    rwatch := m.rwatch.filter fun e => e.1 / 4096 != d
    probes := m.probes.filter fun e => e.1 / 4096 != d
    cnt := tdel m.cnt d
    nmPlain := (List.range 5).foldl (fun t i => twrite 0 t (d * 5 + i) (tread 0 m.nmPlainW (d * 5 + i))) m.nmPlain
    nmWays := m.nmWays.filter fun e => e.1 / 5 != d
    k := { m.k with trc := tdel m.k.trc d }
    hw := { m.hw with
      nmc := m.hw.nmc.filter fun e => e.1 / 2 ^ 20 / 5 != d
      bad := m.hw.bad.filter fun e => keepAt (32 * e.1)
      tally := m.hw.tally.filter fun t => !(diesOfTally t).contains d } }) w

/-- The sensors that a die's return waits for (R521): its junction, the coolant's inlet and flow. -/
def dieSensors (d : Nat) : List Nat := [3 + d, 6, 8]

/-- A die that heat shut down may return (R521): its sensors have stood below their thresholds for 10 s. -/
def cooled (w : Mach) (d : Nat) : Bool :=
  match tget w.m.power.shut d with
  | none => true
  | some t => !((dieSensors d).any w.m.power.beyond.contains) && decide (t + 10000000000 ≤ w.m.tick)

/-- A unit in PUPA begins its molt (R411, R414); a die's units that stand in PUPA molt with it (log 36). -/
def startMolt (u : Nat) (w : Mach) : Mach :=
  if u < 2 then
    let mine := (unitsOfDie u).filter fun x => unitState w x == .pupa
    scrubDie u (mine.foldl (fun w x => setUnit x .molting w) (setUnit u .molting w))
  else scrubUnit u (setUnit u .molting w)

/-- A unit is back in service and has adopted KEEP_MOLT (R412, R414): a channel's stack restripes back (R417), and a
die's return starts the field anew (R107). -/
def finishMolt (u : Nat) (w : Mach) : Mach :=
  let w := setUnit u .inService w
  if u < 2 then onM (fun m => { m with fieldCls := none }) w
  else if u / 0x1000 = 5 then startRestripe u (updChannel (u % 0x1000) (fun c => { c with trained := true }) w) else w

/-- MOLT_COMPLETE (R395, R411, R412, R414, R419, R421): at a boundary a molting unit has passed its last step, or a step
has failed; `bad` names the units of a die whose own steps failed. A die's sessions come back to it. -/
def execMoltComplete (unit : Nat) (ok : Bool) (bad : List Nat) (s : State) : Host.Outcome State Fault Refusal :=
  run (fun w =>
    if unitState w unit ≠ .molting ∨ isUnit unit = false ∨ w.m.tick % 4096 ≠ 0 then w
    else if !ok then setUnit unit .pupa w
    else if unit < 2 then
      let mine := (unitsOfDie unit).filter fun x => unitState w x == .molting
      let w := mine.foldl (fun w x => if bad.contains x then setUnit x .pupa w else finishMolt x w) (finishMolt unit w)
      let w := onHw (fun h => { h with dieReset := tdel h.dieReset unit }) w
      writeRepair (rehomeAll true (takeInvs unit w)).1
    else writeRepair (finishMolt unit w)) s

/-! ### UNIT_SERVICE (R411, R416, R420) -/

/-- The die that a drain of a unit drains: its own, or the one that a dispatcher or bridge serves (R417). -/
def drainsDie (u : Nat) : Option Nat :=
  match u / 0x1000 with
  | 0 => some u
  | 7 => some (dieBehind u)
  | 8 => some (dieBehind u)
  | _ => none

/-- A drain would leave no die in service, or no VP of a die in service (R416). -/
def isLast (w : Mach) (u : Nat) : Bool :=
  match drainsDie u with
  | some d => !dieServes w (1 - d)
  | none =>
    u / 0x1000 == 1 && dieServes w (u % 0x1000 / 16) &&
      !((List.range 16).any fun i => u % 0x1000 % 16 != i && unitState w (unitVp (u % 0x1000 / 16 * 16 + i)) == .inService)

/-- A die begins to leave by DRAIN (R419): it takes no new command, its dirty sectors go to HBM, and its sessions move. -/
def drainDie (d : Nat) (w : Mach) : Mach :=
  let w := onHw (fun h => { h with drainAt := tput h.drainAt d (w.m.tick / 4096) }) (startDrain d w)
  (rehomeAll true (handInvs d (flushCache d w))).1

/-- The other die has room for every block and descriptor that would move (R420). -/
def drainFits (d : Nat) (w : Mach) : Bool :=
  let w' := putState d .draining w
  tableFits w' && !(rehomeAll false w').2

/-- A drain begins (R411, R417, R418): how depends on the kind of unit. -/
def beginDrain (u : Nat) (w : Mach) : Mach :=
  match u / 0x1000 with
  | 4 => startBankCopy u w
  | 5 => startRestripe u (startDrain u w)
  | _ =>
    match drainsDie u with
    | some d => drainDie d (if u = d then w else startDrain u w)
    | none => startDrain u w

/-- The unit of a UNIT_SERVICE and its action (R416). -/
def serviceUnit (c : Cmd) : Nat := cmdBits c 0x10 0 16
def serviceAction (c : Cmd) : Nat := cmdBits c 0x10 16 3

/-- An earlier request for the unit is not over (R416). -/
def serviceBehind (w : Mach) (seq : Nat) (c : Cmd) : Bool :=
  w.m.h.cmds.any fun e =>
    opcodeOf e.2 == 0x14 && serviceUnit e.2 == serviceUnit c && !isOver w e.1 && lexLt (stampRank w e.1) (stampRank w seq)

/-- A UNIT_SERVICE of one action; an action that is none is a format error (R416, R458). -/
def serviceCommand (seq action : Nat) (f : Nat → Cmd → Mach → Mach) (w : Mach) : Mach :=
  command seq 0x14 (fun c w =>
    if serviceAction c ≠ action ∧ serviceAction c < 3 then w
    else if !operandsClean c [(128, 19)] || decide (2 < serviceAction c) then failCmd seq erFormat w
    else if serviceBehind w seq c || c.stage != 0 then w
    else if !isUnit (serviceUnit c) then failCmd seq erUnitState w
    else f (serviceUnit c) c w) w

/-- DRAIN (R411, R416 to R420): DONE when the unit is DRAINING (log 37); a channel first gives the driver its grace. -/
def execDrain (seq : Nat) (s : State) : Host.Outcome State Fault Refusal :=
  run (serviceCommand seq 0 fun u _ w =>
    if unitState w u ≠ .inService then failCmd seq erUnitState w
    else if isLast w u then failCmd seq erUnitLast w
    else if (match drainsDie u with | some d => !drainFits d w | none => false) then failCmd seq erSessSpace w
    else
      let w := startCmd seq w
      if u / 0x1000 = 5 then startGrace u (updCmd seq (fun c => { c with stage := 1 }) w)
      else doneCmd seq (beginDrain u w)) s

/-- MOLT (R411, R414, R416, R521): DONE when the unit is MOLTING. -/
def execMolt (seq : Nat) (s : State) : Host.Outcome State Fault Refusal :=
  run (serviceCommand seq 1 fun u _ w =>
    if unitState w u ≠ .pupa ∨ (u < 2 ∧ cooled w u = false) then failCmd seq erUnitState w
    else
      let w := if u < 2 then onPower (fun p => { p with shut := tdel p.shut u }) w else w
      doneCmd seq (startMolt u (startCmd seq w))) s

/-- RETIRE (R411, R416): DONE when the unit is RETIRED, for good. -/
def execRetire (seq : Nat) (s : State) : Host.Outcome State Fault Refusal :=
  run (serviceCommand seq 2 fun u _ w =>
    if unitState w u ≠ .pupa then failCmd seq erUnitState w
    else doneCmd seq (writeRepair (setUnit u .retired (startCmd seq w)))) s

/-- CHANNEL_GRACE_EXPIRY (R418): the driver's periods are over; the channel drains, and a DRAIN that asked for it is
DONE. -/
def execChannelGraceExpiry (ch : BitVec 9) (s : State) : Host.Outcome State Fault Refusal :=
  run (fun w =>
    let u := 0x5000 + ch.toNat
    match tget w.m.hw.grace u with
    | none => w
    | some p =>
      if w.m.tick / 4096 < p then w
      else
        let w := beginDrain u (onHw (fun h => { h with grace := tdel h.grace u }) w)
        (w.m.h.cmds.filter fun e => opcodeOf e.2 == 0x14 && serviceUnit e.2 == u && e.2.stage == 1 && !isOver w e.1).foldl
          (fun w e => doneCmd e.1 w) w) s

/-! ### The end of a drain (R411, R417 to R419) -/

/-- No plan and no invocation is on the threads that a test names. -/
def threadsIdle (w : Mach) (p : Nat → Bool) : Bool :=
  w.m.threads.all fun e => !p e.1 ||
    (match e.2.binding with | .plan _ _ => false | .inv _ _ => false | _ => e.2.sbuf.isEmpty)

/-- A mover has nothing left. -/
def moverIdle (w : Mach) (n : Nat) : Bool := (moverOf w n).queue.isEmpty && (moverOf w n).run.isNone

/-- A die has drained (R419): nothing runs on it, and no session's block is left there. -/
def dieDrained (w : Mach) (d : Nat) : Bool :=
  threadsIdle w (fun k => k / 128 == d) && (List.range 32).all (fun i => moverIdle w (d * 32 + i))
  && w.m.fieldRun.isNone && w.m.s.sessions.all fun e => blockHome w e.1

/-- A unit has drained under R417. -/
def hasDrained (w : Mach) (u : Nat) : Bool :=
  let i := u % 0x1000
  match u / 0x1000 with
  | 1 => threadsIdle w fun k => k / 8 == i
  | 2 => w.m.fieldRun.isNone
  | 4 => !w.m.hw.bankCopy.contains u
  | 5 => !w.m.hw.restripe.contains (i / 32)
  | 6 => moverIdle w i
  | _ => match drainsDie u with | some d => dieDrained w d | none => true

/-- UNIT_DRAINED (R411, R417, R419): a draining unit that has drained goes to PUPA, a die's dirty sectors first to
HBM (R303); a bank that no spare could replace takes its die with it. -/
def execUnitDrained (unit : Nat) (s : State) : Host.Outcome State Fault Refusal :=
  run (fun w =>
    let w := match drainsDie unit with | some _ => (rehomeBlocks true w).1 | none => w
    if isUnit unit = false ∨ unitState w unit ≠ .draining ∨ hasDrained w unit = false then w
    else match unit / 0x1000 with
      | 4 =>
        let w := pupate unit w
        if (servedBank w (unit % 0x1000 / 64) (unit % 64)).isSome then failDie (dieOfUnit unit) w else w
      | _ => match drainsDie unit with
        | some d => (unitsOfDie d).foldl (fun w u => pupate u w) (pupate d (pupate unit (flushCache d w)))
        | none => pupate unit w) s

/-- VP_DRAIN_EXPIRY (R417): 64 periods after a VP began to drain, alone or with its die, the plans still bound to it roll
back. -/
def execVpDrainExpiry (vp : BitVec 5) (s : State) : Host.Outcome State Fault Refusal :=
  run (fun w =>
    let late (u : Nat) : Bool := unitState w u == .draining &&
      (match tget w.m.hw.drainAt u with | some p => decide (p + 64 ≤ w.m.tick / 4096) | none => false)
    if late (unitVp vp.toNat) || late (vp.toNat / 16) then rollBackVp vp.toNat w else w) s

/-- TIER_BANK_COPY_END (R42, R404, R417): once its sectors are admitted a spare takes over a failing bank, data and check bytes as they were. -/
def execTierBankCopyEnd (unit : Nat) (s : State) : Host.Outcome State Fault Refusal :=
  run (fun w =>
    if !w.m.hw.bankCopy.contains unit then w
    else
      let t := unit % 0x1000 / 64
      keeperPays (2 ^ 40 + unit) (fun w =>
        let w := onHw (fun h => { h with bankCopy := h.bankCopy.filter (· != unit) }) w
        match servedBank w t (unit % 64), freeSpare w t with
        | some b, some n =>
          let w := request ⟨.tier, t, 0, 524288, keeperNow w, none⟩ w
          writeRepair (onHw (fun h => { h with spares := tput h.spares (t * 64 + b) n }) w)
        | _, _ => w) w) s

/-- The channels in service of a group of eight of a stack. -/
def groupServing (w : Mach) (group : Nat) : Nat :=
  ((List.range 8).filter fun i => unitState w (0x5000 + group * 8 + i) == .inService).length

/-- The lines that a restripe moves, charged to class 0 (R418): every line of the stack is read and written, 64 granules
each way, over its channels in service. -/
def chargeRestripe (stack : Nat) (w : Mach) : Mach :=
  iterate 4 (fun i w =>
    request ⟨.hbm, stack * 4 + i, 0, groupServing w (stack * 4 + i) * 589824 * 128, keeperNow w, none⟩ w) w

/-- RESTRIPE_END (R42, R404, R418): once class 0's gates have admitted its lines, a stack stripes over its channels in
service; `lost` names the lines that could no longer be read, and what the stack no longer presents is gone (log 38). -/
def execRestripeEnd (stack : BitVec 4) (lost : List Nat) (s : State) : Host.Outcome State Fault Refusal :=
  run (fun w =>
    let k := stack.toNat
    if !w.m.hw.restripe.contains k then w
    else keeperPays (2 ^ 40 + 0x5000 + k) (fun w =>
      let base := 0x010000000000 + k * 0x900000000
      let top := base + stackBytes w k
      let w := onHw (fun h => { h with restripe := h.restripe.filter (· != k) }) (chargeRestripe k w)
      let w := (lost.filter fun l => decide (base + l * 2048 < top)).foldl (fun w l => loseGranules (base + l * 2048) 64 w) w
      let keepAt (a : Nat) : Bool := !decide (top ≤ a ∧ a < base + 0x900000000)
      let w := wipe top (base + 0x900000000) w
      writeRepair (onHw (fun h => { h with bad := h.bad.filter fun e => keepAt (32 * e.1) }) w)) w) s

/-! ### Die reset (R421, R508 to R510) -/

/-- The buffers of the keeper end of a die's bridge that the die holds (R46): the requests of its threads and movers that wait
at gates, and the transfers in its movers (log 112). -/
def heldByDie (w : Mach) (d : Nat) : Nat :=
  (w.m.gateQ.countP fun q => match q.who with | .thread k => k / 128 == d | .mover n => n / 32 == d | _ => false)
  + ((w.m.hw.movers.filter fun e => e.1 / 32 == d).map fun e => e.2.queue.length + b2n e.2.run.isSome).sum

/-- A die reset (R46, R421): PUPA, the credits and buffers that it held a counted reclaim, then the
molt, after which threads that a double fault had stopped may run again (R246); a die that heat shut down returns only by UNIT_SERVICE MOLT (R521). A save is one step, so that no request comes while it runs. -/
def resetDie (d : Nat) (w : Mach) : Mach :=
  let held := heldByDie w d
  let w := failDie d w
  if unitState w d ≠ .pupa ∨ (tget w.m.power.shut d).isSome = true then w
  else
    let free (e : Nat × Thread) : Nat × Thread :=
      if e.1 / 128 = d ∧ e.2.dead = true then (e.1, { e.2 with dead := false, stopped := false }) else e
    onM (fun m => { m with threads := m.threads.map free }) <| startMolt d (onHw (fun h => { h with
      dieReset := twrite false h.dieReset d true, reclaims := twrite 0 h.reclaims d (tread 0 h.reclaims d + held) }) w)

/-- The die reset bits of a write to DCTL (R508): both together would leave no die in service, which UNIT_LAST refuses, so
both are ignored and logged (log 39). -/
def writeDieReset (a b : Bool) (w : Mach) : Mach :=
  if a && b then refuse (.host 0) 0 w
  else if a then resetDie 0 w
  else if b then resetDie 1 w
  else w

/-- DIE_RESET (R421, R508, R510): bit 0 resets Die A, bit 1 Die B. -/
def execDieReset (dies : BitVec 2) (s : State) : Host.Outcome State Fault Refusal :=
  run (writeDieReset (dies.getLsbD 0) (dies.getLsbD 1)) s

/-- DIE_WEDGED (R421): a command front has not answered for 4 periods; under AUTORESET its die is reset and logged. -/
def execDieWedged (die : BitVec 1) (s : State) : Host.Outcome State Fault Refusal :=
  run (fun w =>
    if w.m.k.servctl.getLsbD 16 ∧ (unitState w die.toNat = .inService ∨ unitState w die.toNat = .draining) then
      resetDie die.toNat (errorRecord ecDieWedged { unit := die.toNat } w)
    else w) s

end Sys2Proof.Machine
end

