-- ==== Sys2Proof/Machine/Scrub.lean ====
section
/-! DEFINITION. What errors the keeper meets on its own (R317, R399 to R410): scrubbing, link retries, parity errors, and
the weevils (R326 to R328). -/

namespace Sys2Proof.Machine
open Sys2Proof

/-! ### The scrubber (R398 to R409) -/

/-- The error of a codeword that stays in its bytes after the decoder's correction (R399): zero for one symbol at most. -/
def residual (e : Nat) : Nat :=
  match chitinDecode (toBytes 36 e) with
  | .corrected p b => e ^^^ (b.toNat <<< (8 * p))
  | _ => e

/-- The data bytes of a granule with an error added: the first four symbols are the check bytes (R398). -/
def addError (a e : Nat) (w : Mach) : Mach :=
  let d := toBytes 32 (e >>> 32)
  if e >>> 32 = 0 then w
  else putBytes a ((List.range 32).map fun i => rawByte w (a + i) ^^^ d.getD i 0) w

/-- A granule lies in a range of bytes. -/
def granIn (g : Nat) (r : Nat × Nat) : Bool := spansMeet (32 * g, 32) r

/-- The byte of a serving plan's image or named inputs that lies at a device address, as the keeping store has it (R382,
R409). -/
def imageByte (w : Mach) (p : Plan) (c : ImageCopy) (a : Nat) : Option Byte :=
  ((p.image ++ p.ins).zip c.parts).findSome? fun e =>
    match asidPieces w p.asid .read e.1.1 e.1.2 with
    | .ok cs => cs.findSome? fun k => k.pa.bind fun b =>
        if b ≤ a ∧ a < b + k.len then e.2.2[k.va - e.1.1 + (a - b)]? else none
    | .error _ => none

/-- The granule's bytes from the image of a serving plan that is not over, where the keeping store holds that image under its
digest (R382, R409; log 131): a byte beside the image keeps its value. -/
def imageGranule (w : Mach) (g : Nat) : Option (List Byte) :=
  w.m.h.plans.findSome? fun e =>
    if !e.2.serve || e.2.ended then none
    else (tget w.m.k.images e.2.imgKey).bind fun c =>
      let bs := (List.range 32).map fun i => imageByte w e.2 c (32 * g + i)
      if bs.any Option.isSome && imageDigest e.2 c == e.2.imgKey then
        some ((List.range 32).map fun i => (bs.getD i none).getD (rawByte w (32 * g + i)))
      else none

/-- The sessions that keep state in a granule (R409). -/
def sessionsAt (w : Mach) (g : Nat) : List Nat :=
  (w.m.s.sessions.filter fun e => e.2.state != 0 &&
    (e.2.block.any (granIn g) || ((tableAt w (homeDie w e.1)).isSome && granIn g (descAddr w e.1, 256)))).map (·.1)

/-- An uncorrectable granule that a scrub finds (R409). -/
def disposeGranule (g : Nat) (w : Mach) : Mach :=
  match sessionsAt w g with
  | [] =>
    match imageGranule w g with
    | some bs => errorRecord ecImageReload { addr := 32 * g } (storeBytes none (32 * g) bs w)
    | none => errorRecord ecUeScrub { addr := 32 * g } w
  | ids => ids.foldl (fun w sid => startRegen sid w) w

/-- A granule of device memory is read with an error pattern in its codeword, and what its decode says is done (R402,
R409): `found` tells what an uncorrectable one leads to. -/
def meetError (a e : Nat) (found : Nat → Mach → Mach) (w : Mach) : Mach :=
  let g := a / 32
  let e := e ^^^ tread 0 w.m.hw.bad g
  match chitinDecode (toBytes 36 e) with
  | .clean => addError (32 * g) e (onHw (fun h => { h with bad := tdel h.bad g }) w)
  | .corrected _ _ =>
    let w := onHw (fun h => { h with bad := tdel h.bad g }) w
    let w := countGlobal 0x22 1 { die := dieOfAddr w a } (addError (32 * g) (residual e) w)
    countCorrection (unitStoring w (32 * g)) w
  | .uncorrectable => found g (onHw (fun h => { h with bad := tput h.bad g e }) w)

/-- The scrubber's traffic, charged to class 0 (R403). -/
def chargeScrub (a : Nat) (w : Mach) : Mach :=
  match regionOf w a with
  | .near t _ => request ⟨.tier, t, 0, 1, keeperNow w, none⟩ w
  | _ => queueRun (keeperNow w) 0 a 1 false w

/-- A sector of the near-memory cache (R409): the line of an HBM address and the sector's bit, where it is valid. -/
def cachedSector (w : Mach) (a : Nat) : Option (Nat × NmLine × BitVec 8) :=
  match regionOf w a with
  | .hbm _ _ =>
    let (line, tier, set) := nmPlace w a
    let b : BitVec 8 := 1#8 <<< (a / 256 % 8)
    ((nmSet w (nmKey tier set)).find? fun l => l.line == line && l.valid &&& b != 0).map fun l => (nmKey tier set, l, b)
  | _ => none

/-- SCRUB_READ (R42, R398, R399, R402, R403, R409, R410, R422): once class 0's gate admits it, the scrubber reads the granule
at a device address, or the copy of it in the near-memory cache, and finds `err` added to its codeword, check bytes
first. -/
def execScrubRead (addr : Nat) (err : BitVec 288) (cached : Bool) (s : State) : Host.Outcome State Fault Refusal :=
  run (fun w =>
    if !isDevice w addr then w
    else if !cached then
      keeperPays (2 ^ 42 + addr / 32) (fun w => meetError addr err.toNat disposeGranule (chargeScrub addr w)) w
    else match cachedSector w addr with
      | none => w
      | some (key, l, b) => keeperPays (2 ^ 44 + addr / 32) (fun w =>
        let t := key / 2 ^ 20
        let w := request ⟨.tier, t, 0, 1, keeperNow w, none⟩ w
        match chitinDecode (toBytes 36 err.toNat) with
        | .clean => w
        | .corrected _ _ =>
          countCorrection (0x4000 + t * 64 + servingBank w t (cacheBank w key l.way))
            (countGlobal 0x22 1 { die := dieOfAddr w addr } w)
        | .uncorrectable =>
          if l.dirty &&& b = 0 then
            let ls := (nmSet w key).map fun x => if x.way = l.way then { x with valid := x.valid &&& ~~~ b } else x
            putSet key (ls.filter fun x => x.valid != 0) w
          else
            errorRecord ecUeScrub { addr := addr / 32 * 32 }
              (onHw (fun h => { h with bad := tput h.bad (addr / 32) err.toNat }) w)) w) s

/-! ### Links and channels (R317, R401) -/

/-- The unit that a bridge or a die's network names in its records (R401): paths 0 to 2 are the die bridges, 3 and 4 the
networks of the dies. -/
def pathUnit (path : Nat) : Nat := if path < 3 then 0x8000 + path else path - 3

/-- A faulty path takes its die to PUPA, whatever the path's own unit was before (R401). -/
def failPath (p : Nat) (w : Mach) : Mach :=
  if p < 3 then failDie (dieBehind (pathUnit p)) (pupate (pathUnit p) w) else failDie (pathUnit p) w

/-- BRIDGE_FLIT_RETRY (R401, R422): a flit is resent on a path. The fourth failure in a row is logged; after the eighth
the link is faulty. -/
def execBridgeFlitRetry (path : BitVec 3) (good : Bool) (s : State) : Host.Outcome State Fault Refusal :=
  run (fun w =>
    let p := path.toNat
    if 5 ≤ p then w
    else if good then onHw (fun h => { h with flits := tdel h.flits p }) w
    else
      let n := tread 0 w.m.hw.flits p + 1
      let w := onHw (fun h => { h with flits := tput h.flits p n }) w
      let w := if n = 4 then errorRecord ecLinkRetry { unit := pathUnit p } w else w
      if n < 8 then w
      else
        failPath p (errorRecord ecLinkFault { unit := pathUnit p }
          (onHw (fun h => { h with flits := tdel h.flits p }) w))) s

/-- COMMAND_PARITY_ERROR (R317, R417): the first error has the channel retry its command, a second one starts the repair
of the channel; each is logged (log 40). -/
def execCommandParityError (ch : BitVec 9) (s : State) : Host.Outcome State Fault Refusal :=
  run (fun w =>
    let k := ch.toNat
    let u := 0x5000 + k
    let second := (tread {} w.m.hw.channels k).retried
    let w := updChannel k (fun c => { c with retried := !second }) (errorRecord ecParity { unit := u } w)
    if second then startRepair u w else w) s

/-! ### The weevil (R326 to R328) -/

/-- The weevil's pattern in 64-bit word k of granule j of line m (R327). -/
def patternWord (c : Channel) (m j k : Nat) : Nat :=
  match bits c.ctl.toNat 5 2 with
  | 0 => (splitMix (c.seed ^^^ BitVec.ofNat 64 (m * 256 + j * 4 + k))).toNat
  | 1 => 0
  | 2 => 0xFFFFFFFFFFFFFFFF
  | _ => if j % 2 = 0 then 0x5555555555555555 else 0xAAAAAAAAAAAAAAAA

/-- The pattern's 256 bits of a granule. -/
def patternGran (c : Channel) (m j : Nat) : Nat :=
  ((List.range 4).map fun k => patternWord c m j k <<< (64 * k)).sum

/-- The i-th line of a run (R327). -/
def weevilLine (c : Channel) (i : Nat) : Nat :=
  if c.mix.getLsbD 24 then c.start + (splitMix (c.seed ^^^ BitVec.ofNat 64 i)).toNat % c.lines else c.start + i

/-- The granules of each line that a run transfers: all of them, or RUN + 1 in TRAFFIC. -/
def weevilDepth (c : Channel) : Nat := if bits c.ctl.toNat 2 3 = 3 then bits c.mix.toNat 16 6 + 1 else 64

/-- The i-th run of TRAFFIC writes (R326): groups of NREAD reads and NWRITE writes. -/
def trafficWrites (c : Channel) (i : Nat) : Bool :=
  let nr := bits c.mix.toNat 0 8
  let nw := bits c.mix.toNat 8 8
  let nr := if nr + nw = 0 then 1 else nr
  decide (nr ≤ i % (nr + nw))

/-- The granules that a run moves, in order: line and granule, with whether it writes. -/
def weevilOrder (c : Channel) (n : Nat) : List (Nat × Nat × Bool) :=
  let d := weevilDepth c
  let mode := bits c.ctl.toNat 2 3
  (List.range n).map fun i =>
    (weevilLine c (i / d), i % d, mode == 1 || (mode == 3 && trafficWrites c (i / d)))

/-- The BAR0 offset of a register of a channel's weevil. -/
def weevilReg (ch r : Nat) : Nat := 0x1080000 + ch / 256 * 0x800000 + ch % 256 * 64 + r

/-- One granule counted in WV_ERRS (R10, R326); the first is kept while none is outstanding (R325). -/
def weevilErr (ch m j : Nat) (w : Mach) : Mach :=
  let c := tread {} w.m.hw.channels ch
  let w := updChannel ch (fun c => { c with
    errs := ackEvent c.errs, first := if ackOut c.errs = 0 then BitVec.ofNat 32 (m * 64 + j) else c.first }) w
  if ackFull c.errs then saturated (weevilReg ch 0x28) w else w

/-- One granule counted in WV_CORR (R10, R326). -/
def weevilCorr (ch : Nat) (w : Mach) : Mach :=
  let c := tread {} w.m.hw.channels ch
  let w := updChannel ch (fun c => { c with corrs := ackEvent c.corrs }) w
  if ackFull c.corrs then saturated (weevilReg ch 0x2C) w else w

/-- The address of granule j of line m of a channel in service (R318, R418). -/
def granuleAddr (w : Mach) (ch m j : Nat) : Nat :=
  let live := liveChannels w (ch / 32)
  let i := (live.takeWhile fun c => c != ch % 32).length
  0x010000000000 + ch / 32 * 0x900000000 + (m * live.length + i) * 2048 + j * 32

/-- The error that a granule of a channel in service already holds. -/
def heldError (w : Mach) (ch m j : Nat) : Nat :=
  if unitState w (0x5000 + ch) = .inService then tread 0 w.m.hw.bad (granuleAddr w ch m j / 32) else 0

/-- What a weevil's read of a granule meets (R326): `e` is the error that its read finds added to the codeword. VERIFY compares
what the read delivers. The granules of a channel that drains have no addresses any more (R418), so an uncorrectable one
that SCAN finds there is recorded with the channel (R409; log 64). -/
def weevilRead (ch m j e : Nat) (w : Mach) : Mach :=
  let now := e ^^^ heldError w ch m j
  let inUse := unitState w (0x5000 + ch) == .inService
  let mode := bits (tread {} w.m.hw.channels ch).ctl.toNat 2 3
  let w := match chitinDecode (toBytes 36 now) with
    | .clean => w
    | .corrected _ _ => weevilCorr ch w
    | .uncorrectable => weevilErr ch m j w
  if inUse && (e != 0 || now != 0) then meetError (granuleAddr w ch m j) e disposeGranule w
  else
    let c := tread {} w.m.hw.channels ch
    let data := tread 0 c.cells (m * 64 + j) ^^^ (residual now >>> 32)
    match chitinDecode (toBytes 36 now) with
    | .uncorrectable => if mode = 0 ∧ !inUse then errorRecord ecUeScrub { unit := 0x5000 + ch } w else w
    | _ => if mode = 2 ∧ data ≠ patternGran c m j then weevilErr ch m j w else w

/-- A SCAN's reads on a channel that was not in PUPA as the run began, whatever a change to PUPA or RETIRED stopped (R328): each line's granules are a run of class 0, which asks at the
channel group's gate and takes its place among the other runs (R316, R321, R323). -/
def scanRuns (ch n : Nat) (w : Mach) : Mach :=
  let c := tread {} w.m.hw.channels ch
  let run (i : Nat) : ChRun :=
    { line := weevilLine c i, gran := min 64 (n - 64 * i), write := false, cls := 0, lopid := 0 }
  iterate (ceilDiv n 64) (fun i w => request ⟨.hbm, ch / 8, 0, (run i).gran, .keeper 0, some (.run ch (run i))⟩ w) w

/-- WEEVIL_START (R326, R327): a START through the HB block under the current fields. -/
def execWeevilStart (ch : BitVec 9) (s : State) : Host.Outcome State Fault Refusal :=
  run (weevilStart (.host 0) (weevilReg ch.toNat 4) ch.toNat) s

/-- WEEVIL_ABORT (R328): the run stops after the run in flight. -/
def execWeevilAbort (ch : BitVec 9) (s : State) : Host.Outcome State Fault Refusal := run (weevilAbort ch.toNat) s

/-- WEEVIL_RUN_END (R326 to R328): a run has covered its range, or stops after `part` granules by ABORT or because the
channel's state changed; `slots` have passed, and `errs` are the errors met, by line and granule. With LOOP set a
whole pass begins again. -/
def execWeevilRunEnd (ch : BitVec 9) (part : Nat) (slots : BitVec 32) (errs : List (Nat × Nat × BitVec 288)) (s : State) :
    Host.Outcome State Fault Refusal :=
  run (fun w =>
    let k := ch.toNat
    let c := tread {} w.m.hw.channels k
    if !c.busy then w
    else
      let changed := stateCode (unitState w (0x5000 + k)) != c.began
      let halted := c.abort || changed
      let all := c.lines * weevilDepth c
      let n := if halted then min part all else all
      let order := weevilOrder c n
      let mode := bits c.ctl.toNat 2 3
      let w := if mode = 0 ∧ c.began ≠ stateCode .pupa then scanRuns k n w else w
      let w := order.foldl (fun w g =>
        if g.2.2 then updChannel k (fun c =>
          { c with cells := twrite 0 c.cells (g.1 * 64 + g.2.1) (patternGran c g.1 g.2.1) }) w
        else
          let e := match errs.find? fun x => x.1 == g.1 && x.2.1 == g.2.1 with | some x => x.2.2.toNat | none => 0
          if mode = 2 ∨ e ≠ 0 ∨ heldError w k g.1 g.2.1 ≠ 0 then weevilRead k g.1 g.2.1 e w else w) w
      updChannel k (fun c =>
        { c with slots := slots, gran := BitVec.ofNat 32 n, busy := !halted && c.ctl.getLsbD 7, abort := false,
                 stopped := halted, done := !halted }) w) s

end Sys2Proof.Machine
end

