-- ==== Sys2Proof/Machine/Twin.lean ====
section
/-! DEFINITION. Twin pairing (R424 to R444): the Neraxo link, what a follower does with the lead's frames, digests and
divergences, silence, and the commands TWIN_PAIR to TWIN_RESOLVE. -/

namespace Sys2Proof.Machine
open Sys2Proof

/-! ### READY (R473, R487) -/

/-- The floor that a slot's image raises its type to (R473). -/
def slotFloor (w : Mach) (typ slot : Nat) : Nat :=
  match tget w.m.sec.fwSlots (typ * 2 + slot) with
  | some x => imgNum x.bytes 0xC 4
  | none => Config.factoryFloor typ

/-- Step 11 is reached (R473, R484): the images that run raise their floors. -/
def reachReady (w : Mach) : Mach :=
  if w.m.sec.bootPhase ≠ 10 then w
  else
    let w := onSec (fun s => { s with bootPhase := 11 }) w
    ([1, 2] : List Nat).foldl (fun w t => raiseFloor t (slotFloor w t (tread 0 w.m.sec.fwRun t)) w) w

/-! ### The link (R424, R426) -/

/-- Change the link. -/
def onLink (f : Link → Link) (w : Mach) : Mach := onTwin (fun t => { t with link := f t.link }) w

/-- The link goes down: the credits held on it return, counted (R46, R426). -/
def linkDown (w : Mach) : Mach :=
  onLink (fun l => { l with
    up := false, retrain := false, half := false, credits := [], unacked := [], waiting := [], resends := 0,
    reclaimed := l.reclaimed + (l.credits.map (·.2)).sum }) w

/-- TWIN_PRESENT (R424): a cable is mated to a powered module, or no longer; without it the link is down. -/
def execTwinPresent (mated : Bool) (s : State) : Host.Outcome State Fault Refusal :=
  run (fun w =>
    let w := onLink (fun l => { l with present := mated }) w
    if mated then w else linkDown w) s

/-- NERAXO_LINK_UP (R424): training or retraining has completed, on 16 lanes or, as it must after a lane has failed, on lanes 0
to 7. -/
def execNeraxoLinkUp (lanes16 : Bool) (s : State) : Host.Outcome State Fault Refusal :=
  run (fun w =>
    let l := w.m.twin.link
    if !l.present || l.up then w
    else
      let fresh : Link := { present := true, naks := l.naks, half := l.half, reclaimed := l.reclaimed }
      onLink (fun l => { (if l.retrain then l else fresh) with up := true, retrain := false, lanes8 := l.half || !lanes16 }) w) s

/-- LANE_FAILURE (R424): a lane fails, in training or in service; the link trains again on lanes 0 to 7, or, where those cannot
carry it, is down. -/
def execLaneFailure (down : Bool) (s : State) : Host.Outcome State Fault Refusal :=
  run (fun w =>
    if !w.m.twin.link.present then w
    else if down then linkDown w
    else onLink (fun l => { l with up := false, retrain := l.up || l.retrain, half := true }) w) s

/-- NERAXO_FRAME_REJECT (R426): a damaged frame is discarded, and a NAK goes out. -/
def execNeraxoFrameReject (s : State) : Host.Outcome State Fault Refusal :=
  run (fun w =>
    if !w.m.twin.link.up then w else sendFrame 0 0 0 (onLink (fun l => { l with naks := l.naks + 1 }) w)) s

/-- A received frame (R426, R427): it is the next of its sequence and is charged to its class, with its energy (R44); one that the module's
mode does not allow is a violation and has no other effect. -/
def frame (typ cls len : Nat) (allowed : Mach → Bool) (f : Mach → Mach) (w : Mach) : Mach :=
  if !w.m.twin.link.up then w
  else
    let w := onLink (fun l => { l with rxSeq := (l.rxSeq + 1) % 2 ^ 32 }) w
    let w := keeperEnergy cls (64 * len) (request ⟨.nrxIn, 0, cls, 32 * len, .keeper 0, none⟩ w)
    if allowed w then f w else violation unitTwin vcTwinAccess false true 0 (BitVec.ofNat 32 typ) w

/-- The module is paired, or fenced. -/
def paired (w : Mach) : Bool := w.m.twin.role != 0

/-- IDLE (R427): a frame that carries nothing. -/
def execIdle (s : State) : Host.Outcome State Fault Refusal := run (frame 0x00 0 0 (fun _ => true) id) s

/-- The twin has received every frame up to FSEQ `ack` and returns credits (R426): those frames leave the replay buffer; each
of the others keeps its credit, and resends are counted anew where another frame comes next. -/
def acknowledge (ack : Nat) (back : List Nat) (l : Link) : Link :=
  let left := l.unacked.filter fun f => decide (2 ^ 31 ≤ (ack + 2 ^ 32 - f.1) % 2 ^ 32)
  let held (i : Nat) : Nat := max (left.countP fun f => f.2 == i) (tread 0 l.credits i - back.getD i 0)
  flushFrames { l with
    acked := ack, resends := if ack = l.acked then l.resends else 0, unacked := left,
    credits := (List.range 3).foldl (fun c i => twrite 0 c i (held i)) l.credits }

/-- LINK (R424, R426, R430, R431): what the twin has received, a NAK, returned credits by channel, and on a lead the
follower's committed JSEQ, which makes results visible. -/
def execLink (ack : BitVec 32) (nak : Bool) (credits : List Nat) (jseqc : Nat) (s : State) :
    Host.Outcome State Fault Refusal :=
  run (frame 0x01 0 0 (fun _ => true) fun w =>
    let w := onLink (acknowledge ack.toNat credits) w
    let w := if nak then
        (if w.m.twin.link.resends = 8 then errorRecord ecLinkFault {} (linkDown w)
         else
          let full := ackFull w.m.twin.retry
          let w := onTwin (fun t => { t with retry := ackEvent t.retry, link := { t.link with resends := t.link.resends + 1 } }) w
          if full then saturated 0x2014 w else w)
      else w
    if w.m.twin.role ≠ 1 then w
    else
      let w := onTwin (fun t => { t with peerJseq := max t.peerJseq jseqc }) w
      let acked (e : Nat × JRec) : Nat × JRec := (e.1, if e.1 < jseqc then { e.2 with twin := true } else e.2)
      releaseResponses (onK (fun k => { k with journal := k.journal.map acked }) w)) s

/-! ### Results that wait for the twin (R434 to R436) -/

/-- A held result goes out, on this module's own digest (R434). -/
def showHeld (h : Held) (w : Mach) : Mach :=
  let w := onTwin (fun t => { t with held := t.held.filter fun x => x.ctx != h.ctx, digests := t.digests.filter fun x => x.1 != h.ctx }) w
  match h.ctx with
  | .cmd seq => showEnd seq h.err (bits h.digest 0 128) w
  | .inv die num =>
    releaseResponses (onS (fun s => { s with heldResp := s.heldResp.map fun r =>
      if r.die = die ∧ r.inv = num then { r with ok := true } else r }) w)

/-- Every held result goes out (R435, R438). -/
def showAll (w : Mach) : Mach := w.m.twin.held.foldl (fun w h => showHeld h w) w

/-- The sessions of an invocation that has ended, by its responses. -/
def invSids (w : Mach) (die num : Nat) : List Nat :=
  (w.m.s.heldResp.filter fun r => r.die == die && r.inv == num).flatMap fun r => r.recs.map fun x => bits x.2.2 0 20

/-- A context has diverged, on this module (R436): it is counted, an alert tells the verdict's number, and the command fails,
or the sessions go PARKED and their responses stay held. -/
def diverge (ctx : Context) (number : Nat) (w : Mach) : Mach :=
  let full := ackFull w.m.twin.diverge
  let w := onTwin (fun t => { t with
    held := t.held.filter fun x => x.ctx != ctx, digests := t.digests.filter fun x => x.1 != ctx,
    diverged := t.diverged ++ [(number, ctx)], verdicts := number, diverge := ackEvent t.diverge }) w
  let w := alert alTwinDiverged 0 number (if full then saturated 0x2010 w else w)
  match ctx with
  | .cmd seq => showEnd seq erDiverged 0 w
  | .inv die num =>
    (invSids w die num).foldl (fun w sid =>
      takeOut sid (updSess sid (fun s => { s with state := 4, parkwhy := 3 }) w)) w

/-- The lead's own digest against the follower's: equal, the result goes out and the follower hears of it; different, the
next VERDICT number acts on both modules (R434, R436). -/
def judge (h : Held) (theirs : Nat) (w : Mach) : Mach :=
  if h.digest = theirs ∧ h.err ≠ erDiverged then sendFrame 0 0 1 (showHeld h w)
  else
    let n := w.m.twin.verdicts + 1
    diverge h.ctx n (sendFrame 0 0 1 w)

/-- Results that the follower's digest came before are judged. -/
def settleDigests (w : Mach) : Mach :=
  if !mirrorLead w then w
  else w.m.twin.held.foldl (fun w h =>
    match w.m.twin.digests.find? fun e => e.1 == h.ctx with
    | some (_, d) => judge h d w
    | none => w) w

/-- DIGEST (R434, R436): the follower's digest of a context. -/
def execDigest (ctx : Context) (digest : BitVec 256) (s : State) : Host.Outcome State Fault Refusal :=
  run (frame 0x12 0 2 (fun w => w.m.twin.mode == 1 && (w.m.twin.role == 1 || w.m.twin.role == 3)) fun w =>
    settleDigests (onTwin (fun t =>
      { t with digests := t.digests.filter (fun e => e.1 != ctx) ++ [(ctx, digest.toNat)] }) w)) s

/-! ### Leaving and entering modes (R352, R428, R429, R435, R438) -/

/-- DET goes back to what DCTL gives where MIRROR ends (R352, R428). -/
def leaveMirror (w : Mach) : Mach :=
  if w.m.twin.mode ≠ 1 then w
  else
    let d := w.m.twin.detSaved
    onM (fun m => { m with det := d }) w

/-- The pair enters a mode: in MIRROR DET is 1, and what has no lower JSEQ than the join is compared (R352, R442). -/
def enterMode (mode join : Nat) (w : Mach) : Mach :=
  let w := leaveMirror w
  let d := w.m.det
  let w := onTwin (fun t => { t with mode := mode, join := join, pairing := none, enter := false, silent := false,
                                     quiet := 0, digests := [], held := [] }) w
  if mode = 1 then onTwin (fun t => { t with detSaved := d }) (onM (fun m => { m with det := true, detW := none }) w) else w

/-- A silent or standing-by follower stops its threads with everything kept; a takeover lets them go on (R438, R439). -/
def haltFollower (w : Mach) : Mach :=
  if !dormant w then w
  else
    let ks := (w.m.threads.filter fun e => e.2.binding != .free && !e.2.stopped).map (·.1)
    onTwin (fun t => { t with halted := t.halted ++ ks })
      (onM (fun m => { m with threads := m.threads.map fun (k, x) => (k, if ks.contains k then { x with stopped := true } else x) }) w)

/-- They go on. -/
def resumeFollower (w : Mach) : Mach :=
  let ks := w.m.twin.halted
  onTwin (fun t => { t with halted := [] })
    (onM (fun m => { m with threads := m.threads.map fun (k, x) => (k, if ks.contains k && !x.dead then { x with stopped := false } else x) }) w)

/-- The module's own JSEQs go on past every one that it has given or taken (R373). -/
def ownJseq (w : Mach) : Mach := onK (fun k => { k with jseq := max k.jseq k.jTop }) w

/-- Fenced (R428, R438): nothing new comes in, and the host goes on seeing the status words as they stand now. The module is
in no mode any more, until a TWIN_PAIR. -/
def fenceModule (w : Mach) : Mach :=
  let w := leaveMirror w
  ownJseq (onTwin (fun t => { t with role := 3, mode := 0, pairing := none, shown := w.m.h.sw }) w)

/-- A lead goes SOLO: what waited completes on its own digest, and nothing waits for the twin (R435, R438). -/
def goSolo (w : Mach) : Mach :=
  let w := leaveMirror w
  let w := onTwin (fun t => { t with mode := 0, silent := false, quiet := 0, pairing := none }) w
  releaseResponses (showAll w)

/-- TWIN_DEGRADED (R435, R438): the follower's digest of some result has not come within TWIN_LAGMAX periods of the lead's. A
silent twin's does not come: that wait only the driver ends. -/
def execTwinDegraded (s : State) : Host.Outcome State Fault Refusal :=
  run (fun w =>
    let late := w.m.twin.held.any fun h => decide (h.period + w.m.twin.lagmax ≤ w.m.tick / 4096)
    if !mirrorLead w || !late || w.m.twin.silent then w
    else alert alTwinDegraded 0 0 (goSolo (sendFrame 0 0 1 w))) s

/-! ### Silence and the cicada (R437, R438) -/

/-- The twin is silent (R438); a start-up that waited for it is ready (R487). -/
def twinSilent (w : Mach) : Mach :=
  if !paired w || w.m.twin.silent && !w.m.twin.resume then w
  else
    let w := onTwin (fun t => { t with silent := true, resume := false, enter := false }) w
    reachReady (alert alTwinSilent 0 0 (haltFollower w))

/-- TWIN_SILENT (R438): eight periods have passed with no cicada. -/
def execTwinSilent (s : State) : Host.Outcome State Fault Refusal :=
  run (fun w => if 8 ≤ w.m.twin.quiet then twinSilent w else w) s

/-- CUT (R386, R427, R438): the twin's power is cut, and it is silent at once. -/
def execCut (_tick : Nat) (_epoch : BitVec 32) (s : State) : Host.Outcome State Fault Refusal :=
  run (frame 0x03 0 1 paired twinSilent) s

/-! ### What a follower does with the lead's records (R30, R375, R430, R433, R440) -/

/-- A journal record from its bytes (R374, R375): an event's ring sequence follows the last of its ring. -/
def readRecord (w : Mach) (cmd : Nat) (rec : BitVec 1152) : Nat × JRec :=
  let v := rec.toNat
  let typ := bits v 128 8
  let ring := bits v 136 6
  let body := bits v 0 128 + bits v 256 768 <<< 256
  let last := lastSeq w ring
  let low := bits v 142 18
  let rseq := match typ with
    | 1 => (last + (low + 2 ^ 18 - last % 2 ^ 18) % 2 ^ 18) % 2 ^ 32
    | 2 => bits v 0 32
    | 4 => bits v 0 32
    | _ => 0
  (bits v 192 64,
   { typ := typ, ring := ring, rseq := rseq, body := body, tick := bits v 1024 64, src := BitVec.ofNat 16 (bits v 1104 16),
     sq := BitVec.ofNat 16 (bits v 1088 16), epoch := bits v 1120 32, committed := true, cmd := cmd })

/-- A stamp's source as the twin's domain has it (R28, R30). -/
def twinSource (src : BitVec 16) : BitVec 16 := BitVec.ofNat 16 (3 * 2 ^ 13 + src.toNat % 2 ^ 13)

/-- Apply a shipped record: an event is queued with the lead's stamp, a command takes the lead's number and its status
word follows (R430, R433). With `sessions` set, of the commands only those of sessions (R388, R442). -/
def applyRecord (sessions : Bool) (j : Nat) (r : JRec) (w : Mach) : Mach :=
  match r.typ with
  | 1 => queueEvent (bits r.body 0 20)
      { ring := r.ring, jseq := j, tick := r.tick, src := twinSource r.src, sq := r.sq, epoch := r.epoch, body := r.body } w
  | 2 =>
    let entry := bits (r.body >>> 256) 0 512
    let c : Cmd := { entry := entry, fn := cmdRingFn w r.ring, ring := r.ring, rseq := r.rseq, tick := r.tick,
                     src := twinSource r.src, sq := r.sq, jseq := j, epoch := w.m.epoch }
    if sessions && !([0x08, 0x09, 0x0A] : List Nat).contains (opcodeOf c) then w
    else
      let word : StatusW := { seq := r.cmd, state := 1, opcode := bits entry 0 8, tag := bits entry 32 32, rseq := r.rseq,
                              ring := r.ring, tick := w.m.tick, epoch := w.m.epoch, upd := 1 }
      refuseAtCommit r.cmd (onH (fun h => { h with cmds := tput h.cmds r.cmd c, sw := tput h.sw (bits entry 16 15) word }) w)
  | _ => w

/-- A shipped record enters the follower's journal under the lead's JSEQ (R430), its stamp in the twin's domain (R30). -/
def keepRecord (j : Nat) (r : JRec) (w : Mach) : Mach :=
  let r := { r with src := twinSource r.src }
  let w := onK (fun k => { k with
    jseq := max k.jseq (j + 1),
    jLastSeq := if r.typ = 1 ∨ r.typ = 4 then twrite 0 k.jLastSeq (64 + r.ring) r.rseq else k.jLastSeq }) (putRecord j r w)
  onTwin (fun t => { t with cmdHigh := max t.cmdHigh r.cmd }) w

/-- JREC (R430, R442): the follower journals and commits the lead's records, acknowledges them, and, but in STANDBY or
silence, takes its commands and events from them in JSEQ order. A record below the present cut is only kept. -/
def execJrec (cls : BitVec 6) (recs : List (Nat × BitVec 1152)) (s : State) : Host.Outcome State Fault Refusal :=
  run (frame 0x10 cls.toNat (ceilDiv (144 * recs.length) 32) (fun w => w.m.twin.role == 2) fun w =>
    let w := recs.foldl (fun w e =>
      let (j, r) := readRecord w e.1 e.2
      if r.typ = 0 ∨ (tget w.m.k.journal j).isSome = true then w
      else
        let w := checkEarly (keepRecord j r w)
        if dormant w || decide (j < w.m.twin.applied) then w
        else onTwin (fun t => { t with applied := j + 1 }) (applyRecord w.m.twin.pairing.isSome j r w)) w
    sendFrame 0 0 0 w) s

/-- INPUT (R432): bytes of an input of a command, tagged by command, logical thread, step and index. -/
def execInput (len : BitVec 4) (cls : BitVec 6) (cmd : Nat) (lthread : BitVec 16) (sstep : BitVec 64) (index : BitVec 32)
    (bytes : List (BitVec 8)) (s : State) : Host.Outcome State Fault Refusal :=
  run (frame 0x11 cls.toNat len.toNat mirrorFollower fun w =>
    let tag := ((cmd * 2 ^ 16 + lthread.toNat) * 2 ^ 64 + sstep.toNat) * 2 ^ 32 + index.toNat
    onTwin (fun t => { t with inputs := tput t.inputs tag (tread [] t.inputs tag ++ bytes) }) w) s

/-- The follower's batches are those of the lead's periods that can get no more events: a record is committed within
2,048 ticks of its intake (R376, R430). -/
def formShipped (before : Nat) (w : Mach) : Mach :=
  let had := w.m.s.invs
  let w := formOriginal (fun q => q.src.toNat / 2 ^ 13 == 3 && decide ((q.tick / 4096 + 2) * 4096 ≤ before)) w.m.tick w
  -- a follower that joins replays under R388 (R442)
  if w.m.twin.pairing.isSome then asReplay had w else w

/-- A pair that resumes after a restart (R487): with equal generations the lead ships its journal from the follower's JSEQC,
once; where it no longer holds those records, the modules stay silent. -/
def resumeShip (w : Mach) : Mach :=
  let t := w.m.twin
  if t.role ≠ 1 ∨ t.enter = true ∨ t.peerGen ≠ t.pairgen then w
  else if t.peerJseq < w.m.k.jKept then twinSilent w
  else onTwin (fun t => { t with enter := true })
    ((w.m.k.journal.filter fun e => decide (t.peerJseq ≤ e.1) && e.2.committed).foldl (fun w e => shipRecord e.1 e.2 w) w)

/-- CICADA (R428, R430, R437, R487): the twin's tick, generation, JSEQC and role; one with a higher generation fences this
module at once, but while the two pair, when they share the higher one (log 94). On a follower the lead's closed periods
become batches. -/
def execCicada (tick : Nat) (_epoch : BitVec 32) (pairgen : BitVec 32) (jseqc : Nat) (_mode : BitVec 2) (role : BitVec 2)
    (_saving : Bool) (_dies : BitVec 2) (_molt : BitVec 32) (s : State) : Host.Outcome State Fault Refusal :=
  run (frame 0x02 0 1 paired fun w =>
    let w := onTwin (fun t => { t with quiet := 0, peerJseq := jseqc, peerRole := role.toNat, peerGen := pairgen.toNat }) w
    let w := if w.m.twin.pairing.isSome then onTwin (fun t => { t with pairgen := max t.pairgen pairgen.toNat }) w else w
    if w.m.twin.pairgen < pairgen.toNat then
      reachReady (onTwin (fun t => { t with resume := false }) (fenceModule w))
    else if w.m.twin.resume then resumeShip w
    else if w.m.twin.role = 2 ∧ dormant w = false then formShipped tick w
    else settleDigests w) s

/-! ### Joining (R442) -/

/-- A session from its descriptor's bytes (R330). -/
def sessionOf (v : Nat) : Session :=
  { state := bits v 20 3, cls := bits v 24 6, size := bits v 32 3, gang := bits v 35 2, parkwhy := bits v 40 2,
    blim := bits v 48 16, plan := bits v 64 32, entry := bits v 96 16, stateVa := bits v 128 48,
    asid := BitVec.ofNat 16 (bits v 192 16), seed := BitVec.ofNat 64 (bits v 256 64), step := bits v 320 64,
    ltick := bits v 384 64, lsq := BitVec.ofNat 16 (bits v 448 16), lsrc := BitVec.ofNat 16 (bits v 464 16),
    epoch := bits v 480 32, otick := bits v 640 64 }

/-- Put a descriptor into the session table with the block that its address space maps. -/
def putSession (sid v : Nat) (w : Mach) : Mach :=
  let x := sessionOf v
  let old := sessOf w sid
  let ps := (blockPieces w sid x.stateVa (512 * 2 ^ x.size) x.asid).getD old.block
  updSess sid (fun _ => { x with queue := old.queue, block := ps, taken := x.step + old.queue.length }) w

/-- A serving plan starts again under its own number, seed and intake tick (R388). -/
def restartPlan (seq entry fn tick : Nat) (w : Mach) : Mach :=
  let c : Cmd := { entry := entry, fn := fn, tick := tick, stage := 1, det := w.m.det }
  let word : StatusW := { seq := seq, state := 2, opcode := bits entry 0 8, tag := bits entry 32 32,
                          tick := w.m.tick, epoch := w.m.epoch, upd := 1 }
  let w := onH (fun h => { h with cmds := tput h.cmds seq c, sw := tput h.sw (bits entry 16 15) word }) w
  match readPlan w c with
  | some p => updPlan seq (fun _ => p) w
  | none => w

/-- SNAP (R382, R388, R395, R396, R442): the lead's snapshot, signed records and serving plans: the follower keeps them in
NAND, the records as the twin's copies beside its own, and, but in MIRROR, the rest in near memory; with the header it stands
at the snapshot's cut. -/
def execSnap (len : BitVec 4) (part : SnapPart) (s : State) : Host.Outcome State Fault Refusal :=
  run (frame 0x20 0 len.toNat (fun w => w.m.twin.role == 2) fun w =>
    let live := w.m.twin.mode != 1
    match part with
    | .bytes addr bs => if live && isDevice w addr then storeBytes none addr bs w else w
    | .session sid desc => if live then putSession sid.toNat desc.toNat w else w
    | .event rec =>
      if !live then w
      else
        let (j, r) := readRecord w 0 rec
        applyRecord true j r (putRecord j { r with src := twinSource r.src } w)
    | .plan seq entry fn tick => if live then restartPlan seq entry.toNat fn.toNat tick w else w
    | .record kind gen epoch tick body ed ml =>
      if w.m.twin.peerRecs.any fun r => r.kind == kind && decide (gen < r.gen) then w
      else onTwin (fun t => { t with peerRecs := (t.peerRecs.filter fun r => r.kind != kind) ++
        [{ kind := kind, gen := gen, epoch := epoch, tick := tick, body := body, ed := ed, ml := ml }] }) w
    | .header jcut counts invNext =>
      let w := if !live then w
        else
          let w := onS (fun x => { x with invNext := twrite 0 (twrite 0 x.invNext 0 invNext.1) 1 invNext.2 }) w
          let last := counts.foldl (fun t e => if 192 ≤ e.1 ∧ e.1 < 256 then twrite 0 t (e.1 - 128) e.2 else t) []
          onTwin (fun t => { t with applied := jcut, pairing := t.pairing.map fun p => (p.1, p.2.1, true) })
            (drainTo (jcut / segmentRecords * segmentRecords) (onK (fun k => { k with jseq := max k.jseq jcut, jLastSeq := last }) w))
      let run : SnapRun := { full := true, cut := w.m.tick, jcut := jcut,
                             cnts := counts.foldl (fun t e => tput t e.1 e.2) [] }
      let sn := snapNow w run
      storeImages sn (onK (fun k => { k with
        snapSeq := k.snapSeq + 1, snaps := keepSnaps (snapRetain w) (k.snaps ++ [{ sn with images := [] }]) }) w)) s

/-- A new follower starts with nothing of its own but ring 31: its commands there take local numbers (log 43). -/
def clearForFollower (seq : Nat) (w : Mach) : Mach :=
  let w := w.m.h.plans.foldl (fun w e => endPlan e.1 w) w
  let mine := w.m.h.cmds.filter fun e => e.2.ring == 31
  let base := 2 ^ 31 + w.m.twin.cmdLocal
  let (cmds, sw) := (List.range mine.length).foldl (fun (x : Table Cmd × Table StatusW) i =>
    let (n, c) := mine.getD i (0, {})
    let k := swordOf c
    let old := tread {} w.m.h.sw k
    (tput x.1 (base + i) c, if old.seq = n then tput x.2 k { old with seq := base + i } else x.2)) ([], [])
  let at' := (mine.findIdx? fun e => e.1 == seq).getD 0
  let w := onH (fun h => { h with cmds := cmds, sw := sw, plans := [] }) w
  let w := onS (fun s => { s with sessions := [], past := [], invs := [], heldResp := [], regen := [] }) w
  let w := onH (fun h => { h with responded := [], respBase := 0 }) w
  let w := onK (fun k => { k with journal := [], jDrained := 0, jWritten := 0, jGone := 0, jKept := 0, jseq := 0,
                                  jTop := max k.jTop k.jseq, jLastSeq := [], snaps := [], images := [], snapQ := [] }) w
  onTwin (fun t => { t with
    pairing := t.pairing.map fun p => (base + at', p.2), cmdLocal := t.cmdLocal + mine.length, held := [], digests := [],
    diverged := [], fetch := [], inputs := [], early := [], view := [], applied := 0, cmdHigh := 0, halted := [] }) w

/-- TWIN_PAIR (R429, R442, R478): both modules hold the same owner's keys or none; the generation rises; a lead queues the full snapshot that it will ship, a follower waits for
it. The status word goes DONE at the boundary that enters the mode. -/
def execTwinPair (seq : Nat) (s : State) : Host.Outcome State Fault Refusal :=
  run (command seq 0x20 fun _ => checkedCmd seq [(128, 3)] fun c w =>
    let mode := cmdBits c 0x10 0 2
    let follower := cmdBits c 0x10 2 1 == 1
    let t := w.m.twin
    if mode = 0 ∨ mode = 3 then failCmd seq erFormat w
    else if !t.link.up || t.mode == 1 || t.pairing.isSome || (follower && t.role == 1) || (!follower && t.role == 2)
        || t.takeW.isSome || t.resume || t.peerOwner != w.m.sec.owned then
      failCmd seq erTwinState w
    else
      let w := startCmd seq w
      let w := if t.role = 3 ∧ follower = false then goSolo (onTwin (fun t => { t with role := 1 }) w) else w
      let w := onTwin (fun t => { t with
        role := if follower then 2 else 1, mode := 0, pairgen := (t.pairgen + 1) % 2 ^ 32, silent := false, quiet := 0,
        pairing := some (seq, mode, false), peerJseq := 0, peerRole := 0, enter := false }) w
      if follower then clearForFollower seq w
      else onK (fun k => { k with snapQ := k.snapQ ++ [{ full := true, ship := true }] }) w) s

/-! ### Mode, fence, takeover (R429, R438 to R441) -/

/-- TWIN_MODE (R429, R442): the lead's mode changes at the next boundary; MIRROR is entered only by a pairing. -/
def execTwinMode (seq : Nat) (s : State) : Host.Outcome State Fault Refusal :=
  run (command seq 0x21 fun _ => checkedCmd seq [(128, 2)] fun c w =>
    let mode := cmdBits c 0x10 0 2
    let t := w.m.twin
    let ok := t.role == 1 && (mode == 0 || t.link.up && (mode == t.mode || t.mode == 1 && mode == 2))
    if mode = 3 then failCmd seq erFormat w
    else if !ok || t.pairing.isSome || t.modeW.isSome then failCmd seq erTwinState w
    else onTwin (fun t => { t with modeW := some (mode, some seq) }) (startCmd seq w)) s

/-- TWIN_FENCE (R429, R438): a paired module is fenced from the next boundary. -/
def execTwinFence (seq : Nat) (s : State) : Host.Outcome State Fault Refusal :=
  run (command seq 0x22 fun _ => checkedCmd seq [] fun _ w =>
    if (w.m.twin.role ≠ 1 ∧ w.m.twin.role ≠ 2) ∨ w.m.twin.fenceW.isSome = true then failCmd seq erTwinState w
    else onTwin (fun t => { t with fenceW := some seq }) (startCmd seq w)) s

/-- TWIN_TAKEOVER (R439): accepted from the follower's host with its generation, when the lead is silent or fenced or
FORCE is set. The generation rises at once. -/
def execTwinTakeover (seq : Nat) (s : State) : Host.Outcome State Fault Refusal :=
  run (command seq 0x23 fun _ => checkedCmd seq [(128, 33)] fun c w =>
    let t := w.m.twin
    let ok := t.role == 2 && t.pairing.isNone && t.takeW.isNone && cmdBits c 0x10 0 32 == t.pairgen
      && (t.silent || t.peerRole == 3 || cmdBits c 0x10 32 1 == 1)
    if !ok then failCmd seq erTwinState w
    else onTwin (fun t => { t with pairgen := (t.pairgen + 1) % 2 ^ 32, takeW := some (seq, false) }) (startCmd seq w)) s

/-- The count past the last entry of a ring in the journal: from the snapshot's counts on (R375, R440, R455). -/
def journalCount (w : Mach) (typ ring : Nat) : Nat :=
  let key := if typ = 2 then 64 + ring else 192 + ring
  let base := (w.m.k.snaps.getLast?.map fun s => tread 0 s.counts key).getD 0
  let cut : Nat := (w.m.k.snaps.getLast?.map (·.jcut)).getD 0
  w.m.k.journal.foldl (fun (n : Nat) (e : Nat × JRec) =>
    if cut ≤ e.1 ∧ e.1 < 2 ^ 62 ∧ e.2.typ = typ ∧ e.2.ring = ring then (e.2.rseq + 1) % 2 ^ 32 else n) base

/-- Ring counts after a takeover (R440, R455): taken is one more than the highest journalled; a producer count that lies
behind follows; what is not answered counts against the response ring. -/
def takeRings (w : Mach) : Mach :=
  let ring (typ pi ci r : Nat) (w : Mach) : Mach :=
    let n := journalCount w typ r
    let w := setCount ci n w
    if countGap n (ringCount w pi) < 2 ^ 31 then w else setCount pi n w
  let w := iterate 31 (fun r w => ring 2 r (64 + r) r w) w
  iterate 64 (fun r w =>
    let queued := (w.m.s.sessions.map fun e => e.2.queue.countP fun q => q.ring == r).sum
    let held := (w.m.s.heldResp.map fun h => h.recs.countP fun x => x.1 == r).sum
    setCount (512 + r) (queued + held) (ring 1 (128 + r) (192 + r) r w)) w

/-- The follower becomes the lead (R439 to R441): held results complete, every journalled record runs, and the rings open. -/
def takeOver (w : Mach) : Mach :=
  let w := leaveMirror w
  let w := onTwin (fun t => { t with role := 1, mode := 0, silent := false, quiet := 0, modeW := none }) w
  let rest := w.m.k.journal.filter fun e => decide (w.m.twin.applied ≤ e.1 ∧ e.1 < 2 ^ 62)
  let w := ownJseq (rest.foldl (fun w e => applyRecord false e.1 e.2 w) w)
  let w := onTwin (fun t => { t with applied := w.m.k.jseq, inputs := [], early := [], view := [] }) w
  let w := onH (fun h => { h with cmdNext := max (w.m.twin.cmdHigh + 1) ((h.cmds.filter fun e => decide (e.1 < 2 ^ 31)).foldl (fun n e => max n (e.1 + 1)) 1) }) w
  let last := (w.m.s.sessions.flatMap fun e => e.2.queue.map (·.tick)).foldl max 0
  let w := formShipped (last + 3 * 4096) w
  resumeFollower (releaseResponses (showAll (takeRings w)))

/-! ### Resolution and fetches (R391, R427, R436) -/

/-- An invocation's held responses become visible on this module, whatever its role (R436). -/
def releaseInv (die num : Nat) (w : Mach) : Mach :=
  let mine (h : HeldResp) : Bool := h.die == die && h.inv == num
  let hs := w.m.s.heldResp.filter mine
  let w := onS (fun s => { s with heldResp := s.heldResp.filter fun h => !mine h }) w
  hs.foldl (fun w h => h.recs.foldl (fun w r => markAnswered r.2.1 (postResponse r.1 r.2.2 w)) w) w

/-- They are dropped: the good module answers (R436). -/
def discardInv (die num : Nat) (w : Mach) : Mach :=
  let mine (h : HeldResp) : Bool := h.die == die && h.inv == num
  let hs := w.m.s.heldResp.filter mine
  let w := onS (fun s => { s with heldResp := s.heldResp.filter fun h => !mine h }) w
  hs.foldl (fun w h => h.recs.foldl (fun w r =>
    markAnswered r.2.1 (setCount (512 + r.1) (ringCount w (512 + r.1) - 1) w)) w) w

/-- A diverged session resumes. -/
def resumeSession (sid : Nat) (w : Mach) : Mach :=
  updSess sid (fun s =>
    if s.state = 4 ∧ s.parkwhy = 3 then { s with state := if s.queue.isEmpty then 1 else 2, parkwhy := 0 } else s) w

/-- A divergence is resolved on this module (R436): the good one shows its responses and goes on, the other fetches. -/
def resolve (number : Nat) (good : Bool) (w : Mach) : Mach :=
  match w.m.twin.diverged.find? fun e => e.1 == number with
  | none => w
  | some (_, ctx) =>
    let w := onTwin (fun t => { t with diverged := t.diverged.filter fun e => e.1 != number }) w
    match ctx with
    | .cmd _ => w
    | .inv die num =>
      let sids := invSids w die num
      if good then sids.foldl (fun w sid => resumeSession sid w) (releaseInv die num w)
      else
        let w := onTwin (fun t => { t with fetch := t.fetch ++ sids }) (discardInv die num w)
        sids.foldl (fun w _ => sendFrame 2 0 1 w) w

/-- TWIN_RESOLVE (R429, R436): names the good module of a divergence. -/
def execTwinResolve (seq : Nat) (s : State) : Host.Outcome State Fault Refusal :=
  run (command seq 0x24 fun _ => checkedCmd seq [(128, 1), (160, 32)] fun c w =>
    let n := cmdBits c 0x14 0 32
    let ok := w.m.twin.role == 1 && w.m.twin.link.up && w.m.twin.diverged.any fun e => e.1 == n
    if !ok then failCmd seq erTwinState w
    else atOnce seq (fun w => resolve n (cmdBits c 0x10 0 1 == 0) (sendFrame 0 0 1 w)) w) s

/-- A lead's verdicts are for a follower; what the keepers tell each other to pair is for either. -/
def ctrlAllowed (msg : CtrlMsg) (w : Mach) : Bool :=
  match msg with
  | .owner _ => true
  | _ => w.m.twin.role == 2

/-- CTRL (R427, R429, R434 to R436, R442): the lead's verdicts and changes, on a follower. -/
def execCtrl (len : BitVec 4) (msg : CtrlMsg) (s : State) : Host.Outcome State Fault Refusal :=
  run (frame 0x04 0 len.toNat (ctrlAllowed msg) fun w =>
    match msg with
    | .owner keys => onTwin (fun t => { t with peerOwner := keys }) w
    | .equal ctx =>
      match w.m.twin.held.find? fun h => h.ctx == ctx with
      | some h => showHeld h w
      | none => w
    | .diverged ctx n => diverge ctx n w
    | .enter => onTwin (fun t => { t with enter := true }) w
    | .mode m => if m = 0 then fenceModule w else onTwin (fun t => { t with modeW := some (m, none) }) w
    | .resolve n follower => resolve n follower w) s

/-- FETCH_REQ (R391, R427, R436): the twin asks for a unit, a segment or a session, and the reply goes out in class 0. -/
def execFetchReq (len : BitVec 4) (what : FetchWhat) (s : State) : Host.Outcome State Fault Refusal :=
  run (frame 0x21 0 len.toNat paired fun w =>
    let size := match what with
      | .unit n => n
      | .segment first =>
        144 * (w.m.k.journal.filter fun e => e.1 / segmentRecords == first / segmentRecords && e.2.committed).length
      | .session sid => 256 + ((sessOf w sid.toNat).block.map (·.2)).sum
    if size = 0 then w else sendFrame 2 0 (ceilDiv size 32) w) s

/-! ### The cicada that goes out (R425, R437) -/

/-- A Neraxo frame of up to nine granules (R425): its header, its payload, each granule's check bytes, and the CRC of it all. -/
def neraxoFrame (typ cls vc fseq : Nat) (payload : List Byte) : List Byte :=
  let pay := payload ++ List.replicate (288 - payload.length) 0
  let body := toBytes 8 (typ + ceilDiv payload.length 32 <<< 8 + vc <<< 12 + cls <<< 14 + fseq <<< 24) ++ pay
    ++ (List.range 9).flatMap fun i => chitinCheck ((pay.drop (32 * i)).take 32)
  body ++ toBytes 4 (crc32c body)

/-- The payload of a CICADA (R437): a save is one step here, so that none is running. -/
def cicadaPayload (w : Mach) : List Byte :=
  let dies := b2n (dieServes w 0) + 2 * b2n (dieServes w 1)
  toBytes 8 w.m.tick ++ toBytes 4 w.m.epoch ++ toBytes 4 w.m.twin.pairgen ++ toBytes 8 (jseqc w)
  ++ toBytes 4 (w.m.twin.mode + w.m.twin.role <<< 2 + dies <<< 5) ++ toBytes 4 w.m.molt

/-- A CICADA goes out, charged to class 0 (R427, R437). -/
def sendCicada (w : Mach) : Mach :=
  let l := w.m.twin.link
  let beat := neraxoFrame 0x02 0 0 l.txSeq (cicadaPayload w)
  sendFrame 0 0 1 (if l.up || l.retrain then onLink (fun l => { l with beat := beat }) w else w)

/-! ### The boundary (R429, R437, R439, R442) -/

/-- Everything that the journal has committed for the twin is committed on it too. -/
def twinLevel (w : Mach) : Bool :=
  w.m.k.journal.all fun e => !e.2.committed || (e.2.typ == 2 && e.2.ring == 31) || decide (e.1 < w.m.twin.peerJseq)

/-- A pair that resumes stands level again: its mode goes on (R487). -/
def resumeBoundary (w : Mach) : Mach :=
  let t := w.m.twin
  let level := if t.role = 1 then t.enter && t.peerRole == 2 && twinLevel w
    else t.peerRole == 1 && t.peerGen == t.pairgen && jseqc w == t.peerJseq
  if !t.resume || !level then w
  else reachReady (onTwin (fun t => { t with resume := false, silent := false, enter := false, join := jseqc w }) w)

/-- A pairing whose modules stand level enters its mode (R442). -/
def joinBoundary (w : Mach) : Mach :=
  match w.m.twin.pairing with
  | some (seq, mode, true) =>
    if w.m.twin.role = 1 then
      (if twinLevel w && w.m.twin.peerRole == 2 && w.m.twin.link.up then
        doneCmd seq (sendFrame 0 0 1 (enterMode mode (jseqc w) w))
       else w)
    else if w.m.twin.enter || decide (0 < w.m.twin.peerJseq ∧ jseqc w = w.m.twin.peerJseq) then
      doneCmd seq (haltFollower (enterMode mode (max (jseqc w) w.m.twin.peerJseq) w))
    else w
  | _ => w

/-- A change of mode at its boundary (R429, R438). -/
def modeBoundary (w : Mach) : Mach :=
  match w.m.twin.modeW with
  | none => w
  | some (mode, cmd) =>
    let w := onTwin (fun t => { t with modeW := none }) w
    let w := if w.m.twin.role = 2 then haltFollower (onTwin (fun t => { t with mode := mode, held := [] }) (leaveMirror w))
      else if mode = 0 then goSolo (sendFrame 0 0 1 w)
      else if mode = w.m.twin.mode then w
      else
        let w := goSolo (sendFrame 0 0 1 w)
        onTwin (fun t => { t with mode := mode }) w
    match cmd with
    | some seq => doneCmd seq w
    | none => w

/-- The rings that a takeover reports, its PROGRESS (R439, R458): command rings 0 to 30 and the event rings (log 94). -/
def takenRings : Nat := 95

/-- What a boundary does for the pair: a fence, a takeover's two boundaries, modes, joining, the cicada (R437 to R442). -/
def twinBoundary (w : Mach) : Mach :=
  let w := match w.m.twin.fenceW with
    | some seq => doneCmd seq (onTwin (fun t => { t with fenceW := none }) (fenceModule w))
    | none => w
  let w := match w.m.twin.takeW with
    | some (seq, false) => onTwin (fun t => { t with takeW := some (seq, true) }) (takeOver w)
    | some (seq, true) =>
      doneCmd seq (updCmd seq (fun c => { c with prog := takenRings }) (onTwin (fun t => { t with takeW := none }) w))
    | none => w
  let w := resumeBoundary (joinBoundary (modeBoundary w))
  if !paired w then w
  else settleDigests (sendCicada (shipRecords (onTwin (fun t => { t with quiet := t.quiet + 1 }) w)))

end Sys2Proof.Machine
end

