-- ==== Sys2Proof/Machine/Endpoint.lean ====
section
/-! DEFINITION. The PCIe endpoint (R445, R446, R448, R450, R451, R485, R517): link, resets, configuration requests and the
BAR4 window. -/

namespace Sys2Proof.Machine
open Sys2Proof

/-! ### Link and reset (R445, R446, R485, R517) -/

/-- PERST (R450, R485, R517): asserted, PERST# holds the endpoint in reset: its link is down, BAR4 is 1 GiB again and ATS is
off; no BAR0 register changes. -/
def execPerst (asserted : Bool) (s : State) : Host.Outcome State Fault Refusal :=
  run (fun w =>
    let w := onPower (fun p => { p with perst := asserted }) w
    if !asserted then w
    else onH (fun h => { h with linkUp := false, bar4 := 2 ^ 30, cpl := 0, readBack := [],
                                funcs := h.funcs.map fun e => (e.1, { e.2 with ats := false }) }) w) s

/-- PCIE_LINK_TRAINING (R445, R446, R485): with the keeper domain powered and PERST# high, the link trains at Gen4 to Gen6
and x8 or x16, and at nothing else. -/
def execPcieLinkTraining (gen : BitVec 3) (width : BitVec 5) (s : State) : Host.Outcome State Fault Refusal :=
  run (fun w =>
    let g := gen.toNat
    let n := width.toNat
    if w.m.power.perst || !w.m.power.good || decide (g < 4 ∨ 6 < g) || (n != 8 && n != 16) then w
    else onH (fun h => { h with linkUp := true, linkGen := g, linkWidth := n }) w) s

/-- REFCLK_LOSS (R517): REFCLK is there or gone; without it the endpoint runs SRIS from its own oscillator, and no stamp
changes. -/
def execRefclkLoss (present : Bool) (s : State) : Host.Outcome State Fault Refusal :=
  run (onPower fun p => { p with refclk := present }) s

/-- Configuration requests complete normally (R485, R489): from the end of step 4 on, and in recovery. -/
def configReady (w : Mach) : Bool := decide (4 < w.m.sec.bootPhase) || inRecovery w

/-- CONFIGURATION_REQUEST (R298, R485, R489): completed with Configuration Request Retry Status until step 4 ends, normally
after it; one that writes a function's ATS enable sets it. In recovery the PF alone answers. -/
def execConfigurationRequest (fn : BitVec 5) (ats : Option Bool) (s : State) : Host.Outcome State Fault Refusal :=
  run (fun w =>
    if w.m.power.perst || !w.m.h.linkUp || (inRecovery w && fn != 0) then w
    else if !configReady w then onH (fun h => { h with cpl := 2 }) w
    else onH (fun h => { h with cpl := 1, funcs := match ats with
      | some b => twrite {} h.funcs fn.toNat { tread {} h.funcs fn.toNat with ats := b }
      | none => h.funcs }) w) s

/-! ### BAR4 (R450) -/

/-- BAR4_RESIZE (R445, R450): a size of 1 GiB to 1 TiB that is a power of two; every BASE stays. -/
def execBar4Resize (size : Nat) (s : State) : Host.Outcome State Fault Refusal :=
  run (fun w =>
    if ((List.range 11).map fun i => 2 ^ (30 + i)).contains size then onH (fun h => { h with bar4 := size }) w else w) s

/-- Where byte `off` of BAR4 lies in device memory, none where the segment does not map it (R450). -/
def bar4Addr (w : Mach) (off : Nat) : Option Nat :=
  let seg := w.m.h.bar4 / 16
  let win := (tread 0 w.m.h.wins (off / seg)).toNat
  let base := bits win 0 48
  let a := base + off % seg
  if bit win 63 && decide (off < w.m.h.bar4) && base % seg == 0 && (isDevice w a || fencedAddr w a) then some a else none

/-- What an access to device memory through BAR4 costs class 0: sectors, what HBM lines miss under the hint NORMAL, flits of
the die's keeper bridge, and PCIe payload (R302, R303, R316); all to class 0 (log 93). -/
def bar4Traffic (write : Bool) (as : List Nat) (w : Mach) : Mach :=
  let w := chargeKeeper 0 write ((spansOf as).map fun r => ⟨r.1, r.2, some r.1, none⟩) w
  let dir : Res := if write then .pcieIn else .pcieOut
  keeperEnergy 0 (2 * as.length) (request ⟨dir, 0, 0, as.length, keeperNow w, none⟩ w)

/-- A host access to device memory that is a violation: zeros are read, nothing is written (R241); the record tells the
requester, or the die that is fenced (R242). -/
def bar4Denied (code : Nat) (write : Bool) (off n : Nat) (detail : W32) (w : Mach) : Mach :=
  onH (fun h => { h with cpl := 1, readBack := if write then h.readBack else List.replicate n 0 })
    (violation unitKeeper code false write off detail w)

/-- The ranges that a command writes in the order that its PROGRESS counts them, in its address space: a plan's outputs, a
MOVE's destination (R458, R460). -/
def resultRanges (w : Mach) (e : Nat × Cmd) : BitVec 16 × List (Nat × Nat) :=
  match opcodeOf e.2 with
  | 0x01 => ((planOf w e.1).asid, (planOf w e.1).outs)
  | 0x02 => (BitVec.ofNat 16 (cmdBits e.2 0x28 0 16), [(cmdBits e.2 0x18 0 48, cmdBits e.2 0x20 0 48)])
  | _ => (0, [])

/-- A byte of a result beyond the PROGRESS that its command shows, before DONE (R464). -/
def beyondProgress (w : Mach) (a : Nat) : Bool :=
  w.m.h.cmds.any fun e =>
    isRunning w e.1 &&
    let (asid, rs) := resultRanges w e
    let p := (tread {} w.m.h.sw (swordOf e.2)).progress
    (rs.foldl (fun (x : Nat × Bool) r =>
      (x.1 + r.2, x.2 || decide (p < x.1 + r.2) && match asidPieces w asid .write r.1 r.2 with
        | .ok cs => cs.any fun c => match c.pa with
            | some b => decide (b ≤ a ∧ a < b + c.len ∧ p + r.1 ≤ x.1 + c.va + (a - b))
            | none => false
        | .error _ => false)) (0, false)).2

/-- The byte that the host reads: unspecified beyond the PROGRESS of the command that writes it (R464). -/
def hostByte (w : Mach) (a : Nat) : Byte :=
  if beyondProgress w a then BitVec.ofNat 8 (Config.unspecified w.m.free a) else byteAt w a

/-- The bytes of a BAR4 access move (R302, R405, R409, R464). -/
def bar4Moves (write : Bool) (as : List Nat) (data : List (BitVec 8)) (w : Mach) : Mach :=
  let w := bar4Traffic write as w
  if write then
    let w := (as.zip data).foldl (fun w e => storeBytes none e.1 [e.2] w) w
    onH (fun h => { h with cpl := 1 }) (renewCovered as w)
  else
    let w := ((as.map (· / 32)).eraseDups).foldl (fun w g => correctIn (32 * g) 32 w) w
    match (as.map (· / 32)).find? (granBad w) with
    | some g => onH (fun h => { h with cpl := 3, readBack := [] }) (errorRecord ecUeRead { addr := 32 * g } w)
    | none =>
      let bs := as.map (hostByte w)
      let w := if as.any (beyondProgress w) then (drawFree w).2 else w
      onH (fun h => { h with cpl := 1, readBack := bs }) w

/-- BAR4_ACCESS (R42, R302, R330, R405, R413, R450, R489): a host read or write of device memory. A byte that no segment maps
makes the access a violation, and so does a write to a session table; a read of an uncorrectable granule completes with
Completer Abort. One that the gates do not admit has no effect until it is sent again (log 107). -/
def execBar4Access (write : Bool) (off n : Nat) (data : List (BitVec 8)) (s : State) : Host.Outcome State Fault Refusal :=
  run (fun w =>
    let as := (List.range n).map fun i => bar4Addr w (off + i)
    if !w.m.h.linkUp || w.m.power.perst then w
    else if inRecovery w || !as.all Option.isSome then bar4Denied vcHostAccess write off n 0 w
    else
      let as := as.filterMap id
      match as.findSome? (fencedDie w) with
      | some d => bar4Denied vcStaleUnit write off n (BitVec.ofNat 32 d) w
      | none =>
      if write && as.any (inSessTable w) then bar4Denied vcProtWrite write off n 0 w
      else keeperPays (2 ^ 41) (bar4Moves write as data) w) s

/-! ### Function Level Reset (R451) -/

/-- A command's threads, field queue and transfers are gone, and it ends FAILED with FLR (R406, R451). -/
def flrCommand (seq : Nat) (w : Mach) : Mach :=
  let w := showEnd seq erFlr 0 w
  let run' (r : Option XRun) : Option XRun := r.bind fun x => if x.entry.cmd = seq then none else some x
  let w := onHw (fun h => { h with movers := h.movers.map fun e =>
    (e.1, { e.2 with queue := e.2.queue.filter fun x => x.cmd != seq, run := run' e.2.run }) }) w
  onTwin (fun t => { t with held := t.held.filter fun h => h.ctx != .cmd seq }) w

/-- The counts of a function's rings return to 0, and responses of events taken before are dropped. -/
def flrRings (fn : Nat) (w : Mach) : Mach :=
  let w := iterate 32 (fun r w =>
    if cmdRingFn w r = fn then onM (fun m => { m with hifCtr := twrite {} m.hifCtr r {} }) (setCount r 0 (setCount (64 + r) 0 w))
    else w) w
  iterate 64 (fun r w =>
    if evRingFn w r = fn then
      let w := onM (fun m => { m with hifCtr := twrite {} m.hifCtr (32 + r) {} }) w
      let w := onH (fun h => { h with respDrop := tput h.respDrop r w.m.k.jseq }) w
      ([128, 192, 256, 320, 512] : List Nat).foldl (fun w k => setCount (k + r) 0 w) w
    else w) w

/-- FUNCTION_LEVEL_RESET (R451): the function's commands end FAILED with FLR, its rings, status words and notification
counters read zero; sessions and the journal stay. A reset of the PF returns HIF_CFG to its reset values. -/
def execFunctionLevelReset (fn : BitVec 5) (s : State) : Host.Outcome State Fault Refusal :=
  run (fun w =>
    let f := fn.toNat
    let mine := w.m.h.cmds.filter fun e => e.2.fn == f && !isOver w e.1
    let w := mine.foldl (fun w e => flrCommand e.1 w) w
    let w := flrRings f w
    let w := onH (fun h => { h with sw := h.sw.filter fun e => tread 0 h.swOwn (e.1 / 1024) != f }) w
    if f ≠ 0 then w
    else
      let w := onM (fun m => { m with hifCtr := twrite {} (twrite {} m.hifCtr 96 {}) 97 {}, ringFn := [] }) w
      onH (fun h => { h with swOwn := [], wins := [], routes := [],
                             funcs := h.funcs.map fun e => (e.1, { ats := e.2.ats }) }) w) s

end Sys2Proof.Machine
end

