-- ==== Sys2Proof/Machine/Security.lean ====
section
/-! DEFINITION. Identity, attestation and ownership over SPDM (R445, R474 to R481), and PLDM firmware transfers (R471 to
R473, R482). -/

namespace Sys2Proof.Machine
open Sys2Proof

/-! ### Answers (R479, R481, R485) -/

/-- A connection answers (R485, R489, R518): the DOE mailbox from the end of step 4 on with its link up, the management
endpoint while the keeper has power; neither in recovery. -/
def connAnswers (w : Mach) (c : Conn) : Bool :=
  !inRecovery w && (if c.doe then w.m.h.linkUp && !w.m.power.perst && configReady w else w.m.power.good)
  && (c.session == 0 || w.m.sec.secured.contains c)

/-- A request is answered: any signed message that a PQ_SIG could have followed is discarded (R481). -/
def answered (c : Conn) (st : ReqStatus) (bs : List Byte) (w : Mach) : Mach :=
  onSec (fun s => { s with pending := s.pending.filter fun e => e.1 != c, status := st, answer := bs }) w

/-- A request on a connection that answers. -/
def spdm (c : Conn) (f : Mach → Mach) (w : Mach) : Mach := if connAnswers w c then f w else w

/-- A signed response (R470, R479, R481): the Ed25519 signature, over the message that DSP0274 defines for it, which a
PQ_SIG may follow. -/
def signedAnswer (c : Conn) (bs : List Byte) (w : Mach) : Mach :=
  let (k, w) := drawFree w
  let msg := Config.spdmMessage k (ofBytes bs)
  let w := answered c .ok (bs ++ toBytes 64 (Config.sign 0 msg 0)) w
  onSec (fun s => { s with pending := s.pending ++ [(c, msg)] }) w

/-! ### Identity and certificates (R475, R479) -/

/-- The device identity (R475). -/
def deviceIdentity : List Byte := sha256 (toBytes 32 (Config.deviceKey 0) ++ toBytes 1952 (Config.deviceKey 1))

/-- The chain in a certificate slot (R475, R479). -/
def certChain (w : Mach) (slot : Nat) : List Byte :=
  match slot with
  | 0 => toBytes Config.chainLength Config.jarrunChain
  | 1 => w.m.sec.certSlot1
  | _ => []

/-- SPDM_REQUEST (R479, R481): a certificate, a key exchange, the end of a session, or anything else. -/
def execSpdmRequest (conn : Conn) (req : SpdmReq) (s : State) : Host.Outcome State Fault Refusal :=
  run (spdm conn fun w =>
    match req with
    | .getCertificate slot =>
      let bs := certChain w slot
      answered conn (if bs.isEmpty then .refused else .ok) bs w
    | .keyExchange n =>
      let c : Conn := { conn with session := n }
      if n = 0 ∨ w.m.sec.secured.contains c = true then answered conn .refused [] w
      else signedAnswer conn [] (onSec (fun s => { s with secured := s.secured ++ [c] }) (answered conn .ok [] w))
    | .endSession n => answered conn .ok [] (onSec (fun s => { s with secured := s.secured.filter (· != { conn with session := n }) }) w)
    | .other => answered conn .ok [] w) s

/-- CHALLENGE (R479): answered with a signed CHALLENGE_AUTH for a slot that holds a chain. -/
def execChallenge (conn : Conn) (slot : BitVec 4) (s : State) : Host.Outcome State Fault Refusal :=
  run (spdm conn fun w =>
    let chain := certChain w slot.toNat
    if chain.isEmpty then answered conn .refused [] w else signedAnswer conn (sha256 chain) w) s

/-- SET_CERTIFICATE (R479): slot 1 of an owned module takes a chain whose leaf certifies the device's Ed25519 key under the
owner's. -/
def execSetCertificate (conn : Conn) (slot : BitVec 4) (chain : List (BitVec 8)) (s : State) :
    Host.Outcome State Fault Refusal :=
  run (spdm conn fun w =>
    match w.m.sec.owned with
    | none => answered conn .refused [] w
    | some o =>
      if slot ≠ 1 ∨ Config.chainValid (Config.deviceKey 0) (ownerKeys o 0) (ofBytes chain) = false then
        answered conn .refused [] w
      else answered conn .ok [] (onSec (fun s => { s with certSlot1 := chain }) w)) s

/-! ### Measurements (R480) -/

/-- The digest of an image slot (R480): the factory image where nothing has been transferred to it (log 46). -/
def slotDigest (w : Mach) (typ slot : Nat) : List Byte :=
  match tget w.m.sec.fwSlots (typ * 2 + slot) with
  | some x => sha256 x.bytes
  | none => toBytes 32 (Config.factoryImage typ)

/-- The body of a signed record, zero bytes where there is none. -/
def recordBody (w : Mach) (kind : Nat) : List Byte := ((recordOf w kind).map fun r => r.body.flatMap (toBytes 4)).getD []

/-- One measurement block (R480). -/
def measurement (w : Mach) (i : Nat) : List Byte :=
  match i with
  | 1 => toBytes 32 Config.bootRom
  | 2 => slotDigest w 1 (tread 0 w.m.sec.fwRun 1)
  | 3 => slotDigest w 2 (tread 0 w.m.sec.fwRun 2)
  | 4 => if w.m.decTab.isEmpty then List.replicate 32 0 else sha256 w.m.sec.decOn
  | 5 => sha256 (recordBody w 2)
  | 6 => if w.m.sec.owned.isNone then List.replicate 32 0 else sha256 (recordBody w 3)
  | 7 => sha256 (geomRecord w)
  | 8 => sha256 (toBytes 4 (bootReg w) ++ toBytes 4 w.m.molt ++ toBytes 4 w.m.epoch)
  | _ => []

/-- MEASUREMENTS (R480, R481): one block, all of them for index 255, the number of blocks for index 0; signed on request. -/
def execMeasurements (conn : Conn) (index : BitVec 8) (signed : Bool) (s : State) : Host.Outcome State Fault Refusal :=
  run (spdm conn fun w =>
    let i := index.toNat
    if 8 < i ∧ i < 255 then answered conn .refused [] w
    else
      let bs := if i = 0 then [8] else if i = 255 then (List.range 8).flatMap fun k => measurement w (k + 1) else measurement w i
      let w := answered conn .ok bs w
      if signed then signedAnswer conn bs w else w) s

/-! ### Vendor-defined requests (R477, R481) -/

/-- PQ_CERT (R475, R481). -/
def execPqCert (conn : Conn) (s : State) : Host.Outcome State Fault Refusal :=
  run (spdm conn (answered conn .ok (toBytes 1952 (Config.deviceKey 1) ++ toBytes 3309 Config.pqCertificate))) s

/-- PQ_SIG (R481): the ML-DSA-65 half of the signed response that it directly follows. -/
def execPqSig (conn : Conn) (s : State) : Host.Outcome State Fault Refusal :=
  run (spdm conn fun w =>
    match w.m.sec.pending.find? fun e => e.1 == conn with
    | none => answered conn .noTranscript [] w
    | some (_, msg) =>
      let (k, w) := drawFree w
      answered conn .ok (toBytes 3309 (Config.sign 1 msg k)) w) s

/-- The owner record's GEN (R396, R477). -/
def ownerGen (w : Mach) : Nat := ((recordOf w 3).map (·.gen)).getD 0

/-- The current owner signed a request (R470, R477): the code, the new keys, the device identity, the record's GEN. -/
def ownerSigned (w : Mach) (o : List Nat) (code : Nat) (keys : List Byte) (ed ml : Nat) : Bool :=
  bothVerify (ownerKeys o) (toBytes 1 code ++ keys ++ deviceIdentity ++ toBytes 8 (ownerGen w)) ed ml

/-- A change of owner is written; it takes effect at the next boundary (R478). -/
def changeOwner (o : Option (List Nat)) (w : Mach) : Mach :=
  writeRecord 3 (o.getD []) (onSec (fun s => { s with ownerW := some o }) w)

/-- OWNER_ENROLL (R477): an unowned module takes it from the PF over a secured session on DOE, an owned one with both
signatures of its owner. -/
def execOwnerEnroll (conn : Conn) (keyEd : BitVec 256) (keyMl : BitVec 15616) (sigEd : BitVec 512)
    (sigMl : BitVec 26472) (s : State) : Host.Outcome State Fault Refusal :=
  run (spdm conn fun w =>
    let keys := toBytes 32 keyEd.toNat ++ toBytes 1952 keyMl.toNat
    let ok := match w.m.sec.owned with
      | none => conn.doe && conn.session != 0
      | some o => ownerSigned w o 0x10 keys sigEd.toNat sigMl.toNat
    if ok then answered conn .ok [] (changeOwner (some [keyEd.toNat, keyMl.toNat]) w) else answered conn .refused [] w) s

/-- OWNER_RELEASE (R477): an owned module takes it with both signatures of its owner. -/
def execOwnerRelease (conn : Conn) (sigEd : BitVec 512) (sigMl : BitVec 26472) (s : State) :
    Host.Outcome State Fault Refusal :=
  run (spdm conn fun w =>
    match w.m.sec.owned with
    | none => answered conn .refused [] w
    | some o =>
      if ownerSigned w o 0x11 [] sigEd.toNat sigMl.toNat then answered conn .ok [] (changeOwner none w)
      else answered conn .refused [] w) s

/-- At the boundary the new owner is in force (R478): the decode table is to be removed, certificate slot 1 is empty. -/
def ownerBoundary (w : Mach) : Mach :=
  match w.m.sec.ownerW with
  | none => w
  | some o => onSec (fun s => { s with
      owned := o, ownerW := none, certSlot1 := [],
      decNext := if w.m.decTab.isEmpty ∧ w.m.sec.decNext.isNone then none else some []
      decDone := [] }) w

/-- IDE_KM (R445): keys of the link stream, 0, or of a selective stream, 1 to 8, over the DOE mailbox. -/
def execIdeKm (stream : BitVec 4) (key : BitVec 256) (s : State) : Host.Outcome State Fault Refusal :=
  run (spdm ⟨true, 0⟩ fun w =>
    if 8 < stream.toNat then answered ⟨true, 0⟩ .refused [] w
    else answered ⟨true, 0⟩ .ok [] (onSec (fun s => { s with ideKeys := tput s.ideKeys stream.toNat key.toNat }) w)) s

/-! ### Images (R471 to R473, R482, R483) -/

/-- FAIL codes of start-up (R488). -/
def fwSig : Nat := 2
def fwFloor : Nat := 3
def fwFormat : Nat := 4

/-- The first failure of R472's checks on an image of a type, 0 for none. -/
def imageFault (w : Mach) (typ : Nat) (bs : List Byte) : Nat :=
  let len := imgNum bs 0x10 8
  let body := (bs.drop 0x100).take len
  if imgNum bs 0 4 ≠ 0x4D49584C ∨ imgNum bs 4 2 ≠ typ ∨ imgNum bs 6 1 ≠ 1 ∨ (if typ = 1 then 2 ^ 24 else 2 ^ 22) < len
      ∨ imgNum bs 0x40 0xC0 ≠ 0 ∨ bs.length < 0x100 + len + 64 + 3309 ∨ (bs.drop 0x20).take 32 ≠ sha256 body
      ∨ imgNum bs 8 4 < imgNum bs 0xC 4 then fwFormat
  else if !bothVerify Config.jarrunKey (bs.take (0x100 + len)) (imgNum bs (0x100 + len) 64) (imgNum bs (0x140 + len) 3309) then fwSig
  else if imgNum bs 8 4 < floorOf w typ then fwFloor
  else 0

/-- The failure of an image slot, 0 for none: a slot to which nothing was transferred holds the image of manufacture in
slot 0 and none in slot 1 (log 46). -/
def slotFault (w : Mach) (typ slot : Nat) : Nat :=
  match tget w.m.sec.fwSlots (typ * 2 + slot) with
  | some x => imageFault w typ x.bytes
  | none => if slot ≠ 0 then fwFormat else if Config.factorySvn typ < floorOf w typ then fwFloor else 0

/-- The management endpoint takes an update of a component (R482, R489): in recovery of the firmware only. -/
def pldmTakes (w : Mach) (comp : Nat) : Bool :=
  w.m.power.good && (comp == 1 || comp == 2 && !inRecovery w)
  && (match w.m.sec.pldm with | some (c, _) => c == comp | none => true)

/-- FIRMWARE_TRANSFER (R482): data of one update go to the slot that is not running, which is then not marked. -/
def execFirmwareTransfer (comp : BitVec 16) (off : Nat) (data : List (BitVec 8)) (s : State) :
    Host.Outcome State Fault Refusal :=
  run (fun w =>
    let t := comp.toNat
    let refused := onSec fun s => { s with status := .refused }
    let slot := 1 - tread 0 w.m.sec.fwRun t
    let old := match w.m.sec.pldm with | some _ => (tread {} w.m.sec.fwSlots (t * 2 + slot)).bytes | none => []
    if !pldmTakes w t || decide (4096 < data.length) || off != old.length then refused w
    else onSec (fun s => { s with
      status := .ok, pldm := some (t, slot), fwSlots := tput s.fwSlots (t * 2 + slot) { bytes := old ++ data },
      fwPref := if tread 0 s.fwPref t = slot then twrite 0 s.fwPref t (1 - slot) else s.fwPref }) w) s

/-- VERIFY_COMPLETE (R472, R482): the transferred image is checked; one that fails ends the update with its slot unmarked. -/
def execVerifyComplete (comp : BitVec 16) (s : State) : Host.Outcome State Fault Refusal :=
  run (fun w =>
    match w.m.sec.pldm with
    | none => onSec (fun s => { s with status := .refused }) w
    | some (t, slot) =>
      if t ≠ comp.toNat then onSec (fun s => { s with status := .refused }) w
      else
        let x := tread {} w.m.sec.fwSlots (t * 2 + slot)
        if imageFault w t x.bytes = 0 then
          onSec (fun s => { s with status := .ok, fwSlots := tput s.fwSlots (t * 2 + slot) { x with verified := true } }) w
        else onSec (fun s => { s with status := .refused, pldm := none }) w) s

end Sys2Proof.Machine
end

