-- ==== Sys2Proof/Machine/Startup.lean ====
section
/-! DEFINITION. Power, start-up, restart (R15, R24, R385 to R391, R469 to R476, R483 to R489, R511 to R521). -/

namespace Sys2Proof.Machine
open Sys2Proof

/-! ### What power takes away and what the store keeps (R7, R385, R386, R509) -/

/-- What outlives the module's power: the keeping store, the service records, the identity, the pairing generation, the
pins (log 2, 45). A molt that power ends has failed (R411). -/
def keepOnly (m : Module) : Module :=
  let unit (u : UnitRec) : UnitRec := if u.state = .molting then { u with state := .pupa } else u
  { epoch := m.epoch, molt := m.molt, units := m.units.map fun e => (e.1, unit e.2),
    nmPlainW := m.nmPlainW, loose := m.loose, free := m.free,
    k := { m.k with jAlert := false, jLastSeq := m.k.jLastSeq, snapQ := [], lastFull := 0, lastInc := 0,
                    trc := [], ktrc := [], ktrcHead := 0, ktrcLast := 0 },
    s := { sessRegs := m.s.sessRegs, past := m.s.past },
    hw := { failed := m.hw.failed, spares := m.hw.spares, geomChg := m.hw.geomChg, wentPupa := m.hw.wentPupa },
    sec := { owned := m.sec.owned, fwSlots := m.sec.fwSlots, fwPref := m.sec.fwPref, floors := m.sec.floors,
             certSlot1 := m.sec.certSlot1, decKept := m.sec.decKept },
    twin := { pairgen := m.twin.pairgen, lagmax := m.twin.lagmax, cmdHigh := m.twin.cmdHigh, jLocal := m.twin.jLocal,
              cmdLocal := m.twin.cmdLocal, applied := m.twin.applied, peerRecs := m.twin.peerRecs, recSent := m.twin.recSent },
    power := { m.power with shut := m.power.shut.map fun e => (e.1, 0) } }

/-- The power-cut save (R385, R386): intake has stopped; the twin hears CUT, every staged record is committed, and status
memory goes into the slot that does not hold the newest image. -/
def savePower (w : Mach) : Mach :=
  let w := if paired w then sendFrame 0 0 1 w else w
  let m := w.m
  let img : SaveImg :=
    { tick := m.tick, epoch := m.epoch, h := m.h, vlog := m.vlog, violNext := m.violNext, elog := m.elog,
      errNext := m.errNext, ktrc := m.k.ktrc, ktrcHead := m.k.ktrcHead, ktrcLast := m.k.ktrcLast,
      sessions := m.s.sessions, role := m.twin.role, mode := m.twin.mode }
  let slot := match m.k.saveNew with | some 0 => 1 | _ => 0
  let w := (m.k.journal.filter fun e => !e.2.committed).foldl (fun w e => putRecord e.1 { e.2 with committed := true } w) w
  checkTally .journal (onK (fun k => { k with saves := tput k.saves slot img, saveNew := some slot }) w)

/-- A molt that power ends has failed (R411, R417). -/
def endMolts (w : Mach) : Mach :=
  (w.m.units.filter fun e => e.2.state == .molting).foldl (fun w e => putState e.1 .pupa w) w

/-- The module turns off (R485, R512, R516): saved if intake had resumed; everything volatile is gone. -/
def turnOff (w : Mach) : Mach :=
  if !w.m.power.good then onPower (fun p => { p with off := true }) w
  else
    let w := endMolts w
    let w := if w.m.sec.intake then savePower w else w
    let w := wipe 0 (2 ^ 48) w
    onPower (fun p => { p with good := false, holdOk := false, off := true, halved := false, halvedW := false, hot := 0, window := none })
      (onM keepOnly w)

/-! ### Pins and input (R511, R512, R515 to R517) -/

/-- The SMBus static address (R518). -/
def smbusAddress (w : Mach) : Nat := 0x60 + w.m.power.straps.toNat

/-- The I3C provisional ID (R518). -/
def i3cId (w : Mach) : Nat := bits w.m.sec.deviceId.toNat 0 48

/-- The rated input (R511). -/
def inputRated (mv : Nat) : Bool := decide (42000 ≤ mv ∧ mv ≤ 58000)

/-- PWR_EN_ASSERT (R515). -/
def execPwrEnAssert (s : State) : Host.Outcome State Fault Refusal := runAny (onPower fun p => { p with en := true }) s

/-- PWR_EN_DEASSERT (R516): an orderly power-off. -/
def execPwrEnDeassert (s : State) : Host.Outcome State Fault Refusal :=
  runAny (fun w => turnOff (onPower (fun p => { p with en := false }) w)) s

/-- POWER_CUT (R385, R386, R512): input below 40 V for 1 µs. -/
def execPowerCut (mv : Nat) (s : State) : Host.Outcome State Fault Refusal :=
  runAny (fun w => if 40000 ≤ mv then w else turnOff (onPower (fun p => { p with inputMv := mv }) w)) s

/-- OVERVOLTAGE (R512): input above 60 V for 1 µs, or above 80 V at any moment, is isolated and ends as a cut does. -/
def execOvervoltage (mv : Nat) (long : Bool) (s : State) : Host.Outcome State Fault Refusal :=
  runAny (fun w =>
    if mv ≤ 60000 ∨ (long = false ∧ mv ≤ 80000) then w
    else turnOff (onPower (fun p => { p with inputMv := mv, isolated := true }) w)) s

/-- INPUT_RETURN (R512): input has stayed within 42 to 58 V for 100 ms with PWR_EN asserted: the power stage may start the
module again. -/
def execInputReturn (mv : Nat) (s : State) : Host.Outcome State Fault Refusal :=
  runAny (fun w =>
    if inputRated mv && w.m.power.en then onPower (fun p => { p with inputMv := mv, isolated := false }) w else w) s

/-- The thresholds that a reading of a sensor is beyond (R519), warning and critical: 1 millivolts, 2 watts, 3 to 7 tenths
of a degree, 8 hundredths of a litre a minute, 9 joules; sensor 7 has none, and what is critical of the input power is four
windows, not one (R514). -/
def sensorLevel (id v : Nat) : Nat :=
  match id with
  | 1 => b2n (!inputRated v) + b2n (decide (v < 40000 ∨ 60000 < v))
  | 2 => b2n (decide (2000 < v))
  | 3 => b2n (decide (1000 < v)) + b2n (decide (1150 ≤ v))
  | 4 => b2n (decide (1000 < v)) + b2n (decide (1150 ≤ v))
  | 5 => b2n (decide (950 < v)) + b2n (decide (1100 < v))
  | 6 => b2n (decide (450 < v)) + b2n (decide (500 < v))
  | 8 => b2n (decide (v < 150)) + b2n (decide (v < 100))
  | 9 => b2n (decide (v < 60)) + b2n (decide (v < 45))
  | _ => 0

/-- A sensor has a value: a reading that is beyond a further threshold sends an event, and while it is beyond one, ALERT#
is asserted (R519; log 122). -/
def sense (id v : Nat) (w : Mach) : Mach :=
  let was := if w.m.power.beyond.contains id then max 1 (sensorLevel id (tread 0 w.m.power.sensors id)) else 0
  let now := sensorLevel id v
  onPower (fun p =>
    let beyond := if now = 0 then p.beyond.filter (· != id) else if was = 0 then p.beyond ++ [id] else p.beyond
    let shut := p.shut.map fun e => (e.1, if (dieSensors e.1).any (p.beyond ++ beyond).contains then w.m.tick else e.2)
    { p with sensors := tput p.sensors id v, beyond := beyond, shut := shut, events := p.events + b2n (was < now) }) w

/-- ALERT# is asserted (R517). -/
def alertPin (w : Mach) : Bool :=
  ackOut (tread {} w.m.hifCtr 96) != 0 || ackOut (tread {} w.m.hifCtr 97) != 0 || !w.m.power.beyond.isEmpty

/-- SENSOR_UPDATE (R519). -/
def execSensorUpdate (id : BitVec 4) (value : Nat) (s : State) : Host.Outcome State Fault Refusal :=
  run (fun w => if 1 ≤ id.toNat ∧ id.toNat ≤ 9 then sense id.toNat value w else w) s

/-- INPUT_TRANSIENT (R512, R519): above 60 V for less than 1 µs and 80 V at most: absorbed, its peak recorded. -/
def execInputTransient (peak : Nat) (s : State) : Host.Outcome State Fault Refusal :=
  run (fun w => if 60000 < peak ∧ peak ≤ 80000 then sense 1 peak w else w) s

/-- A die is shut down by heat (R521). -/
def shutDie (d : Nat) (w : Mach) : Mach :=
  onPower (fun p => { p with shut := tput p.shut d w.m.tick }) (failDie d w)

/-- THERMAL_SHUTDOWN (R521): a junction at 115 °C for 1 ms. -/
def execThermalShutdown (die : BitVec 1) (s : State) : Host.Outcome State Fault Refusal := run (shutDie die.toNat) s

/-- COOLANT_SHUTDOWN (R521): a hot inlet or a low flow for 1 s takes both dies. -/
def execCoolantShutdown (s : State) : Host.Outcome State Fault Refusal := run (fun w => shutDie 1 (shutDie 0 w)) s

/-! ### The hold-up bank (R387, R515, R517) -/

/-- The keeper measures the bank (R387): HOLD_OK from 45 J on, an alert below 60 J. -/
def measureBank (joules : Nat) (w : Mach) : Mach :=
  let w := onPower (fun p => { p with joules := joules, holdOk := decide (45 ≤ joules) }) w
  let w := sense 9 joules w
  if joules < 60 then alert alHoldupLow 0 joules w else w

/-- HOLDUP_MEASURE (R387). -/
def execHoldupMeasure (joules : BitVec 8) (s : State) : Host.Outcome State Fault Refusal :=
  run (fun w => if w.m.power.good then measureBank joules.toNat w else w) s

/-- HOLD_OK (R515, R517): the bank reaches 45 J. -/
def execHoldOk (s : State) : Host.Outcome State Fault Refusal :=
  run (fun w =>
    if w.m.power.good then sense 9 (max w.m.power.joules 45) (onPower (fun p => { p with holdOk := true, joules := max p.joules 45 }) w)
    else w) s

/-! ### Restart (R388 to R391) -/

/-- A command other than a session command that had not ended at the cut ends FAILED (R390); NCMD counts it when IRQ is set
(R466). -/
def failAtCut (w : Mach) : Mach :=
  w.m.h.cmds.foldl (fun w e =>
    if ([0x08, 0x09, 0x0A] : List Nat).contains (opcodeOf e.2) || wordOver w e.1 then w
    else
      let w := updWord e.1 (fun s => { s with state := 5, error := erPowerCut, progress := 0 }) w
      if cmdBits e.2 0 8 1 = 1 then notify e.2.ring w else w) w

/-- Status memory and the logs come back, and the partial segment is padded (R378, R388, R509). -/
def restoreStatus (w : Mach) : Mach :=
  let w := match w.m.k.saveNew.bind (tget w.m.k.saves) with
    | none => w
    | some i => onM (fun m => { m with
        h := { m.h with sw := i.h.sw, cmdSlots := i.h.cmdSlots, evSlots := i.h.evSlots, respSlots := i.h.respSlots,
                        msgSlots := i.h.msgSlots, counts := i.h.counts, cmds := i.h.cmds, cmdNext := i.h.cmdNext,
                        responded := i.h.responded, respBase := i.h.respBase, plans := i.h.plans }
        vlog := i.vlog, violNext := i.violNext, elog := i.elog, errNext := i.errNext
        k := { m.k with ktrc := i.ktrc, ktrcHead := i.ktrcHead, ktrcLast := i.ktrcLast } }) w
  let j := w.m.k.jseq
  if j % segmentRecords = 0 then w
  else
    let pad : JRec := { committed := true, tick := w.m.tick, epoch := w.m.epoch }
    (List.range (segmentRecords - j % segmentRecords)).foldl (fun w _ =>
      onK (fun k => { k with jseq := k.jseq + 1 }) (putRecord w.m.k.jseq pad w)) w

/-- Cells come back to device memory. -/
def putCells (cs : List Host.Cell) (w : Mach) : Mach :=
  cs.foldl (fun w c => if isDevice w c.1 then putByte c.1 c.2 w else w) w

/-- Bytes come back to pieces of device memory; what a piece of host memory held is passed over. -/
def putDevice (ps : List (Nat × Nat)) (bs : List Byte) (w : Mach) : Mach :=
  match ps with
  | [] => w
  | p :: r => putDevice r (bs.drop p.2) (if isDevice w p.1 then storeBytes none p.1 (bs.take p.2) w else w)

/-- A serving plan's image comes back to where it lay (R388). -/
def putImage (c : ImageCopy) (w : Mach) : Mach := c.parts.foldl (fun w x => putDevice x.1 x.2 w) w

/-- A snapshot comes back (R388): its units, each from its newest copy, the SESS registers, the sessions, and of their queues
what was queued at its cut. -/
def restoreSnapshot (sn : Snap) (w : Mach) : Mach :=
  let w := (newestUnits w sn.num).foldl (fun w e => putCells e.2 w) w
  let w := onS (fun s => { s with invNext := sn.invNext, sessRegs := sn.regs }) w
  sn.sessions.foldl (fun w e =>
    let x := e.2
    let q := (x.queue.filter fun q => sn.queued.contains q.jseq).map fun q => { q with given := false }
    let st := if x.state = 4 ∨ x.state = 5 then x.state else if q.isEmpty then 1 else 2
    updSess e.1 (fun _ => { x with queue := q, state := st, taken := x.step + q.length }) w) w

/-- A session that a command opened after the cut is what it was at its first step, in its block (R388; log 28). -/
def reopen (sid : Nat) (img : Option SaveImg) (w : Mach) : Mach :=
  match tget (tread [] w.m.s.past sid) 0 with
  | none => w
  | some p =>
    let blk := (img.map fun i => (tread {} i.sessions sid).block).getD []
    let x := sessionOf p.desc
    updSess sid (fun _ => { x with state := 1, step := 0, queue := [], block := blk }) (fillPieces blk p.block w)

/-- One journal record after the cut: an event is queued again, a session command that had its effect applies again (R388,
R389). -/
def replayRecord (img : Option SaveImg) (j : Nat) (r : JRec) (w : Mach) : Mach :=
  match r.typ with
  | 1 =>
    let sid := bits r.body 0 20
    let s := sessOf w sid
    if s.state = 0 ∨ s.state = 5 ∨ (s.queue.any fun q => q.jseq == j) = true then w
    else queueEvent sid { ring := r.ring, jseq := j, tick := r.tick, src := r.src, sq := r.sq, epoch := r.epoch, body := r.body } w
  | 2 =>
    match w.m.h.cmds.find? fun e => e.2.jseq == j with
    | none => w
    | some (seq, c) =>
      if !c.ok then w
      else if opcodeOf c = 0x08 then reopen (cmdBits c 0x10 0 20) img w
      else if opcodeOf c = 0x09 ∨ opcodeOf c = 0x0A then onS (fun s => { s with redo := s.redo ++ [(seq, c)] }) w
      else w
  | _ => w

/-- The records of a gap are lost: the sessions whose events lie in it stay PARKED (R391). -/
def loseRecords (lost : List Nat) (w : Mach) : Mach :=
  let sids := (w.m.k.journal.filterMap fun e =>
    if lost.contains e.1 ∧ e.2.typ = 1 then some (bits e.2.body 0 20) else none).eraseDups
  let gone := (w.m.k.journal.filter fun e => lost.contains e.1 && decide (w.m.k.jDrained ≤ e.1 ∧ e.1 < 2 ^ 62)).length
  let w := onK (fun k => { k with journal := k.journal.filter fun e => !lost.contains e.1, jGone := k.jGone + gone }) w
  if lost.isEmpty then w
  else alert alKeepLost 0 0 (sids.foldl (fun w sid =>
    if (sessOf w sid).state = 0 ∨ (sessOf w sid).state = 5 then w
    else takeOut sid (updSess sid (fun s => { s with state := 4, parkwhy := 3 }) w)) w)

/-- The snapshot that is restored (R388, R391): the newest; where a granule of what it reads is lost on both modules, the
newest full one that is whole. -/
def snapToRestore (w : Mach) (bad : List Nat) : Option Snap :=
  match w.m.k.snaps.getLast? with
  | none => none
  | some x =>
    if (restoreSet w x.num).any fun s => bad.contains s.num then
      (w.m.k.snaps.filter fun s => s.full && !bad.contains s.num).getLast?
    else some x

/-- What a restart replays is batched by its original periods, with DET in force and under class 0 (R388). -/
def formReplay (w : Mach) : Mach := asReplay w.m.s.invs (formOriginal (fun _ => true) w.m.tick w)

/-- The serving plans that a session not FREE names start again under their own seeds and intake ticks, with their images in
place; a plan compiled for another geometry is compiled for the present one (R123, R388). Every other plan is over. -/
def restartPlans (w : Mach) : Mach :=
  let named := ((w.m.s.sessions.filter fun e => e.2.state != 0).map fun e => e.2.plan).eraseDups
  let keep := named.filter fun p => (planOf w p).serve && isRunning w p
  let w := failAtCut w
  let geom := geomDigest w
  let again (p : Plan) : Plan := { p with
    bound := false, aborted := false, ended := false, restarted := true, geom := geom, ck := 0, attempts := 0,
    granule := none, seen := [], stall := 0 }
  let finished (p : Plan) : Plan := { p with bound := false, aborted := false, ended := true }
  let w := onH (fun h => { h with plans := h.plans.map fun e => (e.1, if keep.contains e.1 then again e.2 else finished e.2) }) w
  keep.foldl (fun w p =>
    let w := match tget w.m.k.images (planOf w p).imgKey with | some c => putImage c w | none => w
    updCmd p (fun c => { c with stage := 1 }) w) w

/-- Kept state is restored (R388 to R391, step 9 of R484). -/
def restoreKept (lost bad : List Nat) (w : Mach) : Mach :=
  let w := restoreStatus w
  let img := w.m.k.saveNew.bind (tget w.m.k.saves)
  let sn := snapToRestore w bad
  let w := match sn with | some x => restoreSnapshot x w | none => w
  let cut := (sn.map (·.jcut)).getD 0
  let held := (sn.map (·.waiting)).getD []
  let w := held.foldl (fun w j => replayRecord img j { typ := 2 } w) w
  let rest := w.m.k.journal.filter fun e => decide (cut ≤ e.1 ∧ e.1 < 2 ^ 62) && !lost.contains e.1
  let w := rest.foldl (fun w e => replayRecord img e.1 e.2 w) w
  let w := restartPlans (loseRecords lost w)
  let w := iterate 64 (fun r w =>
    setCount (512 + r) ((w.m.s.sessions.map fun e => e.2.queue.countP fun q => q.ring == r).sum) w) w
  checkAll (rehomeAll true (formReplay w)).1

/-! ### Start-up (R469 to R476, R483 to R489) -/

/-- The step in progress. -/
def atPhase (n : Nat) (w : Mach) : Mach := onSec (fun s => { s with bootPhase := n }) w

/-- Start-up stops with a code (R488). -/
def bootStop (code : Nat) (w : Mach) : Mach := onSec (fun s => { s with bootFail := code }) w

/-- Class 0's fixed grants (R38). -/
def classZero : Grant :=
  { amounts := [(0, 4096), (1, 1024), (2, 16384), (3, 4096), (4, 16384), (5, 16384), (6, 393216), (7, 393216), (8, 512), (9, 128)] }

/-- The keeper writes XLBASE and ASID of each thread that it releases (R277; log 115). -/
def releaseThreads (w : Mach) : Mach :=
  (((List.range 256).filter fun k => inService w (unitVp (k / 8))).map tidOf).foldl (fun w t =>
    updThr t (fun th => { th with xlbase := Config.threadRoot (tkey t), asid := Config.threadAsid (tkey t) }) w) w

/-- Step 10 (R438, R487): a module that was paired at its last save resumes its role and mode with the twin silent until
cicadas come; any other is ready, and one that was fenced is so no longer. -/
def resumePair (w : Mach) : Mach :=
  let w := atPhase 10 w
  match w.m.k.saveNew.bind (tget w.m.k.saves) with
  | none => reachReady w
  | some i =>
    if i.role = 0 ∨ i.role = 3 then reachReady w
    else
      let w := onTwin (fun t => { t with role := i.role, mode := i.mode, silent := true, resume := true, detSaved := w.m.det }) w
      if i.mode = 1 then onM (fun m => { m with det := true }) w else w

/-- A failed bank is replaced by a spare; a die out of spares goes to PUPA (R417, step 7 of R484). -/
def bootBank (u : Nat) (w : Mach) : Mach :=
  if !(decide (u / 0x1000 = 4) && isUnit u) then w
  else
    let t := u % 0x1000 / 64
    let b := servedBank w t (u % 64)
    let w := pupate u w
    match b, freeSpare w t with
    | some b, some n => onHw (fun h => { h with spares := tput h.spares (t * 64 + b) n }) w
    | some _, none => failDie (dieOfUnit u) w
    | none, _ => w

/-- Steps 6 to 11 (R484). -/
def bootRest (tests : BootTests) (w : Mach) : Mach :=
  let w := tests.channels.foldl (fun w c => if c < 512 then pupate (0x5000 + c) w else w) (atPhase 6 w)
  let w := onHw (fun h => { h with channels :=
    ((List.range 512).filter fun c => !tests.channels.contains c).map fun c => (c, { trained := true }) }) w
  let w := tests.banks.foldl (fun w u => bootBank u w) (atPhase 7 w)
  let w := (List.range 2).foldl (fun w d => if tests.dies.getLsbD d then failDie d w else w) (atPhase 8 w)
  let w := writeRepair w
  if tests.dies = 3 then bootStop 6 w
  else
    let w := onM (fun m => { m with nmPlain := m.nmPlainW, staging := tput m.staging 0 classZero, active := tput m.active 0 classZero }) w
    let w := restoreKept tests.lost tests.snaps (atPhase 9 (releaseThreads w))
    resumePair (onSec (fun s => { s with intake := true }) w)

/-- The records that start-up finds no valid copy of are gone (R395). -/
def dropRecords (tests : BootTests) (w : Mach) : Mach :=
  let lost := (if tests.repair then [] else [0]) ++ (if tests.floor then [] else [2]) ++ if tests.owner then [] else [3]
  onK (fun k => { k with recs := k.recs.filter fun r => !lost.contains r.kind }) w

/-- The records are in force (R395, R396): the owner's keys and the floors; without a floor record start-up waits. -/
def useRecords (tests : BootTests) (w : Mach) : Mach :=
  let w := onSec (fun s => { s with owned := (recordOf w 3).bind fun r => if r.body.isEmpty then none else some r.body }) w
  if tests.floor = false ∧ (recordOf w 2).isNone = true then bootStop 5 (onSec (fun s => { s with waiting := some tests }) w)
  else
    let w := match recordOf w 2 with
      | some r => onSec (fun s => { s with floors := (List.range 3).foldl (fun t i => twrite 0 t (1 + i) (r.body.getD i 0)) [] }) w
      | none => w
    bootRest tests w

/-- Step 5 (R395, R396, R486): the records; a lost repair record is rebuilt, a module whose owner record is lost is unowned. -/
def bootRecords (tests : BootTests) (w : Mach) : Mach :=
  let w := dropRecords tests (atPhase 5 w)
  useRecords tests (if tests.repair then w else writeRepair w)

/-- The slot that runs an image of a type (R483): the preferred one, or the other; none where both fail. -/
def bootSlot (w : Mach) (typ : Nat) : Option Nat :=
  let p := tread 0 w.m.sec.fwPref typ
  if slotFault w typ p = 0 then some p else if slotFault w typ (1 - p) = 0 then some (1 - p) else none

/-- Steps 2 to 4 (R474, R476, R483, R484, R489): identity and epoch, then the images; where no image of a type passes, the
module is in recovery. -/
def bootStart (tests : BootTests) (w : Mach) : Mach :=
  let w := onM (fun m => { m with tick := 0 }) (onSec (fun s => { s with bootBits := 0, bootFail := 0, waiting := none }) (atPhase 3 w))
  if !tests.mram then bootStop 7 w
  else if !tests.puf then bootStop 1 w
  else
    let w := onM (fun m => { m with epoch := (m.epoch + 1) % 2 ^ 32 }) w
    let w := atPhase 4 (onSec (fun s => { s with deviceId := BitVec.ofNat 64 (ofBytes (deviceIdentity.take 8)) }) w)
    match bootSlot w 1, bootSlot w 2 with
    | some a, some b =>
      let back := a != tread 0 w.m.sec.fwPref 1 || b != tread 0 w.m.sec.fwPref 2
      let w := onSec (fun s => { s with fwRun := twrite 0 (twrite 0 [] 1 a) 2 b, bootBits := 4 * b2n back }) w
      let dec := w.m.sec.decKept
      let w := if !dec.isEmpty && imageError w dec == 0 then
          onSec (fun s => { s with decOn := dec }) (onM (fun m => { m with decTab := [(0, imageTable dec), (1, imageTable dec)] }) w)
        else onSec (fun s => { s with decKept := [] }) w
      bootRecords tests w
    | a, _ =>
      let t := if a.isNone then 1 else 2
      bootStop (slotFault w t (tread 0 w.m.sec.fwPref t)) (onSec (fun s => { s with bootBits := 1, waiting := some tests }) w)

/-- PWR_GOOD (R24, R387, R484, R515): with PWR_EN asserted and input in range the keeper leaves reset and start-up runs. -/
def execPwrGood (tests : BootTests) (s : State) : Host.Outcome State Fault Refusal :=
  runAny (fun w =>
    let p := w.m.power
    if !p.en || p.good || p.isolated || !inputRated p.inputMv then w
    else
      let w := onPower (fun p => { p with good := true, off := false }) (onM keepOnly w)
      bootStart tests (measureBank tests.joules w)) s

/-! ### Records and images that let start-up go on (R391, R486, R489) -/

/-- A signed record's signatures verify with the module's own keys (R396, R470). -/
def recordValid (kind gen epoch wtick : Nat) (body : List Nat) (ed ml : Nat) : Bool :=
  bothVerify Config.deviceKey (recordMessage kind gen epoch wtick body) ed ml

/-- A start-up that waits takes a valid copy of a record: one with a GEN no higher than that of the copy at hand never
replaces it (R396); with a floor record it goes on (R486). -/
def supplyRecord (r : SignedRec) (w : Mach) : Mach :=
  match w.m.sec.waiting with
  | none => w
  | some tests =>
    if 3 < r.kind ∨ inRecovery w = true ∨ r.gen ≤ ((recordOf w r.kind).map (·.gen)).getD 0 then w
    else
      let w := putRecordOf r w
      if r.kind ≠ 2 then w
      else useRecords tests (onSec (fun s => { s with waiting := none, bootFail := 0 }) w)

/-- RECORD_SUPPLY (R396, R481, R486): a signed record from the host, for a start-up that waits. -/
def execRecordSupply (conn : Conn) (kind : BitVec 8) (gen : BitVec 64) (epoch : BitVec 32) (wtick : BitVec 64)
    (body : List Nat) (sigEd : BitVec 512) (sigMl : BitVec 26472) (s : State) : Host.Outcome State Fault Refusal :=
  run (spdm conn fun w =>
    let ok := recordValid kind.toNat gen.toNat epoch.toNat wtick.toNat body sigEd.toNat sigMl.toNat
    if !ok || w.m.sec.waiting.isNone || decide (3 < kind.toNat) then answered conn .refused [] w
    else supplyRecord ⟨kind.toNat, gen.toNat, epoch.toNat, wtick.toNat, body, sigEd.toNat, sigMl.toNat⟩ (answered conn .ok [] w)) s

/-- ACTIVATE_FIRMWARE (R482, R489): the verified slot is preferred at the next start-up, which in recovery is now. -/
def execActivateFirmware (comp : BitVec 16) (s : State) : Host.Outcome State Fault Refusal :=
  run (fun w =>
    let refused := onSec fun s => { s with status := .refused }
    match w.m.sec.pldm with
    | none => refused w
    | some (t, slot) =>
      if t ≠ comp.toNat ∨ (tread {} w.m.sec.fwSlots (t * 2 + slot)).verified = false then refused w
      else
        let w := onSec (fun s => { s with status := .ok, pldm := none, fwPref := twrite 0 s.fwPref t slot }) w
        match w.m.sec.waiting with
        | some tests => if inRecovery w then bootStart tests w else w
        | none => w) s

/-- A unit of the newest snapshot that holds a copy of it gets the twin's bytes (R391). -/
def mendUnit (u addr : Nat) (bs : List Byte) (ss : List Snap) : List Snap :=
  match (ss.filter fun s => (tget s.units u).isSome).getLast? with
  | none => ss
  | some x =>
    let mend (t : Table Byte) : Table Byte :=
      (List.range bs.length).foldl (fun t i => if (addr + i) / 4096 = u then twrite 0 t (addr + i) (bs.getD i 0) else t) t
    ss.map fun s => if s.num = x.num then { s with units := tput s.units u (mend (tread [] s.units u)) } else s

/-- FETCH_DATA (R391, R410, R427, R436, R444, R486): what this module asked for. A session's descriptor and block replace its
own, and it resumes; a unit mends its copy in a snapshot, and records fill a gap of the journal; a start-up that waits takes
the records. -/
def execFetchData (len : BitVec 4) (part : FetchPart) (s : State) : Host.Outcome State Fault Refusal :=
  run (frame 0x22 0 len.toNat (fun w => paired w || w.m.sec.waiting.isSome) fun w =>
    match part with
    | .unit addr bs => onK (fun k => { k with snaps := mendUnit (addr / 4096) addr bs k.snaps }) w
    | .segment recs => recs.foldl (fun w e =>
        let (j, r) := readRecord w e.1 e.2
        if r.typ = 0 ∨ (tget w.m.k.journal j).isSome = true then w
        else onK (fun k => { k with jseq := max k.jseq (j + 1) }) (putRecord j r w)) w
    | .record kind gen epoch wtick body ed ml =>
      if recordValid kind gen epoch wtick body ed ml then supplyRecord ⟨kind, gen, epoch, wtick, body, ed, ml⟩ w else w
    | .session sid desc block =>
      let k := sid.toNat
      if !w.m.twin.fetch.contains k && !w.m.s.regen.contains k then w
      else
        let w := if blockHome w k then w else settleRelos (rehomeBlock true k w).1
        if !blockHome w k then w
        else
          let old := sessOf w k
          let x := sessionOf desc.toNat
          let st := if old.state = 5 then 5 else if old.queue.isEmpty then 1 else 2
          let w := updSess k (fun _ => { x with queue := old.queue, block := old.block, state := st, parkwhy := 0, taken := x.step + old.queue.length }) w
          let w := fillPieces old.block block w
          let w := onTwin (fun t => { t with fetch := t.fetch.filter (· != k) }) w
          notePast k 0 (onS (fun s => { s with regen := s.regen.filter (· != k) }) w)) s

end Sys2Proof.Machine
end

