-- ==== Sys2Proof/Machine/Boundary.lean ====
section
/-! DEFINITION. Budgets and the period boundary (R23, R26, R34 to R48, R513, R514). -/

namespace Sys2Proof.Machine
open Sys2Proof

/-! ### Gates (R39, R41, R42) -/

/-- The resource of a row number. -/
def resOf (n : Nat) : Option Res := allRes[n]?

/-- The requests at the head of their classes' lines at a gate, in the order of arrival (R42). -/
def heads (w : Mach) (r : Res) (inst : Nat) : List GateReq :=
  (List.range 64).filterMap fun c => w.m.gateQ.find? fun q => q.res == r && q.inst == inst && q.cls == c

/-- The class at which a gate's round stands (R41): past the class it served last, or the period's first. -/
def roundStart (w : Mach) (r : Res) (inst : Nat) : Nat :=
  match tget w.m.turns (resNum r * 64 + inst) with
  | some c => c + 1
  | none => w.m.tick / 4096

/-- The request that a gate admits next (R39, R41): of a class with a positive balance before any from surplus, and
surplus in the round of classes; of several with a positive balance, the lowest-numbered (log 89). -/
def gateChoice (w : Mach) (r : Res) (inst : Nat) : Option GateReq :=
  let hs := (heads w r inst).filter (admissible w)
  let start := roundStart w r inst
  hs.find? (positive w) <|>
    (List.range 64).findSome? fun i => hs.find? fun q => q.cls == (start + i) % 64

/-- Take a request from its line. -/
def leaveGate (q : GateReq) (w : Mach) : Mach := onM (fun m => { m with gateQ := m.gateQ.erase q }) w

/-- GATE_ADMISSION (R39, R41 to R44): a gate admits a waiting request and charges it. -/
def execGateAdmission (res : BitVec 4) (inst : BitVec 6) (s : State) : Host.Outcome State Fault Refusal :=
  run (fun w =>
    match resOf res.toNat with
    | none => w
    | some r =>
      match gateChoice w r inst.toNat with
      | none => w
      | some q =>
        let surplus := !positive w q
        let w := noteWait q.who (· - 1) (admitGate (askerTag w q.cls q.who) q (leaveGate q w))
        if surplus then onM (fun m => { m with turns := tput m.turns (resNum r * 64 + inst.toNat) q.cls }) w else w) s

/-! ### BUDGET_SET (R37, R38) -/

/-- The grants of all classes for one resource. -/
def grantSum (t : Table Grant) (r : Res) : Nat :=
  ((List.range 64).map fun c => tread 0 (tread {} t c).amounts (resNum r)).sum

/-- The grant table fits every resource (R35, R37). -/
def grantsFit (t : Table Grant) : Bool := allRes.all fun r => decide (grantSum t r ≤ resLimit r)

/-- BUDGET_SET (R37): the staging copy is validated and its image waits for the boundary. -/
def execBudgetSet (seq : Nat) (s : State) : Host.Outcome State Fault Refusal :=
  run (command seq 0x13 fun _ => checkedCmd seq [] fun _ w =>
    if !grantsFit w.m.staging then failCmd seq erOvercommit w
    else onH (fun h => { h with budgetSet := h.budgetSet ++ [(seq, w.m.staging)] }) (startCmd seq w)) s

/-- A command was taken in before another: by intake stamp, and by number where the stamps agree (R30). -/
def takenBefore (w : Mach) (a b : Nat) : Bool :=
  let x := cmdOf w a
  let y := cmdOf w b
  decide (x.tick < y.tick) || x.tick == y.tick && (decide (x.sq.toNat < y.sq.toNat) || x.sq == y.sq && decide (a ≤ b))

/-- The images that wait, in the intake order of their commands. -/
def budgetOrder (w : Mach) : List (Nat × Table Grant) :=
  sortBy (fun a b => takenBefore w a.1 b.1) w.m.h.budgetSet

/-- The images that wait take effect in intake order, the last of them in force, and their commands are DONE (R37). -/
def installBudgets (w : Mach) : Mach :=
  let q := budgetOrder w
  let w := match q.getLast? with
    | some (_, t) => onM (fun m => { m with active := t }) w
    | none => w
  q.foldl (fun w e => doneCmd e.1 w) (onH (fun h => { h with budgetSet := [] }) w)

/-! ### The parts of a boundary -/

/-- A class's balances at a gate after a boundary (R40). -/
def nextBal (grant : Nat) (b : Bal) : Bal :=
  { carry := max (min b.current grant) 0, current := (grant : Int) + min b.current 0 }

/-- A class's units after a boundary (R40, R47): the grant comes, and what leaves the balances has expired. -/
def nextLedger (grant : Nat) (b : Bal) (l : Ledger) : Ledger :=
  let b' := nextBal grant b
  { l with granted := l.granted + grant, expired := l.expired + (b.carry + b.current + grant - b'.carry - b'.current) }

/-- A window begins with its grants halved or whole (R513). -/
def windowBoundary (w : Mach) : Mach :=
  if w.m.tick / 4096 % 256 = 0 then onPower (fun p => { p with halved := p.halvedW }) w else w

/-- Every gate updates every class (R40); what an instance has served counts anew, energy's once in 256 periods (R41). -/
def updateGates (w : Mach) : Mach :=
  let window := w.m.tick / 4096 % 256 == 0
  let each {α : Type} (f : Res → Nat → Nat → α → α) (t : α) : α :=
    allRes.foldl (fun t r => iterate (resInstances r) (fun i t => iterate 64 (fun c t => f r c (gateKey r i c) t) t) t) t
  onM (fun m => { m with
    gates := each (fun r c k t => twrite {} t k (nextBal (gateGrant w r c) (tread {} t k))) m.gates
    ledger := each (fun r c k t => twrite {} t k (nextLedger (gateGrant w r c) (tread {} m.gates k) (tread {} t k))) m.ledger
    turns := []
    served := m.served.filter fun e => e.1 / 64 == resNum .energy && !window }) w

/-- The beats of a die in the period that ends (R23): fewer than 6,553 raise an alert. -/
def beatFloor (d beats : Nat) (w : Mach) : Mach := if beats < 6553 then alert alBeatFloor d beats w else w

/-- The keeper publishes the beat rates (R23). -/
def publishBeats (a b : Nat) (w : Mach) : Mach :=
  beatFloor 1 b (beatFloor 0 a (onM (fun m => { m with beatA := a, beatB := b }) w))

/-- DET and CFGLOCK as written take effect (R352, R507); MIRROR holds DET at 1. -/
def settleControl (w : Mach) : Mach :=
  onM (fun m =>
    let det := match m.detW with
      | some v => if m.twin.mode = 1 then m.det else v
      | none => m.det
    { m with det := det, detW := none, cfglock := m.cfglock || m.cfglockW, cfglockW := false }) w

/-- KEEP_MOLT increments where a unit has entered PUPA (R412). Every unit in service or draining adopts it as it reads. -/
def moltBoundary (w : Mach) : Mach :=
  if w.m.hw.wentPupa then onHw (fun h => { h with wentPupa := false }) (onM (fun m => { m with molt := m.molt + 1 }) w) else w

/-- One counter at a boundary (R495, R497): the copy before the zeroing, the selection as written. -/
def nextCounter (snap clear : Bool) (e : CntEntry) : CntEntry :=
  { e with sel := e.selW, mat := e.matW, mask := e.maskW, shd := if snap then e.val else e.shd,
           val := if clear then 0 else e.val }

/-- The counters of the dies (R495, R497). -/
def countersBoundary (w : Mach) : Mach :=
  onM (fun m => { m with cnt := m.cnt.map fun e =>
    let c := e.2
    (e.1, { c with snap := false, clear := false, snapTick := if c.snap then BitVec.ofNat 64 m.tick else c.snapTick,
                   entries := c.entries.map fun x => (x.1, nextCounter c.snap c.clear x.2) }) }) w

/-- Every batch of the period closes (R339, R341); a follower's are the lead's. -/
def batchBoundary (w : Mach) : Mach :=
  if !w.m.det || w.m.twin.role == 2 then w
  else
    let t := w.m.tick
    let w := formBatch 0 (fun _ => closedBefore w t) t w
    formBatch 1 (fun _ => closedBefore w t) t w

/-- What the step counters of a plan sum to: nothing of it has moved while this stays. -/
def planMark (w : Mach) (seq : Nat) : Nat :=
  ((boundTo w seq).map fun e => e.2.step.toNat).sum + (fieldQueue w (.plan seq)).step.toNat

/-- Another period in which a plan has stood still from its beginning to its end, or none (R357). -/
def stallBoundary (w : Mach) : Mach :=
  let next (e : Nat × Plan) : Nat × Plan :=
    let p := e.2
    if !planStalled w e.1 then (e.1, { p with stall := 0, mark := none })
    else if p.mark = some (planMark w e.1) then (e.1, { p with stall := p.stall + 1 })
    else (e.1, { p with stall := 0, mark := some (planMark w e.1) })
  onH (fun h => { h with plans := h.plans.map next }) w

/-- The journal has room again at a boundary (R377; log 48). -/
def journalBoundary (w : Mach) : Mach :=
  if jRoom w 1 then onK (fun k => { k with jAlert := false }) w else w

/-- The tick at which the next period begins (R26). -/
def nextPeriod (t : Nat) : Nat := (t / 4096 + 1) * 4096

/-- PERIOD_BOUNDARY (R26): a period begins, and every boundary action takes place, what the period that ends has written
first, the pair's last. The dies' beats are the command's operands, and so are the
tallies that the hardware finds off although they balance in the model (log 18, 112). -/
def execPeriodBoundary (beatsA beatsB : BitVec 16) (faults : List Nat) (s : State) :
    Host.Outcome State Fault Refusal :=
  run (fun w =>
    let w := onM (fun m => { m with tick := nextPeriod m.tick }) w
    let w := settleControl w
    let w := updateGates (windowBoundary (installBudgets w))
    let w := publishBeats beatsA.toNat beatsB.toNat w
    let w := countersBoundary (moltBoundary w)
    let w := checkAtBoundary (faults.foldl (fun w p => tallyFault (tallyOf p) w) w)
    let w := snapBoundary (noteShort (batchBoundary (lentShortage (settleRedo w))))
    let w := stallBoundary w
    let w := journalBoundary (sendShoots w)
    twinBoundary (ownerBoundary (rehomeBlocks true w).1)) s

/-! ### Measured energy (R513, R514, R519) -/

/-- The compute rails go off: both dies are in PUPA (R514). -/
def powerShutdown (w : Mach) : Mach := failDie 1 (failDie 0 w)

/-- Milliwatts of a window's millijoules: a window is 256 periods. -/
def windowMilliwatts (mj : Nat) : Nat := mj * 1000000000 / 1048576

/-- ENERGY_WINDOW_END (R513, R514, R519): in its last period, the window measures `mj` millijoules; the next window's
grants follow. -/
def execEnergyWindowEnd (mj : Nat) (s : State) : Host.Outcome State Fault Refusal :=
  run (fun w =>
    let n := w.m.tick / 4096
    if n % 256 ≠ 255 ∨ w.m.power.window = some n ∨ w.m.power.good = false then w
    else
      let hot := if 2726 < mj then w.m.power.hot + 1 else 0
      let w := onPower (fun p => { p with
        window := some n, hot := if hot = 4 then 0 else hot
        halvedW := if 2097 < mj then true else if mj < 1992 then false else p.halvedW }) w
      let w := sense 2 (ceilDiv (windowMilliwatts mj) 1000) w
      if hot = 4 then powerShutdown w else w) s

end Sys2Proof.Machine
end

