-- ==== Sys2Proof/Machine/Groups.lean ====
section
/-! DEFINITION. Thread groups (R223 to R236): families, splits, locks and barriers; and ordered atomics (R355, R356). -/

namespace Sys2Proof.Machine
open Sys2Proof

/-- A group instruction in the wrong mode (R226): a no-op at its cost, logged. -/
def groupMode (t : Tid) (turns : Nat) (word : W32) : Mach → Mach := fun w =>
  done t turns (violThread t vcGroupMode false (pcOf (thr w t)).toNat word w)

/-- The lowest free slot of the sixteen. -/
def freeSlot (th : Thread) : Option Nat := (List.range 16).find? fun k => (tget th.groups k).isNone

/-- The lanes below `n`. -/
def firstLanes (n : Nat) : Lanes := BitVec.ofNat 1024 (2 ^ n - 1)

/-- The lowest lane of a mask. -/
def lowestLane (m : Lanes) : Option Nat := (List.range 1024).find? fun i => m.getLsbD i

/-- GSPAWN (R223): starts a family of min(gs, VLN, 1,024) lanes; with none, gd receives 0 and the thread goes on. Every GSPAWN counts
(log 116). -/
def execGspawn (t : Tid) (rd ra rb : Reg) (s : State) : Host.Outcome State Fault Refusal :=
  issue t (fun w =>
    let th := thr w t
    if th.gm || th.family then groupMode t 2 (wordR 0x34 rd ra rb 0) w
    else
      let n := min (getG th rb).toNat (min th.vln.toNat 1024)
      if n = 0 then done t 2 (setG t rd 0 (updThr t (fun th => { th with famCount := th.famCount + 1 }) w))
      else
        let entry : Addr := (((getG th ra).setWidth 48) >>> 2) <<< 2
        let id := th.famCount + 1
        let w := done t 2 (setG t rd (BitVec.ofNat 64 id) w)
        let u := unitVp t.vp.toNat
        let stamp := nextStamp u w
        let w := takeStamp u w
        updThr t (fun th =>
          let v31 := iterate n (fun i v =>
            (v &&& ~~~ ((BitVec.allOnes 64).setWidth 65536 <<< (64 * i))) ||| BitVec.ofNat 65536 (i <<< (64 * i)))
            (getV th 31)
          let th := putV 31 v31 th
          { th with
            family := true, famCount := id, famVln := th.vln, famPc := th.pc,
            vln := BitVec.ofNat 32 n, live := firstLanes n, laneStep := [], laneBase := [], ovf := false, gm := true,
            groups := [(0, { mask := firstLanes n, pc := entry, g := th.g, stamp := stamp, wait := .ready })] }) w) s

/-- The family ends when its last lane has (R223): VLN and the normal stream come back. -/
def endFamily (th : Thread) : Thread :=
  if th.gm && th.live == 0 then
    { th with family := false, gm := false, vln := th.famVln, pc := th.famPc, groups := [], laneStep := [], laneBase := [] }
  else th

/-- A group instruction has retired: barriers that can release do, and a family without lanes ends. -/
def settleGroups (t : Tid) (w : Mach) : Mach := updThr t endFamily (settleBarriers t w)

/-! ### Divergence (R229 to R231) -/

/-- End lanes (R226, R231): they leave their group's mask, joins and the family. -/
def endLanes (ls : Lanes) (th : Thread) : Thread := unpend ls { th with live := th.live &&& ~~~ ls }

/-- GEXIT (R226, R236): ends every active lane of the group and frees its slot; the lanes have ended when its retirement may
release a barrier. -/
def execGexit (t : Tid) (s : State) : Host.Outcome State Fault Refusal :=
  issue t (fun w =>
    match curGroup (thr w t) with
    | none => groupMode t 1 (wordR 0x34 0 0 0 1) w
    | some (k, g) =>
      -- the group leaves the ready ones before it retires, so that it joins no other on its way out
      let w := done t 1 (updThr t (fun th => endLanes g.mask (parkOn .fence th)) w)
      settleGroups t (updThr t (fun th => settleJoins { th with groups := tdel th.groups k }) w)) s

/-- The word of GBR: p in [23:21], the offset in [15:0]. -/
def wordGbr (p : BitVec 3) (off : BitVec 16) : W32 :=
  (0x35 : BitVec 6) ++ (0 : BitVec 2) ++ p ++ (0 : BitVec 5) ++ off

/-- GBR (R229 to R231, R343): uniform, or a split into the running subgroup and the one that waits at the join address. -/
def execGbr (t : Tid) (p : BitVec 3) (off : BitVec 16) (s : State) : Host.Outcome State Fault Refusal :=
  issue t (fun w =>
    let th := thr w t
    match curGroup th with
    | none => groupMode t 1 (wordGbr p off) w
    | some (k, g) =>
      let pc := g.pc
      let target := targetB pc off
      let taken := g.mask &&& (getP th p).setWidth 1024
      let fall := g.mask &&& ~~~ taken
      if taken = 0 then done t 1 w
      else if fall = 0 then transfer t 1 1 target w
      else
        let forward := decide (pc.toNat < target.toNat)
        let (run, wait, at_) := if forward then (fall, taken, target) else (taken, fall, pc + 4)
        let u := unitVp t.vp.toNat
        -- every lane of the group counts the GBR's step, so both subgroups stand before it retires
        let w := updThr t (stepLanes wait) (countThread t 0x0A 1 w)
        -- the waiting subgroup takes a slot and a stamp of its own before the running one goes on
        let w := match freeSlot th with
          | some j =>
            let stamp := nextStamp u w
            takeStamp u (updThr t (fun th =>
              { th with
                groups := tput (tput th.groups k { g with mask := run }) j
                  { mask := wait, pc := at_, g := g.g, stamp := stamp, wait := .join run } }) w)
          | none =>
            updThr t (fun th => { endLanes wait { th with groups := tput th.groups k { g with mask := run } } with
              ovf := true }) w
        settleGroups t (if forward then done t 1 w else transfer t 1 1 target w)) s

/-! ### Locks (R232 to R234) -/

/-- The holder code of a lane (R232). -/
def holderCode (t : Tid) (family lane : Nat) : W64 :=
  BitVec.ofNat 64 (2 ^ 63 + (family % 65536) <<< 18 + t.vp.toNat <<< 13 + t.th.toNat <<< 10 + lane % 1024)

/-- The lane of this family that a lock word names, if one does. -/
def holderLane (t : Tid) (family : Nat) (word : W64) : Option Nat :=
  let l := word.toNat % 1024
  if word = holderCode t family l then some l else none

/-- A lane of group `k` goes on alone and the others split off, tied to the holder (R232), as a group with a stamp of its
own (R224); with the table full they end (R231). -/
def holdSplit (t : Tid) (k lane : Nat) (addr : Nat) (w : Mach) : Mach :=
  let th := thr w t
  match tget th.groups k with
  | none => w
  | some g =>
    let one : Lanes := 1#1024 <<< lane
    let rest := g.mask &&& ~~~ one
    if rest = 0 then w
    else
      let th := { th with groups := tput th.groups k { g with mask := one } }
      match freeSlot th with
      | some j =>
        let u := unitVp t.vp.toNat
        let split : Group := { g with mask := rest, stamp := nextStamp u w, wait := .holder lane addr }
        takeStamp u (setThr t (unpend rest { th with groups := tput th.groups j split }) w)
      | none => updThr t (fun th => { th with ovf := true }) (setThr t (endLanes rest th) w)

/-- The atomic of GLOCK at a physical address, which the group's register `ra` names (R232): whether the group goes on. -/
def lockTry (t : Tid) (ra : Reg) (a : Nat) (w : Mach) : Mach :=
  let th := thr w t
  match curGroup th with
  | none => w
  | some (k, g) =>
    let w := countThread t 0x09 1 (threadTraffic t true a 8 w)
    let word := BitVec.ofNat 64 (seenNum w a 8)
    let w := tookOpen [⟨a, 8, some a, none⟩] w
    let proceed (lane : Nat) (w : Mach) : Mach :=
      settleGroups t (done t (if th.det then 5 else 2) (holdSplit t k lane a w))
    let waits (w : Mach) : Mach :=
      settleGroups t (updThr t (fun th => settleJoins (unpend g.mask { th with
        groups := tput th.groups k { g with wait := .lock ra a } })) w)
    if word = 0 then
      match lowestLane g.mask with
      | some lane => proceed lane (threadStore none a (toBytes 8 (holderCode t th.famCount lane).toNat) w)
      | none => w
    else
      match holderLane t th.famCount word with
      | some lane => if g.mask.getLsbD lane then proceed lane w else waits w
      | none => waits w

/-- A GLOCK of the group that issues it or tries again (R163, R175, R232): drains, checks as an atomic does, and takes the
lock, splits, or parks; with DET set a plan's lock waits for the other horizons (R234, R355). -/
def glockRun (t : Tid) (ra : Reg) (w : Mach) : Mach :=
  let word := wordR 0x34 0 ra 0 3
  let w := drainStores t w
  let th := thr w t
  let va := (getG th ra).toNat
  let turns := if th.det then 5 else 2
  if va % 8 ≠ 0 then done t turns (violThread t vcAtomicAlign true va word w)
  else
    let w := threadWalks t va 8 w
    match threadPieces w t .both va 8 with
    | .error a => raise t (absentData akAtomic true a) w
    | .ok [⟨_, _, some a, _⟩] =>
      match th.binding, th.det with
      | .plan _ _, true => updThr t (parkOn (.atomic th.step.toNat 0x100 ra (some a) 0 0)) w
      | _, _ => readCheck t [⟨va, 8, some a, none⟩] (lockTry t ra a w)
    | .ok cs => done t turns (logDenied t true word cs w)

/-- GLOCK (R226, R232). -/
def execGlock (t : Tid) (ra : Reg) (s : State) : Host.Outcome State Fault Refusal :=
  issue t (fun w => if (thr w t).gm then glockRun t ra w else groupMode t 2 (wordR 0x34 0 ra 0 3) w) s

/-- GLOCK_RETRY (R232): the group of a slot that waits for a lock word executes its GLOCK again. -/
def execGlockRetry (t : Tid) (slot : BitVec 4) (s : State) : Host.Outcome State Fault Refusal :=
  run (fun w =>
    let th := thr w t
    match tget th.groups slot.toNat with
    | some g =>
      match g.wait with
      | .lock ra _ =>
        if !th.gm || th.gateWaits != 0 || th.stopped then w
        else paying t (2 ^ 48 + 2 + slot.toNat) (fun w => asGroup t (some slot.toNat) (glockRun t ra)
          (updThr t (fun th => { th with groups := tput th.groups slot.toNat { g with wait := .ready } }) w)) w
      | _ => w
    | none => w) s

/-- The groups that a GUNLOCK of a holder makes ready (R233): those tied to that holder and those on the VP that wait
for the word. -/
def wakeLock (vp : Nat) (self : Tid) (lane a : Nat) (w : Mach) : Mach :=
  iterate 8 (fun i w =>
    let t := tidOf (vp * 8 + i)
    wake t (fun th => settleJoins
      { th with groups := th.groups.map fun (k, g) =>
          match g.wait with
          | .lock _ b => (k, if b = a then { g with wait := .ready } else g)
          | .holder l _ => (k, if t = self ∧ l = lane then { g with wait := .ready } else g)
          | _ => (k, g) }) w) w

/-- GUNLOCK (R163, R233): the holder, if it is active in the group, frees the lock. -/
def execGunlock (t : Tid) (ra : Reg) (s : State) : Host.Outcome State Fault Refusal :=
  let word := wordR 0x34 0 ra 0 4
  issue t (fun w =>
    match curGroup (thr w t) with
    | none => groupMode t 1 word w
    | some (_, g) =>
      let w := drainStores t w
      let th := thr w t
      let va := (getG th ra).toNat
      if va % 8 ≠ 0 then done t 1 (violThread t vcAtomicAlign true va word w)
      else
        let w := threadWalks t va 8 w
        match threadPieces w t .both va 8 with
        | .error a => raise t (absentData akAtomic true a) w
        | .ok [⟨_, _, some a, _⟩] =>
          match (holderLane t th.famCount (BitVec.ofNat 64 (seenNum w a 8))).filter (fun l => g.mask.getLsbD l) with
          | some lane =>
            let w := threadTraffic t true a 8 (tookOpen [⟨a, 8, some a, none⟩] w)
            settleGroups t (done t 1 (wakeLock t.vp.toNat t lane a (threadStore none a (toBytes 8 0) w)))
          | none => readCheck t [⟨va, 8, some a, none⟩] (done t 1 (violThread t vcLockNotHeld true va word w))
        | .ok cs => done t 1 (logDenied t true word cs w)) s

/-- GBAR (R149, R235, R236): the active lanes arrive, and the loop test of the arrival settles what follows; the barrier
releases when every live lane is accounted for. -/
def execGbar (t : Tid) (ra : Reg) (s : State) : Host.Outcome State Fault Refusal :=
  issue t (fun w =>
    let th := thr w t
    match curGroup th with
    | none => groupMode t 1 (wordR 0x34 0 ra 0 5) w
    | some (k, g) =>
      let id : BitVec 16 := (getG th ra).setWidth 16
      -- the lanes have arrived before the arrival retires; they stay at its address until the release moves them on
      let (th, next) := loopNext g.pc 1 th
      let w := setThr t (unpend g.mask { th with groups := tput th.groups k { g with wait := .barrier id next } }) w
      settleGroups t (retire t { cost := 8, target := some g.pc } w)) s

/-! ### Ordered atomics (R355, R356) -/

/-- ATOMIC_APPLY (R175, R355, R356): the thread's ordered atomic is performed once every other thread of its plan has
a horizon above its key. -/
def execAtomicApply (t : Tid) (s : State) : Host.Outcome State Fault Refusal :=
  run (fun w =>
    let th := thr w t
    match atomicWait th, th.binding with
    | some (g, .atomic _ op rd (some a) v c, S), .plan cmd k =>
      if !horizonsPast w t cmd S k || th.gateWaits != 0 then w
      else paying t (2 ^ 48 + 1) (fun w =>
        -- the wait ends as the atomic is performed: what waited is the group that acts
        let w := updThr t (fun th =>
          match g with
          | none => { th with park := .none }
          | some j => { th with groups := th.groups.map fun (i, x) => (i, if i = j then { x with wait := .ready } else x) }) w
        readCheck t [⟨a, 8, some a, none⟩] <| asGroup t g (fun w =>
          if op = 0x100 then lockTry t rd a w
          else match atomOf op with
            | some o => atomPerform t o rd a v c w
            | none => w) w) w
    | _, _ => w) s

end Sys2Proof.Machine
end

