-- ==== Sys2Proof/Machine/InstrWord.lean ====
section
/-! DEFINITION. What the words of an instruction say (R166 to R169, R171, R173), and undefined words. -/

namespace Sys2Proof.Machine
open Sys2Proof

/-- One of several three-register instructions by its minor. -/
def threeOf (t : Tid) (rd ra rb : Reg) (fs : List (Tid → Reg → Reg → Reg → Instr)) (minor : Nat) : Option Instr :=
  fs[minor]?.map fun f => f t rd ra rb

/-- Major 0x00, form S (R173): ra and rb are g0 for NOP, ERET, CSYNC and FENCE, and n is zero but for TRAP and GATE. -/
def systemOf (t : Tid) (ra rb : Reg) (n minor : Nat) : Option Instr :=
  let bare (i : Instr) : Option Instr := if ra = 0 ∧ rb = 0 ∧ n = 0 then some i else none
  match minor with
  | 1 => bare (.nop t)
  | 2 => some (.trap t (BitVec.ofNat 8 n))
  | 3 => some (.gate t (BitVec.ofNat 8 n))
  | 4 => bare (.eret t)
  | 5 => bare (.csync t)
  | 6 => if n = 0 then some (.isync t ra rb) else none
  | 7 => bare (.fence t)
  | _ => none

/-- Major 0x01 (R173): CLZ, CTZ and POPC take g0 as rb. -/
def integerOf (t : Tid) (rd ra rb : Reg) (minor : Nat) : Option Instr :=
  let one (i : Instr) : Option Instr := if rb = 0 then some i else none
  match minor with
  | 0xE => one (.clz t rd ra)
  | 0xF => one (.ctz t rd ra)
  | 0x10 => one (.popc t rd ra)
  | m =>
    if m < 0xE then
      threeOf t rd ra rb [.add, .sub, .and, .or, .xor, .shl, .shr, .sar, .slt, .sltu, .min, .max, .minu, .maxu] m
    else threeOf t rd ra rb [.mul, .mulh, .mulhu, .div, .divu, .rem, .remu] (m - 0x11)

/-- Major 0x0D (R173). -/
def atomicOf (t : Tid) (rd ra rb : Reg) (minor : Nat) : Option Instr :=
  match minor with
  | 8 => some (.faadd t rd ra rb false)
  | 9 => some (.faadd t rd ra rb true)
  | m => threeOf t rd ra rb [.aadd, .aand, .aor, .axor, .amin, .amax, .aswap, .acas] m

/-- Majors 0x10 to 0x15 (R173). -/
def branchOf (t : Tid) (ra rb : Reg) (off : BitVec 16) (k : Nat) : Option Instr :=
  (([.beq, .bne, .blt, .bge, .bltu, .bgeu] : List (Tid → Reg → Reg → BitVec 16 → Instr))[k]?).map fun f => f t ra rb off

/-- Major 0x1B (R173, R177): bit [6] is the format, and bits [8:7] are FCVT's RM. -/
def floatOf (t : Tid) (rd ra rb : Reg) (minor : Nat) (dbl : Bool) (high : Nat) : Option Instr :=
  let three (f : Tid → Reg → Reg → Reg → Bool → Instr) : Option Instr := some (f t rd ra rb dbl)
  if minor = 0xE then
    if high < 4 ∧ rb.toNat < 5 then some (.fcvt t rd ra rb dbl (BitVec.ofNat 2 high)) else none
  else if high ≠ 0 then none
  else match minor with
    | 0 => three .fadd | 1 => three .fsub | 2 => three .fmul | 3 => three .fdiv
    | 4 => some (.fsqrt t rd ra dbl)
    | 5 => three .fmin | 6 => three .fmax
    | 7 => some (.fneg t rd ra dbl)
    | 8 => some (.fabs t rd ra dbl)
    | 9 => three .fsgn | 0xA => three .feq | 0xB => three .flt | 0xC => three .fle | 0xD => three .funord
    | 0xF => some (.fmvgf t rd ra dbl)
    | 0x10 => some (.fmvfg t rd ra dbl)
    | _ => none

/-- Majors 0x20 to 0x22 (R173): the tile, field and mover instructions. -/
def engineOf (t : Tid) (v : Nat) (rd ra rb : Reg) (major minor : Nat) : Option Instr :=
  let plain (i : Instr) : Option Instr := if bits v 6 5 = 0 then some i else none
  let hint := BitVec.ofNat 2 (bits v 6 2)
  match major, minor with
  | 0x20, 0 => plain (.tcfg t ra)
  | 0x20, 1 => if bits v 8 3 = 0 then some (.tload t (rd.setWidth 3) ra rb hint 64) else none
  | 0x20, 2 => if bits v 8 3 = 0 then some (.tstore t (rd.setWidth 3) ra rb hint 64) else none
  | 0x20, 3 => if bits v 6 12 = 0 then some (.trel t (BitVec.ofNat 8 (bits v 18 8))) else none
  | 0x21, 0 => plain (.fop t ra)
  | 0x21, 1 => plain (.fwait t ra)
  | 0x22, 0 => plain (.xfer t ra)
  | 0x22, 1 => plain (.xwait t ra)
  | _, _ => none

/-- The instruction of a vector operation (R173). -/
def vectorInstr (t : Tid) (o : VOp) : Option Instr :=
  let x := o.x
  let pick (fs : List (Tid → VF → Instr)) (i : Nat) : Option Instr := fs[i]?.map fun f => f t x
  let cc := BitVec.ofNat 3 o.minor
  match o.major with
  | 0x25 => pick [.vld, .vldu, .vst, .vstu] o.minor
  | 0x26 =>
    (([.vfadd, .vfsub, .vfmul, .vfma, .vfms, .vfnma, .vfnms] : List (Tid → VF → Bool → Instr))[o.minor % 16]?).map
      fun f => f t x (o.minor / 16 == 1)
  | 0x27 => pick [.vadd, .vsub, .vand, .vor, .vxor, .vshl, .vshr, .vsar, .vmul, .vmulh, .vdiv, .vdivu, .vbcast] o.minor
  | 0x28 => pick [.vsadd, .vsaddu, .vssub, .vssubu, .vsdmulhRhu, .vsdmulhRne, .vrshr, .vnarrows, .vnarrowu] o.minor
  | 0x29 =>
    let c := cvtOf o.word
    some (.vcvt t x.vd x.va (BitVec.ofNat 4 c.src) (BitVec.ofNat 4 c.dst) x.pe x.p (BitVec.ofNat 2 c.rm) c.sat)
  | 0x2A =>
    if o.minor < 8 then some (.vcmp t x cc)
    else if o.minor < 0x10 then some (.vcmpu t x cc)
    else if o.minor < 0x18 then some (.vfcmp t x cc)
    else pick [.vsel, .vmin, .vmax, .vminu, .vmaxu, .vfmin, .vfmax] (o.minor - 0x18)
  | 0x2B => pick [.vexp2, .vlog2, .vrcp, .vrsqrt, .vtanh] o.minor
  | 0x2C => pick [.vredsum, .vfredsum, .vredmin, .vredmax, .vfredmin, .vfredmax, .vredand, .vredor] o.minor
  | 0x2D => pick [.vslideup, .vslidedn, .vcompress, .vexpand, .vmergec, .vinter, .vmergecF, .vinterF] o.minor
  | 0x2E => pick [.pand, .por, .pxor, .pnot, .pcnt, .pset, .pclr] o.minor
  | 0x2F => some (.vmac2 t x (o.minor == 1))
  | _ => none

/-- Majors 0x25 to 0x2F: a reserved form is no instruction (R169, R173). -/
def vectorOf (t : Tid) (word : W32) : Option Instr :=
  let o := vopOfWord word
  if vreserved o 0 then none else vectorInstr t o

/-- Major 0x34 (R173): minor 0x02 is reserved. -/
def groupOf (t : Tid) (rd ra rb : Reg) (minor : Nat) : Option Instr :=
  match minor with
  | 0 => some (.gspawn t rd ra rb)
  | 1 => some (.gexit t)
  | 3 => some (.glock t ra)
  | 4 => some (.gunlock t ra)
  | 5 => some (.gbar t ra)
  | _ => none

/-- Major 0x3C (R166, R173): the second word is the low half of the immediate. -/
def longOf (t : Tid) (rd : Reg) (sub : Nat) (imm : BitVec 48) : Option Instr :=
  match sub with
  | 0 => some (.li t rd imm)
  | 1 => some (.la t rd imm)
  | 2 => some (.jl t imm)
  | 3 => some (.callm t imm)
  | 4 => some (.calll t imm)
  | _ => none

/-- Major 0x1A (R171): ra chooses, and a register with a row of its own has its own command. -/
def controlOf (t : Tid) (rd ra : Reg) (num : BitVec 16) : Option Instr :=
  if ra = 0 then some (if num = 0x103 then .gtdata t false rd else .crr t rd num)
  else if ra = 1 then
    some (if num = 0x103 then .gtdata t true rd else if num = 0x122 then .sigsend t rd else .crw t rd num)
  else none

/-- The instruction that the words at a place spell for a thread, `at'` giving the words from there on; none where the first
is undefined (R166 to R169, R173). Whether an X form's entry is valid the installed table says, and a field that no table
calls zero is ignored where its instruction does not use it (log 114). -/
def instrOf (t : Tid) (at' : Nat → W32) : Option Instr :=
  let word := at' 0
  let v := word.toNat
  let r (lo : Nat) : Reg := BitVec.ofNat 5 (bits v lo 5)
  let imm := BitVec.ofNat 16 v
  let minor := bits v 0 6
  let low (i : Option Instr) : Option Instr := if bits v 6 5 = 0 then i else none
  let width := BitVec.ofNat 3 (bits v 13 3)
  let off := BitVec.ofNat 13 v
  match bits v 26 6 with
  | 0x00 => systemOf t (r 21) (r 16) (bits v 8 8) (bits v 0 8)
  | 0x01 => low (integerOf t (r 21) (r 16) (r 11) minor)
  | 0x02 => some (.addi t (r 21) (r 16) imm)
  | 0x03 => some (.andi t (r 21) (r 16) imm)
  | 0x04 => some (.ori t (r 21) (r 16) imm)
  | 0x05 => some (.xori t (r 21) (r 16) imm)
  | 0x06 => some (.slti t (r 21) (r 16) imm)
  | 0x07 => if bits v 8 8 = 0 ∧ bits v 6 2 ≠ 3 then some (.shi t (r 21) (r 16) (BitVec.ofNat 2 (bits v 6 2)) (BitVec.ofNat 6 v)) else none
  | 0x08 => if r 16 = 0 then some (.lui t (r 21) imm) else none
  | 0x09 => if width.toNat < 7 then some (.ld t (r 21) (r 16) width off) else none
  | 0x0A => if width.toNat < 4 then some (.st t (r 21) (r 16) width off) else none
  | 0x0B => if width = 2 ∨ width = 3 then some (.fld t (r 21) (r 16) width off) else none
  | 0x0C => if width = 2 ∨ width = 3 then some (.fst t (r 21) (r 16) width off) else none
  | 0x0D => low (atomicOf t (r 21) (r 16) (r 11) minor)
  | 0x16 => some (.b t (BitVec.ofNat 26 v))
  | 0x17 => some (.call t (BitVec.ofNat 26 v))
  | 0x18 => low (match minor with
    | 0 => some (.br t (r 16))
    | 1 => some (.callr t (r 16))
    | 2 => if r 16 = 30 then some (.ret t) else none
    | _ => none)
  | 0x19 => if bits v 0 8 = 0 then some (.loop t (r 21) (bit v 20) (BitVec.ofNat 12 (bits v 8 12))) else none
  | 0x1A => controlOf t (r 21) (r 16) imm
  | 0x1B => floatOf t (r 21) (r 16) (r 11) minor (bit v 6) (bits v 7 4)
  | 0x1C => (([.fma, .fms, .fnma, .fnms] : List (Tid → Reg → Reg → Reg → Reg → Bool → Instr))[bits v 0 5]?).map
      fun f => f t (r 21) (r 16) (r 11) (r 6) (bit v 5)
  | 0x1D => if bits v 24 2 = 0 then some (.retm t (BitVec.ofNat 24 v)) else none
  | 0x20 => engineOf t v (r 21) (r 16) (r 11) 0x20 minor
  | 0x21 => engineOf t v (r 21) (r 16) (r 11) 0x21 minor
  | 0x22 => engineOf t v (r 21) (r 16) (r 11) 0x22 minor
  | 0x24 => if bits v 0 5 = 0 then some (.vsetl t (r 21) (r 16) (BitVec.ofNat 2 (bits v 5 2))) else none
  | 0x30 =>
    if bits v 0 21 = 0 then some (.vchain t (r 21) ((List.range (r 21).toNat).map fun i => at' (i + 1))) else none
  | 0x34 => low (groupOf t (r 21) (r 16) (r 11) minor)
  | 0x35 => if bits v 24 2 = 0 ∧ bits v 16 5 = 0 then some (.gbr t (BitVec.ofNat 3 (bits v 21 3)) imm) else none
  | 0x3C => longOf t (r 21) (bits v 16 5) ((BitVec.ofNat 16 v) ++ at' 1)
  | 0x3E => some (.customInstruction t (BitVec.ofNat 6 (bits v 20 6)) (r 15) (r 10) (r 5) (r 0))
  | m => if 0x10 ≤ m ∧ m < 0x16 then branchOf t (r 21) (r 16) imm (m - 0x10) else vectorOf t word

/-- A word is undefined for a thread (R169): it spells no instruction, or the X form of an entry that is not valid. -/
def undefinedFor (w : Mach) (t : Tid) (word : W32) : Bool :=
  match instrOf t (fun i => if i = 0 then word else 0) with
  | none => true
  | some (.customInstruction _ e _ _ _ _) => !bit (tread 0 (decodeTab w (dieOfVp t.vp.toNat)).entries e.toNat) 29
  | some _ => false

/-- UNDEFINED_OP (R169): a no-op of one turn that is logged; a word that spells an instruction is no such row's. -/
def execUndefinedOp (t : Tid) (word : BitVec 32) (s : State) : Host.Outcome State Fault Refusal :=
  issue t (fun w => if undefinedFor w t word then undefinedWord t word w else w) s

end Sys2Proof.Machine
end

