-- ==== Sys2Proof/Machine/Integer.lean ====
section
/-! DEFINITION. Integer instructions (R173, R174). -/

namespace Sys2Proof.Machine
open Sys2Proof

/-- ADD (R173). -/
def execAdd (t : Tid) (rd ra rb : Reg) (s : State) : Host.Outcome State Fault Refusal :=
  issue t (intRegister t .add rd ra rb) s

/-- SUB (R173). -/
def execSub (t : Tid) (rd ra rb : Reg) (s : State) : Host.Outcome State Fault Refusal :=
  issue t (intRegister t .sub rd ra rb) s

/-- AND (R173). -/
def execAnd (t : Tid) (rd ra rb : Reg) (s : State) : Host.Outcome State Fault Refusal :=
  issue t (intRegister t .and rd ra rb) s

/-- OR (R173). -/
def execOr (t : Tid) (rd ra rb : Reg) (s : State) : Host.Outcome State Fault Refusal :=
  issue t (intRegister t .or rd ra rb) s

/-- XOR (R173). -/
def execXor (t : Tid) (rd ra rb : Reg) (s : State) : Host.Outcome State Fault Refusal :=
  issue t (intRegister t .xor rd ra rb) s

/-- SHL (R173). -/
def execShl (t : Tid) (rd ra rb : Reg) (s : State) : Host.Outcome State Fault Refusal :=
  issue t (intRegister t .shl rd ra rb) s

/-- SHR (R173). -/
def execShr (t : Tid) (rd ra rb : Reg) (s : State) : Host.Outcome State Fault Refusal :=
  issue t (intRegister t .shr rd ra rb) s

/-- SAR (R173). -/
def execSar (t : Tid) (rd ra rb : Reg) (s : State) : Host.Outcome State Fault Refusal :=
  issue t (intRegister t .sar rd ra rb) s

/-- SLT (R173). -/
def execSlt (t : Tid) (rd ra rb : Reg) (s : State) : Host.Outcome State Fault Refusal :=
  issue t (intRegister t .slt rd ra rb) s

/-- SLTU (R173). -/
def execSltu (t : Tid) (rd ra rb : Reg) (s : State) : Host.Outcome State Fault Refusal :=
  issue t (intRegister t .sltu rd ra rb) s

/-- MIN (R173). -/
def execMin (t : Tid) (rd ra rb : Reg) (s : State) : Host.Outcome State Fault Refusal :=
  issue t (intRegister t .min rd ra rb) s

/-- MAX (R173). -/
def execMax (t : Tid) (rd ra rb : Reg) (s : State) : Host.Outcome State Fault Refusal :=
  issue t (intRegister t .max rd ra rb) s

/-- MINU (R173). -/
def execMinu (t : Tid) (rd ra rb : Reg) (s : State) : Host.Outcome State Fault Refusal :=
  issue t (intRegister t .minu rd ra rb) s

/-- MAXU (R173). -/
def execMaxu (t : Tid) (rd ra rb : Reg) (s : State) : Host.Outcome State Fault Refusal :=
  issue t (intRegister t .maxu rd ra rb) s

/-- MUL (R173). -/
def execMul (t : Tid) (rd ra rb : Reg) (s : State) : Host.Outcome State Fault Refusal :=
  issue t (intRegister t .mul rd ra rb) s

/-- MULH (R173). -/
def execMulh (t : Tid) (rd ra rb : Reg) (s : State) : Host.Outcome State Fault Refusal :=
  issue t (intRegister t .mulh rd ra rb) s

/-- MULHU (R173). -/
def execMulhu (t : Tid) (rd ra rb : Reg) (s : State) : Host.Outcome State Fault Refusal :=
  issue t (intRegister t .mulhu rd ra rb) s

/-- DIV (R173, R174). -/
def execDiv (t : Tid) (rd ra rb : Reg) (s : State) : Host.Outcome State Fault Refusal :=
  issue t (intRegister t .div rd ra rb) s

/-- DIVU (R173, R174). -/
def execDivu (t : Tid) (rd ra rb : Reg) (s : State) : Host.Outcome State Fault Refusal :=
  issue t (intRegister t .divu rd ra rb) s

/-- REM (R173, R174). -/
def execRem (t : Tid) (rd ra rb : Reg) (s : State) : Host.Outcome State Fault Refusal :=
  issue t (intRegister t .rem rd ra rb) s

/-- REMU (R173, R174). -/
def execRemu (t : Tid) (rd ra rb : Reg) (s : State) : Host.Outcome State Fault Refusal :=
  issue t (intRegister t .remu rd ra rb) s

/-- CLZ (R173): rb must be g0. -/
def execClz (t : Tid) (rd ra : Reg) (s : State) : Host.Outcome State Fault Refusal :=
  issue t (intRegister t .clz rd ra 0) s

/-- CTZ (R173): rb must be g0. -/
def execCtz (t : Tid) (rd ra : Reg) (s : State) : Host.Outcome State Fault Refusal :=
  issue t (intRegister t .ctz rd ra 0) s

/-- POPC (R173): rb must be g0. -/
def execPopc (t : Tid) (rd ra : Reg) (s : State) : Host.Outcome State Fault Refusal :=
  issue t (intRegister t .popc rd ra 0) s

/-- ADDI (R173): imm16 is sign-extended. -/
def execAddi (t : Tid) (rd ra : Reg) (imm : BitVec 16) (s : State) : Host.Outcome State Fault Refusal :=
  issue t (intImmediate t .add rd ra (imm.signExtend 64)) s

/-- SLTI (R173): imm16 is sign-extended. -/
def execSlti (t : Tid) (rd ra : Reg) (imm : BitVec 16) (s : State) : Host.Outcome State Fault Refusal :=
  issue t (intImmediate t .slt rd ra (imm.signExtend 64)) s

/-- ANDI (R173): imm16 is zero-extended. -/
def execAndi (t : Tid) (rd ra : Reg) (imm : BitVec 16) (s : State) : Host.Outcome State Fault Refusal :=
  issue t (intImmediate t .and rd ra (imm.setWidth 64)) s

/-- ORI (R173): imm16 is zero-extended. -/
def execOri (t : Tid) (rd ra : Reg) (imm : BitVec 16) (s : State) : Host.Outcome State Fault Refusal :=
  issue t (intImmediate t .or rd ra (imm.setWidth 64)) s

/-- XORI (R173): imm16 is zero-extended. -/
def execXori (t : Tid) (rd ra : Reg) (imm : BitVec 16) (s : State) : Host.Outcome State Fault Refusal :=
  issue t (intImmediate t .xor rd ra (imm.setWidth 64)) s

/-- SHI (R173): the kind selects SHL, SHR or SAR; kind 0b11 is reserved, an undefined word (R169). -/
def execShi (t : Tid) (rd ra : Reg) (kind : BitVec 2) (amount : BitVec 6) (s : State) :
    Host.Outcome State Fault Refusal :=
  issue t (match kind.toNat with
    | 0 => intImmediate t .shl rd ra (amount.setWidth 64)
    | 1 => intImmediate t .shr rd ra (amount.setWidth 64)
    | 2 => intImmediate t .sar rd ra (amount.setWidth 64)
    | _ => undefinedWord t (wordI 0x07 rd ra ((0 : BitVec 8) ++ kind ++ amount))) s

/-- LUI (R173): imm16 shifted left by 16 and sign-extended. -/
def execLui (t : Tid) (rd : Reg) (imm : BitVec 16) (s : State) : Host.Outcome State Fault Refusal :=
  issue t (fun w => done t 1 (setG t rd ((imm ++ (0 : BitVec 16)).signExtend 64) w)) s

/-- LI (R173): imm48 sign-extended; a long form. -/
def execLi (t : Tid) (rd : Reg) (imm : BitVec 48) (s : State) : Host.Outcome State Fault Refusal :=
  issue t (fun w => retire t { cost := 8, words := 2 } (setG t rd (imm.signExtend 64) w)) s

/-- LA (R173): imm48 sign-extended plus the address of the first word. -/
def execLa (t : Tid) (rd : Reg) (imm : BitVec 48) (s : State) : Host.Outcome State Fault Refusal :=
  issue t (fun w => retire t { cost := 8, words := 2 }
    (setG t rd (imm.signExtend 64 + (pcOf (thr w t)).setWidth 64) w)) s

end Sys2Proof.Machine
end

