-- ==== Sys2Proof/Machine/RegRows.lean ====
section
/-! DEFINITION. The host's reads and writes of registers (R8 to R10, R501 to R509), counters and traces (R490 to R500). -/

namespace Sys2Proof.Machine
open Sys2Proof

/-- One 4-byte write by a function: the physical one reaches every block, the others their own notification block (R448,
R501). -/
def hostWrite4 (fn off v : Nat) (w : Mach) : Mach :=
  if fn ≠ 0 then (if off < 0x1000 then writeHif fn (.host fn) off off v w else w)
  else
    let w := write4 (.host 0) off v w
    if off = 0 then writeDieReset (bit v 16) (bit v 17) w else w

/-- A write of `n` bytes to BAR0 (R489, R502): an 8-byte one acts as two, the lower address first; in recovery each is a
violation. -/
def hostWrite (fn off n v : Nat) (w : Mach) : Mach :=
  if inRecovery w || !accessShape off n then hostViolation fn off true w
  else if n = 4 then hostWrite4 fn off (v % 2 ^ 32) w
  else hostWrite4 fn (off + 4) (bits v 32 32) (hostWrite4 fn off (v % 2 ^ 32) w)

/-- REGISTER_WRITE (R8, R9, R501, R502): a function writes `n` bytes at an offset of its BAR0. -/
def execRegisterWrite (fn : BitVec 5) (off n : Nat) (value : BitVec 64) (s : State) :
    Host.Outcome State Fault Refusal :=
  run (hostWrite fn.toNat off n value.toNat) s

/-- The offset is that of an ACK field of the physical function's BAR0. -/
def isAckField (off : Nat) : Bool :=
  let (b, o) := blockOf off
  match b with
  | .keep => o == 0x30 || o == 0x38
  | .twin => o == 0x10 || o == 0x14
  | .hif => (hifIndex o).isSome
  | .rwatch _ => decide (0x10 ≤ o % 64 ∧ o % 64 < 0x38)
  | .hb _ => o % 64 == 0x28 || o % 64 == 0x2C
  | .sess _ => o == 0x18
  | .trc _ => o == 0x18
  | _ => false

/-- ACK_WRITE (R10): a function acknowledges events of an ACK field, or the write is refused. -/
def execAckWrite (fn : BitVec 5) (off : Nat) (value : BitVec 32) (s : State) : Host.Outcome State Fault Refusal :=
  run (fun w =>
    let f := fn.toNat
    if off % 4 = 0 ∧ (if f = 0 then isAckField off else (hifIndex off).isSome) = true then hostWrite4 f off value.toNat w
    else w) s

/-- One 4-byte read by a function: the physical one reaches every block and latches HI at a read of LO, the others read
their own notification block (R448, R501, R503). -/
def hostRead4 (fn off : Nat) (w : Mach) : Nat × Mach :=
  if fn ≠ 0 then (if off < 0x1000 then readHif w fn off else 0, w) else read4 (.host 0) off w

/-- A read of `n` bytes from BAR0 and the value it returns (R489, R502): in recovery only KEEP_BOOT is readable, and an
access of another shape reads zero and is a violation. -/
def hostRead (fn off n : Nat) (w : Mach) : Nat × Mach :=
  if !accessShape off n || (inRecovery w && !(off == 0x1000 && n == 4)) then (0, hostViolation fn off false w)
  else
    let (a, w) := hostRead4 fn off w
    if n = 4 then (a, w)
    else
      let (b, w) := hostRead4 fn (off + 4) w
      (a + b * 2 ^ 32, w)

/-- LO_READ_LATCH (R31, R502, R503): a function reads `n` bytes at an offset of its BAR0, and a read of a LO register by
the physical function latches its HI half. The model keeps the bytes that the read returns. -/
def execLoReadLatch (fn : BitVec 5) (off n : Nat) (s : State) : Host.Outcome State Fault Refusal :=
  run (fun w =>
    let (v, w) := hostRead fn.toNat off n w
    onH (fun h => { h with cpl := 1, readBack := toBytes n v }) w) s

/-- DET_WRITE (R352): a written DET waits for the next boundary. -/
def execDetWrite (value : Bool) (s : State) : Host.Outcome State Fault Refusal := run (writeDet (.host 0) 0 value) s

/-- CFGLOCK_WRITE (R507): a 1 is recorded for the next boundary; a 0 changes nothing; a second 1 is refused. -/
def execCfglockWrite (value : Bool) (s : State) : Host.Outcome State Fault Refusal := run (writeLock (.host 0) value) s

/-- The BAR0 offset of an offset of a die's part (R501). -/
def dieOffset (die : BitVec 1) (o : Nat) : Nat := 0x1000000 + die.toNat * 0x800000 + o

/-- TAKE (R101): a write of 1 to TAKE of a probe entry. -/
def execTake (die : BitVec 1) (slot : BitVec 12) (s : State) : Host.Outcome State Fault Refusal :=
  run (write4 (.host 0) (dieOffset die (0x40000 + 64 * slot.toNat)) 1) s

/-- CNT_SNAP (R497): at the next boundary every counter of the die is copied to its shadow. -/
def execCntSnap (die : BitVec 1) (s : State) : Host.Outcome State Fault Refusal :=
  run (fun w => write4 (.host 0) (dieOffset die 0x86000) (b2n (tread {} w.m.cnt die.toNat).run + 2) w) s

/-- CNT_CLEAR (R497): at the next boundary every counter of the die is zeroed. -/
def execCntClear (die : BitVec 1) (s : State) : Host.Outcome State Fault Refusal :=
  run (fun w => write4 (.host 0) (dieOffset die 0x86000) (b2n (tread {} w.m.cnt die.toNat).run + 4) w) s

/-! ### The wait trace (R498 to R500) -/

/-- The place of a trace record in the merge order (R25, R29): epoch, tick, source, sequence. -/
def traceRank (rec : Nat) : Nat :=
  bits rec 288 32 * 2 ^ 96 + bits rec 0 64 * 2 ^ 32 + bits rec 64 16 * 2 ^ 16 + bits rec 80 16

/-- A record that a die's trace unit writes (R498 to R500): its kind is enabled and its wait long enough, and it follows
the records before it. -/
def traceWrite (die rec : Nat) (w : Mach) : Mach :=
  let b := tread {} w.m.k.trc die
  let kind := bits rec 96 8
  if !(b.ctl.getLsbD 0 && b.ctl.getLsbD (kind + 4)) || decide (bits rec 160 32 < b.min.toNat)
      || decide (traceRank rec ≤ b.last) then w
  else
    let cap := b.size.toNat * 1024
    let base := b.base.toNat
    let out := cap = 0 ∨ isDevice w base = false ∨ isDevice w (base + cap * 64 - 1) = false
    let put (b : TraceBuf) : Mach → Mach := onK fun k => { k with trc := twrite {} k.trc die b }
    let b := { b with last := traceRank rec }
    if out ∨ (b.ctl.getLsbD 1 = true ∧ cap ≤ b.head.toNat) then
      let w := put { b with drop := ackEvent b.drop } w
      if ackFull b.drop then saturated (0x1087018 + die * 0x800000) w else w
    else
      let a := base + b.head.toNat % cap * 64
      let w := chargeAccess (.keeper 0) 0 die none true a 64 w
      put { b with head := b.head + 1 } (storeBytes none a (toBytes 64 rec) w)

/-- The NAME of a trace record (R184, R498): for a wait that can arise inside a custom instruction, at a gate or a stage, that
of the valid entry of the die's decode table that the record names; else 0 (log 41). -/
def traceName (w : Mach) (buffer r : Nat) : Nat :=
  let name := bits r 448 64
  let named := (tread {} w.m.decTab buffer).entries.any fun e => bit e.2 29 && bits e.2 64 64 == name
  if (bits r 96 8 = 6 ∨ bits r 96 8 = 8) ∧ buffer < 2 ∧ named = true then name else 0

/-- TRACE_RECORD_WRITE (R498, R499): a trace record whose tick is more than 128 ticks old is written: to the buffer of
die 0 or 1, or to the keeper's for a gate-service wait. Its fields are what the wait was (log 41), NAME from the decode
table. -/
def execTraceRecordWrite (buffer : BitVec 2) (record : BitVec 512) (s : State) : Host.Outcome State Fault Refusal :=
  run (fun w =>
    let r := bits record.toNat 0 448 + traceName w buffer.toNat record.toNat <<< 448
    if w.m.tick ≤ bits r 0 64 + 128 ∨ bits r 96 8 = 0 ∨ 11 < bits r 96 8 then w
    else if buffer.toNat < 2 then traceWrite buffer.toNat r w
    else if buffer.toNat = 2 ∧ bits r 96 8 = 11 ∧ w.m.k.ktrcLast < traceRank r then
      onK (fun k => { k with ktrc := tput k.ktrc (k.ktrcHead % 4096) r, ktrcHead := k.ktrcHead + 1,
                             ktrcLast := traceRank r }) w
    else w) s

end Sys2Proof.Machine
end

