-- ==== Sys2Proof/Machine/Dispatch.lean ====
section
/-! DEFINITION. One arm per command of the table: each calls the meaning of its row. -/

namespace Sys2Proof.Machine
open Sys2Proof

/-- The effect of one command on everything but the queue. -/
def exec (i : Instr) (s : State) : Host.Outcome State Fault Refusal :=
  match i with
  | .add t rd ra rb => Sys2Proof.Machine.execAdd t rd ra rb s
  | .sub t rd ra rb => Sys2Proof.Machine.execSub t rd ra rb s
  | .and t rd ra rb => Sys2Proof.Machine.execAnd t rd ra rb s
  | .or t rd ra rb => Sys2Proof.Machine.execOr t rd ra rb s
  | .xor t rd ra rb => Sys2Proof.Machine.execXor t rd ra rb s
  | .shl t rd ra rb => Sys2Proof.Machine.execShl t rd ra rb s
  | .shr t rd ra rb => Sys2Proof.Machine.execShr t rd ra rb s
  | .sar t rd ra rb => Sys2Proof.Machine.execSar t rd ra rb s
  | .slt t rd ra rb => Sys2Proof.Machine.execSlt t rd ra rb s
  | .sltu t rd ra rb => Sys2Proof.Machine.execSltu t rd ra rb s
  | .min t rd ra rb => Sys2Proof.Machine.execMin t rd ra rb s
  | .max t rd ra rb => Sys2Proof.Machine.execMax t rd ra rb s
  | .minu t rd ra rb => Sys2Proof.Machine.execMinu t rd ra rb s
  | .maxu t rd ra rb => Sys2Proof.Machine.execMaxu t rd ra rb s
  | .clz t rd ra => Sys2Proof.Machine.execClz t rd ra s
  | .ctz t rd ra => Sys2Proof.Machine.execCtz t rd ra s
  | .popc t rd ra => Sys2Proof.Machine.execPopc t rd ra s
  | .mul t rd ra rb => Sys2Proof.Machine.execMul t rd ra rb s
  | .mulh t rd ra rb => Sys2Proof.Machine.execMulh t rd ra rb s
  | .mulhu t rd ra rb => Sys2Proof.Machine.execMulhu t rd ra rb s
  | .div t rd ra rb => Sys2Proof.Machine.execDiv t rd ra rb s
  | .divu t rd ra rb => Sys2Proof.Machine.execDivu t rd ra rb s
  | .rem t rd ra rb => Sys2Proof.Machine.execRem t rd ra rb s
  | .remu t rd ra rb => Sys2Proof.Machine.execRemu t rd ra rb s
  | .addi t rd ra imm => Sys2Proof.Machine.execAddi t rd ra imm s
  | .slti t rd ra imm => Sys2Proof.Machine.execSlti t rd ra imm s
  | .andi t rd ra imm => Sys2Proof.Machine.execAndi t rd ra imm s
  | .ori t rd ra imm => Sys2Proof.Machine.execOri t rd ra imm s
  | .xori t rd ra imm => Sys2Proof.Machine.execXori t rd ra imm s
  | .shi t rd ra kind amount => Sys2Proof.Machine.execShi t rd ra kind amount s
  | .lui t rd imm => Sys2Proof.Machine.execLui t rd imm s
  | .li t rd imm => Sys2Proof.Machine.execLi t rd imm s
  | .la t rd imm => Sys2Proof.Machine.execLa t rd imm s
  | .ld t rd ra width off => Sys2Proof.Machine.execLd t rd ra width off s
  | .st t rd ra width off => Sys2Proof.Machine.execSt t rd ra width off s
  | .fld t rd ra width off => Sys2Proof.Machine.execFld t rd ra width off s
  | .fst t rd ra width off => Sys2Proof.Machine.execFst t rd ra width off s
  | .aadd t rd ra rb => Sys2Proof.Machine.execAadd t rd ra rb s
  | .aand t rd ra rb => Sys2Proof.Machine.execAand t rd ra rb s
  | .aor t rd ra rb => Sys2Proof.Machine.execAor t rd ra rb s
  | .axor t rd ra rb => Sys2Proof.Machine.execAxor t rd ra rb s
  | .amin t rd ra rb => Sys2Proof.Machine.execAmin t rd ra rb s
  | .amax t rd ra rb => Sys2Proof.Machine.execAmax t rd ra rb s
  | .aswap t rd ra rb => Sys2Proof.Machine.execAswap t rd ra rb s
  | .acas t rd ra rb => Sys2Proof.Machine.execAcas t rd ra rb s
  | .faadd t rd ra rb dbl => Sys2Proof.Machine.execFaadd t rd ra rb dbl s
  | .beq t ra rb off => Sys2Proof.Machine.execBeq t ra rb off s
  | .bne t ra rb off => Sys2Proof.Machine.execBne t ra rb off s
  | .blt t ra rb off => Sys2Proof.Machine.execBlt t ra rb off s
  | .bge t ra rb off => Sys2Proof.Machine.execBge t ra rb off s
  | .bltu t ra rb off => Sys2Proof.Machine.execBltu t ra rb off s
  | .bgeu t ra rb off => Sys2Proof.Machine.execBgeu t ra rb off s
  | .b t off => Sys2Proof.Machine.execB t off s
  | .call t off => Sys2Proof.Machine.execCall t off s
  | .br t ra => Sys2Proof.Machine.execBr t ra s
  | .callr t ra => Sys2Proof.Machine.execCallr t ra s
  | .ret t => Sys2Proof.Machine.execRet t s
  | .jl t target => Sys2Proof.Machine.execJl t target s
  | .calll t target => Sys2Proof.Machine.execCalll t target s
  | .callm t imm => Sys2Proof.Machine.execCallm t imm s
  | .retm t mask => Sys2Proof.Machine.execRetm t mask s
  | .loop t gs level imm => Sys2Proof.Machine.execLoop t gs level imm s
  | .crr t rd num => Sys2Proof.Machine.execCrr t rd num s
  | .crw t rd num => Sys2Proof.Machine.execCrw t rd num s
  | .sigsend t rd => Sys2Proof.Machine.execSigsend t rd s
  | .gtdata t write rd => Sys2Proof.Machine.execGtdata t write rd s
  | .nop t => Sys2Proof.Machine.execNop t s
  | .trap t n => Sys2Proof.Machine.execTrap t n s
  | .gate t n => Sys2Proof.Machine.execGate t n s
  | .eret t => Sys2Proof.Machine.execEret t s
  | .csync t => Sys2Proof.Machine.execCsync t s
  | .isync t ra rb => Sys2Proof.Machine.execIsync t ra rb s
  | .fence t => Sys2Proof.Machine.execFence t s
  | .fadd t rd ra rb dbl => Sys2Proof.Machine.execFadd t rd ra rb dbl s
  | .fsub t rd ra rb dbl => Sys2Proof.Machine.execFsub t rd ra rb dbl s
  | .fmul t rd ra rb dbl => Sys2Proof.Machine.execFmul t rd ra rb dbl s
  | .fdiv t rd ra rb dbl => Sys2Proof.Machine.execFdiv t rd ra rb dbl s
  | .fsqrt t rd ra dbl => Sys2Proof.Machine.execFsqrt t rd ra dbl s
  | .fmin t rd ra rb dbl => Sys2Proof.Machine.execFmin t rd ra rb dbl s
  | .fmax t rd ra rb dbl => Sys2Proof.Machine.execFmax t rd ra rb dbl s
  | .fneg t rd ra dbl => Sys2Proof.Machine.execFneg t rd ra dbl s
  | .fabs t rd ra dbl => Sys2Proof.Machine.execFabs t rd ra dbl s
  | .fsgn t rd ra rb dbl => Sys2Proof.Machine.execFsgn t rd ra rb dbl s
  | .feq t rd ra rb dbl => Sys2Proof.Machine.execFeq t rd ra rb dbl s
  | .flt t rd ra rb dbl => Sys2Proof.Machine.execFlt t rd ra rb dbl s
  | .fle t rd ra rb dbl => Sys2Proof.Machine.execFle t rd ra rb dbl s
  | .funord t rd ra rb dbl => Sys2Proof.Machine.execFunord t rd ra rb dbl s
  | .fcvt t rd ra op dbl rm => Sys2Proof.Machine.execFcvt t rd ra op dbl rm s
  | .fmvgf t rd ra dbl => Sys2Proof.Machine.execFmvgf t rd ra dbl s
  | .fmvfg t rd ra dbl => Sys2Proof.Machine.execFmvfg t rd ra dbl s
  | .fma t rd ra rb rc dbl => Sys2Proof.Machine.execFma t rd ra rb rc dbl s
  | .fms t rd ra rb rc dbl => Sys2Proof.Machine.execFms t rd ra rb rc dbl s
  | .fnma t rd ra rb rc dbl => Sys2Proof.Machine.execFnma t rd ra rb rc dbl s
  | .fnms t rd ra rb rc dbl => Sys2Proof.Machine.execFnms t rd ra rb rc dbl s
  | .tcfg t ra => Sys2Proof.Machine.execTcfg t ra s
  | .tload t tile ra rb hint stop => Sys2Proof.Machine.execTload t tile ra rb hint stop s
  | .tstore t tile ra rb hint stop => Sys2Proof.Machine.execTstore t tile ra rb hint stop s
  | .trel t mask => Sys2Proof.Machine.execTrel t mask s
  | .tileRowAbsent t => Sys2Proof.Machine.execTileRowAbsent t s
  | .tileTransferEnd t => Sys2Proof.Machine.execTileTransferEnd t s
  | .fop t ra => Sys2Proof.Machine.execFop t ra s
  | .fwait t ra => Sys2Proof.Machine.execFwait t ra s
  | .xfer t ra => Sys2Proof.Machine.execXfer t ra s
  | .xwait t ra => Sys2Proof.Machine.execXwait t ra s
  | .vsetl t rd ra et => Sys2Proof.Machine.execVsetl t rd ra et s
  | .vld t x => Sys2Proof.Machine.execVld t x s
  | .vst t x => Sys2Proof.Machine.execVst t x s
  | .vldu t x => Sys2Proof.Machine.execVldu t x s
  | .vstu t x => Sys2Proof.Machine.execVstu t x s
  | .vfadd t x bf => Sys2Proof.Machine.execVfadd t x bf s
  | .vfsub t x bf => Sys2Proof.Machine.execVfsub t x bf s
  | .vfmul t x bf => Sys2Proof.Machine.execVfmul t x bf s
  | .vfma t x bf => Sys2Proof.Machine.execVfma t x bf s
  | .vfms t x bf => Sys2Proof.Machine.execVfms t x bf s
  | .vfnma t x bf => Sys2Proof.Machine.execVfnma t x bf s
  | .vfnms t x bf => Sys2Proof.Machine.execVfnms t x bf s
  | .vadd t x => Sys2Proof.Machine.execVadd t x s
  | .vsub t x => Sys2Proof.Machine.execVsub t x s
  | .vand t x => Sys2Proof.Machine.execVand t x s
  | .vor t x => Sys2Proof.Machine.execVor t x s
  | .vxor t x => Sys2Proof.Machine.execVxor t x s
  | .vshl t x => Sys2Proof.Machine.execVshl t x s
  | .vshr t x => Sys2Proof.Machine.execVshr t x s
  | .vsar t x => Sys2Proof.Machine.execVsar t x s
  | .vmul t x => Sys2Proof.Machine.execVmul t x s
  | .vmulh t x => Sys2Proof.Machine.execVmulh t x s
  | .vdiv t x => Sys2Proof.Machine.execVdiv t x s
  | .vdivu t x => Sys2Proof.Machine.execVdivu t x s
  | .vbcast t x => Sys2Proof.Machine.execVbcast t x s
  | .vsadd t x => Sys2Proof.Machine.execVsadd t x s
  | .vsaddu t x => Sys2Proof.Machine.execVsaddu t x s
  | .vssub t x => Sys2Proof.Machine.execVssub t x s
  | .vssubu t x => Sys2Proof.Machine.execVssubu t x s
  | .vsdmulhRhu t x => Sys2Proof.Machine.execVsdmulhRhu t x s
  | .vsdmulhRne t x => Sys2Proof.Machine.execVsdmulhRne t x s
  | .vrshr t x => Sys2Proof.Machine.execVrshr t x s
  | .vnarrows t x => Sys2Proof.Machine.execVnarrows t x s
  | .vnarrowu t x => Sys2Proof.Machine.execVnarrowu t x s
  | .vcvt t vd va src dst pe p rm sat => Sys2Proof.Machine.execVcvt t vd va src dst pe p rm sat s
  | .vcmp t x cc => Sys2Proof.Machine.execVcmp t x cc s
  | .vcmpu t x cc => Sys2Proof.Machine.execVcmpu t x cc s
  | .vfcmp t x cc => Sys2Proof.Machine.execVfcmp t x cc s
  | .vsel t x => Sys2Proof.Machine.execVsel t x s
  | .vmin t x => Sys2Proof.Machine.execVmin t x s
  | .vmax t x => Sys2Proof.Machine.execVmax t x s
  | .vminu t x => Sys2Proof.Machine.execVminu t x s
  | .vmaxu t x => Sys2Proof.Machine.execVmaxu t x s
  | .vfmin t x => Sys2Proof.Machine.execVfmin t x s
  | .vfmax t x => Sys2Proof.Machine.execVfmax t x s
  | .vexp2 t x => Sys2Proof.Machine.execVexp2 t x s
  | .vlog2 t x => Sys2Proof.Machine.execVlog2 t x s
  | .vrcp t x => Sys2Proof.Machine.execVrcp t x s
  | .vrsqrt t x => Sys2Proof.Machine.execVrsqrt t x s
  | .vtanh t x => Sys2Proof.Machine.execVtanh t x s
  | .vredsum t x => Sys2Proof.Machine.execVredsum t x s
  | .vfredsum t x => Sys2Proof.Machine.execVfredsum t x s
  | .vredmin t x => Sys2Proof.Machine.execVredmin t x s
  | .vredmax t x => Sys2Proof.Machine.execVredmax t x s
  | .vfredmin t x => Sys2Proof.Machine.execVfredmin t x s
  | .vfredmax t x => Sys2Proof.Machine.execVfredmax t x s
  | .vredand t x => Sys2Proof.Machine.execVredand t x s
  | .vredor t x => Sys2Proof.Machine.execVredor t x s
  | .vslideup t x => Sys2Proof.Machine.execVslideup t x s
  | .vslidedn t x => Sys2Proof.Machine.execVslidedn t x s
  | .vcompress t x => Sys2Proof.Machine.execVcompress t x s
  | .vexpand t x => Sys2Proof.Machine.execVexpand t x s
  | .vmergec t x => Sys2Proof.Machine.execVmergec t x s
  | .vmergecF t x => Sys2Proof.Machine.execVmergecF t x s
  | .vinter t x => Sys2Proof.Machine.execVinter t x s
  | .vinterF t x => Sys2Proof.Machine.execVinterF t x s
  | .pand t x => Sys2Proof.Machine.execPand t x s
  | .por t x => Sys2Proof.Machine.execPor t x s
  | .pxor t x => Sys2Proof.Machine.execPxor t x s
  | .pnot t x => Sys2Proof.Machine.execPnot t x s
  | .pcnt t x => Sys2Proof.Machine.execPcnt t x s
  | .pset t x => Sys2Proof.Machine.execPset t x s
  | .pclr t x => Sys2Proof.Machine.execPclr t x s
  | .vmac2 t x int => Sys2Proof.Machine.execVmac2 t x int s
  | .vchain t n members => Sys2Proof.Machine.execVchain t n members s
  | .gspawn t rd ra rb => Sys2Proof.Machine.execGspawn t rd ra rb s
  | .gexit t => Sys2Proof.Machine.execGexit t s
  | .glock t ra => Sys2Proof.Machine.execGlock t ra s
  | .glockRetry t slot => Sys2Proof.Machine.execGlockRetry t slot s
  | .gunlock t ra => Sys2Proof.Machine.execGunlock t ra s
  | .gbar t ra => Sys2Proof.Machine.execGbar t ra s
  | .gbr t p off => Sys2Proof.Machine.execGbr t p off s
  | .customInstruction t entry rd ra rb imm => Sys2Proof.Machine.execCustomInstruction t entry rd ra rb imm s
  | .undefinedOp t word => Sys2Proof.Machine.execUndefinedOp t word s
  | .storeBufferDrain t => Sys2Proof.Machine.execStoreBufferDrain t s
  | .dataCacheFill t sector => Sys2Proof.Machine.execDataCacheFill t sector s
  | .tableWalk t va => Sys2Proof.Machine.execTableWalk t va s
  | .atomicApply t => Sys2Proof.Machine.execAtomicApply t s
  | .horizonStall seq => Sys2Proof.Machine.execHorizonStall seq s
  | .nearMemoryCacheFill t addr sectors whole hint write => Sys2Proof.Machine.execNearMemoryCacheFill t addr sectors whole hint write s
  | .hbmChannelRun ch => Sys2Proof.Machine.execHbmChannelRun ch s
  | .hbmRefresh ch => Sys2Proof.Machine.execHbmRefresh ch s
  | .exceptionEntry t => Sys2Proof.Machine.execExceptionEntry t s
  | .windowExpiry t => Sys2Proof.Machine.execWindowExpiry t s
  | .timerCompare t second => Sys2Proof.Machine.execTimerCompare t second s
  | .fieldAdmission => Sys2Proof.Machine.execFieldAdmission s
  | .fieldCompletion => Sys2Proof.Machine.execFieldCompletion s
  | .fieldAbsentStop => Sys2Proof.Machine.execFieldAbsentStop s
  | .columnFail plot array => Sys2Proof.Machine.execColumnFail plot array s
  | .moverTransferStart die mover => Sys2Proof.Machine.execMoverTransferStart die mover s
  | .moverRun die mover => Sys2Proof.Machine.execMoverRun die mover s
  | .moverAbsentStop die mover => Sys2Proof.Machine.execMoverAbsentStop die mover s
  | .moverTransferComplete die mover => Sys2Proof.Machine.execMoverTransferComplete die mover s
  | .gateAdmission res inst => Sys2Proof.Machine.execGateAdmission res inst s
  | .periodBoundary beatsA beatsB faults => Sys2Proof.Machine.execPeriodBoundary beatsA beatsB faults s
  | .energyWindowEnd mj => Sys2Proof.Machine.execEnergyWindowEnd mj s
  | .shootdownDrainReport n use => Sys2Proof.Machine.execShootdownDrainReport n use s
  | .cmdPcountWrite fn ring value slots => Sys2Proof.Machine.execCmdPcountWrite fn ring value slots s
  | .evtPcountWrite fn ring value slots => Sys2Proof.Machine.execEvtPcountWrite fn ring value slots s
  | .rspCcountWrite fn ring value => Sys2Proof.Machine.execRspCcountWrite fn ring value s
  | .msgPcountWrite fn channel value slots => Sys2Proof.Machine.execMsgPcountWrite fn channel value slots s
  | .hostDoorbell fn d => Sys2Proof.Machine.execHostDoorbell fn d s
  | .messageIntake channel => Sys2Proof.Machine.execMessageIntake channel s
  | .commandIntake ring => Sys2Proof.Machine.execCommandIntake ring s
  | .eventIntake ring => Sys2Proof.Machine.execEventIntake ring s
  | .journalCommit => Sys2Proof.Machine.execJournalCommit s
  | .segmentDrain => Sys2Proof.Machine.execSegmentDrain s
  | .nopCommand seq => Sys2Proof.Machine.execNopCommand seq s
  | .runPlan seq => Sys2Proof.Machine.execRunPlan seq s
  | .planBind seq prefs => Sys2Proof.Machine.execPlanBind seq prefs s
  | .checkpoint seq => Sys2Proof.Machine.execCheckpoint seq s
  | .rollback seq prefs => Sys2Proof.Machine.execRollback seq prefs s
  | .planDone seq => Sys2Proof.Machine.execPlanDone seq s
  | .move seq => Sys2Proof.Machine.execMove seq s
  | .prefetch seq => Sys2Proof.Machine.execPrefetch seq s
  | .advise seq => Sys2Proof.Machine.execAdvise seq s
  | .invalidate seq => Sys2Proof.Machine.execInvalidate seq s
  | .sessionOpen seq => Sys2Proof.Machine.execSessionOpen seq s
  | .sessionClose seq => Sys2Proof.Machine.execSessionClose seq s
  | .sessionPark seq => Sys2Proof.Machine.execSessionPark seq s
  | .snapshot seq => Sys2Proof.Machine.execSnapshot seq s
  | .snapshotComplete => Sys2Proof.Machine.execSnapshotComplete s
  | .replayTo seq => Sys2Proof.Machine.execReplayTo seq s
  | .journalRead seq => Sys2Proof.Machine.execJournalRead seq s
  | .budgetSet seq => Sys2Proof.Machine.execBudgetSet seq s
  | .drain seq => Sys2Proof.Machine.execDrain seq s
  | .molt seq => Sys2Proof.Machine.execMolt seq s
  | .retire seq => Sys2Proof.Machine.execRetire seq s
  | .unitDrained unit => Sys2Proof.Machine.execUnitDrained unit s
  | .moltComplete unit ok bad => Sys2Proof.Machine.execMoltComplete unit ok bad s
  | .release seq => Sys2Proof.Machine.execRelease seq s
  | .twinPair seq => Sys2Proof.Machine.execTwinPair seq s
  | .twinMode seq => Sys2Proof.Machine.execTwinMode seq s
  | .twinFence seq => Sys2Proof.Machine.execTwinFence seq s
  | .twinTakeover seq => Sys2Proof.Machine.execTwinTakeover seq s
  | .twinResolve seq => Sys2Proof.Machine.execTwinResolve seq s
  | .invocationStart die pref => Sys2Proof.Machine.execInvocationStart die pref s
  | .invocationLimit t => Sys2Proof.Machine.execInvocationLimit t s
  | .decodeLoad t => Sys2Proof.Machine.execDecodeLoad t s
  | .decodeCheck => Sys2Proof.Machine.execDecodeCheck s
  | .decodeInstall => Sys2Proof.Machine.execDecodeInstall s
  | .violRead t => Sys2Proof.Machine.execViolRead t s
  | .errRead t => Sys2Proof.Machine.execErrRead t s
  | .xlinv t => Sys2Proof.Machine.execXlinv t s
  | .registerWrite fn off n value => Sys2Proof.Machine.execRegisterWrite fn off n value s
  | .ackWrite fn off value => Sys2Proof.Machine.execAckWrite fn off value s
  | .loReadLatch fn off n => Sys2Proof.Machine.execLoReadLatch fn off n s
  | .detWrite value => Sys2Proof.Machine.execDetWrite value s
  | .cfglockWrite value => Sys2Proof.Machine.execCfglockWrite value s
  | .dieReset dies => Sys2Proof.Machine.execDieReset dies s
  | .dieWedged die => Sys2Proof.Machine.execDieWedged die s
  | .take die slot => Sys2Proof.Machine.execTake die slot s
  | .cntSnap die => Sys2Proof.Machine.execCntSnap die s
  | .cntClear die => Sys2Proof.Machine.execCntClear die s
  | .weevilStart ch => Sys2Proof.Machine.execWeevilStart ch s
  | .weevilAbort ch => Sys2Proof.Machine.execWeevilAbort ch s
  | .weevilRunEnd ch part slots errs => Sys2Proof.Machine.execWeevilRunEnd ch part slots errs s
  | .scrubRead addr err cached => Sys2Proof.Machine.execScrubRead addr err cached s
  | .regenerationComplete sid => Sys2Proof.Machine.execRegenerationComplete sid s
  | .tierBankCopyEnd unit => Sys2Proof.Machine.execTierBankCopyEnd unit s
  | .restripeEnd stack lost => Sys2Proof.Machine.execRestripeEnd stack lost s
  | .channelGraceExpiry ch => Sys2Proof.Machine.execChannelGraceExpiry ch s
  | .vpDrainExpiry vp => Sys2Proof.Machine.execVpDrainExpiry vp s
  | .bridgeFlitRetry path good => Sys2Proof.Machine.execBridgeFlitRetry path good s
  | .traceRecordWrite buffer record => Sys2Proof.Machine.execTraceRecordWrite buffer record s
  | .holdupMeasure joules => Sys2Proof.Machine.execHoldupMeasure joules s
  | .nandRetentionRefresh used => Sys2Proof.Machine.execNandRetentionRefresh used s
  | .idle => Sys2Proof.Machine.execIdle s
  | .link ack nak credits jseqc => Sys2Proof.Machine.execLink ack nak credits jseqc s
  | .cicada tick epoch pairgen jseqc mode role saving dies molt => Sys2Proof.Machine.execCicada tick epoch pairgen jseqc mode role saving dies molt s
  | .cut tick epoch => Sys2Proof.Machine.execCut tick epoch s
  | .ctrl len msg => Sys2Proof.Machine.execCtrl len msg s
  | .jrec cls recs => Sys2Proof.Machine.execJrec cls recs s
  | .input len cls cmd lthread sstep index bytes => Sys2Proof.Machine.execInput len cls cmd lthread sstep index bytes s
  | .digest ctx digest => Sys2Proof.Machine.execDigest ctx digest s
  | .snap len part => Sys2Proof.Machine.execSnap len part s
  | .fetchReq len what => Sys2Proof.Machine.execFetchReq len what s
  | .fetchData len part => Sys2Proof.Machine.execFetchData len part s
  | .twinSilent => Sys2Proof.Machine.execTwinSilent s
  | .twinDegraded => Sys2Proof.Machine.execTwinDegraded s
  | .twinPresent mated => Sys2Proof.Machine.execTwinPresent mated s
  | .laneFailure down => Sys2Proof.Machine.execLaneFailure down s
  | .functionLevelReset fn => Sys2Proof.Machine.execFunctionLevelReset fn s
  | .perst asserted => Sys2Proof.Machine.execPerst asserted s
  | .configurationRequest fn ats => Sys2Proof.Machine.execConfigurationRequest fn ats s
  | .pcieLinkTraining gen width => Sys2Proof.Machine.execPcieLinkTraining gen width s
  | .bar4Access write off n data => Sys2Proof.Machine.execBar4Access write off n data s
  | .bar4Resize size => Sys2Proof.Machine.execBar4Resize size s
  | .atsTranslationCompletion fn page read write => Sys2Proof.Machine.execAtsTranslationCompletion fn page read write s
  | .atsInvalidateRequest fn page pages => Sys2Proof.Machine.execAtsInvalidateRequest fn page pages s
  | .invalidateCompletion => Sys2Proof.Machine.execInvalidateCompletion s
  | .ideKm stream key => Sys2Proof.Machine.execIdeKm stream key s
  | .measurements conn index signed => Sys2Proof.Machine.execMeasurements conn index signed s
  | .challenge conn slot => Sys2Proof.Machine.execChallenge conn slot s
  | .setCertificate conn slot chain => Sys2Proof.Machine.execSetCertificate conn slot chain s
  | .pqCert conn => Sys2Proof.Machine.execPqCert conn s
  | .pqSig conn => Sys2Proof.Machine.execPqSig conn s
  | .ownerEnroll conn keyEd keyMl sigEd sigMl => Sys2Proof.Machine.execOwnerEnroll conn keyEd keyMl sigEd sigMl s
  | .ownerRelease conn sigEd sigMl => Sys2Proof.Machine.execOwnerRelease conn sigEd sigMl s
  | .recordSupply conn kind gen epoch wtick body sigEd sigMl => Sys2Proof.Machine.execRecordSupply conn kind gen epoch wtick body sigEd sigMl s
  | .firmwareTransfer comp off data => Sys2Proof.Machine.execFirmwareTransfer comp off data s
  | .verifyComplete comp => Sys2Proof.Machine.execVerifyComplete comp s
  | .activateFirmware comp => Sys2Proof.Machine.execActivateFirmware comp s
  | .pwrEnAssert => Sys2Proof.Machine.execPwrEnAssert s
  | .pwrGood tests => Sys2Proof.Machine.execPwrGood tests s
  | .holdOk => Sys2Proof.Machine.execHoldOk s
  | .pwrEnDeassert => Sys2Proof.Machine.execPwrEnDeassert s
  | .powerCut mv => Sys2Proof.Machine.execPowerCut mv s
  | .overvoltage mv long => Sys2Proof.Machine.execOvervoltage mv long s
  | .inputTransient peak => Sys2Proof.Machine.execInputTransient peak s
  | .inputReturn mv => Sys2Proof.Machine.execInputReturn mv s
  | .thermalShutdown die => Sys2Proof.Machine.execThermalShutdown die s
  | .coolantShutdown => Sys2Proof.Machine.execCoolantShutdown s
  | .instructionCacheFill t line => Sys2Proof.Machine.execInstructionCacheFill t line s
  | .neraxoLinkUp lanes16 => Sys2Proof.Machine.execNeraxoLinkUp lanes16 s
  | .neraxoFrameReject => Sys2Proof.Machine.execNeraxoFrameReject s
  | .commandParityError ch => Sys2Proof.Machine.execCommandParityError ch s
  | .sensorUpdate id value => Sys2Proof.Machine.execSensorUpdate id value s
  | .spdmRequest conn req => Sys2Proof.Machine.execSpdmRequest conn req s
  | .unitFailure unit => Sys2Proof.Machine.execUnitFailure unit s
  | .refclkLoss present => Sys2Proof.Machine.execRefclkLoss present s

end Sys2Proof.Machine
end

