-- ==== Sys2Proof/Machine/Step.lean ====
section
/-! DEFINITION. One step of the block: the command at the front of the queue. -/

namespace Sys2Proof.Machine
open Sys2Proof

/-- The last tick of the period that `t` lies in (R26). -/
def lastTick (t : Nat) : Nat := t / 4096 * 4096 + 4095

/-- With no command waiting a tick passes; the period does not end by itself, since a boundary is a command, and no
time passes in a module whose power is off (log 1, 44). -/
def idleTick (m : Module) : Module :=
  if m.power.off then m else { m with tick := min (m.tick + 1) (lastTick m.tick) }

/-- Take the command at the front of the queue and run it on the machine with the rest of the queue; with no command
waiting, a tick passes. -/
def step (s : State) : Host.Outcome State Fault Refusal :=
  match s.pending with
  | [] => .next { s with m := idleTick s.m }
  | c :: r => exec c { s with pending := r }

/-- `s` with the command that a word spells at the front of its queue; no word spells one. -/
def State.withFetchWord (s : State) (nbits w : Nat) : State :=
  match decodeTableWord nbits w with
  | some c => { s with pending := c :: s.pending }
  | none => s

end Sys2Proof.Machine
end

