-- ==== Sys2Proof/Safety.lean ====
section
/-! DEFINITION. The terms that claims use: what a state holds, when a thread's instruction runs without anything else
happening, and what such an instruction leaves. -/

namespace Sys2Proof.Machine
open Sys2Proof

/-- The registers of a thread. -/
def threadOf (s : State) (t : Tid) : Thread := thr (begin s) t

/-- The byte that device memory stores at a physical address. -/
def storedByte (s : State) (a : Nat) : Byte := memByte s.mem a

/-- The module has power, so that commands have their effect (R511, R516). -/
def Powered (s : State) : Prop := s.m.power.off = false

/-- The commands that the power stage takes without power as well (R511 to R517; log 44). -/
def powerStage (c : Instr) : Bool :=
  match c with
  | .pwrEnAssert | .pwrGood _ | .pwrEnDeassert | .powerCut _ | .overvoltage _ _ | .inputReturn _ => true
  | _ => false

/-- Thread `t` has its slot to itself (R143): the module is powered, the thread can issue and is not in group mode, no
interrupt that it would take is pending (R248), it has nothing paid for at the gates, an energy of `e` hundredths of a nanojoule stays below a unit of its residue (R44), and no
replay stops it after this instruction (R367). -/
def Calm (e : Nat) (t : Tid) (s : State) : Prop :=
  Powered s ∧ (canIssue (threadOf s t) = true ∧ interruptDue (begin s) t = false) ∧ (threadOf s t).gm = false
    ∧ (threadOf s t).paid = [] ∧ (threadOf s t).residue + e < energyUnit ∧ (threadOf s t).stopAt ≠ some ((threadOf s t).step + 1)

/-- Nothing but thread `t` and the event counters differs: the queue, every byte of memory, every other thread and every
other register stand. -/
def OnlyThread (t : Tid) (s s' : State) : Prop :=
  s'.pending = s.pending ∧ s'.mem = s.mem ∧ (∀ u, u ≠ t → threadOf s' u = threadOf s u)
    ∧ { s'.m with threads := s.m.threads, cnt := s.m.cnt } = s.m

/-- The same registers but for those that every instruction moves on as it retires: the program counter, the loop counts
(R149), the step counter (R32), the user event counts (R494), the cost sum (R344), the energy residue (R44) and the window
(R260). -/
def SameRegisters (a b : Thread) : Prop :=
  { a with pc := b.pc, lc0 := b.lc0, lc1 := b.lc1, step := b.step, ucnt := b.ucnt, costSum := b.costSum,
           residue := b.residue, wleft := b.wleft } = b

/-- Where a thread goes as an instruction of `words` words retires: to the target of a taken transfer, of which the two
lowest bits are ignored; else as the loop test says, which counts LC1 before LC0 (R149, R170). -/
def GoesOn (words : Nat) (target : Option Addr) (a b : Thread) : Prop :=
  match target with
  | some x => b.pc = (x >>> 2) <<< 2 ∧ b.lc0 = a.lc0 ∧ b.lc1 = a.lc1
  | none =>
    b.pc = (loopNext a.pc words a).2 ∧ b.lc0 = (loopNext a.pc words a).1.lc0 ∧ b.lc1 = (loopNext a.pc words a).1.lc1

/-- `b` is thread `a` after an instruction of `words` words retired: the same registers, moved on; one more step where it
runs at user level (R32, R33). -/
def Retired (words : Nat) (target : Option Addr) (a b : Thread) : Prop :=
  SameRegisters b a ∧ GoesOn words target a b ∧ b.step = (if a.priv then a.step else a.step + 1)

/-- Command `i` answers a next state in which thread `t` has retired an instruction whose effect on its registers is `f`,
and which beside that is `base`. -/
def CompletesFrom (base : State) (words : Nat) (target : Option Addr) (t : Tid) (s : State) (i : Instr)
    (f : Thread → Thread) : Prop :=
  ∃ s', exec i s = .next s' ∧ OnlyThread t base s' ∧ Retired words target (f (threadOf s t)) (threadOf s' t)

/-- As `CompletesFrom`, with nothing else changed. -/
def Completes (words : Nat) (target : Option Addr) (t : Tid) (s : State) (i : Instr) (f : Thread → Thread) : Prop :=
  CompletesFrom s words target t s i f

/-- As `Completes`, for an instruction of one word that is no transfer. -/
def Gives (t : Tid) (s : State) (i : Instr) (f : Thread → Thread) : Prop := Completes 1 none t s i f

/-- Command `i` writes `v` to a g register of thread `t` and retires; g0 ignores writes (R146). -/
def WritesG (t : Tid) (s : State) (i : Instr) (rd : Reg) (v : W64) : Prop := Gives t s i (putG rd v)

/-- Command `i` writes `v` to an f register of thread `t` and retires: bits [63:0] of a vector register (R147). -/
def WritesF (t : Tid) (s : State) (i : Instr) (rd : Reg) (v : Nat) : Prop := Gives t s i (putF rd (BitVec.ofNat 64 v))

/-- Command `i` answers a next state of which `P` holds. -/
def Answers (i : Instr) (s : State) (P : State → Prop) : Prop := ∃ s', exec i s = .next s' ∧ P s'

/-- The state once an operation that touches no memory has run on it. -/
def after (s : State) (f : Mach → Mach) : State := { s with m := (f (begin s)).m }

/-- No granule of device memory holds an error (R399). -/
def Sound (s : State) : Prop := s.m.hw.bad = []

/-- A taken transfer of the thread to `a` ends the invocation that it runs (R343). -/
def EndsInvocation (th : Thread) (a : Addr) : Prop :=
  (∃ i c, th.binding = .inv i c) ∧ th.priv = false ∧ (a >>> 2) <<< 2 = 0

/-- Every piece of a translated range may be accessed, and none lies in a window. -/
def Granted (cs : List Chunk) : Prop := (∀ c ∈ cs, inWindow c = none) ∧ ∀ c ∈ cs, c.pa.isSome = true

/-- Thread `t` has no stores waiting and no family of groups. -/
def Idle (t : Tid) (s : State) : Prop := (threadOf s t).sbuf = [] ∧ (threadOf s t).groups = []

/-- As `Calm`, for an instruction whose requests the gates have already admitted (R42, R44). -/
def CalmPaid (e : Nat) (t : Tid) (s : State) : Prop :=
  Powered s ∧ (canIssue (threadOf s t) = true ∧ interruptDue (begin s) t = false) ∧ (threadOf s t).gm = false
    ∧ (threadOf s t).paid = [(threadOf s t).pc.toNat] ∧ (threadOf s t).residue + e < energyUnit
    ∧ (threadOf s t).stopAt ≠ some ((threadOf s t).step + 1)

/-- A look-aside entry of the thread's vector processor serves every page of a range, so that no walk is made for it (R282,
R284). -/
def NoWalks (t : Tid) (va len : Nat) (s : State) : Prop :=
  ∀ a ∈ pagesOf va len,
    2 ^ 48 ≤ a ∨ (tlbHit (vpOf (begin s) t.vp.toNat).tlb (threadOf s t).asid a).isSome = true

/-- The state once a thread's traffic has run on it, its own requests at the gates apart: what it changes lies in the
near-memory cache and the gates behind that (R302 to R305), and in the logs of what is denied. -/
def requested (t : Tid) (f : Mach → Mach) (s : State) : State :=
  { s with m := (f { begin s with asking := some (.thread (tkey t)) }).m }

/-- The state once the walks of a thread's access to a range are made, their requests apart (R284; log 104). -/
def walked (t : Tid) (va len : Nat) (s : State) : State := requested t (threadWalks t va len) s

/-- The same, with the traffic of an access to `n` bytes at a physical address after them (R300, R302). -/
def accessed (t : Tid) (va len : Nat) (write : Bool) (a : Nat) (s : State) : State :=
  requested t (fun w => threadTraffic t write a len (threadWalks t va len w)) s

/-- As `Calm`, for an access to a range: no walk is made for it, or the gates have admitted what it asks for (R42). -/
def CalmFor (e : Nat) (t : Tid) (va len : Nat) (s : State) : Prop :=
  Calm e t s ∧ NoWalks t va len s ∨ CalmPaid e t s

/-- No output that no FWAIT covers yet meets the pieces of an access, so that they read as memory holds them (R106). -/
def Settled (cs : List Chunk) (s : State) : Prop :=
  ∀ q ∈ s.m.fqueues, ∀ o ∈ q.2.outs, ∀ r ∈ o.2, ∀ c ∈ cs, rangeMeets r.1 r.2 c = false

/-- Device memory holds `bs` from `a` on and is otherwise the same; the queue, every other thread, and every register but
those of thread `t`, the event counters, the vector processors' copies of the lines written (R161), the draw of evictions
(R306) and the model's note of writes (log 91) stand. -/
def Stores (t : Tid) (a : Nat) (bs : List Byte) (s s' : State) : Prop :=
  s'.pending = s.pending
    ∧ (∀ x, storedByte s' x = if a ≤ x ∧ x < a + bs.length then bs.getD (x - a) 0 else storedByte s x)
    ∧ (∀ u, u ≠ t → threadOf s' u = threadOf s u)
    ∧ { s'.m with threads := s.m.threads, cnt := s.m.cnt, vps := s.m.vps, free := s.m.free, wlog := s.m.wlog } = s.m

/-- Thread `t` of `s` has entered the vector of cause `c` in `s'`, at a level for an interrupt (R251, R252, R255): its PC,
its status with the vector and detail, and g1 to g7 are its newest frame; it runs the handler of the vector's entry at
supervisor level in normal mode, its interrupts masked as its VP's mode says; from user level it has exchanged g31 and
SSP. -/
def Entered (t : Tid) (c : Cause) (level : Option Nat) (s s' : State) : Prop :=
  let a := threadOf s t
  let b := threadOf s' t
  let v := vpOf (begin s) t.vp.toNat
  let e := vecEntry (begin s) t.vp.toNat c.vec
  (∃ f, b.bank = f :: a.bank ∧ f.pc = c.pc.getD a.pc
      ∧ f.estat = (tsrOf v a ||| BitVec.ofNat 64 (c.detail <<< 16 + c.vec <<< 8))
      ∧ ∀ i, 1 ≤ i ∧ i ≤ 7 → tread 0 f.g i = tread 0 a.g i)
    ∧ b.pc = e.handler ∧ b.priv = true ∧ b.gm = false ∧ b.cause = none
    ∧ b.eaddr = (if c.vec ≤ 2 then c.eaddr else a.eaddr)
    ∧ b.rlvl = (match level with | some l => BitVec.ofNat 5 l | none => a.rlvl)
    ∧ b.ie = (if v.imode then a.ie else false) ∧ b.wleft = (if v.imode then e.window else a.wleft)
    ∧ (∀ i, 1 ≤ i ∧ i ≤ 30 → tread 0 b.g i = tread 0 a.g i)
    ∧ (if a.priv then tread 0 b.g 31 = tread 0 a.g 31 ∧ b.ssp = a.ssp
       else tread 0 b.g 31 = a.ssp ∧ b.ssp = tread 0 a.g 31)
    ∧ b.v = a.v ∧ b.p = a.p ∧ b.step = a.step ∧ b.sbuf = a.sbuf

/-- Thread `t` can enter a vector without a spill: it waits for nothing, no control-register write of its waits, it has no
family, its frame bank has room, and the gates have admitted what the entry asks for. -/
def CanEnter (t : Tid) (s : State) : Prop :=
  Powered s ∧ (threadOf s t).park = .none ∧ (threadOf s t).pend = [] ∧ (threadOf s t).groups = []
    ∧ (threadOf s t).gm = false ∧ (threadOf s t).bank.length < 4 ∧ (threadOf s t).stopped = false
    ∧ (threadOf s t).gateWaits = 0 ∧ (threadOf s t).paid = [entryKey]

/-- As `Calm`, in group mode (R224): thread `t` has the one group `g`, in slot 0, ready and with every live lane; no loop is
armed. Whether it has paid at the gates is another hypothesis. -/
def OneGroup (e : Nat) (t : Tid) (s : State) (g : Group) : Prop :=
  let th := threadOf s t
  Powered s ∧ (canIssue th = true ∧ interruptDue (begin s) t = false) ∧ th.gm = true ∧ th.groups = [(0, g)] ∧ g.wait = .ready ∧ th.live = g.mask ∧ g.mask ≠ 0
    ∧ (g.pc >>> 2) <<< 2 = g.pc ∧ th.acting = none ∧ th.lc0 = 0 ∧ th.lc1 = 0 ∧ th.residue + e < energyUnit
    ∧ th.stopAt ≠ some (th.step + 1)

/-- The rows `lo` to `hi` of a tile transfer are translated and granted, row `r` at the physical address `addr r`, and lie in
no output that an FWAIT does not cover yet. -/
def Rows (t : Tid) (s : State) (n : Need) (base stride lo hi : Nat) (addr : Nat → Nat) : Prop :=
  ∀ r, lo ≤ r → r < hi →
    let va := (base + r * stride) % 2 ^ 64
    threadPieces (begin s) t n va 256 = .ok [⟨va, 256, some (addr r), none⟩]
      ∧ Settled [⟨va, 256, some (addr r), none⟩] s

/-- The rows `lo` to `hi` lie in near memory, and no walk is made for them: moving them changes nothing of the caches and
gates that lie behind. -/
def NearRows (t : Tid) (s : State) (base stride lo hi : Nat) (addr : Nat → Nat) : Prop :=
  ∀ r, lo ≤ r → r < hi → addr r + 256 ≤ 0x780000000 ∧ NoWalks t ((base + r * stride) % 2 ^ 64) 256 s

/-! ### Commands of the rings -/

/-- Command `seq`, of opcode `op`, may start now (R376, R451, R457), on a module without a twin and with no path closed by a
tally (R48). -/
def Starts (seq op : Nat) (s : State) : Prop :=
  Powered s ∧ mayStart (begin s) seq op = true ∧ s.m.hw.tally = [] ∧ s.m.twin.role = 0

/-- The gates have admitted what the keeper's work `k` asks for (R42). -/
def KeeperPaid (k : Nat) (s : State) : Prop := k ∈ s.m.kpaid ∧ waitsAtGate (begin s) (.keeper k) = false

/-- No notification is asked for at the end of command `seq` (R466), and it has no plan. -/
def Quiet (seq : Nat) (s : State) : Prop := cmdBits (cmdOf (begin s) seq) 0 8 1 = 0 ∧ tget s.m.h.plans seq = none

/-- The status word of command `seq` says that it has ended: DONE for error 0, else FAILED with it, at the present tick
(R457, R461, R462). -/
def Ended (seq err : Nat) (s : State) : Prop :=
  let x := wordOf (begin s) seq
  x.seq = seq ∧ x.state = (if err = 0 then 4 else 5) ∧ x.error = err ∧ x.tick = s.m.tick

/-- Command `i` ends the ring command `seq` with an error, 0 for none; but for the records of commands and the status words
the state is `base`. -/
def Finishes (seq err : Nat) (base : State) (i : Instr) (s : State) : Prop :=
  Answers i s fun s' => Ended seq err s' ∧ s'.pending = base.pending ∧ s'.mem = base.mem
    ∧ { s'.m with h := { s'.m.h with cmds := base.m.h.cmds, sw := base.m.h.sw } } = base.m

/-- One violation record that meets a test is new in the log, stamped at the present tick: in the place that the log's index
names, unless the record before it follows it in the merge order (R29, R242, R244). -/
def Logged (P : ViolRec → Prop) (base s' : State) : Prop :=
  s'.m.violNext = (base.m.violNext + 1) % 4096 ∧ ∃ k r, tget s'.m.vlog k = some r ∧ P r ∧ r.tick = base.m.tick ∧
    ((∀ q, tget base.m.vlog ((base.m.violNext + 4095) % 4096) = some q → violBefore r q = false) → k = base.m.violNext)

/-- A host access has been refused and logged with its function, and is the only change but for `base` (R8, R243, R449). -/
def HostLogged (code fn addr : Nat) (write : Bool) (base s' : State) : Prop :=
  s'.pending = base.pending ∧ s'.mem = base.mem
    ∧ Logged (fun r => r.code = BitVec.ofNat 16 code ∧ r.priv = false ∧ r.write = write
        ∧ r.addr = BitVec.ofNat 64 addr ∧ r.detail = BitVec.ofNat 32 fn) base s'
    ∧ { s'.m with vlog := base.m.vlog, violNext := base.m.violNext, violCount := base.m.violCount,
                  stamps := base.m.stamps } = base.m

/-- A host write outside what its function may use (R449): HOST_ACCESS. -/
def HostRefused (fn addr : Nat) (base s' : State) : Prop := HostLogged 0x0012 fn addr true base s'

/-- Handshake line `n` of vector processor `vp` has seen one event, and that is the only change but for `base` (R247). -/
def Lined (vp n : Nat) (base s' : State) : Prop :=
  s'.pending = base.pending ∧ s'.mem = base.mem
    ∧ tread {} (vpOf (begin s') vp).xcnt n = ackEvent (tread {} (vpOf (begin base) vp).xcnt n)
    ∧ (∀ k, k ≠ n → tread {} (vpOf (begin s') vp).xcnt k = tread {} (vpOf (begin base) vp).xcnt k)
    ∧ (∀ u, u ≠ vp → vpOf (begin s') u = vpOf (begin base) u)
    ∧ { s'.m with vps := base.m.vps } = base.m

/-- Unit `u` is in state `st`, and no unit but `u` and those of `others` has changed. -/
def UnitIs (u : Nat) (st : UState) (others : Nat → Prop) (s s' : State) : Prop :=
  unitState (begin s') u = st ∧ ∀ x, x ≠ u → ¬ others x → unitState (begin s') x = unitState (begin s) x

/-! ### Vectors -/

/-- An element that the V-form fields make active: with PE, its predicate bit (R196). -/
def activeElem (th : Thread) (x : VF) (k : Nat) : Bool := !x.pe || (getP th x.p).getLsbD k

/-- The element count L for elements of `w` bits (R195). -/
def elemCount (th : Thread) (w : Nat) : Nat := min th.vln.toNat (65536 / w)

/-- A register after an instruction: its active elements below `l` are new, modulo 2^w, and every other keeps its value
(R196). -/
def Elements (w l : Nat) (act : Nat → Bool) (new : Nat → Nat) (old v : VReg) : Prop :=
  ∀ k, (k + 1) * w ≤ 65536 → vget w v k = if k < l ∧ act k then new k % 2 ^ w else vget w old k

/-- Thread `b` is `a` retired but for vector register `vd`. -/
def RetiredBut (vd : Reg) (a b : Thread) : Prop :=
  Retired 1 none a { b with v := a.v } ∧ ∀ r, r ≠ vd → getV b r = getV a r

/-- The state with some events counted in the range-watch slot that the thread's CVT_SLOT names (R222). -/
def watched (t : Tid) (es : List Watch) (s : State) : State :=
  after s (rwCount (dieOfVp t.vp.toNat) (threadOf s t).cvtSlot es)

/-- Command `i` gives the active elements of `vd` below `l` new values, counts the events `es`, and retires. -/
def VecWrites (es : List Watch) (t : Tid) (s : State) (i : Instr) (vd : Reg) (w l : Nat) (act : Nat → Bool)
    (new : Nat → Nat) : Prop :=
  ∃ s', exec i s = .next s' ∧ OnlyThread t (watched t es s) s' ∧ RetiredBut vd (threadOf s t) (threadOf s' t) ∧
    Elements w l act new (getV (threadOf s t) vd) (getV (threadOf s' t) vd)

end Sys2Proof.Machine
end

