-- ==== Sys2Proof/WellFormed.lean ====
section
/-! DEFINITION. Which commands are well formed: the operand values that the encodings and the ranges of the spec admit.
A command that is not well formed stands for no word and no event of the spec; the machine still gives it an effect. -/

namespace Sys2Proof

/-- The etypes of a floating-point V form (R211): e8 is reserved, and the BF16 minors take e16. -/
def floatForm (x : VF) (bf : Bool) : Bool := x.et != 0 && (!bf || x.et == 1)

/-- The operands lie in the ranges that the row's form admits (R155, R167 to R178, R201 to R222, R448 to R456, R502). -/
def Instr.wellFormed (i : Instr) : Bool :=
  match i with
  | .add _ _ _ _ => true
  | .sub _ _ _ _ => true
  | .and _ _ _ _ => true
  | .or _ _ _ _ => true
  | .xor _ _ _ _ => true
  | .shl _ _ _ _ => true
  | .shr _ _ _ _ => true
  | .sar _ _ _ _ => true
  | .slt _ _ _ _ => true
  | .sltu _ _ _ _ => true
  | .min _ _ _ _ => true
  | .max _ _ _ _ => true
  | .minu _ _ _ _ => true
  | .maxu _ _ _ _ => true
  | .clz _ _ _ => true
  | .ctz _ _ _ => true
  | .popc _ _ _ => true
  | .mul _ _ _ _ => true
  | .mulh _ _ _ _ => true
  | .mulhu _ _ _ _ => true
  | .div _ _ _ _ => true
  | .divu _ _ _ _ => true
  | .rem _ _ _ _ => true
  | .remu _ _ _ _ => true
  | .addi _ _ _ _ => true
  | .slti _ _ _ _ => true
  | .andi _ _ _ _ => true
  | .ori _ _ _ _ => true
  | .xori _ _ _ _ => true
  | .shi _ _ _ kind _ => kind != 3
  | .lui _ _ _ => true
  | .li _ _ _ => true
  | .la _ _ _ => true
  | .ld _ _ _ width _ => width != 7
  | .st _ _ _ width _ => decide (width.toNat < 4)
  | .fld _ _ _ width _ => width == 2 || width == 3
  | .fst _ _ _ width _ => width == 2 || width == 3
  | .aadd _ _ _ _ => true
  | .aand _ _ _ _ => true
  | .aor _ _ _ _ => true
  | .axor _ _ _ _ => true
  | .amin _ _ _ _ => true
  | .amax _ _ _ _ => true
  | .aswap _ _ _ _ => true
  | .acas _ _ _ _ => true
  | .faadd _ _ _ _ _ => true
  | .beq _ _ _ _ => true
  | .bne _ _ _ _ => true
  | .blt _ _ _ _ => true
  | .bge _ _ _ _ => true
  | .bltu _ _ _ _ => true
  | .bgeu _ _ _ _ => true
  | .b _ _ => true
  | .call _ _ => true
  | .br _ _ => true
  | .callr _ _ => true
  | .ret _ => true
  | .jl _ _ => true
  | .calll _ _ => true
  | .callm _ _ => true
  | .retm _ _ => true
  | .loop _ _ _ _ => true
  | .crr _ _ _ => true
  | .crw _ _ _ => true
  | .sigsend _ _ => true
  | .gtdata _ _ _ => true
  | .nop _ => true
  | .trap _ _ => true
  | .gate _ _ => true
  | .eret _ => true
  | .csync _ => true
  | .isync _ _ _ => true
  | .fence _ => true
  | .fadd _ _ _ _ _ => true
  | .fsub _ _ _ _ _ => true
  | .fmul _ _ _ _ _ => true
  | .fdiv _ _ _ _ _ => true
  | .fsqrt _ _ _ _ => true
  | .fmin _ _ _ _ _ => true
  | .fmax _ _ _ _ _ => true
  | .fneg _ _ _ _ => true
  | .fabs _ _ _ _ => true
  | .fsgn _ _ _ _ _ => true
  | .feq _ _ _ _ _ => true
  | .flt _ _ _ _ _ => true
  | .fle _ _ _ _ _ => true
  | .funord _ _ _ _ _ => true
  | .fcvt _ _ _ op _ _ => decide (op.toNat < 5)
  | .fmvgf _ _ _ _ => true
  | .fmvfg _ _ _ _ => true
  | .fma _ _ _ _ _ _ => true
  | .fms _ _ _ _ _ _ => true
  | .fnma _ _ _ _ _ _ => true
  | .fnms _ _ _ _ _ _ => true
  | .tcfg _ _ => true
  | .tload _ _ _ _ _ stop => decide (stop.toNat ≤ 64)
  | .tstore _ _ _ _ _ stop => decide (stop.toNat ≤ 64)
  | .trel _ _ => true
  | .tileRowAbsent _ => true
  | .tileTransferEnd _ => true
  | .fop _ _ => true
  | .fwait _ _ => true
  | .xfer _ _ => true
  | .xwait _ _ => true
  | .vsetl _ _ _ _ => true
  | .vld _ _ => true
  | .vst _ _ => true
  | .vldu _ _ => true
  | .vstu _ _ => true
  | .vfadd _ x bf => floatForm x bf
  | .vfsub _ x bf => floatForm x bf
  | .vfmul _ x bf => floatForm x bf
  | .vfma _ x bf => floatForm x bf
  | .vfms _ x bf => floatForm x bf
  | .vfnma _ x bf => floatForm x bf
  | .vfnms _ x bf => floatForm x bf
  | .vadd _ _ => true
  | .vsub _ _ => true
  | .vand _ _ => true
  | .vor _ _ => true
  | .vxor _ _ => true
  | .vshl _ _ => true
  | .vshr _ _ => true
  | .vsar _ _ => true
  | .vmul _ _ => true
  | .vmulh _ _ => true
  | .vdiv _ _ => true
  | .vdivu _ _ => true
  | .vbcast _ _ => true
  | .vsadd _ _ => true
  | .vsaddu _ _ => true
  | .vssub _ _ => true
  | .vssubu _ _ => true
  | .vsdmulhRhu _ _ => true
  | .vsdmulhRne _ _ => true
  | .vrshr _ _ => true
  | .vnarrows _ x => x.et != 3
  | .vnarrowu _ x => x.et != 3
  | .vcvt _ _ _ src dst _ _ _ _ => decide (src.toNat < 13) && decide (dst.toNat < 13)
  | .vcmp _ x cc => decide (x.vd.toNat < 8) && decide (cc.toNat < 6)
  | .vcmpu _ x cc => decide (x.vd.toNat < 8) && decide (2 ≤ cc.toNat ∧ cc.toNat < 6)
  | .vfcmp _ x cc => x.et != 0 && decide (x.vd.toNat < 8) && decide (cc.toNat < 7)
  | .vsel _ x => !x.pe
  | .vmin _ _ => true
  | .vmax _ _ => true
  | .vminu _ _ => true
  | .vmaxu _ _ => true
  | .vfmin _ x => x.et != 0
  | .vfmax _ x => x.et != 0
  | .vexp2 _ x => x.et != 0
  | .vlog2 _ x => x.et != 0
  | .vrcp _ x => x.et != 0
  | .vrsqrt _ x => x.et != 0
  | .vtanh _ x => x.et != 0
  | .vredsum _ _ => true
  | .vfredsum _ x => x.et != 0
  | .vredmin _ _ => true
  | .vredmax _ _ => true
  | .vfredmin _ x => x.et != 0
  | .vfredmax _ x => x.et != 0
  | .vredand _ _ => true
  | .vredor _ _ => true
  | .vslideup _ _ => true
  | .vslidedn _ _ => true
  | .vcompress _ x => x.pe
  | .vexpand _ x => x.pe
  | .vmergec _ _ => true
  | .vmergecF _ x => x.et != 0
  | .vinter _ x => !x.pe
  | .vinterF _ x => !x.pe && x.et != 0
  | .pand _ x => decide (x.vd.toNat < 8) && decide (x.va.toNat < 8) && decide (x.vb.toNat < 8)
  | .por _ x => decide (x.vd.toNat < 8) && decide (x.va.toNat < 8) && decide (x.vb.toNat < 8)
  | .pxor _ x => decide (x.vd.toNat < 8) && decide (x.va.toNat < 8) && decide (x.vb.toNat < 8)
  | .pnot _ x => decide (x.vd.toNat < 8) && decide (x.va.toNat < 8) && decide (x.vb.toNat < 8)
  | .pcnt _ x => decide (x.va.toNat < 8) && decide (x.vb.toNat < 8)
  | .pset _ x => decide (x.vd.toNat < 8) && decide (x.va.toNat < 8) && decide (x.vb.toNat < 8)
  | .pclr _ x => decide (x.vd.toNat < 8) && decide (x.va.toNat < 8) && decide (x.vb.toNat < 8)
  | .vmac2 _ x int => int || x.et == 2 || x.et == 3
  | .vchain _ n members => members.length == n.toNat
  | .gspawn _ _ _ _ => true
  | .gexit _ => true
  | .glock _ _ => true
  | .glockRetry _ _ => true
  | .gunlock _ _ => true
  | .gbar _ _ => true
  | .gbr _ _ _ => true
  | .customInstruction _ _ _ _ _ _ => true
  | .undefinedOp _ _ => true
  | .storeBufferDrain _ => true
  | .dataCacheFill _ sector => decide (sector < 2 ^ 48) && sector % 64 == 0
  | .tableWalk _ _ => true
  | .atomicApply _ => true
  | .horizonStall _ => true
  | .nearMemoryCacheFill _ addr _ _ hint _ => decide (addr < 2 ^ 48) && hint == 0
  | .hbmChannelRun _ => true
  | .hbmRefresh _ => true
  | .exceptionEntry _ => true
  | .windowExpiry _ => true
  | .timerCompare _ _ => true
  | .fieldAdmission => true
  | .fieldCompletion => true
  | .fieldAbsentStop => true
  | .columnFail _ _ => true
  | .moverTransferStart _ _ => true
  | .moverRun _ _ => true
  | .moverAbsentStop _ _ => true
  | .moverTransferComplete _ _ => true
  | .gateAdmission res _ => decide (res.toNat < 10)
  | .periodBoundary _ _ faults => faults.all fun p => decide (p < 2 ^ 24)
  | .energyWindowEnd mj => decide (mj < 2 ^ 32)
  | .shootdownDrainReport _ use => decide (use < 4)
  | .cmdPcountWrite _ _ _ slots => slots.all fun e => decide (e.1 < 256)
  | .evtPcountWrite _ _ _ slots => slots.all fun e => decide (e.1 < 1024)
  | .rspCcountWrite _ _ _ => true
  | .msgPcountWrite _ _ _ slots => slots.all fun e => decide (e.1 < 16)
  | .hostDoorbell _ _ => true
  | .messageIntake _ => true
  | .commandIntake _ => true
  | .eventIntake _ => true
  | .journalCommit => true
  | .segmentDrain => true
  | .nopCommand _ => true
  | .runPlan _ => true
  | .planBind _ prefs => prefs.all fun k => decide (k < 256)
  | .checkpoint _ => true
  | .rollback _ prefs => prefs.all fun k => decide (k < 256)
  | .planDone _ => true
  | .move _ => true
  | .prefetch _ => true
  | .advise _ => true
  | .invalidate _ => true
  | .sessionOpen _ => true
  | .sessionClose _ => true
  | .sessionPark _ => true
  | .snapshot _ => true
  | .snapshotComplete => true
  | .replayTo _ => true
  | .journalRead _ => true
  | .budgetSet _ => true
  | .drain _ => true
  | .molt _ => true
  | .retire _ => true
  | .unitDrained unit => decide (unit < 2 ^ 16)
  | .moltComplete unit _ _ => decide (unit < 2 ^ 16)
  | .release _ => true
  | .twinPair _ => true
  | .twinMode _ => true
  | .twinFence _ => true
  | .twinTakeover _ => true
  | .twinResolve _ => true
  | .invocationStart _ pref => decide (pref < 2 ^ 32)
  | .invocationLimit _ => true
  | .decodeLoad _ => true
  | .decodeCheck => true
  | .decodeInstall => true
  | .violRead _ => true
  | .errRead _ => true
  | .xlinv _ => true
  | .registerWrite _ off n _ => decide (off < 2 ^ 26) && decide (0 < n ∧ n ≤ 8)
  | .ackWrite _ off _ => decide (off < 2 ^ 26)
  | .loReadLatch _ off n => decide (off < 2 ^ 26) && decide (0 < n ∧ n ≤ 8)
  | .detWrite _ => true
  | .cfglockWrite _ => true
  | .dieReset _ => true
  | .dieWedged _ => true
  | .take _ _ => true
  | .cntSnap _ => true
  | .cntClear _ => true
  | .weevilStart _ => true
  | .weevilAbort _ => true
  | .weevilRunEnd _ _ _ errs => errs.all fun e => decide (e.1 < 2 ^ 26)
  | .scrubRead addr _ _ => decide (addr < 2 ^ 48)
  | .regenerationComplete _ => true
  | .tierBankCopyEnd unit => decide (unit < 2 ^ 16)
  | .restripeEnd _ lost => lost.all fun g => decide (g < 2 ^ 43)
  | .channelGraceExpiry _ => true
  | .vpDrainExpiry _ => true
  | .bridgeFlitRetry _ _ => true
  | .traceRecordWrite _ _ => true
  | .holdupMeasure _ => true
  | .nandRetentionRefresh _ => true
  | .idle => true
  | .link _ _ credits jseqc => decide (jseqc < 2 ^ 64) && decide (credits.length ≤ 8)
  | .cicada tick _ _ jseqc _ _ _ _ _ => decide (tick < 2 ^ 64) && decide (jseqc < 2 ^ 64)
  | .cut tick _ => decide (tick < 2 ^ 64)
  | .ctrl _ _ => true
  | .jrec _ recs => recs.all fun e => decide (e.1 < 2 ^ 32)
  | .input _ _ cmd _ _ _ _ => decide (cmd < 2 ^ 32)
  | .digest _ _ => true
  | .snap _ _ => true
  | .fetchReq _ _ => true
  | .fetchData _ _ => true
  | .twinSilent => true
  | .twinDegraded => true
  | .twinPresent _ => true
  | .laneFailure _ => true
  | .functionLevelReset _ => true
  | .perst _ => true
  | .configurationRequest _ _ => true
  | .pcieLinkTraining _ _ => true
  | .bar4Access write _ n data => decide (0 < n) && decide (n ≤ 4096) && (!write || data.length == n)
  | .bar4Resize size => decide (size < 2 ^ 44)
  | .atsTranslationCompletion _ page _ _ => decide (page < 2 ^ 36)
  | .atsInvalidateRequest _ page pages => decide (page < 2 ^ 36) && decide (pages ≤ 2 ^ 36)
  | .invalidateCompletion => true
  | .ideKm _ _ => true
  | .measurements _ _ _ => true
  | .challenge _ _ => true
  | .setCertificate _ _ _ => true
  | .pqCert _ => true
  | .pqSig _ => true
  | .ownerEnroll _ _ _ _ _ => true
  | .ownerRelease _ _ _ => true
  | .recordSupply _ _ _ _ _ _ _ _ => true
  | .firmwareTransfer _ off data => decide (off + data.length ≤ 2 ^ 32)
  | .verifyComplete _ => true
  | .activateFirmware _ => true
  | .pwrEnAssert => true
  | .pwrGood tests => tests.channels.all (fun c => decide (c < 512)) && tests.banks.all (fun b => decide (b < 640))
  | .holdOk => true
  | .pwrEnDeassert => true
  | .powerCut mv => decide (mv < 2 ^ 20)
  | .overvoltage mv _ => decide (mv < 2 ^ 20)
  | .inputTransient peak => decide (peak < 2 ^ 20)
  | .inputReturn mv => decide (mv < 2 ^ 20)
  | .thermalShutdown _ => true
  | .coolantShutdown => true
  | .instructionCacheFill _ line => decide (line < 2 ^ 64) && line % 256 == 0
  | .neraxoLinkUp _ => true
  | .neraxoFrameReject => true
  | .commandParityError _ => true
  | .sensorUpdate _ value => decide (value < 2 ^ 32)
  | .spdmRequest _ _ => true
  | .unitFailure unit => decide (unit < 2 ^ 16)
  | .refclkLoss _ => true

end Sys2Proof
end

