-- ==== Sys2Proof/Certificates/Slice0/Obligations.lean ====
section
/-! DEFINITION. The statements for the provers, family by family. -/

open Sys2Proof Sys2Proof.Machine

/-! ### The block as a whole -/

/-- A step takes the command at the front of the queue and runs it on the machine with the queue's rest (log 1). With no
command waiting a tick passes, never past the last tick of a period, and nothing else changes; without power nothing does.
The tick of an empty queue is the model's choice (log 1, 44). -/
def Obligations.StepRunsTheFrontCommand : Prop :=
  (∀ (c : Instr) (r : List Instr) (s : State), s.pending = c :: r → step s = exec c { s with pending := r }) ∧
  ∀ s : State, s.pending = [] →
    (s.m.power.off = true → step s = .next s) ∧
    (s.m.power.off = false →
      step s = .next { s with m := { s.m with tick := min (s.m.tick + 1) (s.m.tick / 4096 * 4096 + 4095) } })

/-- Device memory stays in its canonical form through every step. -/
def Obligations.EveryStepKeepsMemoryForm : Prop :=
  ∀ s s' : State, memWf s.mem = true → step s = .next s' → memWf s'.mem = true

/-- No command faults and none is refused: every command of the table completes in every state. Every command leaves the
queue's rest as it is and device memory in its canonical form. -/
def Obligations.EveryCommandCompletes : Prop :=
  (∀ (c : Instr) (s : State), ∃ s', exec c s = .next s') ∧
  (∀ (c : Instr) (s s' : State), exec c s = .next s' →
     s'.pending = s.pending ∧ (memWf s.mem = true → memWf s'.mem = true))

/-! ### Scalar registers -/

/-- g0 reads as zero and ignores writes; any other register reads as it was last written, and a write reaches no other. A
scalar write to fN replaces bits [63:0] of vN alone. -/
def Obligations.RegistersReadBack : Prop :=
  (∀ (th : Thread) (rd r : Reg) (v : W64), th.gm = false →
     getG th 0 = 0 ∧ putG 0 v th = th ∧
     getG (putG rd v th) r = if r = rd ∧ rd ≠ 0 then v else getG th r) ∧
  (∀ (th : Thread) (rd r : Reg) (v : W64),
     getF (putF rd v th) r = (if r = rd then v else getF th r) ∧
     (getV (putF rd v th) rd) >>> 64 = (getV th rd) >>> 64 ∧
     (r ≠ rd → getV (putF rd v th) r = getV th r))

/-! ### Integer instructions -/

/-- The one-turn register forms of the integer group: what each writes, in a slot that its thread can use. Division and
remainder, 8 turns: quotients round toward zero; by zero the quotient is all ones and the remainder the dividend, and −2⁶³ by
−1 gives −2⁶³ and 0. The forms with an immediate, and the long forms, which move on by two words. -/
def Obligations.IntegerInstructions : Prop :=
  ((∀ (t : Tid) (s : State) (rd ra rb : Reg), Calm 15 t s →
      let a := getG (threadOf s t) ra
      let b := getG (threadOf s t) rb
      let n := (b.setWidth 6).toNat
      WritesG t s (.add t rd ra rb) rd (a + b) ∧
      WritesG t s (.sub t rd ra rb) rd (a - b) ∧
      WritesG t s (.and t rd ra rb) rd (a &&& b) ∧
      WritesG t s (.or t rd ra rb) rd (a ||| b) ∧
      WritesG t s (.xor t rd ra rb) rd (a ^^^ b) ∧
      WritesG t s (.shl t rd ra rb) rd (a <<< n) ∧
      WritesG t s (.shr t rd ra rb) rd (a >>> n) ∧
      WritesG t s (.sar t rd ra rb) rd (a.sshiftRight n) ∧
      WritesG t s (.slt t rd ra rb) rd (if a.toInt < b.toInt then 1 else 0) ∧
      WritesG t s (.sltu t rd ra rb) rd (if a.toNat < b.toNat then 1 else 0) ∧
      WritesG t s (.min t rd ra rb) rd (BitVec.ofInt 64 (min a.toInt b.toInt)) ∧
      WritesG t s (.max t rd ra rb) rd (BitVec.ofInt 64 (max a.toInt b.toInt)) ∧
      WritesG t s (.minu t rd ra rb) rd (BitVec.ofNat 64 (min a.toNat b.toNat)) ∧
      WritesG t s (.maxu t rd ra rb) rd (BitVec.ofNat 64 (max a.toNat b.toNat)) ∧
      WritesG t s (.clz t rd ra) rd a.clz ∧
      WritesG t s (.ctz t rd ra) rd a.ctz ∧
      WritesG t s (.popc t rd ra) rd a.cpop ∧
      WritesG t s (.mul t rd ra rb) rd (a * b) ∧
      WritesG t s (.mulh t rd ra rb) rd (((a.signExtend 128 * b.signExtend 128) >>> 64).setWidth 64) ∧
      WritesG t s (.mulhu t rd ra rb) rd (((a.setWidth 128 * b.setWidth 128) >>> 64).setWidth 64)) ∧
   (∀ (t : Tid) (s : State) (rd ra rb : Reg), Calm 120 t s →
      let a := getG (threadOf s t) ra
      let b := getG (threadOf s t) rb
      WritesG t s (.div t rd ra rb) rd (if b = 0 then BitVec.allOnes 64 else BitVec.ofInt 64 (a.toInt.tdiv b.toInt)) ∧
      WritesG t s (.divu t rd ra rb) rd (if b = 0 then BitVec.allOnes 64 else BitVec.ofNat 64 (a.toNat / b.toNat)) ∧
      WritesG t s (.rem t rd ra rb) rd (if b = 0 then a else BitVec.ofInt 64 (a.toInt.tmod b.toInt)) ∧
      WritesG t s (.remu t rd ra rb) rd (if b = 0 then a else BitVec.ofNat 64 (a.toNat % b.toNat)))) ∧
  (∀ (t : Tid) (s : State) (rd ra : Reg) (imm : BitVec 16) (imm48 : BitVec 48) (n : BitVec 6), Calm 15 t s →
     let a := getG (threadOf s t) ra
     WritesG t s (.addi t rd ra imm) rd (a + imm.signExtend 64) ∧
     WritesG t s (.slti t rd ra imm) rd (if a.toInt < imm.toInt then 1 else 0) ∧
     WritesG t s (.andi t rd ra imm) rd (a &&& imm.setWidth 64) ∧
     WritesG t s (.ori t rd ra imm) rd (a ||| imm.setWidth 64) ∧
     WritesG t s (.xori t rd ra imm) rd (a ^^^ imm.setWidth 64) ∧
     WritesG t s (.shi t rd ra 0 n) rd (a <<< n.toNat) ∧
     WritesG t s (.shi t rd ra 1 n) rd (a >>> n.toNat) ∧
     WritesG t s (.shi t rd ra 2 n) rd (a.sshiftRight n.toNat) ∧
     WritesG t s (.lui t rd imm) rd (imm.signExtend 64 <<< 16) ∧
     Completes 2 none t s (.li t rd imm48) (putG rd (imm48.signExtend 64)) ∧
     Completes 2 none t s (.la t rd imm48)
       (fun th => putG rd (imm48.signExtend 64 + th.pc.setWidth 64) th))

/-- A reserved form is an undefined word: it does exactly what UNDEFINED_OP does with its bits, which its encoding gives. An
undefined word retires as a no-op of one word, and the violation UNDEFINED_OP is logged with its program counter and the
word; nothing else changes. A word that spells an instruction is no undefined one, and nothing happens. A violation record:
its unit's next stamp, the code, the privilege, the kind, the address, the word and the epoch, in the place that the log's
index names, unless the newest record follows it in the merge order: that one then stands there. The index and the count move
on, and memory, the threads and the queue stand. -/
def Obligations.UndefinedWordsAreLoggedNoOps : Prop :=
  (∀ (t : Tid) (s : State) (rd ra : Reg) (n : BitVec 6) (w3 : BitVec 3) (off : BitVec 13) (op : BitVec 5) (dbl : Bool)
       (rm : BitVec 2),
     exec (.shi t rd ra 3 n) s
       = exec (.undefinedOp t ((0x07 : BitVec 6) ++ rd ++ ra ++ (0 : BitVec 8) ++ (3 : BitVec 2) ++ n)) s ∧
     exec (.ld t rd ra 7 off) s = exec (.undefinedOp t ((0x09 : BitVec 6) ++ rd ++ ra ++ (7 : BitVec 3) ++ off)) s ∧
     (4 ≤ w3.toNat →
       exec (.st t rd ra w3 off) s = exec (.undefinedOp t ((0x0A : BitVec 6) ++ rd ++ ra ++ w3 ++ off)) s) ∧
     (w3 ≠ 2 ∧ w3 ≠ 3 →
       exec (.fld t rd ra w3 off) s = exec (.undefinedOp t ((0x0B : BitVec 6) ++ rd ++ ra ++ w3 ++ off)) s ∧
       exec (.fst t rd ra w3 off) s = exec (.undefinedOp t ((0x0C : BitVec 6) ++ rd ++ ra ++ w3 ++ off)) s) ∧
     (5 ≤ op.toNat →
       exec (.fcvt t rd ra op dbl rm) s = exec (.undefinedOp t
         ((0x1B : BitVec 6) ++ rd ++ ra ++ op ++ (0 : BitVec 2) ++ rm ++ BitVec.ofBool dbl ++ (0x0E : BitVec 6))) s)) ∧
  (∀ (t : Tid) (s : State) (word : BitVec 32), Calm 15 t s →
     (undefinedFor (begin s) t word = true →
       CompletesFrom (after s (violThread t vcUndefinedOp false (threadOf s t).pc.toNat word)) 1 none t s
         (.undefinedOp t word) id) ∧
     (undefinedFor (begin s) t word = false → exec (.undefinedOp t word) s = .next s)) ∧
  (∀ (w : Mach) (unit code addr : Nat) (priv write : Bool) (detail : W32), ackFull w.m.violCount = false →
     let st := nextStamp unit w
     let w' := violation unit code priv write addr detail w
     let r : ViolRec :=
       { tick := st.tick, source := sourceOf unit, seq := BitVec.ofNat 16 st.seq, code := BitVec.ofNat 16 code,
         priv := priv, write := write, addr := BitVec.ofNat 64 addr, detail := detail, epoch := BitVec.ofNat 32 w.m.epoch }
     let newest := tget w.m.vlog ((w.m.violNext + 4095) % 4096)
     ((∀ q, newest = some q → violBefore r q = false) →
       tget w'.m.vlog w.m.violNext = some r ∧ ∀ k, k ≠ w.m.violNext → tget w'.m.vlog k = tget w.m.vlog k) ∧
     (∀ q, newest = some q → violBefore r q = true → tget w'.m.vlog w.m.violNext = some q) ∧
     w'.m.violNext = (w.m.violNext + 1) % 4096 ∧
     (ackOut w'.m.violCount).toNat = (ackOut w.m.violCount).toNat + 1 ∧
     w'.mem = w.mem ∧ w'.wr = w.wr ∧
     { w'.m with vlog := w.m.vlog, violNext := w.m.violNext, violCount := w.m.violCount, stamps := w.m.stamps } = w.m)

/-! ### Number formats and scalar floating point -/

/-- Rounding to nearest, ties to even: a magnitude m × 2^e becomes the multiple r of 2^q that is no further than half a unit
away, and an even one from half way. Every encoding of a floating-point format that is no NaN encodes its own value. -/
def Obligations.NumbersRoundAndEncode : Prop :=
  (∀ (m : Nat) (e q : Int), e < q →
     let d := (q - e).toNat
     let r := roundTo .rne m e q
     2 * ((r : Int) * 2 ^ d - m).natAbs ≤ 2 ^ d ∧
     (2 * ((r : Int) * 2 ^ d - m).natAbs = 2 ^ d → r % 2 = 0)) ∧
  (∀ f ∈ [b64, b32, b16, bf16, e4m3, e5m2, e2m1], ∀ b < 2 ^ (1 + f.eb + f.fb), decodeF f b ≠ .nan →
     rneF f (decodeF f b) = b)

/-- Scalar arithmetic: the exact result of the operands' values, rounded once to nearest, in an f register. The scalar
operations that do not round: minimum and maximum, the sign-bit operations, the moves of bits, and the comparisons, which
write a g register. FCVT by its rb field, under round to nearest, round toward zero, or stochastic rounding from the
generator: to the other precision, to a 64-bit integer (which saturates), or from one. -/
def Obligations.ScalarFloatInstructions : Prop :=
  ((∀ (t : Tid) (s : State) (rd ra rb rc : Reg) (dbl : Bool), Calm 180 t s →
      let f := if dbl then b64 else b32
      let low (r : Reg) : Nat := if dbl then (getF (threadOf s t) r).toNat else (getF (threadOf s t) r).toNat % 2 ^ 32
      let a := decodeF f (low ra)
      let b := decodeF f (low rb)
      let c := decodeF f (low rc)
      WritesF t s (.fadd t rd ra rb dbl) rd (rneF f (addN a b)) ∧
      WritesF t s (.fsub t rd ra rb dbl) rd (rneF f (addN a (negN b))) ∧
      WritesF t s (.fmul t rd ra rb dbl) rd (rneF f (mulN a b)) ∧
      WritesF t s (.fdiv t rd ra rb dbl) rd (rneF f (divN f.fb a b)) ∧
      WritesF t s (.fsqrt t rd ra dbl) rd (rneF f (sqrtN f.fb a)) ∧
      WritesF t s (.fma t rd ra rb rc dbl) rd (rneF f (addN (mulN a b) c)) ∧
      WritesF t s (.fms t rd ra rb rc dbl) rd (rneF f (addN (mulN a b) (negN c))) ∧
      WritesF t s (.fnma t rd ra rb rc dbl) rd (rneF f (addN (mulN (negN a) b) (negN c))) ∧
      WritesF t s (.fnms t rd ra rb rc dbl) rd (rneF f (addN (mulN (negN a) b) c))) ∧
   (∀ (t : Tid) (s : State) (rd ra rb : Reg) (dbl : Bool), Calm 15 t s →
      let n := if dbl then 64 else 32
      let f := if dbl then b64 else b32
      let low (r : Reg) : Nat := (getF (threadOf s t) r).toNat % 2 ^ n
      let a := low ra
      let b := low rb
      let x := decodeF f a
      let y := decodeF f b
      let sign (v : Nat) : Nat := v / 2 ^ (n - 1)
      WritesF t s (.fmin t rd ra rb dbl) rd (maxMinF f false a b) ∧
      WritesF t s (.fmax t rd ra rb dbl) rd (maxMinF f true a b) ∧
      WritesF t s (.fneg t rd ra dbl) rd (a % 2 ^ (n - 1) + (1 - sign a) * 2 ^ (n - 1)) ∧
      WritesF t s (.fabs t rd ra dbl) rd (a % 2 ^ (n - 1)) ∧
      WritesF t s (.fsgn t rd ra rb dbl) rd (a % 2 ^ (n - 1) + sign b * 2 ^ (n - 1)) ∧
      WritesF t s (.fmvgf t rd ra dbl) rd ((getG (threadOf s t) ra).toNat % 2 ^ n) ∧
      WritesG t s (.fmvfg t rd ra dbl) rd (BitVec.ofNat 64 a) ∧
      WritesG t s (.feq t rd ra rb dbl) rd (if eqN x y then 1 else 0) ∧
      WritesG t s (.flt t rd ra rb dbl) rd (if ltN x y then 1 else 0) ∧
      WritesG t s (.fle t rd ra rb dbl) rd (if ltN x y || eqN x y then 1 else 0) ∧
      WritesG t s (.funord t rd ra rb dbl) rd (if unordN x y then 1 else 0))) ∧
  (∀ (t : Tid) (s : State) (rd ra : Reg) (dbl : Bool) (rm : BitVec 2), Calm 15 t s →
     let th := threadOf s t
     (rm = 2 → th.rngsel = false ∨ th.det = true) →
     let mode : Rm := if rm = 1 then .rtz else if rm = 2 then .sr (drawSr th.seed th.step.toNat 0 127) else .rne
     let f := if dbl then b64 else b32
     let other := if dbl then b32 else b64
     let v := decodeF f (if dbl then (getF th ra).toNat else (getF th ra).toNat % 2 ^ 32)
     WritesF t s (.fcvt t rd ra 0 dbl rm) rd (encodeF other mode false v).1 ∧
     WritesG t s (.fcvt t rd ra 1 dbl rm) rd (BitVec.ofInt 64 (toRange (-(2 ^ 63)) (2 ^ 63 - 1) mode v).1) ∧
     WritesF t s (.fcvt t rd ra 2 dbl rm) rd (encodeF f mode false (ofInt (getG th ra).toInt)).1 ∧
     WritesG t s (.fcvt t rd ra 3 dbl rm) rd (BitVec.ofInt 64 (toRange 0 (2 ^ 64 - 1) mode v).1) ∧
     WritesF t s (.fcvt t rd ra 4 dbl rm) rd (encodeF f mode false (ofInt (getG th ra).toNat)).1)

/-! ### Control flow -/

/-- A conditional branch that holds goes to its target, in words from the branch itself; one that does not hold goes on. A
taken branch that ends an invocation is another statement's. Jumps and calls: the target, and g30 set to the address after
the call's words; BR, CALLR and RET read their register before g30 is written. -/
def Obligations.Transfers : Prop :=
  (∀ (t : Tid) (s : State) (ra rb : Reg) (off : BitVec 16), Calm 15 t s →
     let th := threadOf s t
     let a := getG th ra
     let b := getG th rb
     let target := th.pc + off.signExtend 48 * 4
     let does (i : Instr) (holds : Bool) : Prop :=
       (holds = true → ¬EndsInvocation th target) → Completes 1 (if holds then some target else none) t s i id
     does (.beq t ra rb off) (a == b) ∧
     does (.bne t ra rb off) (a != b) ∧
     does (.blt t ra rb off) (decide (a.toInt < b.toInt)) ∧
     does (.bge t ra rb off) (decide (b.toInt ≤ a.toInt)) ∧
     does (.bltu t ra rb off) (decide (a.toNat < b.toNat)) ∧
     does (.bgeu t ra rb off) (decide (b.toNat ≤ a.toNat))) ∧
  (∀ (t : Tid) (s : State) (ra : Reg) (off : BitVec 26) (target : BitVec 48), Calm 15 t s →
     let th := threadOf s t
     let near := th.pc + off.signExtend 48 * 4
     let reg := (getG th ra).setWidth 48
     let back := (getG th 30).setWidth 48
     let link (n : Addr) : Thread → Thread := putG 30 ((th.pc + n).setWidth 64)
     (¬EndsInvocation th near →
       Completes 1 (some near) t s (.b t off) id ∧
       Completes 1 (some near) t s (.call t off) (link 4)) ∧
     (¬EndsInvocation th reg →
       Completes 1 (some reg) t s (.br t ra) id ∧
       Completes 1 (some reg) t s (.callr t ra) (link 4)) ∧
     (¬EndsInvocation th back → Completes 1 (some back) t s (.ret t) id) ∧
     (¬EndsInvocation th target →
       Completes 2 (some target) t s (.jl t target) id ∧
       Completes 2 (some target) t s (.calll t target) (link 8)))

/-- LOOP arms a level: LSn is the next word, LEn the word of the offset, LCn the count; a count of 0 goes past LEn. What CRW
had left waiting for these registers is gone. The loop test as an instruction retires at LEn: level 1 first, and level 0 only
when level 1 falls through; a count of 1 falls through and becomes 0, a higher one goes back to LSn and is one less. -/
def Obligations.Loops : Prop :=
  (∀ (t : Tid) (s : State) (gs : Reg) (imm : BitVec 12), Calm 15 t s →
     let th := threadOf s t
     let ls := th.pc + 4
     let le := ls + imm.setWidth 48 * 4
     let n := getG th gs
     let past : Option Addr := if n = 0 then some (le + 4) else none
     Completes 1 past t s (.loop t gs false imm)
       (fun x => { x with ls0 := ls, le0 := le, lc0 := n, pend := tdel (tdel (tdel x.pend 0x10) 0x12) 0x13 }) ∧
     Completes 1 past t s (.loop t gs true imm)
       (fun x => { x with ls1 := ls, le1 := le, lc1 := n, pend := tdel (tdel (tdel x.pend 0x11) 0x14) 0x15 })) ∧
  (∀ (th : Thread) (k : Nat),
     let fall := th.pc + BitVec.ofNat 48 (4 * k)
     (th.le0 ≠ th.pc ∧ th.le1 ≠ th.pc ∧ (k = 2 → th.le0 ≠ th.pc + 4 ∧ th.le1 ≠ th.pc + 4) →
       loopNext th.pc k th = (th, fall)) ∧
     (th.le1 = th.pc ∧ 1 < th.lc1.toNat → loopNext th.pc k th = ({ th with lc1 := th.lc1 - 1 }, th.ls1)) ∧
     (th.le1 = th.pc ∧ th.lc1 = 1 ∧ th.le0 = th.pc ∧ 1 < th.lc0.toNat →
       loopNext th.pc k th = ({ th with lc1 := 0, lc0 := th.lc0 - 1 }, th.ls0)) ∧
     (k = 1 ∧ th.le1 ≠ th.pc ∧ th.le0 = th.pc ∧ th.lc0 = 1 → loopNext th.pc k th = ({ th with lc0 := 0 }, fall)) ∧
     (k = 1 ∧ th.le1 ≠ th.pc ∧ th.le0 = th.pc ∧ 1 < th.lc0.toNat →
       loopNext th.pc k th = ({ th with lc0 := th.lc0 - 1 }, th.ls0)))

/-! ### Loads, stores and atomics -/

/-- A thread's load sees, at each byte, the youngest of its buffered stores that covers it, and memory elsewhere; an output
that no FWAIT covers yet is a free value. Loads whose range is translated, granted and in the data cache: LD writes its
register with the bytes it sees, extended by its width, FLD its f register. Nothing is stored, and beside the walks that the
look-aside buffer did not spare nothing else changes. A scalar access that may not be made: a load reads zero and a store
changes nothing, each is logged, as STALE_UNIT on a fenced die, and the instruction completes. An absent translation is the
thread's fault instead: it has not retired, and nothing else has changed. -/
def Obligations.Loads : Prop :=
  ((∀ (w : Mach) (th : Thread) (sb : List StoreEntry) (e : StoreEntry) (x : Nat),
      (outOpen w x = false → loadByte w { th with sbuf := [] } x = byteAt w x) ∧
      (outOpen w x = true →
        loadByte w { th with sbuf := [] } x = BitVec.ofNat 8 (Config.unspecified w.m.free x)) ∧
      loadByte w { th with sbuf := sb ++ [e] } x =
        if e.addr ≤ x ∧ x < e.addr + e.bytes.length then e.bytes.getD (x - e.addr) 0
        else loadByte w { th with sbuf := sb } x) ∧
   (∀ (t : Tid) (s : State) (rd ra : Reg) (width : BitVec 3) (off : BitVec 13) (cs : List Chunk),
      Sound s → Granted cs → Settled cs s →
      let va := (getG (threadOf s t) ra + off.signExtend 64).toNat
      let loads (n : Nat) (i : Instr) (put : Nat → Thread → Thread) : Prop :=
        let b := walked t va n s
        CalmFor 30 t va n s → scalarPieces (begin b) t .read va n = .ok cs → missing (begin b) t.vp.toNat cs = [] →
          CompletesFrom b 1 none t s i fun th =>
            put (ofBytes (loadPieces (begin b) (threadOf s t) cs)) { th with paid := [] }
      let ld (n : Nat) (x : Nat → W64) : Prop := loads n (.ld t rd ra width off) fun v => putG rd (x v)
      (width = 0 → ld 1 fun v => (BitVec.ofNat 8 v).signExtend 64) ∧
      (width = 1 → ld 2 fun v => (BitVec.ofNat 16 v).signExtend 64) ∧
      (width = 2 → ld 4 fun v => (BitVec.ofNat 32 v).signExtend 64) ∧
      (width = 3 → ld 8 fun v => BitVec.ofNat 64 v) ∧
      (width = 4 → ld 1 fun v => (BitVec.ofNat 8 v).setWidth 64) ∧
      (width = 5 → ld 2 fun v => (BitVec.ofNat 16 v).setWidth 64) ∧
      (width = 6 → ld 4 fun v => (BitVec.ofNat 32 v).setWidth 64) ∧
      (width = 2 → loads 4 (.fld t rd ra width off) fun v => putF rd (BitVec.ofNat 64 v)) ∧
      (width = 3 → loads 8 (.fld t rd ra width off) fun v => putF rd (BitVec.ofNat 64 v)))) ∧
  (∀ (t : Tid) (s : State) (rd ra : Reg) (off : BitVec 13),
     let th := threadOf s t
     let va := (getG th ra + off.signExtend 64).toNat
     let b := walked t va 8 s
     CalmFor 30 t va 8 s →
     let word (major : BitVec 6) : BitVec 32 := major ++ rd ++ ra ++ (3 : BitVec 3) ++ off
     let logged (code : Nat) (wr : Bool) (major : BitVec 6) (i : Instr) (put : Thread → Thread) : Prop :=
       CompletesFrom (after b (violThread t code wr va (word major))) 1 none t s i fun x => put { x with paid := [] }
     let fault (wr : Bool) (a : Nat) (i : Instr) : Prop :=
       Answers i s fun s' => OnlyThread t b s' ∧
         threadOf s' t = { th with paid := [],
                                   cause := some { vec := 2, detail := if wr then 0x81 else 0x01, eaddr := BitVec.ofNat 64 a } }
     (∀ st : Option Nat, scalarPieces (begin b) t .read va 8 = .ok [⟨va, 8, none, st⟩] → Sound s →
       let code := if st.isSome then vcStaleUnit else vcProtRead
       logged code false 0x09 (.ld t rd ra 3 off) (putG rd 0) ∧ logged code false 0x0B (.fld t rd ra 3 off) (putF rd 0)) ∧
     (∀ st : Option Nat, scalarPieces (begin b) t .write va 8 = .ok [⟨va, 8, none, st⟩] → th.sbuf.length ≤ 8 →
       let code := if st.isSome then vcStaleUnit else vcProtWrite
       logged code true 0x0A (.st t rd ra 3 off) id ∧ logged code true 0x0C (.fst t rd ra 3 off) id) ∧
     (∀ a, scalarPieces (begin b) t .read va 8 = .error a →
       fault false a (.ld t rd ra 3 off) ∧ fault false a (.fld t rd ra 3 off)) ∧
     (∀ a, scalarPieces (begin b) t .write va 8 = .error a →
       fault true a (.st t rd ra 3 off) ∧ fault true a (.fst t rd ra 3 off)))

/-- Stores whose range is translated and granted enter the store buffer while it has room: the low bytes of the register, at
the translated addresses. Memory changes only as the buffer drains. A store within one page and one 64-byte sector is one
buffer entry with exactly the stored bytes; across a sector it is two, which hold the bytes up to the boundary and those from
it, and which drain together. STORE_BUFFER_DRAIN: the oldest buffered store, both entries of one that crosses a sector, goes
to memory and leaves the buffer; the bytes stored are its entry's, at the entry's address, and no others. The port of a fenced
vector processor ignores and logs it. FENCE with an empty
store buffer is one turn with no effect; with stores waiting it retires and its thread parks until the buffer is empty. ISYNC
drops the lines of its range, or every line for a length of 0, from the instruction cache. -/
def Obligations.StoresAndTheStoreBuffer : Prop :=
  ((∀ (t : Tid) (s : State) (rd ra : Reg) (width : BitVec 3) (off : BitVec 13) (cs : List Chunk), Granted cs →
      let th := threadOf s t
      let va := (getG th ra + off.signExtend 64).toNat
      let n := 2 ^ width.toNat
      let b := walked t va n s
      CalmFor 30 t va n s → scalarPieces (begin b) t .write va n = .ok cs →
      let buffers (i : Instr) (v : W64) : Prop :=
        let es := (storeChunks cs (toBytes n v.toNat)).map fun e => { e with born := s.m.x.drops }
        th.sbuf.length + es.length ≤ 8 →
          CompletesFrom b 1 none t s i fun x => { x with paid := [], sbuf := x.sbuf ++ es }
      (width.toNat ≤ 3 → buffers (.st t rd ra width off) (getG th rd)) ∧
      (width = 2 ∨ width = 3 → buffers (.fst t rd ra width off) (getF th rd))) ∧
   (∀ (va a : Nat) (bs : List Byte),
      let k := 64 - a % 64
      (bs.length ≤ k → storeChunks [⟨va, bs.length, some a, none⟩] bs = [{ addr := a, bytes := bs }]) ∧
      (k < bs.length → storeChunks [⟨va, bs.length, some a, none⟩] bs
        = [{ addr := a, bytes := bs.take k, pair := true }, { addr := a + k, bytes := bs.drop k }])) ∧
   (∀ (t : Tid) (s : State) (e e' : StoreEntry) (r : List StoreEntry),
      let th := threadOf s t
      Powered s → Sound s → th.gateWaits = 0 → th.park = .none → th.groups = [] →
      let stale := fenced (begin s) (unitVp t.vp.toNat)
      (th.sbuf = [e] → th.paid = [2 ^ 48] → stale = true → Answers (.storeBufferDrain t) s fun s' => s'.mem = s.mem ∧
        (threadOf s' t).sbuf = [] ∧ (ackFull s.m.violCount = false →
          Logged (fun r => r.code = 0x0011 ∧ r.write = true ∧ r.addr = BitVec.ofNat 64 e.addr) s s')) ∧
      let drains (es : List StoreEntry) (a : Nat) (bs : List Byte) : Prop := stale = false →
        (th.paid = [] → (∀ x ∈ es, cached (vpOf (begin s) t.vp.toNat) x.addr = true) →
          Answers (.storeBufferDrain t) s fun s' => Stores t a bs s s' ∧ threadOf s' t = { th with sbuf := r }) ∧
        (th.paid = [2 ^ 48] →
          Answers (.storeBufferDrain t) s fun s' => (threadOf s' t).sbuf = r ∧ (threadOf s' t).paid = [] ∧
            ∀ x, storedByte s' x = if a ≤ x ∧ x < a + bs.length then bs.getD (x - a) 0 else storedByte s x)
      (th.sbuf = e :: r → (e.pair = false ∨ r = []) → drains [e] e.addr e.bytes) ∧
      (th.sbuf = e :: e' :: r → e.pair = true → e'.addr = e.addr + e.bytes.length →
        drains [e, e'] e.addr (e.bytes ++ e'.bytes)))) ∧
  (∀ (t : Tid) (s : State) (ra rb : Reg), Calm 1020 t s →
     let th := threadOf s t
     let v := vpOf (begin s) t.vp.toNat
     let a := (getG th ra).toNat
     let n := (getG th rb).toNat
     let stays (k : Nat) : Bool := decide (n ≠ 0 ∧ (k % 2 ^ 48 + 256 ≤ a ∨ a + n ≤ k % 2 ^ 48))
     (th.sbuf = [] → Gives t s (.fence t) id) ∧
     (th.sbuf ≠ [] → Answers (.fence t) s fun s' => OnlyThread t s s' ∧ (threadOf s' t).park = .fence ∧
       (threadOf s' t).sbuf = th.sbuf) ∧
     CompletesFrom (after s (updVp t.vp.toNat fun x => { x with icache := v.icache.filter stays })) 1 none t s
       (.isync t ra rb) id)

/-- Atomics outside an ordered plan, on an aligned doubleword (word, for FAADD.S) that their thread may read and write, once
the gates have admitted them: the old value goes to rd, and exactly the addressed bytes take the new one. A misaligned atomic,
and one that may not be made, changes no memory, returns zero and is logged, as STALE_UNIT on a fenced die. On an absent page
the thread has an entry to make and has not retired. -/
def Obligations.Atomics : Prop :=
  (∀ (t : Tid) (s : State) (rd ra rb : Reg) (a : Nat), CalmPaid 75 t s → Idle t s → Sound s →
     (threadOf s t).park = .none → ((threadOf s t).det = false ∨ ∀ c k, (threadOf s t).binding ≠ .plan c k) →
     let th := threadOf s t
     let va := (getG th ra).toNat
     let reaches (n : Nat) : Prop :=
       va % n = 0 ∧ threadPieces (begin (walked t va n s)) t .both va n = .ok [⟨va, n, some a, none⟩]
         ∧ Settled [⟨va, n, some a, none⟩] s
     let b := getG th rb
     let old := BitVec.ofNat 64 (readNum (begin s) a 8)
     let old32 := readNum (begin s) a 4
     let does (i : Instr) (n : Nat) (put : Thread → Thread) (new : Nat) : Prop :=
       reaches n → Answers i s fun s' => Stores t a (toBytes n new) (accessed t va n true a s) s' ∧
         Retired 1 none (put { th with paid := [] }) (threadOf s' t)
     let does8 (i : Instr) (new : W64) : Prop := does i 8 (putG rd old) new.toNat
     does8 (.aadd t rd ra rb) (old + b) ∧
     does8 (.aand t rd ra rb) (old &&& b) ∧
     does8 (.aor t rd ra rb) (old ||| b) ∧
     does8 (.axor t rd ra rb) (old ^^^ b) ∧
     does8 (.amin t rd ra rb) (BitVec.ofInt 64 (min old.toInt b.toInt)) ∧
     does8 (.amax t rd ra rb) (BitVec.ofInt 64 (max old.toInt b.toInt)) ∧
     does8 (.aswap t rd ra rb) b ∧
     does8 (.acas t rd ra rb) (if old = getG th rd then b else old) ∧
     does (.faadd t rd ra rb true) 8 (putF rd old)
       (rneF b64 (addN (decodeF b64 old.toNat) (decodeF b64 (getF th rb).toNat))) ∧
     does (.faadd t rd ra rb false) 4 (putF rd (BitVec.ofNat 64 old32))
       (rneF b32 (addN (decodeF b32 old32) (decodeF b32 ((getF th rb).toNat % 2 ^ 32))))) ∧
  (∀ (t : Tid) (s : State) (rd ra rb : Reg), Idle t s → (threadOf s t).park = .none →
     let th := threadOf s t
     let va := (getG th ra).toNat
     let does (i : Instr) (n : Nat) (minor : BitVec 11) (put : Thread → Thread) : Prop :=
       let b := walked t va n s
       let logs (code : Nat) (b : State) : Prop :=
         CompletesFrom (after b (violThread t code true va ((0x0D : BitVec 6) ++ rd ++ ra ++ rb ++ minor))) 1 none t s i
           fun x => put { x with paid := [] }
       (Calm 75 t s → va % n ≠ 0 → logs vcAtomicAlign s) ∧
       (CalmFor 75 t va n s → va % n = 0 →
         (∀ st : Option Nat, threadPieces (begin b) t .both va n = .ok [⟨va, n, none, st⟩] →
           logs (if st.isSome then vcStaleUnit else vcProtWrite) b) ∧
         (∀ a, threadPieces (begin b) t .both va n = .error a →
           Answers i s fun s' => OnlyThread t b s' ∧
             threadOf s' t = { th with paid := [],
                                       cause := some { vec := 2, detail := 0x8A, eaddr := BitVec.ofNat 64 a } }))
     does (.aadd t rd ra rb) 8 0 (putG rd 0) ∧ does (.aand t rd ra rb) 8 1 (putG rd 0) ∧
     does (.aor t rd ra rb) 8 2 (putG rd 0) ∧ does (.axor t rd ra rb) 8 3 (putG rd 0) ∧
     does (.amin t rd ra rb) 8 4 (putG rd 0) ∧ does (.amax t rd ra rb) 8 5 (putG rd 0) ∧
     does (.aswap t rd ra rb) 8 6 (putG rd 0) ∧ does (.acas t rd ra rb) 8 7 (putG rd 0) ∧
     does (.faadd t rd ra rb true) 8 9 (putF rd 0) ∧ does (.faadd t rd ra rb false) 4 8 (putF rd 0))

/-! ### Control registers, exceptions and gates -/

/-- CRR and CRW by the register's level: of an unassigned number, and of a supervisor register at user level, a read gives
zero and a write does nothing, each logged; any other read gives the register's value, and any other write is the register's
own. The level of each control register: the assigned numbers that user level may access, those of the supervisor, and no
others. What the control registers of a thread hold, where no write waits for CSYNC: TICK is the intake tick at user level of
a command with DET, the frame registers read the newest frame, and zero without one. -/
def Obligations.ControlRegisterAccess : Prop :=
  ((∀ (t : Tid) (s : State) (rd : Reg) (num : BitVec 16), Calm 15 t s →
      let n := num.toNat
      let th := threadOf s t
      let word (w : BitVec 5) : BitVec 32 := (0x1A : BitVec 6) ++ rd ++ w ++ num
      let refused (code : Nat) : Prop :=
        CompletesFrom (after s (violThread t code false n (word 0))) 1 none t s (.crr t rd num) (putG rd 0) ∧
        CompletesFrom (after s (violThread t code true n (word 1))) 1 none t s (.crw t rd num) id
      -- a new step limit may release a barrier at once
      let written : State := after s fun w =>
        let w := crWrite t n (getG th rd) (word 1) w
        if n = 0x101 then settleBarriers t w else w
      (crLevel n = none → refused vcRegUnassigned) ∧
      (crLevel n = some true → th.priv = false → refused vcPrivReg) ∧
      (crLevel n = some false ∨ crLevel n = some true ∧ th.priv = true →
        (n ≠ 0x103 → WritesG t s (.crr t rd num) rd (crRead (begin s) t n)) ∧
        CompletesFrom written 1 none t s (.crw t rd num) (fun _ => threadOf written t))) ∧
   ((∀ n ∈ [0x000, 0x002, 0x003, 0x010, 0x011, 0x012, 0x013, 0x014, 0x015, 0x031, 0x040, 0x041, 0x100, 0x101, 0x161, 0x170,
        0x171, 0x172, 0x173, 0x174, 0x175], crLevel n = some false) ∧
    (∀ n ∈ [0x001, 0x020, 0x021, 0x030, 0x032, 0x102, 0x103, 0x160], crLevel n = some true) ∧
    (∀ n, 0x110 ≤ n ∧ n ≤ 0x124 ∨ 0x130 ≤ n ∧ n ≤ 0x15F → crLevel n = some true) ∧
    (∀ n, 0x176 ≤ n → crLevel n = none))) ∧
  (∀ (w : Mach) (t : Tid), (thr w t).pend = [] →
     let th := thr w t
     let v := vpOf w t.vp.toNat
     let r (n : Nat) : W64 := crRead w t n
     (th.det = true ∧ th.priv = false → r 0x000 = BitVec.ofNat 64 th.intake) ∧
     (th.det = false ∨ th.priv = true → r 0x000 = BitVec.ofNat 64 w.m.tick) ∧
     r 0x001 = th.seed ∧ r 0x002 = th.cvtSlot.setWidth 64 ∧ r 0x003 = th.tstart.setWidth 64 ∧
     r 0x010 = th.lc0 ∧ r 0x011 = th.lc1 ∧ r 0x012 = th.ls0.setWidth 64 ∧ r 0x013 = th.le0.setWidth 64 ∧
     r 0x014 = th.ls1.setWidth 64 ∧ r 0x015 = th.le1.setWidth 64 ∧ r 0x020 = th.xlbase ∧
     r 0x021 = th.asid.setWidth 64 ∧ r 0x030 = v.vecbaseW ∧ r 0x031 = v.tmap.setWidth 64 ∧
     r 0x040 = th.vln.setWidth 64 ∧ r 0x101 = th.gblim.setWidth 64 ∧ r 0x102 = th.gtidx.setWidth 64 ∧
     r 0x11A = th.eaddr ∧ r 0x11C = th.fsp ∧ r 0x11D = th.ssp ∧ r 0x11E = v.gatebaseW ∧
     r 0x120 = th.tmcmp0 ∧ r 0x121 = th.tmcmp1 ∧ r 0x123 = (ackOut th.sig).setWidth 64 ∧
     r 0x161 = th.pltid.setWidth 64 ∧ r 0x170 = th.ucsel.setWidth 64 ∧ r 0x175 = th.lopid.setWidth 64 ∧
     (∀ n, n < 48 → r (0x130 + n) = (ackOut (tread {} v.xcnt n)).setWidth 64) ∧
     (∀ n, n < 4 → r (0x171 + n) = tread 0 th.ucnt n) ∧
     (th.bank = [] → r 0x111 = 0 ∧ r 0x112 = 0 ∧ ∀ n, 1 ≤ n ∧ n ≤ 7 → r (0x112 + n) = 0) ∧
     (∀ f b, th.bank = f :: b → r 0x111 = f.pc.setWidth 64 ∧ r 0x112 = f.estat ∧
       ∀ n, 1 ≤ n ∧ n ≤ 7 → r (0x112 + n) = tread 0 f.g n))

/-- What a write of a control register changes: at once, or, for those that wait, only what CRR reads back until CSYNC. A
read-only register ignores it; VECBASE and GATEBASE read back as their last writer of the VP left them, and an earlier
writer's CSYNC makes nothing effective; IMODE is refused once the configuration lock is set. CSYNC: every control-register write of
the thread that waited takes effect, in 2 turns, and none waits after it. -/
def Obligations.ControlRegisterWrites : Prop :=
  (∀ (w : Mach) (t : Tid) (v : W64) (word : W32),
     let c (n : Nat) : Mach := crWrite t n v word w
     let th := thr w t
     c 0x001 = updThr t (fun x => { x with seed := v }) w ∧
     c 0x002 = updThr t (fun x => { x with cvtSlot := v.setWidth 12 }) w ∧
     c 0x003 = updThr t (fun x => { x with tstart := v.setWidth 6 }) w ∧
     c 0x101 = updThr t (fun x => { x with gblim := v.setWidth 32 }) w ∧
     c 0x102 = updThr t (fun x => { x with gtidx := v.setWidth 11 }) w ∧
     c 0x11D = updThr t (fun x => { x with ssp := v }) w ∧
     c 0x120 = updThr t (fun x => { x with tmcmp0 := v, timer0 := false }) w ∧
     c 0x121 = updThr t (fun x => { x with tmcmp1 := v, timer1 := false }) w ∧
     c 0x160 = updThr t (fun x => { x with rngsel := v.getLsbD 0 }) w ∧
     c 0x170 = updThr t (fun x => { x with ucsel := v.setWidth 32 }) w ∧
     c 0x175 = updThr t (fun x => { x with lopid := v.setWidth 32 }) w ∧
     (∀ n, n < 4 → c (0x171 + n) = updThr t (fun x => { x with ucnt := twrite 0 x.ucnt n v }) w) ∧
     (∀ n ∈ [0x010, 0x011, 0x012, 0x013, 0x014, 0x015, 0x020, 0x021, 0x11C],
       crValue (c n) t n = crValue w t n ∧ tget (thr (c n) t).pend n = some (crStored n v)) ∧
     (∀ n ∈ [0x000, 0x031, 0x032, 0x040, 0x041, 0x100, 0x11A, 0x11B, 0x124, 0x161], c n = w) ∧
     (∀ n ∈ [0x030, 0x11E], crRead (c n) t n = v ∧
       (∀ u : Tid, u.vp = t.vp → crRead (c n) u n = v) ∧
       (∀ u : Tid, u.vp = t.vp → u.th ≠ t.th → tget (thr (c n) u).pend n = none) ∧
       (vpOf (c n) t.vp.toNat).vecbase = (vpOf w t.vp.toNat).vecbase ∧
       (vpOf (c n) t.vp.toNat).gatebase = (vpOf w t.vp.toNat).gatebase) ∧
     (w.m.cfglock = true → c 0x11F = violThread t vcAccessCode true 0x11F word w) ∧
     (th.bank = [] → ∀ n, 0x111 ≤ n ∧ n ≤ 0x119 → ∀ u, thr (c n) u = thr w u) ∧
     (∀ f b, th.bank = f :: b → thr (c 0x111) t = { th with bank := { f with pc := v.setWidth 48 } :: b } ∧
       ∀ n, 1 ≤ n ∧ n ≤ 7 → thr (c (0x112 + n)) t = { th with bank := { f with g := twrite 0 f.g n v } :: b })) ∧
  (∀ (t : Tid) (s : State), Calm 30 t s → (threadOf s t).pend.Pairwise (fun x y => x.1 < y.1) →
     let a := threadOf s t
     let v := vpOf (begin s) t.vp.toNat
     let new (n : Nat) (old : W64) : W64 := (tget a.pend n).getD old
     Answers (.csync t) s fun s' =>
       let b := threadOf s' t
       let x := vpOf (begin s') t.vp.toNat
       b.pend = [] ∧ b.xlbase = new 0x020 a.xlbase ∧ b.asid = (new 0x021 (a.asid.setWidth 64)).setWidth 16 ∧
       b.ls0 = (new 0x012 (a.ls0.setWidth 64)).setWidth 48 ∧ b.le0 = (new 0x013 (a.le0.setWidth 64)).setWidth 48 ∧
       b.ls1 = (new 0x014 (a.ls1.setWidth 64)).setWidth 48 ∧ b.le1 = (new 0x015 (a.le1.setWidth 64)).setWidth 48 ∧
       b.fsp = new 0x11C a.fsp ∧ x.vecbase = new 0x030 v.vecbase ∧ x.gatebase = new 0x11E v.gatebase ∧
       x.imode = (match tget a.pend 0x11F with | some y => y != 0 | none => v.imode) ∧
       b.g = a.g ∧ b.v = a.v ∧ b.bank = a.bank ∧ s'.mem = s.mem ∧ ∀ u, u ≠ t → threadOf s' u = threadOf s u)

/-- Forms of the scalar core that complete: ST and FST of a range that one grant covers and that needs no walk, while the store
buffer has room, leave their bytes in the buffer, in order; CRR of a register that the thread may read gives its value, and
CRW of one that it may write, and that neither acknowledges an event nor sends, is logged nowhere; CSYNC leaves no write
waiting; FENCE with no store waiting and ISYNC retire. -/
def Obligations.ScalarFormsComplete : Prop :=
  (∀ (t : Tid) (s : State) (rd ra : Reg) (width : BitVec 3) (off : BitVec 13) (a : Nat),
     let th := threadOf s t
     let va := (getG th ra + off.signExtend 64).toNat
     let n := 2 ^ width.toNat
     let cs : List Chunk := [⟨va, n, some a, none⟩]
     Calm 30 t s → NoWalks t va n s → th.sbuf.length ≤ 6 → scalarPieces (begin s) t .write va n = .ok cs →
     windowOf cs = none →
     let completes (i : Instr) (v : W64) : Prop :=
       ∃ s' es, exec i s = .next s' ∧ OnlyThread t s s' ∧ Retired 1 none { th with sbuf := th.sbuf ++ es } (threadOf s' t) ∧
         es.flatMap (·.bytes) = toBytes n v.toNat ∧ es.head?.map (·.addr) = some a
     (width.toNat ≤ 3 → completes (.st t rd ra width off) (getG th rd)) ∧
     (width = 2 ∨ width = 3 → completes (.fst t rd ra width off) (getF th rd))) ∧
  (∀ (t : Tid) (s : State) (rd : Reg) (num : BitVec 16), Calm 15 t s →
     let th := threadOf s t
     let n := num.toNat
     crLevel n = some false ∨ crLevel n = some true ∧ th.priv = true →
     (n ≠ 0x103 → ∃ s', exec (.crr t rd num) s = .next s' ∧ OnlyThread t s s' ∧
       Retired 1 none (putG rd (crRead (begin s) t n) th) (threadOf s' t)) ∧
     (n ≠ 0x103 → n ≠ 0x11F → n ≠ 0x122 → n ≠ 0x123 → n < 0x130 ∨ 0x15F < n →
       ∃ s', exec (.crw t rd num) s = .next s' ∧ s'.pending = s.pending ∧ s'.mem = s.mem ∧ s'.m.vlog = s.m.vlog ∧
         (threadOf s' t).pc = (loopNext th.pc 1 th).2 ∧ (threadOf s' t).g = th.g ∧ (threadOf s' t).v = th.v ∧
         (n = 0x030 ∨ n = 0x11D ∨ n = 0x11E ∨ n = 0x120 ∨ n = 0x121 → crRead (begin s') t n = getG th rd))) ∧
  (∀ (t : Tid) (s : State), Calm 30 t s →
     ∃ s', exec (.csync t) s = .next s' ∧ s'.pending = s.pending ∧ s'.mem = s.mem ∧ s'.m.vlog = s.m.vlog ∧
       (threadOf s' t).pend = [] ∧ (threadOf s' t).g = (threadOf s t).g ∧ (threadOf s' t).v = (threadOf s t).v ∧
       (threadOf s' t).step = (if (threadOf s t).priv then (threadOf s t).step else (threadOf s t).step + 1)) ∧
  ∀ (t : Tid) (s : State) (ra rb : Reg), Calm 1020 t s →
    ((threadOf s t).sbuf = [] →
      ∃ s', exec (.fence t) s = .next s' ∧ OnlyThread t s s' ∧ Retired 1 none (threadOf s t) (threadOf s' t)) ∧
    ∃ s', exec (.isync t ra rb) s = .next s' ∧ s'.pending = s.pending ∧ s'.mem = s.mem ∧
      (∀ u, u ≠ t → threadOf s' u = threadOf s u) ∧ Retired 1 none (threadOf s t) (threadOf s' t) ∧
      ∀ k ∈ (vpOf (begin s') t.vp.toNat).icache, k ∈ (vpOf (begin s) t.vp.toNat).icache

/-- SIGSEND counts one signal for the thread that its register names, if that thread's VP is in service, and is logged
otherwise; GTDATA reads or writes one doubleword of the group table and moves its index on. A doubleword of a slot's mask,
program counter, stamp or scalar file reads back as it was written, and the other slots are as they were.
NOP only moves on; TRAP retires with its entry through vector 3 to make. TIMER_COMPARE sets a timer's line once the tick
has reached its nonzero compare value; WINDOW_EXPIRY ends a window. -/
def Obligations.SignalsTimersAndTheGroupTable : Prop :=
  ((∀ (t : Tid) (s : State) (rd : Reg), Calm 15 t s → (threadOf s t).priv = true →
      let th := threadOf s t
      let v := getG th rd
      let u : Tid := ⟨v.setWidth 5, (v >>> 5).setWidth 3⟩
      let slot := th.gtidx.toNat % 16
      let dw := th.gtidx.toNat / 16
      (unitState (begin s) (0x1000 + u.vp.toNat) = .inService → ackFull (threadOf s u).sig = false →
        Answers (.sigsend t rd) s fun s' =>
          ackOut (threadOf s' u).sig = ackOut (threadOf s u).sig + 1 ∧ s'.mem = s.mem ∧
          ∀ x, x ≠ t → x ≠ u → threadOf s' x = threadOf s x) ∧
      (unitState (begin s) (0x1000 + u.vp.toNat) ≠ .inService →
        CompletesFrom (after s (violThread t vcSignalTarget true 0x122
          ((0x1A : BitVec 6) ++ rd ++ (1 : BitVec 5) ++ (0x122 : BitVec 16)))) 1 none t s (.sigsend t rd) id) ∧
      Gives t s (.gtdata t true rd) (fun x => gtAdvance (gtWrite slot dw v x)) ∧
      Gives t s (.gtdata t false rd) (fun x => putG rd (gtRead x slot dw) (gtAdvance x))) ∧
   (∀ (th : Thread) (slot other dw : Nat) (v : W64), slot < 16 → other ≠ slot →
      (dw < 16 ∨ dw = 17 ∨ dw = 36 ∨ 46 ≤ dw ∧ dw < 78 → gtRead (gtWrite slot dw v th) slot dw = v) ∧
      gtRead (gtWrite slot 16 v th) slot 16 = (v.setWidth 48).setWidth 64 ∧
      (∀ k, gtRead (gtWrite slot dw v th) other k = gtRead th other k))) ∧
  (∀ (t : Tid) (s : State) (n : BitVec 8), Calm 15 t s →
     Gives t s (.nop t) id ∧
     Gives t s (.trap t n) fun th => { th with cause := some { vec := 3, detail := n.toNat } }) ∧
  (∀ (t : Tid) (s : State), Powered s →
     let th := threadOf s t
     let due (v : W64) : Bool := decide (v ≠ 0 ∧ v.toNat ≤ s.m.tick)
     Answers (.timerCompare t false) s (fun s' => OnlyThread t s s' ∧
       threadOf s' t = { th with timer0 := th.timer0 || due th.tmcmp0 }) ∧
     Answers (.timerCompare t true) s (fun s' => OnlyThread t s s' ∧
       threadOf s' t = { th with timer1 := th.timer1 || due th.tmcmp1 }) ∧
     Answers (.windowExpiry t) s (fun s' => OnlyThread t s s' ∧ threadOf s' t = { th with wleft := 0 }))

/-- EXCEPTION_ENTRY: a fault or TRAP is entered through its vector; without one, the acceptable interrupt of the highest
level; without either, a fault of the fetch at the program counter. Where the fetch succeeds in the instruction cache, both
words of a long form, nothing happens, and where it misses the thread waits for the first line that is missing. -/
def Obligations.ExceptionEntry : Prop :=
  ∀ (t : Tid) (s : State), CanEnter t s → Sound s →
    let th := threadOf s t
    let w := begin s
    let v := vpOf w t.vp.toNat
    let best := bestVector ((pendingVectors w t).filter fun e => unmasked v th e.1)
    let starts (c : Nat) : Prop :=
      1 < c ∨ fetchTest w t.vp.toNat { ctxOf th with priv := true } (vecEntry w t.vp.toNat c).handler = .ok
    let line (a : Addr) : Nat := th.asid.toNat * 2 ^ 48 + a.toNat / 256 * 256
    let lines := if longAt w t.vp.toNat (ctxOf th) th.pc then [line th.pc, line (th.pc + 4)] else [line th.pc]
    -- what reading the table changes: the logs, where it is denied, and the near-memory cache
    let reads (pc : Addr) (c : Nat) (f : Mach → Mach) : State :=
      requested t (fun w => physRead t (wordAt (begin s) t pc) (vecAddr (begin s) t.vp.toNat c) 16 (f w)) s
    let asks (w : Mach) : Mach := logDenied t false 0 (askedEntries (begin s) t) w
    (∀ c, th.cause = some c → starts c.vec → c.vec ≠ 7 →
      Answers (.exceptionEntry t) s fun s' => Entered t c none s s' ∧ OnlyThread t (reads (c.pc.getD th.pc) c.vec id) s') ∧
    (∀ level vec, th.cause = none → interruptible th = true → best = some (level, vec) → 1 < vec → vec ≠ 7 →
      Answers (.exceptionEntry t) s fun s' =>
        Entered t { vec := vec } (some level) s s' ∧ OnlyThread t (reads th.pc vec asks) s') ∧
    (∀ vec a, th.cause = none → canIssue th = true → best = none → fetchTest w t.vp.toNat (ctxOf th) th.pc = .fault vec a →
      starts vec →
      Answers (.exceptionEntry t) s fun s' => Entered t { vec := vec, eaddr := BitVec.ofNat 64 a } none s s' ∧
        OnlyThread t (reads th.pc vec fun w => threadWalks t a 4 (asks w)) s') ∧
    (th.cause = none → canIssue th = true → best = none → fetchTest w t.vp.toNat (ctxOf th) th.pc = .ok →
      ((∀ c ∈ askedEntries w t, c.pa.isSome = true) → (∀ k ∈ lines, v.icache.contains k = true) →
        exec (.exceptionEntry t) s = .next s) ∧
      (∀ k, lines.find? (fun k => !v.icache.contains k) = some k →
        Answers (.exceptionEntry t) s fun s' =>
          OnlyThread t (requested t (fun w => piecesTraffic t false (linePieces (begin s) t k)
            (threadWalks t (k % 2 ^ 48) 4 (asks w))) s) s' ∧
          (threadOf s' t).park = .fetchMiss k ∧ (threadOf s' t).pc = th.pc ∧ (threadOf s' t).step = th.step))

/-- ERET: PC, privilege, IE, RLVL, WLEFT and GM come back from the newest frame, which goes, and g1 to g7 too from an
exception frame; from supervisor to user level g31 and SSP are exchanged; at user level the privilege stays user. With no
frame it is a logged no-op. A full frame bank spills its oldest frame to the 80 bytes below FSP, and a frame so written reads
back as the same frame. -/
def Obligations.ReturnFromException : Prop :=
  (∀ (t : Tid) (s : State), Calm 30 t s →
     let a := threadOf s t
     (a.bank = [] → CompletesFrom (after s (violThread t vcEretEmpty false 0 4)) 1 (some (a.pc + 4)) t s (.eret t) id) ∧
     (∀ f r, a.bank = f :: r → (r ≠ [] ∨ a.spilled = 0) →
       let want := f.estat.getLsbD 0
       let base : State := if want && !a.priv then after s (violThread t vcEretPriv false 0 4) else s
       Answers (.eret t) s fun s' => OnlyThread t base s' ∧
         let b := threadOf s' t
         b.pc = (f.pc >>> 2) <<< 2 ∧ b.bank = r ∧ b.priv = (want && a.priv) ∧ b.ie = f.estat.getLsbD 1 ∧
         b.gm = f.estat.getLsbD 2 ∧ b.rlvl = (f.estat >>> 24).setWidth 5 ∧ b.wleft = (f.estat >>> 32).setWidth 12 ∧
         (∀ i, 1 ≤ i ∧ i ≤ 7 → tread 0 b.g i = if f.estat.getLsbD 3 then tread 0 a.g i else tread 0 f.g i) ∧
         (∀ i, 8 ≤ i ∧ i ≤ 30 → tread 0 b.g i = tread 0 a.g i) ∧
         (if a.priv && !want then tread 0 b.g 31 = a.ssp ∧ b.ssp = tread 0 a.g 31
          else tread 0 b.g 31 = tread 0 a.g 31 ∧ b.ssp = a.ssp) ∧
         b.v = a.v ∧ b.p = a.p ∧ b.vln = a.vln ∧ b.sbuf = a.sbuf)) ∧
  ((∀ (t : Tid) (w : Mach) (word : W32) (f1 f2 f3 f4 : Frame), (thr w t).bank = [f1, f2, f3, f4] → w.m.hw.bad = [] →
     let a := (((thr w t).fsp >>> 4) <<< 4 - 80).toNat
     frameAddrOk w a = true →
     let w' := spillIfFull t word w
     (thr w' t).bank = [f1, f2, f3] ∧ (thr w' t).fsp = (thr w t).fsp - 80 ∧ (thr w' t).spilled = (thr w t).spilled + 1 ∧
     (thr w' t).pc = (thr w t).pc ∧ (thr w' t).g = (thr w t).g ∧ (thr w' t).v = (thr w t).v ∧
     ∀ x, rawByte w' x = if a ≤ x ∧ x < a + 80 then (frameBytes f4).getD (x - a) 0 else rawByte w x) ∧
   ∀ f : Frame, (frameOf (frameBytes f)).pc = f.pc ∧ (frameOf (frameBytes f)).estat = f.estat &&& estatMask ∧
     ∀ i, 1 ≤ i ∧ i ≤ 7 → tread 0 (frameOf (frameBytes f)).g i = tread 0 f.g i)

/-- GATE: an invalid descriptor and a failed argument check give g1 their code; a keeper service at supervisor level makes
the thread wait for it, with a message that carries the VP's next stamp; a gate proper enters its routine at supervisor level with a gate frame, g31 and SSP exchanged from
user level. -/
def Obligations.CallGates : Prop :=
  ∀ (t : Tid) (s : State) (n : BitVec 8) (k : Nat),
    let a := threadOf s t
    let w := begin s
    let slot := (vpOf w t.vp.toNat).gatebase.toNat / 64 * 64 + 64 * n.toNat
    let d := physNum w slot 64
    let word : W32 := (0 : BitVec 16) ++ n ++ (3 : BitVec 8)
    -- reading the descriptor and walking for the arguments' pages
    let b := requested t (physRead t word slot 64) s
    let c := requested t (fun w => gateWalks t d (bits d 48 3) (physRead t word slot 64 w)) s
    CalmPaid (15 * (4 + k)) t s → Sound s →
    (gateValid d = false →
      CompletesFrom b 1 none t s (.gate t n) fun x => putG 1 0xFFFFFFFFFFFFFF01 { x with paid := [] }) ∧
    (∀ e va, gateValid d = true → gateChecks w t d (bits d 48 3) = (k, some (e, va)) →
      CompletesFrom c 1 none t s (.gate t n) fun x => putG 1 e { x with paid := [] }) ∧
    (gateValid d = true → gateChecks w t d (bits d 48 3) = (k, none) → bit d 51 = true →
      1 ≤ bits d 56 8 ∧ bits d 56 8 ≤ 4 → a.priv = true →
      Answers (.gate t n) s fun s' => OnlyThread t (after c (takeStamp (0x1000 + t.vp.toNat))) s' ∧
        (threadOf s' t).park = .service (bits d 56 8) word (nextStamp (0x1000 + t.vp.toNat) (begin c)) ∧
        (threadOf s' t).g = a.g) ∧
    (gateValid d = true → gateChecks w t d (bits d 48 3) = (k, none) → bit d 51 = false → a.bank.length < 4 →
      Answers (.gate t n) s fun s' => OnlyThread t c s' ∧
        let b := threadOf s' t
        (∃ f, b.bank = f :: a.bank ∧ f.pc = (loopNext a.pc 1 a).2 ∧ f.estat.getLsbD 3 = true ∧ f.estat.getLsbD 0 = a.priv) ∧
        b.priv = true ∧ b.pc = BitVec.ofNat 48 (bits d 0 48 / 4 * 4) ∧
        (∀ i, 1 ≤ i ∧ i ≤ 30 → tread 0 b.g i = tread 0 a.g i) ∧
        (if a.priv then tread 0 b.g 31 = tread 0 a.g 31 ∧ b.ssp = a.ssp
         else tread 0 b.g 31 = a.ssp ∧ b.ssp = tread 0 a.g 31))

/-! ### Vectors -/

/-- VSETL grants the lesser of the request and the register's elements; the predicate instructions act on all 8,192 bits, or
on those below VLN. -/
def Obligations.LengthAndPredicates : Prop :=
  ∀ (t : Tid) (s : State) (rd ra : Reg) (et : BitVec 2) (x : VF), Calm 15 t s →
    let th := threadOf s t
    let n := min (getG th ra).toNat (65536 / (8 * 2 ^ et.toNat))
    let m := min th.vln.toNat 8192
    let pd : BitVec 3 := x.vd.setWidth 3
    let a := getP th (x.va.setWidth 3)
    let b := getP th (x.vb.setWidth 3)
    Gives t s (.vsetl t rd ra et) (fun y => putG rd (BitVec.ofNat 64 n) { y with vln := BitVec.ofNat 32 n }) ∧
    (x.va.toNat ≤ 7 → x.vb.toNat ≤ 7 →
      (x.vd.toNat ≤ 7 →
        Gives t s (.pand t x) (putP pd (a &&& b)) ∧
        Gives t s (.por t x) (putP pd (a ||| b)) ∧
        Gives t s (.pxor t x) (putP pd (a ^^^ b)) ∧
        Gives t s (.pnot t x) (putP pd (~~~ a)) ∧
        Gives t s (.pset t x) (putP pd (BitVec.ofNat 8192 (2 ^ m - 1))) ∧
        Gives t s (.pclr t x) (putP pd 0)) ∧
      WritesG t s (.pcnt t x) x.vd (BitVec.ofNat 64 ((List.range m).countP fun i => a.getLsbD i)))

/-- The ALU stage: every active element below L, modulo 2^w; shifts by vb modulo w; division by zero gives all ones. VSEL
picks by the predicate's bit; the minima and maxima, signed, unsigned and floating. The Fixed-point stage: the exact result,
saturated to the destination's range; a narrowing source is va's elements, then vb's, of twice the width. -/
def Obligations.VectorAlu : Prop :=
  ((∀ (t : Tid) (s : State) (x : VF), Calm 600 t s →
      let th := threadOf s t
      let w := 8 * 2 ^ x.et.toNat
      let a (k : Nat) : Nat := vget w (getV th x.va) k
      let b (k : Nat) : Nat := vget w (getV th x.vb) k
      let sa (k : Nat) : Int := (BitVec.ofNat w (a k)).toInt
      let sb (k : Nat) : Int := (BitVec.ofNat w (b k)).toInt
      let int (v : Int) : Nat := (BitVec.ofInt w v).toNat
      let does (i : Instr) (new : Nat → Nat) : Prop := VecWrites [] t s i x.vd w (elemCount th w) (activeElem th x) new
      does (.vadd t x) (fun k => a k + b k) ∧
      does (.vsub t x) (fun k => int (a k - b k)) ∧
      does (.vand t x) (fun k => a k &&& b k) ∧
      does (.vor t x) (fun k => a k ||| b k) ∧
      does (.vxor t x) (fun k => a k ^^^ b k) ∧
      does (.vshl t x) (fun k => a k * 2 ^ (b k % w)) ∧
      does (.vshr t x) (fun k => a k / 2 ^ (b k % w)) ∧
      does (.vsar t x) (fun k => int (sa k / 2 ^ (b k % w))) ∧
      does (.vmul t x) (fun k => a k * b k) ∧
      does (.vmulh t x) (fun k => int (sa k * sb k / 2 ^ w)) ∧
      does (.vdiv t x) (fun k => if b k = 0 then 2 ^ w - 1 else int ((sa k).tdiv (sb k))) ∧
      does (.vdivu t x) (fun k => if b k = 0 then 2 ^ w - 1 else a k / b k) ∧
      does (.vbcast t x) (fun _ => (getG th x.va).toNat)) ∧
   (∀ (t : Tid) (s : State) (x : VF), Calm 600 t s →
      let th := threadOf s t
      let w := 8 * 2 ^ x.et.toNat
      let a (k : Nat) : Nat := vget w (getV th x.va) k
      let b (k : Nat) : Nat := vget w (getV th x.vb) k
      let sa (k : Nat) : Int := (BitVec.ofNat w (a k)).toInt
      let sb (k : Nat) : Int := (BitVec.ofNat w (b k)).toInt
      let does (i : Instr) (new : Nat → Nat) : Prop := VecWrites [] t s i x.vd w (elemCount th w) (activeElem th x) new
      (x.pe = false → does (.vsel t x) (fun k => if (getP th x.p).getLsbD k then a k else b k)) ∧
      does (.vmin t x) (fun k => (BitVec.ofInt w (min (sa k) (sb k))).toNat) ∧
      does (.vmax t x) (fun k => (BitVec.ofInt w (max (sa k) (sb k))).toNat) ∧
      does (.vminu t x) (fun k => min (a k) (b k)) ∧
      does (.vmaxu t x) (fun k => max (a k) (b k)) ∧
      ∀ f, (x.et = 1 ∧ f = b16 ∨ x.et = 2 ∧ f = b32 ∨ x.et = 3 ∧ f = b64) →
        does (.vfmin t x) (fun k => maxMinF f false (a k) (b k)) ∧
        does (.vfmax t x) (fun k => maxMinF f true (a k) (b k)))) ∧
  (∀ (t : Tid) (s : State) (x : VF), Calm 600 t s →
     let th := threadOf s t
     let w := 8 * 2 ^ x.et.toNat
     let a (k : Nat) : Nat := vget w (getV th x.va) k
     let b (k : Nat) : Nat := vget w (getV th x.vb) k
     let sa (k : Nat) : Int := (BitVec.ofNat w (a k)).toInt
     let sb (k : Nat) : Int := (BitVec.ofNat w (b k)).toInt
     let signed (v : Int) : Nat := (BitVec.ofInt w (max (-(2 ^ (w - 1))) (min (2 ^ (w - 1) - 1) v))).toNat
     let unsigned (v : Int) : Nat := (max 0 (min (2 ^ w - 1) v)).toNat
     let wide (k : Nat) : Int :=
       let half := 32768 / w
       (BitVec.ofNat (2 * w) (if k < half then vget (2 * w) (getV th x.va) k else vget (2 * w) (getV th x.vb) (k - half))).toInt
     let does (i : Instr) (l : Nat) (new : Nat → Nat) : Prop :=
       ∃ es, VecWrites es t s i x.vd w l (activeElem th x) new
     let l := elemCount th w
     does (.vsadd t x) l (fun k => signed (sa k + sb k)) ∧
     does (.vsaddu t x) l (fun k => unsigned (a k + b k)) ∧
     does (.vssub t x) l (fun k => signed (sa k - sb k)) ∧
     does (.vssubu t x) l (fun k => unsigned ((a k : Int) - b k)) ∧
     does (.vsdmulhRhu t x) l (fun k => signed ((2 * sa k * sb k + 2 ^ (w - 1)) / 2 ^ w)) ∧
     does (.vsdmulhRne t x) l (fun k => signed (divRne (2 * sa k * sb k) w)) ∧
     does (.vrshr t x) l (fun k => let sh := b k % w
       if sh = 0 then a k else signed ((sa k + 2 ^ (sh - 1)) / 2 ^ sh)) ∧
     (x.et ≠ 3 →
       does (.vnarrows t x) (elemCount th (2 * w)) (fun k => signed (wide k)) ∧
       does (.vnarrowu t x) (elemCount th (2 * w)) (fun k => unsigned (wide k))))

/-- The FMA stage, in binary16 or BF16 at e16, binary32 and binary64: the exact result rounded once, to nearest. The Function
stage: its function of every active element's bits, at e16, e32 and e64. The Function stage's results for the inputs that the
spec fixes: NaN, the zeros, the infinities, and negative numbers outside a function's domain. They hold whatever the free
errors are. -/
def Obligations.VectorFmaAndFunctions : Prop :=
  (∀ (t : Tid) (s : State) (x : VF) (bf : Bool) (f : FFmt), Calm 600 t s →
     (x.et = 1 ∧ bf = false ∧ f = b16 ∨ x.et = 1 ∧ bf = true ∧ f = bf16 ∨ x.et = 2 ∧ bf = false ∧ f = b32 ∨
       x.et = 3 ∧ bf = false ∧ f = b64) →
     let th := threadOf s t
     let w := 8 * 2 ^ x.et.toNat
     let num (r : Reg) (k : Nat) : Machine.Num := decodeF f (vget w (getV th r) k)
     let a := num x.va
     let b := num x.vb
     let d := num x.vd
     let does (i : Instr) (new : Nat → Machine.Num) : Prop :=
       ∃ es, VecWrites es t s i x.vd w (elemCount th w) (activeElem th x) fun k => rneF f (new k)
     does (.vfadd t x bf) (fun k => addN (a k) (b k)) ∧
     does (.vfsub t x bf) (fun k => addN (a k) (negN (b k))) ∧
     does (.vfmul t x bf) (fun k => mulN (a k) (b k)) ∧
     does (.vfma t x bf) (fun k => addN (mulN (a k) (b k)) (d k)) ∧
     does (.vfms t x bf) (fun k => addN (mulN (a k) (b k)) (negN (d k))) ∧
     does (.vfnma t x bf) (fun k => addN (mulN (negN (a k)) (b k)) (negN (d k))) ∧
     does (.vfnms t x bf) (fun k => addN (mulN (negN (a k)) (b k)) (d k))) ∧
  ((∀ (t : Tid) (s : State) (x : VF) (f : FFmt), Calm 600 t s →
      (x.et = 1 ∧ f = b16 ∨ x.et = 2 ∧ f = b32 ∨ x.et = 3 ∧ f = b64) →
      let th := threadOf s t
      let w := 8 * 2 ^ x.et.toNat
      let does (i : Instr) (op : FuncOp) : Prop :=
        ∃ es, VecWrites es t s i x.vd w (elemCount th w) (activeElem th x)
          fun k => funcResult op f (vget w (getV th x.va) k)
      does (.vexp2 t x) .exp2 ∧ does (.vlog2 t x) .log2 ∧ does (.vrcp t x) .rcp ∧ does (.vrsqrt t x) .rsqrt ∧
      does (.vtanh t x) .tanh) ∧
   (∀ f ∈ [b16, b32, b64],
      let r := funcResult
      let sign := 2 ^ (f.eb + f.fb)
      let inf := (2 ^ f.eb - 1) * 2 ^ f.fb
      let nan := inf + 2 ^ (f.fb - 1)
      let one := (2 ^ (f.eb - 1) - 1) * 2 ^ f.fb
      (∀ op, r op f nan = nan) ∧
      r .exp2 f 0 = one ∧ r .log2 f 0 = sign + inf ∧ r .rcp f 0 = inf ∧ r .rsqrt f 0 = inf ∧ r .tanh f 0 = 0 ∧
      r .exp2 f sign = one ∧ r .log2 f sign = sign + inf ∧ r .rcp f sign = sign + inf ∧
      r .rsqrt f sign = sign + inf ∧
      r .tanh f sign = sign ∧
      r .exp2 f inf = inf ∧ r .log2 f inf = inf ∧ r .rcp f inf = 0 ∧ r .rsqrt f inf = 0 ∧ r .tanh f inf = one ∧
      r .exp2 f (sign + inf) = 0 ∧ r .log2 f (sign + inf) = nan ∧ r .rcp f (sign + inf) = sign ∧
      r .rsqrt f (sign + inf) = nan ∧ r .tanh f (sign + inf) = sign + one ∧
      ∀ v, 0 < v → v < inf → r .log2 f (sign + v) = nan ∧ r .rsqrt f (sign + v) = nan))

/-- The comparisons: the predicate bit of every active element below L, by the cc code, and no other bit. -/
def Obligations.VectorComparisons : Prop :=
  ∀ (t : Tid) (s : State) (x : VF) (cc : BitVec 3), Calm 600 t s → x.vd.toNat ≤ 7 →
    let th := threadOf s t
    let w := 8 * 2 ^ x.et.toNat
    let a (k : Nat) : Nat := vget w (getV th x.va) k
    let b (k : Nat) : Nat := vget w (getV th x.vb) k
    let pd : BitVec 3 := x.vd.setWidth 3
    let holds (lt eq un : Bool) : Bool :=
      ([eq && !un, !eq || un, lt && !un, (lt || eq) && !un, !lt && !eq && !un, !lt && !un, un] : List Bool).getD cc.toNat false
    let does (i : Instr) (f : Nat → Bool) : Prop :=
      Answers i s fun s' => OnlyThread t s s' ∧
        let c := threadOf s' t
        Retired 1 none th { c with p := th.p } ∧ (∀ q, q ≠ pd → getP c q = getP th q) ∧
        ∀ k, k < 8192 → (getP c pd).getLsbD k =
          if k < elemCount th w ∧ activeElem th x k then f k else (getP th pd).getLsbD k
    (cc.toNat ≤ 5 → does (.vcmp t x cc) fun k =>
      holds (decide ((BitVec.ofNat w (a k)).toInt < (BitVec.ofNat w (b k)).toInt)) (a k == b k) false) ∧
    (2 ≤ cc.toNat ∧ cc.toNat ≤ 5 → does (.vcmpu t x cc) fun k => holds (decide (a k < b k)) (a k == b k) false) ∧
    (∀ f, cc.toNat ≤ 6 → (x.et = 1 ∧ f = b16 ∨ x.et = 2 ∧ f = b32 ∨ x.et = 3 ∧ f = b64) →
      does (.vfcmp t x cc) fun k =>
        holds (ltN (decodeF f (a k)) (decodeF f (b k))) (eqN (decodeF f (a k)) (decodeF f (b k)))
          (unordN (decodeF f (a k)) (decodeF f (b k))))

/-- Reductions: the active elements below L, combined with element 0 of vb, to element 0 of vd; with L = 0 nothing. Integer
reductions do not depend on the order; floating ones follow the fixed pairwise tree, with the identity in every inactive
place. Slides, compress and expand: where each active element comes from; the elements that they do not name keep their
values, except that VSLIDEDN and VCOMPRESS fill with zero. -/
def Obligations.VectorReductionsAndPermutations : Prop :=
  (∀ (t : Tid) (s : State) (x : VF), Calm 600 t s →
     let th := threadOf s t
     let w := 8 * 2 ^ x.et.toNat
     let l := elemCount th w
     let a (k : Nat) : Nat := vget w (getV th x.va) k
     let b := vget w (getV th x.vb) 0
     let sg (v : Nat) : Int := (BitVec.ofNat w v).toInt
     let act := (List.range l).filter (activeElem th x)
     let does (i : Instr) (v : Nat) : Prop := ∃ es, VecWrites es t s i x.vd w 1 (fun _ => decide (0 < l)) fun _ => v
     let tree (op : Nat → Nat → Nat) (identity : Nat) : Nat :=
       op b (treeFold op 0 ((List.range l).map fun k => if activeElem th x k then a k else identity))
     does (.vredsum t x) (b + (act.map a).sum) ∧
     does (.vredmin t x) (act.foldl (fun v k => if sg (a k) < sg v then a k else v) b) ∧
     does (.vredmax t x) (act.foldl (fun v k => if sg v < sg (a k) then a k else v) b) ∧
     does (.vredand t x) (act.foldl (fun v k => v &&& a k) b) ∧
     does (.vredor t x) (act.foldl (fun v k => v ||| a k) b) ∧
     ∀ f, (x.et = 1 ∧ f = b16 ∨ x.et = 2 ∧ f = b32 ∨ x.et = 3 ∧ f = b64) →
       let inf := (2 ^ f.eb - 1) * 2 ^ f.fb
       does (.vfredsum t x) (tree (fun y z => rneF f (addN (decodeF f y) (decodeF f z))) (2 ^ (w - 1))) ∧
       does (.vfredmin t x) (tree (maxMinF f false) inf) ∧
       does (.vfredmax t x) (tree (maxMinF f true) (2 ^ (w - 1) + inf))) ∧
  (∀ (t : Tid) (s : State) (x : VF), Calm 600 t s →
     let th := threadOf s t
     let w := 8 * 2 ^ x.et.toNat
     let l := elemCount th w
     let a (k : Nat) : Nat := vget w (getV th x.va) k
     let n := (getG th x.vb).toNat
     let set (k : Nat) : Bool := (getP th x.p).getLsbD k
     let chosen := (List.range l).filter set
     let does (i : Instr) (act : Nat → Bool) (new : Nat → Nat) : Prop := VecWrites [] t s i x.vd w l act new
     does (.vslideup t x) (fun k => decide (n ≤ k) && activeElem th x k) (fun k => a (k - n)) ∧
     does (.vslidedn t x) (activeElem th x) (fun k => if k + n < l then a (k + n) else 0) ∧
     (x.pe = true →
       does (.vcompress t x) (fun _ => true) (fun k => if k < chosen.length then a (chosen.getD k 0) else 0) ∧
       does (.vexpand t x) set (fun k => a ((List.range k).countP set))))

/-- The sorted-set instructions: VMERGEC the union of two sorted sets with its counts in the g register that PE and p name,
VINTER the number of common keys, over signed keys or, in the .F forms, in the total order. The procedure of the sorted sets
on small sets: a union without repeats of equal keys, with what each side gave, and the number of equal keys. -/
def Obligations.VectorSortedSets : Prop :=
  (∀ (t : Tid) (s : State) (x : VF), Calm 600 t s →
     let th := threadOf s t
     let w := 8 * 2 ^ x.et.toNat
     let l := elemCount th w
     let a := vget w (getV th x.va)
     let b := vget w (getV th x.vb)
     let gd : Reg := (0 : BitVec 1) ++ BitVec.ofBool x.pe ++ x.p
     let merges (i : Instr) (flt : Bool) : Prop :=
       let m := mergeSets flt w l a b (2 * l + 1) 0 0 []
       Answers i s fun s' => OnlyThread t s s' ∧
         let c := threadOf s' t
         Retired 1 none (putG gd (BitVec.ofNat 64 (m.1.length + m.2.1 * 2 ^ 21 + m.2.2 * 2 ^ 42)) th) { c with v := th.v } ∧
         (∀ r, r ≠ x.vd → getV c r = getV th r) ∧
         Elements w l (fun _ => true) (fun k => m.1.reverse.getD k 0) (getV th x.vd) (getV c x.vd)
     let meets (i : Instr) (flt : Bool) : Prop :=
       WritesG t s i x.vd (BitVec.ofNat 64 (interSets flt w l a b (2 * l + 1) 0 0 0))
     0 < l →
     merges (.vmergec t x) false ∧ merges (.vmergecF t x) true ∧
     (x.pe = false → meets (.vinter t x) false ∧ meets (.vinterF t x) true)) ∧
  (let a (k : Nat) : Nat := [1, 3, 5, 7].getD k 0
   let b (k : Nat) : Nat := [3, 4, 7, 9].getD k 0
   mergeSets false 32 4 a b 9 0 0 [] = ([5, 4, 3, 1], 3, 2) ∧
   interSets false 32 4 a b 9 0 0 0 = 2)

/-- VCVT between formats that are not MX: every active element, under RNE, RTZ or stochastic rounding from the generator
(drawn from the seed, the step and the element). Into an MX format whole blocks of 32 are packed, their scale bytes after
the codes; out of one they are unpacked exactly, and to an infinity above the binary32 maximum, whatever RM and SAT are;
FP4, INT4 and T2 blocks unpack to a narrower float too, under RM and SAT. -/
def Obligations.VectorConversions : Prop :=
  ∀ (t : Tid) (s : State) (vd va : Reg) (src dst : BitVec 4) (pe : Bool) (p : BitVec 3) (rm : BitVec 2) (sat : Bool),
    Calm 600 t s →
    let th := threadOf s t
    let ws := fmtBits src.toNat
    let wd := fmtBits dst.toNat
    let l := elemCount th (max ws wd)
    let x : VF := ⟨vd, va, 0, pe, p, 0⟩
    let i : Instr := .vcvt t vd va src dst pe p rm sat
    let a (k : Nat) : Nat := vget ws (getV th va) k
    let mode (k : Nat) : Rm := if rm = 1 then .rtz else if rm = 2 then .sr (drawSr th.seed th.step.toNat k 127) else .rne
    hasPath src.toNat dst.toNat = true → (rm = 2 → th.rngsel = false ∨ th.det = true) →
    (fmtMx src.toNat = false → fmtMx dst.toNat = false →
      ∃ es, VecWrites es t s i vd wd l (activeElem th x) fun k =>
        (convertElem src.toNat dst.toNat (mode k) sat (a k)).1) ∧
    (fmtMx src.toNat = false → fmtMx dst.toNat = true → pe = false → l % 32 = 0 → l * wd / 8 + l / 32 ≤ 8192 →
      let block (b : Nat) := packBlock dst.toNat 0 sat (fun j => mode (32 * b + j))
        ((List.range 32).map fun j => (decodeElem src.toNat (a (32 * b + j))).1)
      ∃ s' es, exec i s = .next s' ∧ OnlyThread t (watched t es s) s' ∧ RetiredBut vd th (threadOf s' t) ∧
        (∀ k, k < l → vget wd (getV (threadOf s' t) vd) k = (block (k / 32)).codes.getD (k % 32) 0 % 2 ^ wd) ∧
        ∀ b, b < l / 32 → vget 8 (getV (threadOf s' t) vd) (l * wd / 8 + b) = (block b).scale % 256) ∧
    (fmtMx src.toNat = true → fmtMx dst.toNat = false → pe = false → l % 32 = 0 →
      let block (b : Nat) := (unpackBlock src.toNat (vget 8 (getV th va) (l * ws / 8 + b))
        ((List.range 32).map fun j => a (32 * b + j)) none).1
      ∃ es, VecWrites es t s i vd wd l (fun _ => true) fun k =>
        (if dst.toNat ≤ 1 then encodeElem dst.toNat .rne false ((block (k / 32)).getD (k % 32) .nan)
         else encodeElem dst.toNat (mode k) sat ((block (k / 32)).getD (k % 32) .nan)).1)

/-- Forms of the vector core that complete, whatever their registers hold: each answers a next state in which its instruction
has retired, which no other thread and no byte of memory shows, and in which no register but its own destination differs. The
floating forms take e16, e32 and e64, VCOMPRESS and VEXPAND a predicate; VINTER takes none, and the sorted sets some
elements; a sorted set's counts go to a g register too. -/
def Obligations.VectorFormsComplete : Prop :=
  ∀ (t : Tid) (s : State) (x : VF), Calm 600 t s →
    let th := threadOf s t
    let l := elemCount th (8 * 2 ^ x.et.toNat)
    let completes (i : Instr) : Prop := ∃ s' es, exec i s = .next s' ∧ OnlyThread t (watched t es s) s' ∧
      RetiredBut x.vd th (threadOf s' t)
    let counts (i : Instr) (r : Reg) : Prop := ∃ s' v, exec i s = .next s' ∧ OnlyThread t s s' ∧
      RetiredBut x.vd (putG r v th) (threadOf s' t)
    (x.et = 1 → ∀ i ∈ ([.vfadd t x true, .vfsub t x true, .vfmul t x true, .vfma t x true, .vfms t x true,
      .vfnma t x true, .vfnms t x true] : List Instr), completes i) ∧
    (x.et ≠ 0 → ∀ i ∈ ([.vfadd t x false, .vfsub t x false, .vfmul t x false, .vfma t x false, .vfms t x false,
      .vfnma t x false, .vfnms t x false, .vexp2 t x, .vlog2 t x, .vrcp t x, .vrsqrt t x, .vtanh t x, .vfredsum t x,
      .vfredmin t x, .vfredmax t x] : List Instr), completes i) ∧
    (∀ i ∈ ([.vredsum t x, .vredmin t x, .vredmax t x, .vredand t x, .vredor t x, .vslideup t x, .vslidedn t x] :
      List Instr), completes i) ∧
    (x.pe = true → ∀ i ∈ ([.vcompress t x, .vexpand t x] : List Instr), completes i) ∧
    (0 < l → ∀ i ∈ ([.vmergec t x, .vmergecF t x] : List Instr),
      counts i ((0 : BitVec 1) ++ BitVec.ofBool x.pe ++ x.p)) ∧
    (0 < l → x.pe = false → ∀ i ∈ ([.vinter t x, .vinterF t x] : List Instr), ∃ s' v, exec i s = .next s' ∧ OnlyThread t s s' ∧
      Retired 1 none (putG x.vd v th) (threadOf s' t))

/-- Vector loads and stores of a range that is translated and granted, a load's active elements in the data cache: VLD and
VST drop address bits [5:0], VLDU and VSTU do not; only active elements move. A store names its bytes by the translated
address; where their sectors are in the data cache it changes nothing else, and elsewhere it is done once the gates have
admitted it. VMAC2 reads two streams and accumulates, in floating point (binary32 and binary64) or modulo 2^w; both pointers
advance by VLN elements, once where they are one register. -/
def Obligations.VectorLoadsAndStores : Prop :=
  (∀ (t : Tid) (s : State) (x : VF) (cs : List Chunk) (a : Nat), Idle t s → Sound s →
     let th := threadOf s t
     let eb := 2 ^ x.et.toNat
     let l := elemCount th (8 * eb)
     let at_ (low : Nat) : Nat := (getG th x.va).toNat / low * low
     let act := (List.range l).filter (activeElem th x)
     let loads (i : Instr) (base : Nat) : Prop :=
       let b := walked t base (l * eb) s
       let rd := activePieces cs base eb act
       CalmFor 600 t base (l * eb) s → threadPieces (begin b) t .read base (l * eb) = .ok cs →
       (∀ c ∈ cs, c.pa.isSome = true) → Settled (cs ++ rd) s → missing (begin s) t.vp.toNat rd = [] →
         Answers i s fun s' => OnlyThread t b s' ∧ RetiredBut x.vd { th with paid := [] } (threadOf s' t) ∧
           Elements (8 * eb) l (activeElem th x)
             (fun k => ofBytes ((List.range eb).map fun j =>
               ((pieceAddr cs (base + k * eb + j)).map (byteAt (begin s))).getD 0))
             (getV th x.vd) (getV (threadOf s' t) x.vd)
     let stores (i : Instr) (base : Nat) : Prop :=
       let b := walked t base (l * eb) s
       let here := ∀ y, a ≤ y → y < a + l * eb → cached (vpOf (begin s) t.vp.toNat) y = true
       (CalmFor 600 t base (l * eb) s ∧ here ∨ CalmPaid 600 t s) →
       threadPieces (begin b) t .write base (l * eb) = .ok [⟨base, l * eb, some a, none⟩] →
         Answers i s fun s' =>
           s'.pending = s.pending ∧ (∀ u, u ≠ t → threadOf s' u = threadOf s u) ∧
           (here → { s'.m with threads := s.m.threads, cnt := s.m.cnt, vps := s.m.vps, wlog := s.m.wlog }
             = { b.m with threads := s.m.threads, cnt := s.m.cnt, vps := s.m.vps, wlog := s.m.wlog }) ∧
           Retired 1 none { th with paid := [] } (threadOf s' t) ∧
           ∀ y, storedByte s' y = if a ≤ y ∧ y < a + l * eb ∧ activeElem th x ((y - a) / eb) then
               BitVec.ofNat 8 (vget (8 * eb) (getV th x.vd) ((y - a) / eb) / 2 ^ (8 * ((y - a) % eb)))
             else storedByte s y
     loads (.vld t x) (at_ 64) ∧ loads (.vldu t x) (at_ 1) ∧ stores (.vst t x) (at_ 64) ∧ stores (.vstu t x) (at_ 1)) ∧
  (∀ (t : Tid) (s : State) (x : VF) (ca cb : List Chunk), Idle t s → Sound s →
     let th := threadOf s t
     let eb := 2 ^ x.et.toNat
     let w := 8 * eb
     let l := elemCount th w
     let n := l * eb
     let base (r : Reg) : Nat := (getG th r).toNat / eb * eb
     let b1 := walked t (base x.va) n s
     let b2 := if base x.va = base x.vb then b1 else walked t (base x.vb) n b1
     let act := (List.range l).filter (activeElem th x)
     let rd := activePieces ca (base x.va) eb act ++ activePieces cb (base x.vb) eb act
     (Calm 600 t s ∧ NoWalks t (base x.va) n s ∧ NoWalks t (base x.vb) n s ∨ CalmPaid 600 t s) →
     threadPieces (begin b2) t .read (base x.va) n = .ok ca →
     threadPieces (begin b2) t .read (base x.vb) n = .ok cb →
     (∀ c ∈ ca ++ cb, c.pa.isSome = true) → Settled (ca ++ cb ++ rd) s → missing (begin s) t.vp.toNat rd = [] →
     let val (cs : List Chunk) (r : Reg) (k : Nat) : Nat := ofBytes ((List.range eb).map fun j =>
       ((pieceAddr cs (base r + k * eb + j)).map (byteAt (begin s))).getD 0)
     let a := val ca x.va
     let b := val cb x.vb
     let d (k : Nat) : Nat := vget w (getV th x.vd) k
     let adv := BitVec.ofNat 64 (th.vln.toNat * eb)
     let moved := let y := putG x.va (getG th x.va + adv) { th with paid := [] }
       if x.va = x.vb then y else putG x.vb (getG th x.vb + adv) y
     let does (int : Bool) (new : Nat → Nat) : Prop :=
       ∃ s' es, exec (.vmac2 t x int) s = .next s' ∧ OnlyThread t (watched t es b2) s' ∧
         Retired 1 none moved { threadOf s' t with v := th.v } ∧
         (∀ r, r ≠ x.vd → getV (threadOf s' t) r = getV th r) ∧
         Elements w l (activeElem th x) new (getV th x.vd) (getV (threadOf s' t) x.vd)
     does true (fun k => a k * b k + d k) ∧
     (x.et = 2 → does false fun k => rneF b32 (addN (mulN (decodeF b32 (a k)) (decodeF b32 (b k))) (decodeF b32 (d k)))) ∧
     (x.et = 3 → does false fun k => rneF b64 (addN (mulN (decodeF b64 (a k)) (decodeF b64 (b k))) (decodeF b64 (d k)))))

/-- VCHAIN: an illegal chain retires as a logged no-op, so that its members run singly. A legal chain of members that touch
no memory and round nothing runs them in order on the links, which carry the width of their elements, reductions writing at
its end; the VCHAIN and its members retire together, past the last of them. One draw of the free values is used up (log
105). -/
def Obligations.VectorChains : Prop :=
  ∀ (t : Tid) (s : State) (n : BitVec 5) (members : List (BitVec 32)), Calm 8000 t s →
    let th := threadOf s t
    let os := members.map vopOfWord
    let wide := os.foldl (fun m o => max m (vwide o)) 8
    let l := elemCount th wide
    let e := os.foldl (fun e o => vexec e o l fun _ => .rne)
      { th := th, link := getV th 0, draw := if th.det then 0 else s.m.free, chain := true }
    let base := after (watched t e.evs s) fun w => (drawFree w).2
    (chainLegal th th.pc n.toNat os l = false →
      CompletesFrom (after s (violThread t vcChainIllegal false th.pc.toNat ((0x30 : BitVec 6) ++ n ++ (0 : BitVec 21))))
        1 none t s (.vchain t n members) id) ∧
    (chainLegal th th.pc n.toNat os l = true → (∀ o ∈ os, o.major ≠ 0x25 ∧ o.major ≠ 0x29) →
      (∀ k, k ≤ n.toNat → th.stopAt ≠ some (th.step + BitVec.ofNat 64 (k + 1))) → th.lc0 = 0 → th.lc1 = 0 →
      Answers (.vchain t n members) s fun s' => OnlyThread t base s' ∧
        let c := threadOf s' t
        c.v = (vfinish e).v ∧ c.p = (vfinish e).p ∧ c.g = th.g ∧ c.sbuf = th.sbuf ∧
        c.pc = th.pc + BitVec.ofNat 48 (4 * (n.toNat + 1)) ∧
        c.step = if th.priv then th.step else th.step + BitVec.ofNat 64 (n.toNat + 1))

/-- CALLM stores the return address and the registers that its mask selects in the frame below g31, here one whose lines are
in the data cache, links g30 and goes to its target; RETM restores the registers of its own mask from the frame at g31, pops it and returns to its address. -/
def Obligations.FramedCalls : Prop :=
  ∀ (t : Tid) (s : State) (mask off : BitVec 24) (a : Nat), Idle t s → Sound s →
    let th := threadOf s t
    let rs : List (Bool × Reg) := ((List.range 24).filter mask.getLsbD).map fun i =>
      if i < 16 then (false, BitVec.ofNat 5 (8 + i)) else (true, BitVec.ofNat 5 (i - 8))
    let f := (8 * (rs.length + 1) + 15) / 16 * 16
    let g31 := getG th 31
    let sp := (g31 >>> 4) <<< 4 - BitVec.ofNat 64 f
    let target := th.pc + off.signExtend 48 * 4
    let ret : W64 := (th.pc + 8).setWidth 64
    let kept (e : Bool × Reg) : W64 := if e.1 then getF th e.2 else getG th e.2
    let dw (i : Nat) : W64 := BitVec.ofNat 64 (readNum (begin s) (a + 8 * i) 8)
    let back := (dw 0).setWidth 48
    (let b := walked t sp.toNat f s
     CalmFor 120 t sp.toNat f s → threadPieces (begin b) t .write sp.toNat f = .ok [⟨sp.toNat, f, some a, none⟩] →
     (∀ y, a ≤ y → y < a + f → cached (vpOf (begin s) t.vp.toNat) y = true) → ¬EndsInvocation th target →
      Answers (.callm t (mask ++ off)) s fun s' =>
        Stores t a ((ret :: rs.map kept).flatMap fun v => toBytes 8 v.toNat) b s' ∧
        Retired 2 (some target) (putG 30 ret (putG 31 sp { th with paid := [] })) (threadOf s' t)) ∧
    (let b := walked t g31.toNat f s
     let cs : List Chunk := [⟨g31.toNat, f, some a, none⟩]
     CalmFor 120 t g31.toNat f s → threadPieces (begin b) t .read g31.toNat f = .ok cs → Settled cs s →
     missing (begin s) t.vp.toNat cs = [] → ¬EndsInvocation th back →
      CompletesFrom b 1 (some back) t s (.retm t mask) fun x =>
        putG 31 (g31 + BitVec.ofNat 64 f)
          ((rs.zipIdx 1).foldl (fun y e => if e.1.1 then putF e.1.2 (dw e.2) y else putG e.1.2 (dw e.2) y)
            { x with paid := [] }))

/-- What fills bring: a sector into the data cache, with no other effect where no line of its set is dirty, and its thread
out of the wait when it waits for no other; a line into
the instruction cache, and its thread out of the wait for it. A table walk gives the look-aside buffer the entry of the leaf
that it finds, in place of those that it overlaps, unless advice keeps the die from holding it. -/
def Obligations.FillsAndTableWalks : Prop :=
  ∀ (t : Tid) (s : State) (x : Nat) (va : BitVec 48), Powered s → (threadOf s t).groups = [] →
    let th := threadOf s t
    let vp := t.vp.toNat
    let v := vpOf (begin s) vp
    let sector := x / 64 * 64
    let line := x / 256 * 256
    let others (s' : State) : Prop := s'.pending = s.pending ∧ s'.mem = s.mem ∧
      (∀ u, u ≠ t → threadOf s' u = threadOf s u) ∧ ∀ k, k ≠ vp → vpOf (begin s') k = vpOf (begin s) k
    let clean : Prop := ∀ e ∈ v.dcache, e.1 % 256 = x / 256 % 256 → e.2.2 = 0
    let park : Park := match th.park with
      | .dataMiss ss => if ss.filter (· ≠ sector) = [] then .none else .dataMiss (ss.filter (· ≠ sector))
      | p => p
    Answers (.dataCacheFill t x) s (fun s' => others s' ∧ cached (vpOf (begin s') vp) sector = true ∧
      (threadOf s' t).park = park ∧
      (clean → threadOf s' t = { th with park := park } ∧
        { s'.m with threads := s.m.threads, vps := s.m.vps, free := s.m.free } = s.m)) ∧
    (Sound s → (∀ c ∈ linePieces (begin s) t line, c.stale = none) →
     Answers (.instructionCacheFill t x) s (fun s' => others s' ∧ line ∈ (vpOf (begin s') vp).icache ∧
      (∀ k, k ≠ line → k ∈ (vpOf (begin s') vp).icache → k ∈ v.icache) ∧
      (v.icache.length < 1024 → ∀ k ∈ v.icache, k ∈ (vpOf (begin s') vp).icache) ∧
      { s'.m with threads := s.m.threads, vps := s.m.vps, free := s.m.free } = s.m ∧
      threadOf s' t = { th with park := if th.park = .fetchMiss line then .none else th.park })) ∧
    let charged : Prop := th.gateWaits = 0 ∧ (th.paid = [walkKey] ∨
      ∃ p ∈ s.m.x.walked, walkedIn t (walkRange (begin s) th.xlbase va.toNat) p = true)
    (walk (begin s) th.xlbase va.toNat = none → Sound s → charged → Answers (.tableWalk t va) s fun s' =>
      s'.mem = s.mem ∧ vpOf (begin s') vp = v) ∧
    (∀ l, walk (begin s) th.xlbase va.toNat = some l → charged →
      let e := entryOf (begin s) l th.asid
      Answers (.tableWalk t va) s fun s' => s'.mem = s.mem ∧
        ∃ es, vpOf (begin s') vp = { v with tlb := es } ∧
          if adviceForbids (begin s) (dieOfVp vp) th.asid e.va e.size then es = v.tlb
          else ∃ r, es = e :: r ∧ ∀ y ∈ r, y ∈ v.tlb ∧
            ¬(overlaps y.va y.size e.va e.size = true ∧
              (y.asid = e.asid ∨ y.bits.getLsbD 6 = true ∨ e.bits.getLsbD 6 = true)))

/-- The groups of a family. GSPAWN starts it with one group of min(gs, VLN, 1,024) lanes, whose scalar file is the thread's,
and with none goes on; either counts. In group mode an instruction acts on its group's scalar file and counts a step for every active
lane. GEXIT of the last group ends the family. GBR goes one way, or splits the group in two, of which one waits for the
other at the join. A group whose next instruction lies at the join merges into the one that waits there, whose scalar file
and slot it takes, and an outer join still waits for its lanes; GEXIT takes its group's lanes out of every join. A barrier
that every live lane has reached releases at once. -/
def Obligations.ThreadGroups : Prop :=
  (∀ (t : Tid) (s : State) (rd ra rb : Reg), Calm 30 t s → (threadOf s t).family = false →
    let th := threadOf s t
    let n := min (getG th rb).toNat (min th.vln.toNat 1024)
    let id := BitVec.ofNat 64 (th.famCount + 1)
    (n = 0 → Gives t s (.gspawn t rd ra rb) fun x => putG rd 0 { x with famCount := x.famCount + 1 }) ∧
    (0 < n → Answers (.gspawn t rd ra rb) s fun s' =>
      let b := threadOf s' t
      s'.pending = s.pending ∧ s'.mem = s.mem ∧ (∀ u, u ≠ t → threadOf s' u = threadOf s u) ∧
      { s'.m with threads := s.m.threads, cnt := s.m.cnt, stamps := s.m.stamps } = s.m ∧
      b.gm = true ∧ b.family = true ∧ b.famCount = th.famCount + 1 ∧ b.vln = BitVec.ofNat 32 n ∧ b.famVln = th.vln ∧
      b.famPc = (loopNext th.pc 1 th).2 ∧ b.live = BitVec.ofNat 1024 (2 ^ n - 1) ∧
      (∃ g, b.groups = [(0, g)] ∧ g.stamp = nextStamp (unitVp t.vp.toNat) (begin s) ∧ g.mask = b.live ∧ g.pc = ((getG th ra).setWidth 48 >>> 2) <<< 2 ∧ g.wait = .ready ∧
        ∀ r, r ≠ 0 → tread 0 g.g r.toNat = if r = rd then id else getG th r) ∧
      (∀ i, i < n → vget 64 (getV b 31) i = i) ∧ ∀ r, r ≠ 31 → getV b r = getV th r)) ∧
  (∀ (t : Tid) (s : State) (g u x : Group) (p q : Lanes), Powered s →
    let th := threadOf s t
    let fewer (l : Lanes) : GroupWait := if l &&& ~~~g.mask = 0 then .ready else .join (l &&& ~~~g.mask)
    canIssue th = true → interruptDue (begin s) t = false → th.gm = true → th.groups = [(0, g), (1, u), (2, x)] → g.wait = .ready → u.wait = .join p →
    x.wait = .join q → u.pc = g.pc + 4 → x.pc ≠ u.pc → g.mask ≠ 0 → g.mask &&& p = g.mask → th.acting = none →
    th.lc0 = 0 → th.lc1 = 0 → th.residue + 15 < energyUnit → th.stopAt ≠ some (th.step + 1) → th.paid = [] →
    (Answers (.nop t) s fun s' => OnlyThread t s s' ∧
      (threadOf s' t).groups = [(1, { u with mask := u.mask ||| g.mask, wait := fewer p }), (2, x)]) ∧
    (th.live &&& ~~~g.mask ≠ 0 → Answers (.gexit t) s fun s' => OnlyThread t s s' ∧
      (threadOf s' t).live = th.live &&& ~~~g.mask ∧
      (threadOf s' t).groups = [(1, { u with wait := fewer p }), (2, { x with wait := fewer q })])) ∧
  ∀ (t : Tid) (s : State) (g : Group), OneGroup 15 t s g → (threadOf s t).paid = [] →
    let th := threadOf s t
    let next := { g with pc := g.pc + 4 }
    let stamp := nextStamp (unitVp t.vp.toNat) (begin s)
    let does (i : Instr) (gs : Table Group) : Prop :=
      Answers i s fun s' => OnlyThread t s s' ∧ (threadOf s' t).groups = gs ∧ (threadOf s' t).g = th.g ∧
        (threadOf s' t).pc = th.pc ∧ (threadOf s' t).gm = true
    (∀ (rd ra : Reg) (imm : BitVec 16), rd ≠ 0 →
      does (.addi t rd ra imm) [(0, { next with g := twrite 0 g.g rd.toNat (getG th ra + imm.signExtend 64) })]) ∧
    (th.priv = false → Answers (.nop t) s fun s' => (threadOf s' t).step = th.step + 1 ∧
      ∀ i, i < 1024 → tread 0 (threadOf s' t).laneStep i = tread 0 th.laneStep i + if g.mask.getLsbD i then 1 else 0) ∧
    (Answers (.gexit t) s fun s' => OnlyThread t s s' ∧
      let b := threadOf s' t
      b.gm = false ∧ b.family = false ∧ b.groups = [] ∧ b.vln = th.famVln ∧ b.pc = th.famPc ∧ b.g = th.g) ∧
    (∀ (p : BitVec 3) (off : BitVec 16),
      let target := g.pc + off.signExtend 48 * 4
      let taken := g.mask &&& (getP th p).setWidth 1024
      let fall := g.mask &&& ~~~taken
      let splits (gs : Table Group) : Prop := Answers (.gbr t p off) s fun s' =>
        s'.pending = s.pending ∧ s'.mem = s.mem ∧ (∀ u, u ≠ t → threadOf s' u = threadOf s u) ∧
        { s'.m with threads := s.m.threads, cnt := s.m.cnt, stamps := s.m.stamps } = s.m ∧ (threadOf s' t).groups = gs
      (taken = 0 → does (.gbr t p off) [(0, next)]) ∧
      (taken ≠ 0 → fall = 0 → ¬EndsInvocation th target → does (.gbr t p off) [(0, { g with pc := target })]) ∧
      (taken ≠ 0 → fall ≠ 0 → g.pc.toNat < target.toNat → target ≠ g.pc + 4 →
        splits [(0, { next with mask := fall }),
          (1, { g with mask := taken, pc := target, stamp := stamp, wait := .join fall })]) ∧
      (taken ≠ 0 → fall ≠ 0 → target.toNat ≤ g.pc.toNat → target ≠ g.pc + 4 → ¬EndsInvocation th target →
        splits [(0, { g with mask := taken, pc := target }),
          (1, { next with mask := fall, stamp := stamp, wait := .join taken })])) ∧
    (∀ ra : Reg, does (.gbar t ra) [(0, next)] ∧ Answers (.gbar t ra) s fun s' =>
      (threadOf s' t).missing = 0 ∧ (threadOf s' t).barinc = false)

/-- Locks of groups. GLOCK of a free word stores its lowest lane's holder code, and the other lanes split off, as a group with
a stamp of its own, to wait for that lane; of a word that another family holds, the group waits for the word, and GLOCK_RETRY
runs the GLOCK again, which takes the word once it is free. GUNLOCK by the holder frees the word. -/
def Obligations.GroupLocks : Prop :=
  ∀ (t : Tid) (s : State) (ra : Reg) (g : Group) (a lane : Nat), Sound s → (threadOf s t).sbuf = [] →
    let th := threadOf s t
    let va := (if ra = 0 then 0 else tread 0 g.g ra.toNat : W64).toNat
    let b := accessed t va 8 true a s
    let word := readNum (begin s) a 8
    let one : Lanes := 1#1024 <<< lane
    let rest := g.mask &&& ~~~one
    let code (l : Nat) : Nat := 2 ^ 63 + th.famCount % 65536 * 2 ^ 18 + t.vp.toNat * 2 ^ 13 + t.th.toNat * 2 ^ 10 + l
    let taken : Table Group :=
      if rest = 0 then [(0, { g with pc := g.pc + 4, wait := .ready })]
      else [(0, { g with mask := one, pc := g.pc + 4, wait := .ready }),
            (1, { g with mask := rest, stamp := nextStamp (unitVp t.vp.toNat) (begin s), wait := .holder lane a })]
    let takes (i : Instr) : Prop := Answers i s fun s' =>
      (threadOf s' t).groups = taken ∧ s'.pending = s.pending ∧ (∀ u, u ≠ t → threadOf s' u = threadOf s u) ∧
      (∀ x, storedByte s' x = if a ≤ x ∧ x < a + 8 then (toBytes 8 (code lane)).getD (x - a) 0 else storedByte s x) ∧
      { s'.m with threads := b.m.threads, cnt := b.m.cnt, vps := b.m.vps, wlog := b.m.wlog, stamps := b.m.stamps } = b.m
    lane < 1024 → g.mask.getLsbD lane = true → va % 8 = 0 →
    threadPieces (begin s) t .both va 8 = .ok [⟨va, 8, some a, none⟩] → Settled [⟨va, 8, some a, none⟩] s →
    (OneGroup 75 t s g → th.paid = [g.pc.toNat] →
      ((∀ j, j < lane → g.mask.getLsbD j = false) → (th.det = false ∨ ∀ c k, th.binding ≠ .plan c k) →
        (word = 0 → takes (.glock t ra)) ∧
        (word ≠ 0 → (∀ l, l < 1024 → code l ≠ word) → Answers (.glock t ra) s fun s' => OnlyThread t b s' ∧
          (threadOf s' t).groups = [(0, { g with wait := .lock ra a })] ∧ (threadOf s' t).step = th.step)) ∧
      (word = code lane → Answers (.gunlock t ra) s fun s' =>
        (∀ x, storedByte s' x = if a ≤ x ∧ x < a + 8 then 0 else storedByte s x) ∧
        (threadOf s' t).groups = [(0, { g with pc := g.pc + 4 })] ∧
        ∀ u, u ≠ t → threadOf s' u = if u.vp = t.vp
          then { threadOf s u with groups := (threadOf s u).groups.map fun e =>
            (e.1, match e.2.wait with
              | .lock _ c => if c = a then { e.2 with wait := .ready } else e.2
              | _ => e.2) }
          else threadOf s u)) ∧
    (∀ c, Powered s → th.gm = true → th.groups = [(0, g)] → g.wait = .lock ra c → th.acting = none → th.live = g.mask →
      th.gateWaits = 0 → th.paid = [2 ^ 48 + 2] → th.park = .none → th.lc0 = 0 → th.lc1 = 0 →
      th.stopAt ≠ some (th.step + 1) → (∀ j, j < lane → g.mask.getLsbD j = false) →
      (th.det = false ∨ ∀ c k, th.binding ≠ .plan c k) → word = 0 → takes (.glockRetry t 0))

/-- An atomic of a plan with DET waits with its operands until every other thread of the plan has a horizon above its key,
and is performed then. -/
def Obligations.OrderedAtomics : Prop :=
  (∀ (t : Tid) (s : State) (rd ra rb : Reg) (a cmd k : Nat), Idle t s →
    let th := threadOf s t
    let va := (getG th ra).toNat
    let b := walked t va 8 s
    CalmFor 75 t va 8 s → th.det = true → th.binding = .plan cmd k → va % 8 = 0 →
    threadPieces (begin b) t .both va 8 = .ok [⟨va, 8, some a, none⟩] →
    let waits (i : Instr) (op : Nat) : Prop := Answers i s fun s' => OnlyThread t b s' ∧
      threadOf s' t = { th with paid := [], park := .atomic th.step.toNat op rd (some a) (getG th rb) (getG th rd) }
    waits (.aadd t rd ra rb) 0 ∧ waits (.aand t rd ra rb) 1 ∧ waits (.aor t rd ra rb) 2 ∧ waits (.axor t rd ra rb) 3 ∧
    waits (.amin t rd ra rb) 4 ∧ waits (.amax t rd ra rb) 5 ∧ waits (.aswap t rd ra rb) 6 ∧ waits (.acas t rd ra rb) 7) ∧
  ∀ (t : Tid) (s : State) (rd : Reg) (a cmd S k : Nat) (v c : W64) (o : AtomOp), Powered s → Sound s →
    let th := threadOf s t
    let old := BitVec.ofNat 64 (readNum (begin s) a (atomSize o))
    th.gm = false → th.groups = [] → th.acting = none → th.binding = .plan cmd k → th.park = .atomic S (atomMinor o) rd (some a) v c →
    (horizonsPast (begin s) t cmd S k = false → exec (.atomicApply t) s = .next s) ∧
    (horizonsPast (begin s) t cmd S k = true → th.gateWaits = 0 → th.paid = [2 ^ 48 + 1] →
      th.residue + 75 < energyUnit → th.stopAt ≠ some (th.step + 1) → Settled [⟨a, atomSize o, some a, none⟩] s →
      Answers (.atomicApply t) s fun s' =>
        Stores t a (toBytes (atomSize o) (atomNew o old v c).toNat)
          (requested t (threadTraffic t true a (atomSize o)) s) s' ∧
        Retired 1 none ((if atomFloat o then putF rd old else putG rd old) { th with paid := [], park := .none })
          (threadOf s' t))

/-- TCFG writes TMAP at supervisor level and empties the tiles whose assignment it changes; TREL empties the tiles of its
mask that are the thread's own, and logs each other. TLOAD moves rows into the thread's own tile and TSTORE out of it, while
the thread waits between rows; a TLOAD of another's tile is logged and loads nothing, and a TSTORE of an empty tile stores
nothing. The transfer's end moves the rows that are left, those of a tile that has been released meanwhile to nowhere, clears
TSTART and retires; a row whose translation is absent is a fault at it. -/
def Obligations.TileRegisters : Prop :=
  (∀ (t : Tid) (s : State) (ra : Reg) (mask : BitVec 8), Calm 15 t s →
    let th := threadOf s t
    let vp := t.vp.toNat
    let v := vpOf (begin s) vp
    let new : W32 := (getG th ra).setWidth 32
    let assigned (m : W32) (i : Nat) : Nat := m.toNat / 16 ^ i % 16
    let row (x : Vp) (i r : Nat) : BitVec 2048 := tread 0 x.tiles (tileKey (tileGen x i) i r)
    let sets (i : Instr) (tmap : W32) (gone : Nat → Prop) : Prop :=
      Answers i s fun s' =>
        let x := vpOf (begin s') vp
        Retired 1 none th (threadOf s' t) ∧ s'.mem = s.mem ∧ s'.pending = s.pending ∧
        (∀ u, u ≠ t → threadOf s' u = threadOf s u) ∧ (∀ k, k ≠ vp → vpOf (begin s') k = vpOf (begin s) k) ∧
        { s'.m with threads := s.m.threads, cnt := s.m.cnt, vps := s.m.vps } = s.m ∧ x.tmap = tmap ∧
        ∀ i, i < 8 →
          (gone i → x.full.getLsbD i = false ∧ tileGen x i = tileGen v i + 1 ∧ ∀ r, r < 64 → row x i r = 0) ∧
          (¬gone i → x.full.getLsbD i = v.full.getLsbD i ∧ tileGen x i = tileGen v i ∧
            ∀ r, r < 64 → row x i r = row v i r)
    (th.priv = false → CompletesFrom (after s (violThread t vcPrivReg true 0x31
      ((0x20 : BitVec 6) ++ (0 : Reg) ++ ra ++ (0 : BitVec 16)))) 1 none t s (.tcfg t ra) id) ∧
    (th.priv = true → sets (.tcfg t ra) new fun i => assigned v.tmap i ≠ assigned new i) ∧
    ((∀ i, i < 8 → mask.getLsbD i = true → assigned v.tmap i = 8 + t.th.toNat) →
      sets (.trel t mask) v.tmap fun i => mask.getLsbD i = true) ∧
    (∀ i, i < 8 → mask = 1#8 <<< i → assigned v.tmap i ≠ 8 + t.th.toNat →
      CompletesFrom (after s (violThread t vcTileOwner true 0 ((0x20 : BitVec 6) ++ mask ++ (3 : BitVec 18)))) 1 none t s
        (.trel t mask) id)) ∧
  (∀ (t : Tid) (s : State) (tile : BitVec 3) (ra rb : Reg) (hint : BitVec 2) (stop : BitVec 7) (addr : Nat → Nat),
    Sound s → Idle t s →
    let th := threadOf s t
    let vp := t.vp.toNat
    let v := vpOf (begin s) vp
    let k := tile.toNat
    let gen := tileGen v k
    let base := (getG th ra).toNat / 256 * 256
    let stride := (getG th rb).toNat / 256 * 256
    let lo := th.tstart.toNat
    let hi := max lo (min stop.toNat 64)
    let word (minor : BitVec 6) : W32 :=
      (0x20 : BitVec 6) ++ (0 : BitVec 2) ++ tile ++ ra ++ rb ++ (0 : BitVec 3) ++ hint ++ minor
    let waits (s' : State) (load : Bool) (minor : BitVec 6) (next : Nat) : Prop :=
      { threadOf s' t with residue := th.residue, ucnt := th.ucnt } =
        { th with paid := [], park := .tile load false k gen next base stride (word minor) } ∧
      s'.pending = s.pending ∧ (∀ u, u ≠ t → threadOf s' u = threadOf s u) ∧
      (NearRows t s base stride lo next addr →
        { s'.m with threads := s.m.threads, cnt := s.m.cnt, vps := s.m.vps, wlog := s.m.wlog } = s.m)
    (CalmPaid 0 t s → tileOwner v.tmap k = some t.th.toNat →
      (Rows t s .read base stride lo hi addr → Answers (.tload t tile ra rb hint stop) s fun s' =>
        let x := vpOf (begin s') vp
        waits s' true 1 hi ∧ s'.mem = s.mem ∧ (lo < hi → x.full = v.full ||| (1#8 <<< k)) ∧
        ∀ r, r < 64 → tread 0 x.tiles (tileKey gen k r) =
          if lo ≤ r ∧ r < hi then BitVec.ofNat 2048 (readNum (begin s) (addr r) 256) else tread 0 v.tiles (tileKey gen k r)) ∧
      (v.full.getLsbD k = true → stop.toNat = lo + 1 → Rows t s .write base stride lo (lo + 1) addr →
        Answers (.tstore t tile ra rb hint stop) s fun s' => waits s' false 2 (lo + 1) ∧
          ∀ x, storedByte s' x = if addr lo ≤ x ∧ x < addr lo + 256
            then (toBytes 256 (tread 0 v.tiles (tileKey gen k lo)).toNat).getD (x - addr lo) 0 else storedByte s x)) ∧
    (Calm 300 t s →
      (tileOwner v.tmap k ≠ some t.th.toNat →
        CompletesFrom (after s (violThread t vcTileOwner false 0 (word 1))) 1 none t s (.tload t tile ra rb hint stop)
          fun x => { x with tstart := 0 }) ∧
      (tileOwner v.tmap k = some t.th.toNat → v.full.getLsbD k = false →
        Gives t s (.tstore t tile ra rb hint stop) fun x => { x with tstart := 0 }))) ∧
  ∀ (t : Tid) (s : State) (load zero : Bool) (k gen next base stride : Nat) (word : W32) (addr : Nat → Nat),
    Powered s → Sound s → (threadOf s t).gm = false → (threadOf s t).groups = [] → (threadOf s t).gateWaits = 0 →
    (threadOf s t).park = .tile load zero k gen next base stride word → next ≤ 64 → k < 8 →
    let th := threadOf s t
    let vp := t.vp.toNat
    let v := vpOf (begin s) vp
    let row (x : Vp) (i r : Nat) : BitVec 2048 := tread 0 x.tiles (tileKey i k r)
    let ends (s' : State) : Prop :=
      let b := threadOf s' t
      b.park = .none ∧ b.tstart = 0 ∧ b.pc = (loopNext th.pc 1 th).2 ∧ b.g = th.g ∧ b.v = th.v ∧ b.cause = th.cause
    let stopsAt (a : Nat) (i : Instr) : Prop := Answers i s fun s' =>
      let b := threadOf s' t
      s'.mem = s.mem ∧ b.park = .none ∧ b.tstart = BitVec.ofNat 6 next ∧ b.pc = th.pc ∧
      b.cause = some { vec := 2, detail := if load then 0x04 else 0x84, eaddr := BitVec.ofNat 64 a }
    (load = true → Rows t s .read base stride next 64 addr →
      (th.paid = [] → exec (.tileRowAbsent t) s = .next s) ∧
      (th.paid = [2 ^ 49] → Answers (.tileTransferEnd t) s fun s' => ends s' ∧ s'.mem = s.mem ∧
        let x := vpOf (begin s') vp
        (gen = tileGen v k → ∀ r, r < 64 → row x gen r =
          if next ≤ r then BitVec.ofNat 2048 (readNum (begin s) (addr r) 256) else row v gen r) ∧
        (gen ≠ tileGen v k → x.full = v.full ∧ ∀ r, r < 64 → row x (tileGen v k) r = row v (tileGen v k) r))) ∧
    (load = false → next = 63 → th.paid = [2 ^ 49] → Rows t s .write base stride 63 64 addr →
      Answers (.tileTransferEnd t) s fun s' => ends s' ∧
        ∀ x, storedByte s' x = if addr 63 ≤ x ∧ x < addr 63 + 256 then
            (toBytes 256 (if zero then 0 else row v gen 63).toNat).getD (x - addr 63) 0
          else storedByte s x) ∧
    (∀ a, next < 64 →
      let va := (base + next * stride) % 2 ^ 64
      (th.paid = [2 ^ 49] ∨ th.paid = [] ∧ NoWalks t va 256 s) →
      threadPieces (begin (walked t va 256 s)) t (if load then .read else .write) va 256 = .error a →
      stopsAt a (.tileRowAbsent t) ∧ stopsAt a (.tileTransferEnd t))

/-- FOP posts the descriptor at its address to the queue of its plan or invocation, and its output is open from then on;
FWAIT goes on once the field step counter has reached its value, which covers the outputs of the steps below it, and waits
otherwise. The field runs one operation at a time. Admission takes the operation that the
rule of R107 chooses, when the field is free and the geometry is the plan's. Completion writes the rows that the operation
computes, advances its queue's step counter and takes its descriptor off; one whose ranges are not all mapped stops instead,
and its thread faults. A failed column of an array in use ends the operation, is recorded and aborts its plan. Sums in the
accumulator window are exact while they fit it, and lose low bits toward minus infinity. -/
def Obligations.FieldOperations : Prop :=
  (∀ (t : Tid) (s : State) (ra : Reg) (o : Owner), fieldOwner (threadOf s t) = some o →
     (∃ e ∈ s.m.fqueues, e.1 = o) → (∀ e ∈ s.m.fqueues, ∀ x ∈ e.2.entries, x.stopped = false) →
     let th := threadOf s t
     let q := fieldQueue (begin s) o
     let va := (getG th ra).toNat / 64 * 64
     (∀ cs, CalmPaid 30 t s → Idle t s → Sound s → threadPieces (begin s) t .read va 128 = .ok cs → Settled cs s →
       (∀ c ∈ cs, c.pa.isSome = true) →
       let b := requested t (fun w => piecesTraffic t false cs (threadWalks t va 128 w)) s
       let w := forgetNotes (begin b)
       let desc := ofBytes (readPieces (begin s) cs)
       let e := fieldEntryOf w t th desc
       let step := q.step.toNat + seqDistance q (entrySeq e)
       fopRefusal (begin s) (fdOf desc) = 0 → seqDistance q (entrySeq e) < 16 → (∀ x ∈ q.entries, entrySeq x ≠ entrySeq e) →
       Answers (.fop t ra) s fun s' =>
         fieldQueue (begin s') o = { q with
           entries := q.entries ++ [e],
           outs := (step, outputRanges w e.ctx (fdOf desc)) :: q.outs.filter fun x => x.1 != step } ∧
         (∀ p, p ≠ o → fieldQueue (begin s') p = fieldQueue (begin s) p) ∧
         s'.mem = s.mem ∧ s'.pending = s.pending ∧ (∀ u, u ≠ t → threadOf s' u = threadOf s u) ∧
         { s'.m with threads := b.m.threads, cnt := b.m.cnt, fqueues := b.m.fqueues, wlog := b.m.wlog } = b.m ∧
         Retired 1 none { th with paid := [] } (threadOf s' t)) ∧
     (Calm 15 t s →
       let v := getG th ra
       (v.toNat ≤ q.step.toNat → Answers (.fwait t ra) s fun s' =>
         fieldQueue (begin s') o = { q with outs := q.outs.filter fun x => decide (v.toNat ≤ x.1) } ∧
         (∀ p, p ≠ o → fieldQueue (begin s') p = fieldQueue (begin s) p) ∧
         s'.mem = s.mem ∧ s'.pending = s.pending ∧ (∀ u, u ≠ t → threadOf s' u = threadOf s u) ∧
         { s'.m with threads := s.m.threads, cnt := s.m.cnt, fqueues := s.m.fqueues } = s.m ∧
         Retired 1 none th (threadOf s' t)) ∧
       (q.step.toNat < v.toNat → Answers (.fwait t ra) s fun s' => OnlyThread t s s' ∧
         { threadOf s' t with residue := th.residue } = { th with park := .fwait v }))) ∧
  ((∀ s : State, Powered s →
     let w := begin s
     (s.m.fieldRun ≠ none ∨ fieldChoice w = none → exec .fieldAdmission s = .next s) ∧
     (∀ o e, s.m.fieldRun = none → fieldChoice w = some (o, e) →
       (fieldQueue w o).digest.toNat = geomDigest w → Answers .fieldAdmission s fun s' => s'.mem = s.mem ∧
         s'.pending = s.pending ∧ s'.m.fqueues = s.m.fqueues ∧ s'.m.vps = s.m.vps ∧
         ∃ r, s'.m.fieldRun = some r ∧ r.owner = o ∧ r.entry = e ∧ r.op = (fieldQueue w o).step.toNat ∧
           r.cost = (fdOf e.desc).cost ∧ r.tile = stationaryTile (fdOf e.desc) ∧ r.geom = geomNow w ∧
           r.lo = (List.range 32).map (plotLo w)) ∧
     (s.m.fieldRun = none → exec .fieldCompletion s = .next s ∧ exec .fieldAbsentStop s = .next s ∧
       ∀ p a, exec (.columnFail p a) s = .next s)) ∧
   (∀ (s : State) (r : FieldRun) (c : Nat), Powered s → Sound s → s.m.fieldRun = some r → r.owner = .plan c →
     let w := begin s
     let d := fdOf r.entry.desc
     let q := fieldQueue w (.plan c)
     let miss := absentIn w r.entry.ctx (planesOf d (widthOf w d.plots))
     let t := tidOf r.entry.thr
     (∃ e ∈ s.m.fqueues, e.1 = .plan c) →
     (waitsAtGate w .field = true ∨ miss ≠ [] → exec .fieldCompletion s = .next s) ∧
     (waitsAtGate w .field = false → miss = [] → (∀ p ∈ readSide w r d, p.pa.isSome = true) →
       (∀ u p bs, p ∈ waitsOf (threadOf s u) → p.2 ≠ .fopQueue bs) → Answers .fieldCompletion s fun s' =>
       let x := fieldResult d r w
       (∀ a, storedByte s' a = rawByte (writeRows r d x.1 x.2) a) ∧ s'.m.fieldRun = none ∧
       s'.m.fieldCls = some r.entry.cls ∧ (fieldQueue (begin s') (.plan c)).step = q.step + 1) ∧
     (miss = [] → exec .fieldAbsentStop s = .next s) ∧
     (miss ≠ [] → fieldOwner (threadOf s t) = some (.plan c) → (threadOf s t).cause = none → (threadOf s t).gm = false →
       r.entry.thr < 256 → Answers .fieldAbsentStop s fun s' => s'.mem = s.mem ∧ s'.m.fieldRun = none ∧
         (∃ a ∈ miss, threadOf s' t = { threadOf s t with
           cause := some { vec := 2, detail := if a.2 then 0x85 else 0x05, eaddr := BitVec.ofNat 64 a.1 } }) ∧
         (fieldQueue (begin s') (.plan c)).step = q.step ∧
         (fieldQueue (begin s') (.plan c)).entries = q.entries.map fun e =>
           if entrySeq e = entrySeq r.entry then { e with stopped := true } else e) ∧
     ∀ (p : BitVec 5) (a : BitVec 2), r.plots.getLsbD p.toNat = true → tread 0 s.m.hw.failed (p.toNat * 4 + a.toNat) < 6 →
       Answers (.columnFail p a) s fun s' => s'.m.fieldRun = none ∧
         tread 0 s'.m.hw.failed (p.toNat * 4 + a.toNat) = tread 0 s.m.hw.failed (p.toNat * 4 + a.toNat) + 1 ∧
         (∃ x, tget s'.m.elog s.m.errNext = some x ∧ x.code = 0x0009 ∧
           x.unit = BitVec.ofNat 16 (0x3000 + (p.toNat * 4 + a.toNat)))) ∧
   (∀ x y : Int, x.natAbs < 2 ^ 31 → y.natAbs < 2 ^ 31 → (x + y).natAbs < 2 ^ 31 →
     (∃ k : Nat, (windowAdd false (ofInt x) (ofInt y)).1 = .fin (decide (x + y < 0)) ((x + y).natAbs * 2 ^ k) (-(k : Int))) ∧
     int32Add (ofInt x) (ofInt y) = (ofInt (x + y), [])) ∧
   rneF b64 (windowAdd false (ofInt (2 ^ 40)) (ofInt 1)).1 = rneF b64 (ofInt (2 ^ 40)) ∧
   rneF b64 (windowAdd false (ofInt (2 ^ 40)) (ofInt (-1))).1 = rneF b64 (ofInt (2 ^ 40 - 2 ^ 9)))

/-- XFER posts the descriptor at its address to its mover's queue of 16, or waits for room; XWAIT goes on once the thread's
completed transfers reach its count, which orders them before what follows. A free mover starts the oldest transfer of its
queue; a run that its gates have admitted moves its bytes and the transfer stands at the next; a raw row of device memory is
copied as it is. A transfer that meets an absent translation, or has no run left, completes once what it writes then is
admitted: its record is written, its thread's count moves on, and the mover is free. -/
def Obligations.Movers : Prop :=
  (∀ (t : Tid) (s : State) (ra : Reg) (cs : List Chunk), Idle t s → Sound s →
    let th := threadOf s t
    let w := begin s
    let va := (getG th ra).toNat / 64 * 64
    let b := requested t (fun w => piecesTraffic t false cs (threadWalks t va 128 w)) s
    let desc := ofBytes (readPieces w cs)
    let n := takerOf w (dieOfVp t.vp.toNat) (xdOf desc).mover
    (CalmPaid 30 t s → threadPieces w t .read va 128 = .ok cs → Settled cs s → (∀ c ∈ cs, c.pa.isSome = true) →
      xferRefusal (xdOf desc) = 0 →
      ((moverOf w n).queue.length < 16 → Answers (.xfer t ra) s fun s' =>
        moverOf (begin s') n = { moverOf w n with
          queue := (moverOf w n).queue ++ [threadXfer (forgetNotes (begin b)) t desc] } ∧
        (∀ k, k ≠ n → moverOf (begin s') k = moverOf w k) ∧ s'.mem = s.mem ∧ s'.pending = s.pending ∧
        (∀ u, u ≠ t → threadOf s' u = threadOf s u) ∧
        { s'.m with threads := b.m.threads, cnt := b.m.cnt, wlog := b.m.wlog,
                    hw := { s'.m.hw with movers := b.m.hw.movers } } = b.m ∧
        Retired 1 none { th with paid := [], xferPosted := th.xferPosted + 1 } (threadOf s' t)) ∧
      (16 ≤ (moverOf w n).queue.length → Answers (.xfer t ra) s fun s' => OnlyThread t b s' ∧
        { threadOf s' t with ucnt := th.ucnt, residue := th.residue } =
          { th with paid := [], park := .xferQueue (toBytes 128 desc) })) ∧
    (Calm 15 t s →
      let v := getG th ra
      (v.toNat ≤ th.xferDone → Answers (.xwait t ra) s fun s' => Retired 1 none th (threadOf s' t) ∧
        OnlyThread t { s with m := { s.m with hw := { s.m.hw with moved := s.m.hw.moved.filter fun o =>
          match o.who with | .thread k post => !(k == tkey t && decide (post < v.toNat)) | .cmd _ _ => true } } } s') ∧
      (th.xferDone < v.toNat → Answers (.xwait t ra) s fun s' => OnlyThread t s s' ∧
        { threadOf s' t with residue := th.residue } = { th with park := .xwait v }))) ∧
  (∀ (s : State) (die : BitVec 1) (m : BitVec 5), Powered s →
    let n := die.toNat * 32 + m.toNat
    let v := moverOf (begin s) n
    let st := unitState (begin s) (0x6000 + n)
    (v.run ≠ none ∨ v.queue = [] → exec (.moverTransferStart die m) s = .next s) ∧
    (∀ e q, v.run = none → v.queue = e :: q → st = .inService ∨ st = .draining → xferDropped (begin s) e = false →
      (xdOf e.desc).dig = false → (xdOf e.desc).cplen = false → s.m.hw.moved = [] →
      Answers (.moverTransferStart die m) s fun s' => s'.mem = s.mem ∧
        ∃ more fails, moverOf (begin s') n =
          { moverOf (begin s') n with queue := q ++ more, run := some { entry := e, draw := s.m.free, fails := fails } }) ∧
    (v.run = none → exec (.moverRun die m) s = .next s ∧ exec (.moverAbsentStop die m) s = .next s ∧
      exec (.moverTransferComplete die m) s = .next s)) ∧
  (∀ (s : State) (die : BitVec 1) (m : BitVec 5) (r : XRun), Powered s → Sound s →
    let n := die.toNat * 32 + m.toNat
    let w := begin s
    let e := r.entry
    let d := xdOf e.desc
    let idx := indexOf w n e d
    let ends (i : Instr) (status va : Nat) : Prop := Answers i s fun s' =>
      (moverOf (begin s') n).run = none ∧
      ∀ key post, e.who = .thread key post → r.host = [] → xferOpen w n e = false →
        (cmdOfThread (threadOf s (tidOf key)) = some e.cmd → (threadOf s' (tidOf key)).xferDone =
          (settlePosts { threadOf s (tidOf key) with xferEnded := (threadOf s (tidOf key)).xferEnded ++ [post] }).xferDone) ∧
        (d.dig = false → d.cplen = false → s'.mem = s.mem) ∧
        (∀ pa, d.dig = false → d.cplen = true → isHost pa = false →
          lookRange w n e ⟨d.cpl, 32, true⟩ = .ok [(⟨d.cpl, 32, true⟩, [⟨d.cpl, 32, some pa, none⟩])] →
          ∀ x, storedByte s' x = if pa ≤ x ∧ x < pa + 32 then (completionRecord w d status r.done va).getD (x - pa) 0
            else storedByte s x)
    let admitted : Prop :=
      r.asked = true ∨ d.dig = false ∧ d.cplen = false ∧ (moverOf w n).residue < energyUnit
    (moverOf w n).run = some r → waitsAtGate w (.mover n) = false → xferDropped w e = false → jStages w 1 = true →
    (∀ u row off cs, unitAt d idx r.row r.off = some (u, row, off) → runLook w n r u = .ok cs →
      r.asked = true → s.m.twin.role ≠ 2 → (∀ x ∈ cs, x.1.write = false → ∀ c ∈ x.2, c.pa.isSome = true) →
      let later := (unitsFrom d idx 5 r.row r.off).drop 4
      let x := translateAhead n e (later.flatMap (unitRanges d)) w
      Answers (.moverRun die m) s fun s' =>
        (∀ a, storedByte s' a = rawByte (moveUnit x.m.free n e d u (drawFree x).2) a) ∧
        ∃ r', (moverOf (begin s') n).run = some r' ∧ r'.entry = e ∧ r'.done = r.done + 1 ∧ r'.row = row ∧ r'.off = off ∧
          r'.asked = false) ∧
    (∀ u row off va, unitAt d idx r.row r.off = some (u, row, off) → runLook w n r u = .absent va → admitted →
      (∀ page, lookRanges w n e (markRanges d) ≠ .ask page) → ends (.moverAbsentStop die m) 1 va) ∧
    (unitAt d (fun _ => 0) r.row r.off = none → admitted →
      (∀ page, lookRanges w n e (markRanges d) ≠ .ask page) → ends (.moverTransferComplete die m) 0 0) ∧
    (∀ (p : XPiece) (k ps pd : Nat), isHost ps = false → isHost pd = false → converts d = false →
      let len := ceilDiv (p.n * xBits d.sfmt) 8
      pieces w (moverOf w n).tlb e.ctx .read (moverMayReach w) (pieceSrc d p) len
        = .ok [⟨pieceSrc d p, len, some ps, none⟩] →
      pieces w (moverOf w n).tlb e.ctx .write (moverMayReach w) (pieceDst d p) len
        = .ok [⟨pieceDst d p, len, some pd, none⟩] →
      ∀ a, rawByte (moveUnit k n e d (.rows [p]) w) a =
        if pd ≤ a ∧ a < pd + len then byteAt w (ps + (a - pd)) else rawByte w a))

/-- CUSTOM_INSTRUCTION runs the micro-operations of its entry in order, on scratch registers too, and takes effect at once;
an entry that is not valid is an undefined word, and an absent translation discards every result. -/
def Obligations.CustomInstructions : Prop :=
  ∀ (t : Tid) (s : State) (entry : BitVec 6) (rd ra rb : Reg) (imm : BitVec 5), Calm 240 t s →
    let th := threadOf s t
    let d := decodeTab (begin s) (dieOfVp t.vp.toNat)
    let ent := tread 0 d.entries entry.toNat
    let i : Instr := .customInstruction t entry rd ra rb imm
    let a := getG th ra
    let b := getG th rb
    let int (u : Uop) (op : IntOp) (dst src : Nat) : Prop :=
      u.major = 1 ∧ intOfMinor u.minor = some op ∧ u.dst = dst ∧ u.srcA = src ∧ u.srcB = 0x22
    let writes (v : W64) : Prop := CompletesFrom (watched t [] s) 1 none t s i (putG rd v)
    (bit ent 29 = false → CompletesFrom (after s (violThread t vcUndefinedOp false th.pc.toNat
      ((0x3E : BitVec 6) ++ entry ++ rd ++ ra ++ rb ++ imm))) 1 none t s i id) ∧
    (bit ent 29 = true → th.sbuf.length ≤ 8 →
      (∀ u op, entryUops d ent = [u] → int u op 0x20 0x21 → writes (intOp op a b)) ∧
      (∀ u u' op op', entryUops d ent = [u, u'] → int u op 0x24 0x21 → int u' op' 0x20 0x24 →
        writes (intOp op' (intOp op a b) b)) ∧
      (∀ u v x, entryUops d ent = [u, v] → u.major = 9 → (u.imm >>> 13).toNat = 3 → u.srcA = 0x21 →
        scalarPieces (begin s) t .read (a + (u.imm.setWidth 13).signExtend 64).toNat 8 = .error x →
        Answers i s fun s' => OnlyThread t s s' ∧ threadOf s' t =
          { th with cause := some { vec := 2, detail := 0x07, eaddr := BitVec.ofNat 64 x } }))

/-- HBM and its cache. An access to a line that its set does not hold brings the sectors of the access; one that the set holds
adds what is missing; either is the most recent, under the hint NORMAL whatever the command carries; an address outside HBM
meets nothing. A channel serves a run of its queue, and a refresh takes 128 slots. Each completes whatever its operands are, and
none changes a byte. -/
def Obligations.MemoryChannelsAndCache : Prop :=
  (∀ (t : Tid) (s : State) (a : Nat) (sectors whole : BitVec 8) (hint : BitVec 2) (write : Bool), Powered s →
    let w := begin s
    let place := nmPlace w a
    let ls := nmSet w (nmKey place.2.1 place.2.2)
    let i : Instr := .nearMemoryCacheFill t a sectors whole hint write
    let holds (s' : State) (valid dirty : BitVec 8) : Prop := s'.mem = s.mem ∧
      ∃ l r, nmSet (begin s') (nmKey place.2.1 place.2.2) = l :: r ∧ l.line = place.1 ∧ l.valid = valid ∧ l.dirty = dirty
    (∃ s', exec i s = .next s' ∧ s'.mem = s.mem ∧ s'.pending = s.pending) ∧
    ((∀ k, k < 8 → ∀ st o, regionOf w (a / 2048 * 2048 + 256 * k) ≠ .hbm st o) → Answers i s fun s' => s'.mem = s.mem ∧
      { s'.m with threads := s.m.threads, cnt := s.m.cnt } = s.m) ∧
    (∀ st o, regionOf w a = .hbm st o → sectors ≠ 0 →
      ((∀ l ∈ ls, l.line ≠ place.1) → (fillWay w place.2.1 false ls).isSome = true →
        Answers i s fun s' => holds s' sectors (if write then sectors else 0)) ∧
      (∀ l, ls.find? (fun x => x.line == place.1) = some l →
        Answers i s fun s' => holds s' (l.valid ||| sectors) (if write then l.dirty ||| sectors else l.dirty)))) ∧
  ∀ (s : State) (ch : BitVec 9), Powered s →
    let c := tread {} s.m.hw.channels ch.toNat
    let chan (s' : State) : Channel := tread {} s'.m.hw.channels ch.toNat
    (∃ s', exec (.hbmChannelRun ch) s = .next s' ∧ s'.mem = s.mem ∧ s'.pending = s.pending) ∧
    (nextRun c = none → exec (.hbmChannelRun ch) s = .next s) ∧
    (∀ i r, nextRun c = some (i, r) → Answers (.hbmChannelRun ch) s fun s' => s'.mem = s.mem ∧ s'.pending = s.pending ∧
      s'.m.threads = s.m.threads ∧ (∀ x ∈ c.queue.eraseIdx i, x ∈ (chan s').queue) ∧
      (c.held = [] → (chan s').queue = c.queue.eraseIdx i) ∧ (chan s').writing = r.write ∧
      c.slot + r.gran ≤ (chan s').slot) ∧
    ∃ s', exec (.hbmRefresh ch) s = .next s' ∧ s'.mem = s.mem ∧ s'.pending = s.pending ∧ s'.m.threads = s.m.threads ∧
      chan s' = { c with slot := c.slot + 128 } ∧
      ∀ k, k ≠ ch.toNat → tread {} s'.m.hw.channels k = tread {} s.m.hw.channels k

/-- Budgets. A gate admits the request that the rule chooses: it leaves its line, its whole cost is charged to its class,
from CARRY first, and who asked waits for one less. BUDGET_SET keeps a staging copy that fits every resource for the
boundary and fails otherwise. A boundary begins the next period: DET and the lock as written, the last image in intake order,
and every balance carried over as R40 says. The energy of a window halves the grants above 2,000 W, until it falls below 1,900 W. -/
def Obligations.BudgetsAndPeriods : Prop :=
  (∀ (s : State) (res : BitVec 4) (inst : BitVec 6), Powered s →
    let w := begin s
    (resOf res.toNat = none → exec (.gateAdmission res inst) s = .next s) ∧
    ∀ r, resOf res.toNat = some r →
      (gateChoice w r inst.toNat = none → exec (.gateAdmission res inst) s = .next s) ∧
      ∀ q, gateChoice w r inst.toNat = some q → Answers (.gateAdmission res inst) s fun s' =>
        let b := balOf w r inst.toNat q.cls
        let c := balOf (begin s') r inst.toNat q.cls
        let carry := min (max b.carry 0) q.cost
        s'.mem = s.mem ∧ s'.m.gateQ = s.m.gateQ.erase q ∧
        c.carry = b.carry - carry ∧ c.current = b.current - (q.cost - carry) ∧
        servedOf (begin s') r inst.toNat = servedOf w r inst.toNat + q.cost ∧
        (∀ k, q.who = .thread k → (threadOf s' (tidOf k)).gateWaits = (threadOf s (tidOf k)).gateWaits - 1) ∧
        (∀ u, (∀ k, q.who = .thread k → tidOf k ≠ u) → threadOf s' u = threadOf s u)) ∧
  (∀ (s : State) (seq : Nat), Starts seq 0x13 s → Quiet seq s → operandsClean (cmdOf (begin s) seq) [] = true →
    (grantsFit s.m.staging = true → Answers (.budgetSet seq) s fun s' =>
      s'.m.h.budgetSet = s.m.h.budgetSet ++ [(seq, s.m.staging)] ∧ stateOf (begin s') seq = 2 ∧ s'.mem = s.mem ∧
      s'.m.active = s.m.active) ∧
    (grantsFit s.m.staging = false → Finishes seq 0x07 s (.budgetSet seq) s)) ∧
  (∀ (s : State) (a b : BitVec 16), Powered s → s.m.twin = {} →
    Answers (.periodBoundary a b []) s fun s' =>
      let active := match (budgetOrder (begin s)).getLast? with | some x => x.2 | none => s.m.active
      s'.m.tick = (s.m.tick / 4096 + 1) * 4096 ∧ s'.m.active = active ∧ s'.m.h.budgetSet = [] ∧
      s'.m.beatA = a.toNat ∧ s'.m.beatB = b.toNat ∧ s'.m.detW = none ∧ s'.m.cfglock = (s.m.cfglock || s.m.cfglockW) ∧
      s'.m.det = s.m.detW.getD s.m.det ∧ s'.m.molt = s.m.molt + (if s.m.hw.wentPupa then 1 else 0)) ∧
  (∀ (g : Nat) (b : Bal), let n := nextBal g b
    n.carry = max (min b.current g) 0 ∧ n.current = g + min b.current 0) ∧
  ∀ (s : State) (mj : Nat), Powered s →
    let n := s.m.tick / 4096
    (n % 256 ≠ 255 ∨ s.m.power.window = some n ∨ s.m.power.good = false → exec (.energyWindowEnd mj) s = .next s) ∧
    (n % 256 = 255 → s.m.power.window ≠ some n → s.m.power.good = true → mj ≤ 2726 →
      Answers (.energyWindowEnd mj) s fun s' => s'.mem = s.mem ∧ s'.m.threads = s.m.threads ∧ s'.m.power.hot = 0 ∧
        s'.m.power.window = some n ∧ s'.m.power.halved = s.m.power.halved ∧
        s'.m.power.halvedW = if 2097 < mj then true else if mj < 1992 then false else s.m.power.halvedW)

/-- The host's writes of producer and consumer counts. One that its function may make and that advances the count by less
than 2^31, within the ring, sets it and fills the slots named; any other, or any in recovery, is logged and leaves the count.
A doorbell and a message count one event in the handshake line of the vector processor that their route names, or are
logged. -/
def Obligations.RingCountsAndDoorbells : Prop :=
  (∀ (s : State) (i : Instr) (fn owner addr pi ci size key : Nat) (value : BitVec 32) (slots : List (Nat × Nat))
      (got : HostSt → Table Nat) (put : HostSt → HostSt),
    (∃ f r es, i = .cmdPcountWrite f r value es ∧ fn = f.toNat ∧ owner = cmdRingFn (begin s) r.toNat ∧
        addr = 0xF00000 + 4 * r.toNat ∧ pi = r.toNat ∧ ci = 64 + r.toNat ∧ size = 256 ∧ key = r.toNat * 2 ^ 12 ∧
        slots = es.map (fun e => (e.1, e.2.toNat)) ∧ got = HostSt.cmdSlots ∧
        put = fun h => { h with cmdSlots := s.m.h.cmdSlots }) ∨
      (∃ f r es, i = .evtPcountWrite f r value es ∧ fn = f.toNat ∧ owner = evRingFn (begin s) r.toNat ∧
        addr = 0xF00100 + 4 * r.toNat ∧ pi = 128 + r.toNat ∧ ci = 192 + r.toNat ∧ size = 1024 ∧ key = r.toNat * 2 ^ 12 ∧
        slots = es.map (fun e => (e.1, e.2.toNat)) ∧ got = HostSt.evSlots ∧
        put = fun h => { h with evSlots := s.m.h.evSlots }) ∨
      (∃ f k es, i = .msgPcountWrite f k value es ∧ fn = f.toNat ∧ owner = f.toNat ∧
        addr = 0xF00900 + 4 * k.toNat ∧ pi = 384 + k.toNat ∧ ci = 448 + k.toNat ∧ size = 16 ∧ key = k.toNat * 2 ^ 12 ∧
        slots = es.map (fun e => (e.1, e.2.toNat)) ∧ got = HostSt.msgSlots ∧
        put = fun h => { h with msgSlots := s.m.h.msgSlots }) →
    Powered s → ackFull s.m.violCount = false →
    let p := ringCount (begin s) pi
    let c := ringCount (begin s) ci
    let up := inRecovery (begin s) = false
    (fn ≠ owner ∨ ¬ up → Answers i s (HostRefused fn addr s)) ∧
    (fn = owner → up → (slots.map fun e => e.1 % size).Nodup → countGap p value.toNat < 2 ^ 31 → countGap c value.toNat ≤ size →
      Answers i s fun s' => s'.mem = s.mem ∧ s'.pending = s.pending ∧ ringCount (begin s') pi = value.toNat ∧
        (∀ k, k ≠ pi → ringCount (begin s') k = ringCount (begin s) k) ∧
        (∀ e ∈ slots, tread 0 (got s'.m.h) (key + e.1 % size) = e.2) ∧
        (∀ k, (∀ e ∈ slots, k ≠ key + e.1 % size) → tread 0 (got s'.m.h) k = tread 0 (got s.m.h) k) ∧
        { s'.m with h := put { s'.m.h with counts := s.m.h.counts } } = s.m) ∧
    (fn = owner → up → (2 ^ 31 ≤ countGap p value.toNat ∨ size < countGap c value.toNat) → Answers i s fun s' =>
      s'.m.h.counts = s.m.h.counts ∧ Logged (fun r => r.code = 0x0012) s s')) ∧
  (∀ (s : State) (fn : BitVec 5) (ring : BitVec 6) (value : BitVec 32), Powered s → ackFull s.m.violCount = false →
    let c := ringCount (begin s) (320 + ring.toNat)
    let posted := countGap c (ringCount (begin s) (256 + ring.toNat))
    let up := inRecovery (begin s) = false
    (fn.toNat = evRingFn (begin s) ring.toNat → up → countGap c value.toNat ≤ posted →
      Answers (.rspCcountWrite fn ring value) s fun s' => s'.mem = s.mem ∧ s'.pending = s.pending ∧
        ringCount (begin s') (320 + ring.toNat) = value.toNat ∧
        (∀ k, k ≠ 320 + ring.toNat → ringCount (begin s') k = ringCount (begin s) k) ∧
        { s'.m with h := { s'.m.h with counts := s.m.h.counts } } = s.m) ∧
    (fn.toNat ≠ evRingFn (begin s) ring.toNat ∨ ¬ up ∨ posted < countGap c value.toNat →
      Answers (.rspCcountWrite fn ring value) s (HostRefused fn.toNat (0xF00200 + 4 * ring.toNat) s))) ∧
  (∀ (s : State) (fn : BitVec 5) (d : BitVec 3), Powered s → ackFull s.m.violCount = false →
    let r := tread 0 s.m.h.routes (16 + d.toNat)
    let up := inRecovery (begin s) = false
    (up → r.getLsbD 5 = true → ackFull (tread {} (vpOf (begin s) (r.toNat % 32)).xcnt (40 + d.toNat)) = false →
      Answers (.hostDoorbell fn d) s (Lined (r.toNat % 32) (40 + d.toNat) s)) ∧
    (¬ up ∨ r.getLsbD 5 = false → Answers (.hostDoorbell fn d) s (HostRefused fn.toNat (0xF00800 + 4 * d.toNat) s))) ∧
  ∀ (s : State) (k : BitVec 4), Powered s → ackFull s.m.violCount = false →
    let c := ringCount (begin s) (448 + k.toNat)
    let r := tread 0 s.m.h.routes k.toNat
    let base := after s (setCount (448 + k.toNat) (c + 1))
    (c = ringCount (begin s) (384 + k.toNat) → exec (.messageIntake k) s = .next s) ∧
    (c ≠ ringCount (begin s) (384 + k.toNat) →
      (r.getLsbD 5 = true → ackFull (tread {} (vpOf (begin s) (r.toNat % 32)).xcnt k.toNat) = false →
        Answers (.messageIntake k) s (Lined (r.toNat % 32) k.toNat base)) ∧
      (r.getLsbD 5 = false → Answers (.messageIntake k) s (HostRefused 0 (0xF00900 + 4 * k.toNat) base)))

/-- Intake and the journal. Rings are served in turn: command rings 0 to 31, event rings 0 to 63. The keeper takes the next
entry of a command ring: QUEUED under the next command number, its
record journalled, or discarded and logged where its status word is in use or not its function's. It takes the next event:
one that its session cannot take is answered at once, any other is journalled and queued. The oldest staged record is
committed; a command that no row carries out then ends. A full segment of committed records leaves the ring for
NAND, under its header; where the journal's tally does not balance then, its path is closed. Each record that takes the ring's
last slot ends a pass. -/
def Obligations.IntakeAndTheJournal : Prop :=
  (∀ (s : State) (ring : BitVec 5), Powered s → s.m.twin.role = 0 →
    let w := begin s
    let r := ring.toNat
    let n := ringCount w (64 + r)
    let entry := tread 0 s.m.h.cmdSlots (r * 2 ^ 12 + n % 256)
    let sw := bits entry 16 15
    let seq := s.m.h.cmdNext
    (n = ringCount w r ∨ ringTurn w r = false → exec (.commandIntake ring) s = .next s) ∧
    (intakeOpen w = false → jRoom w 1 = true → exec (.commandIntake ring) s = .next s) ∧
    (n ≠ ringCount w r → ringTurn w r = true → intakeOpen w = true →
      (tget s.m.h.sw sw = none → tread 0 s.m.h.swOwn (sw / 1024) = cmdRingFn w r →
        Answers (.commandIntake ring) s fun s' => s'.mem = s.mem ∧ s'.pending = s.pending ∧
          s'.m.threads = s.m.threads ∧ ringCount (begin s') (64 + r) = (n + 1) % 2 ^ 32 ∧ s'.m.h.turn = r ∧
          s'.m.h.cmdNext = (if seq + 1 = 2 ^ 32 then 1 else seq + 1) ∧
          (∃ c, tget s'.m.h.cmds seq = some c ∧ c.entry = entry ∧ c.fn = cmdRingFn w r ∧ c.ring = r ∧ c.rseq = n ∧
            c.tick = s.m.tick ∧ c.jseq = s.m.k.jseq ∧ c.begun = false) ∧
          (∃ x, tget s'.m.h.sw sw = some x ∧ x.seq = seq ∧ x.state = 1 ∧ x.opcode = bits entry 0 8 ∧
            x.tag = bits entry 32 32 ∧ x.rseq = n ∧ x.ring = r ∧ x.tick = s.m.tick ∧ x.progress = 0 ∧ x.error = 0) ∧
          (∀ k, k ≠ sw → tget s'.m.h.sw k = tget s.m.h.sw k) ∧
          s'.m.k.jseq = s.m.k.jseq + 1 ∧
          ∃ j, tget s'.m.k.journal s.m.k.jseq = some j ∧ j.typ = 2 ∧ j.ring = r ∧ j.rseq = n ∧
            j.body = n + entry <<< 256 ∧ j.tick = s.m.tick ∧ j.committed = false) ∧
      (tget s.m.h.sw sw ≠ none ∨ tread 0 s.m.h.swOwn (sw / 1024) ≠ cmdRingFn w r → ackFull s.m.violCount = false →
        Answers (.commandIntake ring) s
          (HostRefused (cmdRingFn w r) (0xD00000 + 64 * sw) (after s (fun w => setCount (64 + r) (n + 1) (serveRing r w))))))) ∧
  (∀ (s : State) (ring : BitVec 6), Powered s → s.m.twin.role = 0 →
    let w := begin s
    let r := ring.toNat
    let n := ringCount w (192 + r)
    let out := countGap (ringCount w (320 + r)) (ringCount w (256 + r)) + ringCount w (512 + r)
    let turn := ringTurn w (32 + r)
    let body := tread 0 s.m.h.evSlots (r * 2 ^ 12 + n % 1024)
    let sid := bits body 0 20
    let p := ringCount w (256 + r)
    (n = ringCount w (128 + r) ∨ 1024 ≤ out ∨ turn = false → exec (.eventIntake ring) s = .next s) ∧
    (n ≠ ringCount w (128 + r) → out < 1024 → turn = true → intakeOpen w = true →
      (∀ st, intakeStatus w sid = some st → Answers (.eventIntake ring) s fun s' =>
        s'.mem = s.mem ∧ s'.m.s = s.m.s ∧ s'.m.k = s.m.k ∧ ringCount (begin s') (192 + r) = (n + 1) % 2 ^ 32 ∧
        ringCount (begin s') (256 + r) = (p + 1) % 2 ^ 32 ∧
        tread 0 s'.m.h.respSlots (r * 2 ^ 12 + p % 1024)
          = responseRecord sid st (bits body 32 32) s.m.tick 0 0 (List.replicate 32 0)) ∧
      (intakeStatus w sid = none → poolUsed w (homeDie w sid) < 524288 → countGap (lastSeq w r) n < 2 ^ 17 →
        Answers (.eventIntake ring) s fun s' =>
          ringCount (begin s') (192 + r) = (n + 1) % 2 ^ 32 ∧ ringCount (begin s') (256 + r) = p ∧
          (∃ q, (sessOf (begin s') sid).queue = (sessOf w sid).queue ++ [q] ∧ q.body = body ∧ q.ring = r ∧
            q.jseq = s.m.k.jseq ∧ q.tick = s.m.tick ∧ q.given = false) ∧
          (sessOf (begin s') sid).state = (if (sessOf w sid).state = 1 then 2 else (sessOf w sid).state) ∧
          (∀ k, k ≠ sid → sessOf (begin s') k = sessOf w k) ∧
          s'.m.k.jseq = s.m.k.jseq + 1 ∧
          (∃ j, tget s'.m.k.journal s.m.k.jseq = some j ∧ j.typ = 1 ∧ j.ring = r ∧ j.rseq = n ∧ j.body = body ∧
            j.tick = s.m.tick ∧ j.committed = false) ∧
          (tableAt w (homeDie w sid) = none → s'.mem = s.mem)))) ∧
  (∀ (s : State), Powered s → s.m.twin.role = 0 →
    (s.m.k.journal.find? (fun e => !e.2.committed) = none → exec .journalCommit s = .next s) ∧
    ∀ j r, s.m.k.journal.find? (fun e => !e.2.committed) = some (j, r) → tget s.m.k.journal j = some r →
      jResident (begin s) < 7338240 →
      let fresh := s.m.k.jDrained ≤ j ∧ j < 2 ^ 62
      (Answers .journalCommit s fun s' => s'.m.k.jseq = s.m.k.jseq ∧
        (∃ x, tget s'.m.k.journal j = some x ∧ x.committed = true ∧ x.body = r.body ∧ x.typ = r.typ) ∧
        s'.m.k.jWritten = s.m.k.jWritten + (if fresh then 1 else 0) ∧
        s'.m.k.passes = s.m.k.passes + (if fresh ∧ (j + 1) % 7338240 = 0 then 1 else 0)) ∧
      ∀ seq c, r.typ = 2 → s.m.h.cmds.find? (fun e => e.2.jseq == j && r.typ == 2) = some (seq, c) →
        stateOf (begin s) seq = 1 → Quiet seq s →
        (opcodeInfo (opcodeOf (cmdOf (begin s) seq)) = none → Answers .journalCommit s (Ended seq 0x02)) ∧
        (opcodeInfo (opcodeOf (cmdOf (begin s) seq)) = some false → (cmdOf (begin s) seq).fn ≠ 0 →
          Answers .journalCommit s (Ended seq 0x03))) ∧
  ∀ (s : State), Powered s →
    let d := s.m.k.jDrained
    let all := ∀ e ∈ s.m.k.journal, d ≤ e.1 → e.1 < d + 7280 → e.2.committed = true
    let here (j : Nat) : Nat := (s.m.k.journal.filter fun e => decide (d ≤ e.1 ∧ e.1 < j) && e.2.committed).length
    let kept := s.m.k.jWritten = s.m.k.jGone + here (2 ^ 62)
    (d + 7280 ≤ s.m.k.jseq → all → s.m.k.jseq ≤ 2 ^ 62 →
      (kept → exec .segmentDrain s = .next (after s (onK fun k =>
        { k with jDrained := d + 7280, jGone := k.jGone + here (d + 7280), segs := tput k.segs d (segHead (begin s) d) }))) ∧
      (¬ kept → ¬ Tally.journal ∈ s.m.hw.tally → Answers .segmentDrain s fun s' => s'.mem = s.mem ∧
        s'.m.k.jDrained = d + 7280 ∧ s'.m.hw.tally = s.m.hw.tally ++ [.journal])) ∧
    (s.m.k.jseq < d + 7280 ∨ ¬ all → exec .segmentDrain s = .next s)

/-- Commands of a ring: one that may not start yet has no effect; one with a reserved operand bit set ends with error 1.
NOP ends DONE. RELEASE makes the finished words of its range that the function owns IDLE. MOVE posts its piece to a mover.
JOURNAL_READ writes committed records in the order of their numbers. A plan that has stood still for 16 periods ends with
HORIZON_STALL. -/
def Obligations.RingCommands : Prop :=
  (∀ (s : State) (seq op : Nat) (i : Instr), Powered s → mayStart (begin s) seq op = false →
    (i, op) ∈ [(.nopCommand seq, 0x00), (.runPlan seq, 0x01), (.move seq, 0x02), (.advise seq, 0x04),
      (.invalidate seq, 0x05), (.sessionOpen seq, 0x08), (.snapshot seq, 0x10), (.journalRead seq, 0x12),
      (.budgetSet seq, 0x13), (.drain seq, 0x14), (.molt seq, 0x14), (.retire seq, 0x14), (.release seq, 0x18)] →
    exec i s = .next s) ∧
  (∀ (s : State) (seq op : Nat) (i : Instr) (used : List (Nat × Nat)), Starts seq op s → Quiet seq s →
    (cmdOf (begin s) seq).stage = 0 → operandsClean (cmdOf (begin s) seq) used = false →
    (i, op, used) ∈ [(.nopCommand seq, 0x00, []),
      (.runPlan seq, 0x01, [(128, 48), (192, 25), (256, 64), (320, 48), (384, 16)]),
      (.move seq, 0x02, [(128, 48), (192, 48), (256, 48), (320, 23)]),
      (.prefetch seq, 0x03, [(128, 48), (192, 48), (256, 48), (320, 16), (344, 6), (352, 1)]),
      (.advise seq, 0x04, [(128, 48), (192, 48), (256, 22), (280, 6)]),
      (.invalidate seq, 0x05, [(128, 48), (192, 48), (256, 17), (280, 6)]), (.snapshot seq, 0x10, [(128, 1)]),
      (.journalRead seq, 0x12, [(128, 64), (192, 21), (256, 48), (320, 22)]), (.budgetSet seq, 0x13, []),
      (.release seq, 0x18, [(128, 15), (144, 16)])] →
    Finishes seq 0x01 s i s) ∧
  (∀ (s : State) (seq : Nat), Starts seq 0x00 s → Quiet seq s → operandsClean (cmdOf (begin s) seq) [] = true →
    Finishes seq 0 s (.nopCommand seq) s) ∧
  (∀ (s : State) (seq : Nat), Starts seq 0x18 s → Quiet seq s →
    let c := cmdOf (begin s) seq
    let first := cmdBits c 0x10 0 15
    let n := cmdBits c 0x10 16 16
    let own := swordOf c
    let gone (e : Nat × StatusW) : Prop := first ≤ e.1 ∧ e.1 < first + n ∧ (e.2.state = 4 ∨ e.2.state = 5) ∧
      tread 0 s.m.h.swOwn (e.1 / 1024) = c.fn
    operandsClean c [(128, 15), (144, 16)] = true →
    (n = 0 ∨ 32768 < n ∨ (first ≤ own ∧ own < first + n) → Finishes seq 0x01 s (.release seq) s) ∧
    (0 < n → n ≤ 32768 → (own < first ∨ first + n ≤ own) → Answers (.release seq) s fun s' =>
      Ended seq 0 s' ∧ (∀ e, e.1 ≠ own → (e ∈ s'.m.h.sw ↔ e ∈ s.m.h.sw ∧ ¬ gone e)) ∧ s'.mem = s.mem ∧
      { s'.m with h := { s'.m.h with cmds := s.m.h.cmds, sw := s.m.h.sw } } = s.m)) ∧
  (∀ (s : State) (seq : Nat), Starts seq 0x02 s → Quiet seq s →
    let w := begin s
    let c := cmdOf w seq
    let err := useCheck w c.fn (cmdBits c 0x28 16 6) (some (BitVec.ofNat 16 (cmdBits c 0x28 0 16)))
    let src := cmdBits c 0x10 0 48
    let dst := cmdBits c 0x18 0 48
    let len := cmdBits c 0x20 0 48
    let n := takerOf w (moveDie w c) 0
    operandsClean c [(128, 48), (192, 48), (256, 48), (320, 23)] = true →
    (err ≠ 0 → Finishes seq err s (.move seq) s) ∧
    (err = 0 → len = 0 → Finishes seq 0 s (.move seq) s) ∧
    (err = 0 → 0 < len → dst % 2048 + len ≤ 2048 → c.posted = 0 → c.absent = false → (moverOf w n).queue.length < 16 →
      Answers (.move seq) s fun s' => stateOf (begin s') seq = 2 ∧ s'.mem = s.mem ∧ s'.m.threads = s.m.threads ∧
        (∃ e, moverOf (begin s') n = { moverOf w n with queue := (moverOf w n).queue ++ [e] } ∧ e.who = .cmd seq 0 ∧
          e.desc = 1 + 0xFF <<< 32 + 1 <<< 128 + len <<< 160 + src <<< 256 + dst <<< 320 ∧
          e.cls = cmdBits c 0x28 16 6 ∧ e.fn = c.fn ∧ e.cmd = seq ∧ e.det = s.m.det) ∧
        ∀ k, k ≠ n → moverOf (begin s') k = moverOf w k)) ∧
  (∀ (s : State) (seq : Nat), Starts seq 0x12 s → Quiet seq s → Sound s →
    let w := begin s
    let c := cmdOf w seq
    let first := cmdBits c 0x10 0 64
    let n := cmdBits c 0x18 0 21
    let asid := BitVec.ofNat 16 (cmdBits c 0x28 0 16)
    let kept := s.m.k.journal.filter fun e => decide (first ≤ e.1 ∧ e.1 < first + n) && e.2.committed
    operandsClean c [(128, 64), (192, 21), (256, 48), (320, 22)] = true →
    (n = 0 ∨ 2 ^ 20 < n → Finishes seq 0x01 s (.journalRead seq) s) ∧
    (0 < n → n ≤ 2 ^ 20 → useCheck w c.fn (cmdBits c 0x28 16 6) (some asid) = 0 →
      (kept.length < n → Finishes seq 0x55 s (.journalRead seq) s) ∧
      (∀ r va pa, KeeperPaid (workOf seq 2) s → kept = [(first, r)] → n = 1 → va = cmdBits c 0x20 0 48 → isHost pa = false →
        asidPieces w asid .write va 144 = .ok [⟨va, 144, some pa, none⟩] →
        Answers (.journalRead seq) s fun s' => Ended seq 0 s' ∧ s'.m.k = s.m.k ∧
          ∀ x, storedByte s' x = if pa ≤ x ∧ x < pa + 144 then (recordBytes first r).getD (x - pa) 0
            else storedByte s x))) ∧
  ∀ (s : State) (seq : Nat), Powered s → s.m.twin.role = 0 →
    let stalled := planStalled (begin s) seq = true ∧ 16 ≤ (planOf (begin s) seq).stall
    (¬ stalled → exec (.horizonStall seq) s = .next s) ∧
    (stalled → (tget s.m.h.plans seq).isSome = true → Answers (.horizonStall seq) s fun s' =>
      (wordOver (begin s) seq = false → Ended seq 0x22 s') ∧ ∀ t k, (threadOf s t).binding = .plan seq k → (threadOf s' t).binding = .free)

/-- Commands of translation. INVALIDATE waits QUEUED with its shoot-down; the last use that drains ends it. ADVISE replaces
the advice of its range. PREFETCH makes the leaf of a page absent, and once its invalidation has drained copies the page and
writes the leaf. A completion that was asked for enters the translation cache; an invalidate request, of 32 at most, drops what it
names, and the completion of the first one goes out whose users in flight have all drained. -/
def Obligations.TranslationCommands : Prop :=
  (∀ (s : State) (seq : Nat), Starts seq 0x05 s → Quiet seq s →
    let w := begin s
    let c := cmdOf w seq
    let va := cmdBits c 0x10 0 48
    let len := cmdBits c 0x18 0 48
    let asid := BitVec.ofNat 16 (cmdBits c 0x20 0 16)
    let err := useCheck w c.fn (cmdBits c 0x20 24 6) (some asid)
    c.stage = 0 → operandsClean c [(128, 48), (192, 48), (256, 17), (280, 6)] = true →
    (err ≠ 0 → Finishes seq err s (.invalidate seq) s) ∧
    (err = 0 → (va % 4096 ≠ 0 ∨ len % 4096 ≠ 0) → Finishes seq 0x30 s (.invalidate seq) s) ∧
    (err = 0 → va % 4096 = 0 → len % 4096 = 0 → Answers (.invalidate seq) s fun s' =>
      stateOf (begin s') seq = 1 ∧ s'.mem = s.mem ∧
      (∃ x, s'.m.x.shoots = s.m.x.shoots ++ [x] ∧ x.cmd = some seq ∧ x.va = va ∧
        x.len = (if len = 0 then 2 ^ 48 else len) ∧
        x.asid = (if cmdBits c 0x20 16 1 = 1 then none else some asid) ∧ x.tick = c.tick ∧ x.sent = false ∧ x.uses = []) ∧
      { s'.m with h := { s'.m.h with cmds := s.m.h.cmds }, x := s.m.x } = s.m)) ∧
  (∀ (s : State) (n use : Nat), Powered s → s.m.twin.role = 0 →
    (s.m.x.shoots[n]? = none → exec (.shootdownDrainReport n use) s = .next s) ∧
    ∀ x, s.m.x.shoots[n]? = some x →
      (x.sent = false ∨ x.drained = true → exec (.shootdownDrainReport n use) s = .next s) ∧
      (∀ u, x.sent = true → x.drained = false → x.uses[use]? = some u → useDrained (begin s) u = true →
        (x.uses.eraseIdx use ≠ [] → Answers (.shootdownDrainReport n use) s fun s' => s'.mem = s.mem ∧
          s'.m.x.shoots = s.m.x.shoots.map (fun y =>
            if y.order == x.order then { y with uses := x.uses.eraseIdx use } else y) ∧
          { s'.m with x := s.m.x } = s.m) ∧
        (∀ seq, x.uses.eraseIdx use = [] → x.cmd = some seq → opcodeOf (cmdOf (begin s) seq) ≠ 3 →
          isRunning (begin s) seq = true → Quiet seq s → Answers (.shootdownDrainReport n use) s fun s' =>
            Ended seq 0 s' ∧ s'.mem = s.mem ∧ ∀ y ∈ s'.m.x.shoots, y.order ≠ x.order) ∧
        (∀ seq, x.uses.eraseIdx use = [] → x.cmd = some seq → opcodeOf (cmdOf (begin s) seq) = 3 →
          Answers (.shootdownDrainReport n use) s fun s' => s'.mem = s.mem ∧ { s'.m with x := s.m.x } = s.m ∧
            s'.m.x.shoots = s.m.x.shoots.map (fun y =>
              if y.order == x.order then { y with uses := [], drained := true } else y)))) ∧
  (∀ (s : State) (seq : Nat), Starts seq 0x04 s → Quiet seq s →
    let w := begin s
    let c := cmdOf w seq
    let va := cmdBits c 0x10 0 48
    let len := cmdBits c 0x18 0 48
    let asid := BitVec.ofNat 16 (cmdBits c 0x20 0 16)
    let sh : Shoot := { cmd := some seq, va := va, len := len, asid := some asid, tick := c.tick,
                        order := stampRank w seq, dies := diesFor w (some asid) va len }
    let cut := cutAdvice asid va len s.m.advice
    let new : Advice := { va := va, len := len, asid := asid, readMostly := cmdBits c 0x20 16 1 == 1,
                          preferred := BitVec.ofNat 2 (cmdBits c 0x20 17 2),
                          accessedBy := BitVec.ofNat 2 (cmdBits c 0x20 19 2) }
    let next := if cmdBits c 0x20 21 1 = 1 ∨ len = 0 then cut else cut ++ [new]
    c.stage = 0 → operandsClean c [(128, 48), (192, 48), (256, 22), (280, 6)] = true →
    useCheck w c.fn (cmdBits c 0x20 24 6) (some asid) = 0 → shootBehind w sh = false →
    (4096 < next.length → Finishes seq 0x33 s (.advise seq) s) ∧
    (next.length ≤ 4096 → Answers (.advise seq) s fun s' => s'.mem = s.mem ∧ s'.m.advice = next ∧
      s'.m.x.shoots = s.m.x.shoots ++ [sh] ∧ stateOf (begin s') seq = 1 ∧ s'.m.threads = s.m.threads)) ∧
  (∀ (s : State) (seq : Nat), Starts seq 0x03 s → Quiet seq s → Sound s →
    let w := begin s
    let c := cmdOf w seq
    let va := cmdBits c 0x10 0 48
    let len := cmdBits c 0x18 0 48
    let dest := cmdBits c 0x20 0 48
    let asid := BitVec.ofNat 16 (cmdBits c 0x28 0 16)
    c.stage = 0 → operandsClean c [(128, 48), (192, 48), (256, 48), (320, 16), (344, 6), (352, 1)] = true →
    (len = 0 → Finishes seq 0x01 s (.prefetch seq) s) ∧
    let sh : Shoot := { cmd := some seq, va := va, len := len, asid := some asid, tick := c.tick,
                        order := stampRank w seq, dies := 3 }
    ∀ l, len ≠ 0 → useCheck w c.fn (cmdBits c 0x28 24 6) (some asid) = 0 → shootBehind w sh = false → s.m.advice = [] →
      leavesOf w (asidCtx w asid).xlbase (len / 4096 + 1) va len = some [l] →
      let e := readNum w l.ent 8
      (va % max 4096 l.size ≠ 0 → Finishes seq 0x31 s (.prefetch seq) s) ∧
      (va % max 4096 l.size = 0 → len % max 4096 l.size = 0 → dest % max 4096 l.size = 0 → regionKind dest ≠ 0 →
        regionKind (dest + len - 1) = regionKind dest → isDevice w l.ent = true → bit e 0 = true →
        Answers (.prefetch seq) s fun s' => stateOf (begin s') seq = 2 ∧
          s'.m.x.shoots = s.m.x.shoots ++ [{ sh with tick := s.m.tick }] ∧
          ∀ a, storedByte s' a = if l.ent ≤ a ∧ a < l.ent + 8 then (toBytes 8 (e - 1)).getD (a - l.ent) 0
            else storedByte s a)) ∧
  (∀ (s : State) (seq dst : Nat) (p : MovePage), Powered s → s.m.twin.role = 0 → Quiet seq s → Sound s →
    let w := begin s
    let c := cmdOf w seq
    c.stage ≠ 0 → opcodeOf c = 3 → isRunning w seq = true → (∃ x ∈ s.m.x.shoots, x.cmd = some seq ∧ x.drained = true) →
    tread [] s.m.x.moves seq = [p] → c.posted = 0 → s.m.advice = [] →
    dst = cmdBits c 0x20 0 48 + (p.va - cmdBits c 0x10 0 48) → KeeperPaid (workOf seq 1) s →
    (∀ x ∈ physRange w p.va p.pa p.size ++ physRange w p.va dst p.size, ∃ a, x.pa = some a ∧ isDevice w a = true ∧
      isHost a = false) →
    isDevice w p.ent = true → (p.ent + 8 ≤ dst ∨ dst + p.size ≤ p.ent) →
    Answers (.prefetch seq) s fun s' => Ended seq 0 s' ∧ (∀ x ∈ s'.m.x.shoots, x.cmd ≠ some seq) ∧
      ∀ a, storedByte s' a =
        if p.ent ≤ a ∧ a < p.ent + 8 then (toBytes 8 (dst + p.bits.toNat)).getD (a - p.ent) 0
        else if dst ≤ a ∧ a < dst + p.size then byteAt w (p.pa + (a - dst)) else storedByte s a) ∧
  ∀ (s : State) (fn : BitVec 5) (page pages : Nat) (r wr : Bool), Powered s →
    let old := s.m.x.atc.filter fun e => !(e.fn == fn.toNat && e.page == page)
    (¬ (fn.toNat, page) ∈ s.m.x.atsReq → exec (.atsTranslationCompletion fn page r wr) s = .next s) ∧
    ((fn.toNat, page) ∈ s.m.x.atsReq → Answers (.atsTranslationCompletion fn page r wr) s fun s' => s'.mem = s.mem ∧
      s'.m.x.atsReq = s.m.x.atsReq.filter (· ≠ (fn.toNat, page)) ∧
      { s'.m with x := s.m.x, free := s.m.free } = s.m ∧
      ∃ rest, s'.m.x.atc = { fn := fn.toNat, page := page, r := r, w := wr } :: rest ∧
        (∀ e ∈ rest, e ∈ old) ∧ (old.length < 4096 → rest = old)) ∧
    (s.m.x.atsInv.length < 32 →
      Answers (.atsInvalidateRequest fn page pages) s (fun s' => s'.mem = s.mem ∧
        { s'.m with x := s.m.x, h := { s'.m.h with cmds := s.m.h.cmds } } = s.m ∧
        (∀ k c, tget s.m.h.cmds k = some c →
          tget s'.m.h.cmds k = some (if c.fn = fn.toNat then { c with ats := 0 } else c)) ∧
        (∀ e, e ∈ s'.m.x.atc ↔ e ∈ s.m.x.atc ∧ ¬ (e.fn = fn.toNat ∧ page ≤ e.page ∧ e.page < page + pages)) ∧
        s'.m.x.atsInv = s.m.x.atsInv ++
          [{ fn := fn.toNat, page := page, pages := pages, uses := hostUses (begin s) fn.toNat page pages }])) ∧
    (32 ≤ s.m.x.atsInv.length → exec (.atsInvalidateRequest fn page pages) s = .next s) ∧
    ((∀ q ∈ s.m.x.atsInv, q.uses.all (useDrained (begin s)) = false) → exec .invalidateCompletion s = .next s) ∧
    ∀ done q rest, s.m.x.atsInv = done ++ q :: rest → (∀ x ∈ done, x.uses.all (useDrained (begin s)) = false) →
      q.uses.all (useDrained (begin s)) = true →
      exec .invalidateCompletion s = .next (after s (onX fun x => { x with atsInv := done ++ rest }))

/-- Plans. RUN_PLAN checks its image and records the plan, QUEUED; a waiting plan binds and lends its threads and is
RUNNING, or ends where another decode table has been installed; a checkpoint that the field and every thread have reached is taken; an aborted plan resumes at its checkpoint, or
its command fails; a plan with nothing left in flight is DONE and its threads are free. -/
def Obligations.Plans : Prop :=
  (∀ (s : State) (seq : Nat), Starts seq 0x01 s → Quiet seq s →
    let w := begin s
    let c := cmdOf w seq
    c.stage = 0 → operandsClean c [(128, 48), (192, 25), (256, 64), (320, 48), (384, 16)] = true →
    let err := useCheck w c.fn (cmdBits c 0x18 16 6) (some (BitVec.ofNat 16 (cmdBits c 0x18 0 16)))
    (64 < cmdBits c 0x30 0 8 ∨ 64 < cmdBits c 0x30 8 8 → Finishes seq 0x01 s (.runPlan seq) s) ∧
    (cmdBits c 0x30 0 8 ≤ 64 → cmdBits c 0x30 8 8 ≤ 64 →
      (err ≠ 0 → Finishes seq err s (.runPlan seq) s) ∧
      (err = 0 →
        (readPlan w c = none → Finishes seq 0x09 s (.runPlan seq) s) ∧
        ∀ p, readPlan w c = some p →
          (p.geom ≠ geomDigest w → Finishes seq 0x18 s (.runPlan seq) s) ∧
          (p.geom = geomDigest w → p.dec ≠ 0 → decodeWaits w = false → decodeMatches w p.dec = false →
            Finishes seq 0x19 s (.runPlan seq) s) ∧
          let key := ofBytes (sha256 (toBytes 32 p.imgKey))
          (p.geom = geomDigest w → p.dec = 0 → p.ins = [] → p.serve = true → 2 ^ 36 < imagesKept w key + p.imgSize →
            Finishes seq 0x54 s (.runPlan seq) s) ∧
          (p.geom = geomDigest w → p.dec = 0 → p.ins = [] →
            (p.serve = true → imagesKept w key + p.imgSize ≤ 2 ^ 36) →
            (threadsSuffice w p = true → Answers (.runPlan seq) s fun s' => stateOf (begin s') seq = 1 ∧
              (cmdOf (begin s') seq).stage = 1 ∧ tget s'.m.h.plans seq = some { p with imgKey := key } ∧
              s'.mem = s.mem ∧ { s'.m with h := { s'.m.h with cmds := s.m.h.cmds, plans := s.m.h.plans } } = s.m) ∧
            (threadsSuffice w p = false → Answers (.runPlan seq) s (Ended seq 0x0A)))))) ∧
  (∀ (s : State) (seq : Nat) (prefs : List Nat), Powered s → s.m.twin.role = 0 →
    let w := begin s
    let p := planOf w seq
    let avail := preferred prefs ((freeThreadsOf w).filter fun k => !(lendOf p).contains k)
    (planWaits w seq = false ∨ decodeMatches w p.dec = true ∧ avail.length < p.t →
      exec (.planBind seq prefs) s = .next s) ∧
    (planWaits w seq = true → stateOf w seq = 1 → decodeWaits w = false → decodeMatches w p.dec = false →
      Answers (.planBind seq prefs) s (Ended seq 0x19)) ∧
    (planWaits w seq = true → stateOf w seq = 1 → p.replay = none → p.dec = 0 → p.t ≤ avail.length →
      (∀ e ∈ s.m.h.plans, planWaits w e.1 = true → lexLt (stampRank w e.1) (stampRank w seq) = false) →
      (∀ k ∈ lendOf p, k ∈ freeThreadsOf w) → Answers (.planBind seq prefs) s fun s' => stateOf (begin s') seq = 2 ∧
        s'.mem = s.mem ∧ (planOf (begin s') seq).bound = true ∧
        (∀ k ∈ lendOf p, (threadOf s' (tidOf k)).binding = .lent seq) ∧
        ∀ k i, k < p.t → avail[k]? = some i →
          let a := threadOf s (tidOf i)
          let b := threadOf s' (tidOf i)
          b.binding = .plan seq k ∧ b.priv = false ∧ b.park = .none ∧ b.bank = [] ∧ b.g = [] ∧ b.v = [] ∧ b.p = [] ∧
          b.step = BitVec.ofNat 64 ((resumeAt p).thr.getD k (0, 0)).1 ∧
          b.pc = BitVec.ofNat 48 ((resumeAt p).thr.getD k (0, 0)).2 ∧
          b.seed = splitMix (p.seed ^^^ BitVec.ofNat 64 k) ∧ b.pltid = BitVec.ofNat 16 (k + (p.t - 1) <<< 8) ∧
          b.cls = p.cls ∧ b.det = s.m.det ∧ b.lopid = p.lopid ∧ b.xlbase = a.xlbase ∧ b.asid = a.asid ∧
          b.fsp = a.fsp ∧ b.ssp = a.ssp)) ∧
  (∀ (s : State) (seq : Nat), Powered s → s.m.twin.role = 0 →
    let w := begin s
    let p := planOf w seq
    let f := (fieldQueue w (.plan seq)).step.toNat
    let reached (k : CkPoint) : Prop := k.f ≤ f ∧ ∀ i, i < p.t →
      ∃ e ∈ s.m.threads, e.2.binding = .plan seq i ∧ (k.thr.getD i (0, 0)).1 ≤ e.2.step.toNat
    (p.cks[p.ck + 1]? = none ∨ p.aborted = true → exec (.checkpoint seq) s = .next s) ∧
    ∀ k, p.cks[p.ck + 1]? = some k →
      (¬ reached k → exec (.checkpoint seq) s = .next s) ∧
      (reached k → p.bound = true → p.aborted = false → p.replay = none → isRunning w seq = true →
        Answers (.checkpoint seq) s fun s' => planOf (begin s') seq = { p with ck := p.ck + 1 } ∧
          (wordOver w seq = false → (wordOf (begin s') seq).progress = max (wordOf w seq).progress k.out) ∧ s'.mem = s.mem ∧
          s'.m.threads = s.m.threads)) ∧
  (∀ (s : State) (seq : Nat) (prefs : List Nat), Powered s → s.m.twin.role = 0 →
    let w := begin s
    let p := planOf w seq
    let i : Instr := .rollback seq prefs
    let stores := ∃ e ∈ s.m.threads, cmdOfThread e.2 = some seq ∧ e.2.sbuf ≠ []
    (p.aborted = false ∨ inField w seq = true ∨ onMover w seq = true ∨ stores → exec i s = .next s) ∧
    (p.aborted = true → inField w seq = false → onMover w seq = false → isOver w seq = false → ¬ stores →
      let named := ∃ g, p.granule = some g ∧ g ∈ p.seen ∧ inNamedInput w p g = true
      let ck := if ∃ g, p.granule = some g ∧ g ∈ p.seen then 0 else p.ck
      ((cmdOf w seq).det = false → wordOver w seq = false → Answers i s (Ended seq 0x1D)) ∧
      ((cmdOf w seq).det = true → named → wordOver w seq = false → Answers i s (Ended seq 0x1E)) ∧
      ((cmdOf w seq).det = true → ¬ named → 8 ≤ p.attempts → wordOver w seq = false → Answers i s (Ended seq 0x1F)) ∧
      ((cmdOf w seq).det = true → ¬ named → p.attempts < 8 → p.t ≤ (freeThreadsOf w).length → p.replay = none →
        Answers i s fun s' => planOf (begin s') seq =
            { p with ck := ck, attempts := p.attempts + 1, seen := p.seen ++ p.granule.toList, bound := true,
                     aborted := false, granule := none, stall := 0 } ∧
          stateOf (begin s') seq = stateOf w seq ∧
          ∀ k, k < p.t → ∃ u, (threadOf s' u).binding = .plan seq k ∧
            (threadOf s' u).step = BitVec.ofNat 64 ((p.cks.getD ck { f := 0, out := 0, thr := [] }).thr.getD k (0, 0)).1))) ∧
  ∀ (s : State) (seq : Nat), Powered s → s.m.twin.role = 0 →
    let w := begin s
    let p := planOf w seq
    (p.bound = false ∨ p.aborted = true ∨ isRunning w seq = false ∨ planQuiet w seq = false →
      exec (.planDone seq) s = .next s) ∧
    (p.bound = true → p.aborted = false → isRunning w seq = true → planQuiet w seq = true → p.replay = none →
      p.outdig = false → Answers (.planDone seq) s fun s' =>
        (wordOver w seq = false → Ended seq 0 s' ∧ (p.outs.map (·.2)).sum ≤ (wordOf (begin s') seq).progress) ∧
        ∀ t, ((∃ k, (threadOf s t).binding = .plan seq k) ∨ (threadOf s t).binding = .lent seq) →
          (threadOf s' t).binding = .free)

/-- Replays, snapshots and NAND. REPLAY_TO refuses a malformed command and a target that it cannot repeat; it starts the
target's plan again with a stop, and ends with the dump; of a session it dumps what is kept. SNAPSHOT is RUNNING behind
those under way; the header of the snapshot in front completes it. The endurance consumed never falls. -/
def Obligations.ReplaysAndSnapshots : Prop :=
  (∀ (s : State) (seq : Nat), Starts seq 0x11 s → Quiet seq s →
    let w := begin s
    let c := cmdOf w seq
    let kind := cmdBits c 0x10 0 2
    let target := cmdBits c 0x14 0 32
    let sid := cmdBits c 0x14 0 20
    let step := cmdBits c 0x20 0 64
    let err := useCheck w c.fn (cmdBits c 0x10 24 6) none
    let goal : ReplayOf := { kind := kind, target := target, lthread := cmdBits c 0x18 0 8, step := step }
    (replayMalformed c = true → Finishes seq 0x50 s (.replayTo seq) s) ∧
    (replayMalformed c = false →
      (err ≠ 0 → Finishes seq err s (.replayTo seq) s) ∧
      (err = 0 → kind ≠ 2 →
        (tget s.m.h.plans target = none → Finishes seq 0x52 s (.replayTo seq) s) ∧
        ∀ p, tget s.m.h.plans target = some p →
          (isOver w target = false → p.ended = false → Finishes seq 0x51 s (.replayTo seq) s) ∧
          (isOver w target = true ∨ p.ended = true → recordsKept w target = false → Finishes seq 0x52 s (.replayTo seq) s) ∧
          (p.ended = true → p.replay = none → recordsKept w target = true → p.ins = [] → threadsSuffice w { p with serve := false, lend := 0 } = true →
            Answers (.replayTo seq) s fun s' => stateOf (begin s') seq = 2 ∧ s'.mem = s.mem ∧
              ∃ q, tget s'.m.h.plans seq = some q ∧ q.t = p.t ∧ q.cks = p.cks ∧ q.serve = false ∧ q.bound = false ∧
                q.ended = false ∧ q.ck = 0 ∧ q.replay = some goal)) ∧
      (err = 0 → kind = 2 → KeeperPaid (workOf seq 3) s → ∀ k x,
        ((tread [] s.m.s.past sid).filter fun e => decide (e.1 ≤ step)).getLast? = some (k, x) →
        let covered := ∃ n ∈ s.m.k.snaps, ∃ y, tget n.sessions sid = some y ∧ y.otick = (sessOf w sid).otick ∧ y.step ≤ step ∧
          ∀ i, y.step < i → i ≤ step →
            ∃ p r, tget (tread [] s.m.s.past sid) i = some p ∧ tget s.m.k.journal p.jseq = some r
        let body := toBytes 256 x.desc ++ x.block
        (¬ covered ∨ (sessOf w sid).step < step → Finishes seq 0x52 s (.replayTo seq) s) ∧
        (covered → step ≤ (sessOf w sid).step → Answers (.replayTo seq) s fun s' => Ended seq 0 s' ∧ s'.mem = s.mem ∧
          (wordOf (begin s') seq).digest = digest16 (sha256 (dumpHeader s.m.tick 2 (k == step) k body ++
            (if cmdBits c 0x10 2 1 = 1 then [] else body))))))) ∧
  (∀ (s : State) (seq : Nat) (r : ReplayOf), Powered s → s.m.twin.role = 0 → mayStart (begin s) seq 0x11 = false →
    ((planOf (begin s) seq).replay = none → exec (.replayTo seq) s = .next s) ∧
    ((planOf (begin s) seq).replay = some r →
      (r.stopped = false → exec (.replayTo seq) s = .next s) ∧
      (r.stopped = true → r.kind = 0 → KeeperPaid (workOf seq 3) s → isRunning (begin s) seq = true →
        wordOver (begin s) seq = false → inField (begin s) seq = false → Answers (.replayTo seq) s (Ended seq 0)))) ∧
  (∀ (s : State) (seq : Nat), Starts seq 0x10 s → operandsClean (cmdOf (begin s) seq) [(128, 1)] = true →
    Answers (.snapshot seq) s fun s' => stateOf (begin s') seq = 2 ∧ s'.mem = s.mem ∧
      s'.m.k.snapQ = s.m.k.snapQ ++ [{ cmd := some seq, full := cmdBits (cmdOf (begin s) seq) 0x10 0 1 == 1 }] ∧
      { s'.m with h := { s'.m.h with cmds := s.m.h.cmds, sw := s.m.h.sw }, k := s.m.k } = s.m) ∧
  (∀ (s : State), Powered s → s.m.twin.role = 0 →
    (s.m.k.snapQ = [] → exec .snapshotComplete s = .next s) ∧
    ∀ r q sn, s.m.k.snapQ = r :: q → r.snap = some sn → r.ship = false → Answers .snapshotComplete s fun s' =>
      s'.m.k.snapQ = q ∧ s'.m.k.snapSeq = s.m.k.snapSeq + 1 ∧
      (∀ x ∈ s'.m.k.snaps, x ∈ s.m.k.snaps ∨ x = { sn with num := s.m.k.snapSeq + 1, images := [] }) ∧
      (∀ j, j < sn.oldest → answeredAt (begin s') j = true) ∧
      (∀ r, r < 64 → (∀ e ∈ s.m.k.journal, sn.jcut ≤ e.1 → e.2.ring ≠ r) →
        lastSeq (begin s') r = tread 0 sn.counts (192 + r)) ∧
      (∀ sid, (sessOf (begin s) sid).state = 5 →
        beforeCut (begin s) (sessOf (begin s) sid).closedEp (sessOf (begin s) sid).closed r.cut = true →
        (sessOf (begin s') sid).state = 0) ∧
      ∀ seq, r.cmd = some seq → isRunning (begin s) seq = true → Quiet seq s → Ended seq 0 s') ∧
  ∀ (s : State) (used : BitVec 16), Powered s → Answers (.nandRetentionRefresh used) s fun s' =>
    let crossed := s.m.k.wear < 8000 ∧ 8000 ≤ used.toNat
    s'.mem = s.mem ∧ s'.m.k = { s.m.k with wear := max s.m.k.wear used.toNat } ∧
    s'.m.alertNo = s.m.alertNo + (if crossed then 1 else 0) ∧
    (crossed → ∃ r, tget s'.m.alerts (s.m.alertNo % 256) = some r ∧ r.code = 0x05 ∧ r.tick = s.m.tick)

/-- Session commands. SESSION_OPEN makes its checks in order, clears the block and writes the descriptor. CLOSE and PARK
take effect once every earlier event of the session has been processed, RESUME at once; before its turn such a command is
RUNNING. A session whose regeneration completes has the block of its step again and is IDLE or PENDING, or still RETIRED. -/
def Obligations.SessionCommands : Prop :=
  (∀ (s : State) (seq : Nat), Starts seq 0x08 s → Quiet seq s →
    let w := begin s
    let c := cmdOf w seq
    let i : Instr := .sessionOpen seq
    let sid := cmdBits c 0x10 0 20
    let size := 512 * 2 ^ cmdBits c 0x14 0 3
    let asid := BitVec.ofNat 16 (cmdBits c 0x28 0 16)
    let va := cmdBits c 0x20 0 48
    let err := useCheck w c.fn (cmdBits c 0x10 24 6) (some asid)
    let good := operandsClean c openBits = true ∧ cmdBits c 0x14 16 16 ≠ 0
    let free := (sessOf w sid).state = 0
    pastCut w c = false → (∀ e ∈ sessionCommands w sid, ¬ e.1 < seq) → s.m.s.regen.contains sid = false → s.m.x.relos = [] →
    (¬ good → Finishes seq 0x40 s i s) ∧
    (good → err ≠ 0 → Finishes seq err s i s) ∧
    (good → err = 0 → ¬ free → Finishes seq 0x41 s i s) ∧
    (good → err = 0 → free → servesOpen w c = false → Finishes seq 0x42 s i s) ∧
    (good → err = 0 → free → servesOpen w c = true →
      (va % size ≠ 0 ∨ blockPieces w sid va size asid = none → Finishes seq 0x43 s i s) ∧
      ∀ ps, va % size = 0 → blockPieces w sid va size asid = some ps →
        let meets := ∃ e ∈ s.m.s.sessions, e.2.state ≠ 0 ∧ e.1 ≠ sid ∧ ∃ b ∈ e.2.block, ∃ p ∈ ps, spansMeet b p = true
        (meets → Finishes seq 0x44 s i s) ∧
        (¬ meets → cmdBits c 0x10 31 1 = 0 → tableAt w (homeDie w sid) = none → Answers i s fun s' => Ended seq 0 s' ∧
          sessOf (begin s') sid = openedSession c w ps ∧ (∀ k, k ≠ sid → sessOf (begin s') k = sessOf w k) ∧
          (∀ x, (∃ b ∈ ps, b.1 ≤ x ∧ x < b.1 + b.2) → storedByte s' x = 0) ∧
          (∀ x, (∀ b ∈ ps, ¬ (b.1 ≤ x ∧ x < b.1 + b.2)) → storedByte s' x = storedByte s x)))) ∧
  (∀ (s : State) (seq op : Nat) (used : List (Nat × Nat)) (i : Instr), Starts seq op s → Quiet seq s → s.m.twin = {} →
    (i, op, used) ∈ [(.sessionClose seq, 0x09, [(128, 20)]), (.sessionPark seq, 0x0A, [(128, 20), (159, 1)])] →
    let w := begin s
    let c := cmdOf w seq
    let sid := cmdBits c 0x10 0 20
    let old := sessOf w sid
    let resume := op = 0x0A ∧ cmdBits c 0x10 31 1 = 1
    let becomes (state why : Nat) (f : Session → Session) : Prop := Answers i s fun s' => Ended seq 0 s' ∧
      (sessOf (begin s') sid).state = state ∧ (sessOf (begin s') sid).parkwhy = why ∧
      (sessOf (begin s') sid).queue.map (·.jseq) = old.queue.map (·.jseq) ∧
      (sessOf (begin s') sid).step = old.step ∧ (sessOf (begin s') sid).closed = (f old).closed ∧
      ∀ k, k ≠ sid → sessOf (begin s') k = sessOf w k
    pastCut w c = false →
    (operandsClean c used = false → Finishes seq 0x01 s i s) ∧
    (operandsClean c used = true →
      (¬ resume → sessionTurn w seq c sid = false → Answers i s fun s' => stateOf (begin s') seq = 2 ∧ s'.mem = s.mem ∧
        s'.m.s = s.m.s) ∧
      (op = 0x09 → sessionTurn w seq c sid = true →
        (old.state = 0 ∨ old.state = 5 → Finishes seq 0x43 s i s) ∧
        (old.state ≠ 0 → old.state ≠ 5 → becomes 5 old.parkwhy fun x => { x with closed := c.tick })) ∧
      (op = 0x0A → ¬ resume → sessionTurn w seq c sid = true →
        (old.state = 1 ∨ old.state = 2 → becomes 4 2 id) ∧
        (old.state ≠ 1 → old.state ≠ 2 → Finishes seq 0x43 s i s)) ∧
      (resume → s.m.s.regen.contains sid = false → (∀ e ∈ sessionCommands w sid, ¬ e.1 < seq) →
        (old.state = 4 → becomes (if old.queue.isEmpty then 1 else 2) 0 id) ∧
        (old.state ≠ 4 → sessionTurn w seq c sid = true → Finishes seq 0x43 s i s)))) ∧
  ∀ (s : State) (sid : BitVec 20), Powered s →
    let w := begin s
    let k := sid.toNat
    let old := sessOf w k
    (¬ k ∈ s.m.s.regen ∨ old.state = 3 ∨ sessQuiet w k = false → exec (.regenerationComplete sid) s = .next s) ∧
    (k ∈ s.m.s.regen → old.state ≠ 3 → sessQuiet w k = true → blockHome w k = true → descFits w k = true →
      Answers (.regenerationComplete sid) s fun s' =>
      sessOf (begin s') k =
        (if old.state = 5 then old else { old with state := if old.queue.isEmpty then 1 else 2, parkwhy := 0 }) ∧
      (∀ j, j ≠ k → sessOf (begin s') j = sessOf w j) ∧ (∀ j, j ∈ s'.m.s.regen ↔ j ∈ s.m.s.regen ∧ j ≠ k) ∧
      ∀ p a n, tget (tread [] s.m.s.past k) old.step = some p → old.block = [(a, n)] → p.block.length = n →
        tableAt w (homeDie w k) = none → ∀ x, storedByte s' x =
          if a ≤ x ∧ x < a + n then p.block.getD (x - a) 0 else storedByte s x)

/-- Invocations. The lowest-numbered one of a die that may start binds an idle lent thread of its plan, as its sessions and
its plan say; where its session's descriptor is uncorrectable, the session is regenerated instead; where none may start, the
groups of classes that lack a lent thread are noted. With DET clear the batch is what is
queued. An invocation ends with a taken transfer to 0, or at its limit: its stores drain, its thread is lent again, and its
session is a step further, IDLE, PENDING or PARKED; its response holds the thread's RESULT. -/
def Obligations.Invocations : Prop :=
  (∀ (s : State) (die : BitVec 1) (pref : Nat), Powered s → s.m.s.redo = [] → s.m.k.snapQ = [] →
    let w := if s.m.det then begin s
      else formBatch die.toNat (fun sid _ => hasLent (begin s) sid) s.m.tick (begin s)
    let i : Instr := .invocationStart die pref
    (nextInv w die.toNat = none → Answers i s fun s' =>
      { s'.m with s := { s'.m.s with short := w.m.s.short } } = w.m ∧ (s.m.det = true → s'.mem = s.mem) ∧
      ∀ k, k ∈ s'.m.s.short ↔ k ∈ w.m.s.short ∨ k < 16 ∧ shortOf w (k / 8) (k % 8) = true) ∧
    ∀ id inv k, nextInv w die.toNat = some id → tget w.m.s.invs id = some inv →
      ((k = pref ∧ pref ∈ idleLent w inv.plan) ∨ (¬ pref ∈ idleLent w inv.plan ∧ (idleLent w inv.plan).head? = some k)) →
      (∀ x q g, inv.evs = [(x, q)] → descBad w x = some g → (sessOf w x).state = 2 → w.m.s.regen = [] →
        Answers i s fun s' => x ∈ s'.m.s.regen ∧ (sessOf (begin s') x).state = 4 ∧ (sessOf (begin s') x).parkwhy = 3 ∧
          tget s'.m.s.invs id = some inv ∧ ∀ u, threadOf s' u = threadOf s u) ∧
      (s.m.hw.bad = [] → Answers i s fun s' =>
        let b := threadOf s' (tidOf k)
        let first := inv.evs.headD (0, {})
        let old := sessOf w first.1
        let p := planOf w inv.plan
        b.binding = .inv id inv.plan ∧ b.priv = false ∧ b.park = .none ∧ b.step = 0 ∧ b.v = [] ∧ b.p = [] ∧
        b.pc = BitVec.ofNat 48 (p.entries.getD inv.entry 0) ∧ b.seed = old.seed ^^^ BitVec.ofNat 64 old.step ∧
        tread 0 b.g 1 = BitVec.ofNat 64 inv.evs.length ∧ b.costSum = 0 ∧
        b.costLimit = old.blim * 64 * inv.evs.length ∧ b.cls = inv.cls ∧ b.det = inv.det ∧
        b.xlbase = (threadOf s (tidOf k)).xlbase ∧ b.asid = (threadOf s (tidOf k)).asid ∧
        tget s'.m.s.invs id = some { inv with thread := some k } ∧
        (∀ x ∈ inv.evs, (sessOf (begin s') x.1).state = 3) ∧
        ∀ u, tkey u ≠ k → threadOf s' u = threadOf s u)) ∧
  (∀ (s : State) (t : Tid) (id c sid : Nat) (q : QEv) (inv : Inv), (threadOf s t).binding = .inv id c →
    tget s.m.s.invs id = some inv → inv.evs = [(sid, q)] → s.m.twin.role = 0 → s.m.s.heldResp = [] →
    let th := threadOf s t
    let w := begin s
    let old := sessOf w sid
    let left := old.queue.filter fun x => x.jseq != q.jseq
    let p := ringCount w (256 + q.ring)
    let room := (p + 2 ^ 32 - ringCount w (320 + q.ring)) % 2 ^ 32 < 1024
    let posts := committedAt w q.jseq = true ∧ room ∧ tread 0 s.m.h.respDrop q.ring ≤ q.jseq ∧
      answeredAt w q.jseq = false
    let ends (i : Instr) (limit : Bool) (ks : Nat) : Prop := Answers i s fun s' =>
      let new := sessOf (begin s') sid
      (threadOf s' t).binding = .lent c ∧ (threadOf s' t).park = .none ∧ (th.groups = [] → (threadOf s' t).sbuf = []) ∧
      new.step = old.step + 1 ∧ new.ltick = q.tick ∧ new.queue.map (·.jseq) = left.map (·.jseq) ∧
      new.state = (if limit ∨ sid ∈ s.m.s.regen then 4 else if left.isEmpty then 1 else 2) ∧
      new.parkwhy = (if sid ∈ s.m.s.regen then 3 else if limit then 1 else 0) ∧
      (posts → ringCount (begin s') (256 + q.ring) = (p + 1) % 2 ^ 32 ∧ ∃ res,
        (th.sbuf = [] → th.groups = [] → let bs := readPieces w (lentPieces w (tkey t) 2 32)
          res = bs ++ List.replicate (32 - bs.length) 0) ∧
        tread 0 s'.m.h.respSlots (q.ring * 2 ^ 12 + p % 1024) = responseRecord sid (if limit then 1 else 0)
          (bits q.body 32 32) q.tick (old.step + 1) ks res)
    (Calm 15 t s → th.priv = false → ((getG th 30).setWidth 48 >>> 2) <<< 2 = (0 : Addr) → th.groups = [] →
      ends (.ret t) false ((tread 0 th.g 1).toNat % 2 ^ 32)) ∧
    (Powered s →
      (th.costLimit ≠ 0 → th.costLimit ≤ th.costSum → th.priv = false → ends (.invocationLimit t) true 0) ∧
      (th.costLimit = 0 ∨ th.costSum < th.costLimit ∨ th.priv = true → exec (.invocationLimit t) s = .next s)))

/-- The keeper's services reply to the thread that waits for them. DECODE_LOAD takes an image; its checks end in an error
or an accepted table, kept from then on, which DECODE_INSTALL puts on each die once no plan that uses one runs there. VIOL_READ and ERR_READ write
records to memory and return the counts; XLINV begins a shoot-down. -/
def Obligations.KeeperServices : Prop :=
  (∀ (t : Tid) (s : State), Powered s → s.m.twin.role = 0 →
    (∀ c, cmdOfThread (threadOf s t) = some c → (planOf (begin s) c).replay = none) →
    (threadOf s t).gm = false → (threadOf s t).groups = [] → Sound s → jStages (begin s) 1 = true → ∀ (word : W32) (st : Stamp),
    let th := threadOf s t
    let w := begin s
    let arg (i : Nat) : Nat := (tread 0 th.g i).toNat
    let rest (s' : State) : Prop := (threadOf s' t).park = .none ∧ (threadOf s' t).pc = th.pc ∧
      ∀ u, u ≠ t → threadOf s' u = threadOf s u
    let only (s' : State) (g1 : W64) : Prop := rest s' ∧ tread 0 (threadOf s' t).g 1 = g1 ∧
      ∀ i, i ≠ 1 → tread 0 (threadOf s' t).g i = tread 0 th.g i
    let writes (s' : State) (n va tag state err : Nat) : Prop := ∀ a,
      threadPieces w t .write va 32 = .ok [⟨va, 32, some a, none⟩] → ∀ x, storedByte s' x =
        if a ≤ x ∧ x < a + 32 then (svcBytes w (svcAt w t word n va tag) state err).getD (x - a) 0 else storedByte s x
    (∀ n i, (n, i) ∈ [(1, .decodeLoad t), (2, .violRead t), (3, .errRead t), (4, .xlinv t)] → (∀ x y, th.park ≠ .service n x y) →
      exec i s = .next s) ∧
    (th.park = .service 1 word st →
      (arg 3 ≠ 12653 → Answers (.decodeLoad t) s fun s' => only s' kservArg ∧ s'.m.sec = s.m.sec) ∧
      (arg 3 = 12653 → s.m.sec.decImg.isSome = true → Answers (.decodeLoad t) s fun s' =>
        only s' kservBusy ∧ s'.m.sec = s.m.sec) ∧
      (∀ cs, arg 3 = 12653 → s.m.sec.decImg = none → threadPieces w t .read (arg 2) 12653 = .ok cs →
        (∀ c ∈ cs, c.pa.isSome = true) → Answers (.decodeLoad t) s fun s' => only s' 0 ∧
          (∃ i, s'.m.sec.decImg = some i ∧ i.bytes = readPieces w cs) ∧ writes s' 1 (arg 4) (arg 6) 2 0)) ∧
    (∀ n i slot (count : Module → AckCtr) (next : Module → Nat),
      (n = 2 ∧ i = .violRead t ∧ slot = violSlot ∧ count = (·.violCount) ∧ next = (·.violNext)) ∨
        (n = 3 ∧ i = .errRead t ∧ slot = errSlot ∧ count = (·.errCount) ∧ next = (·.errNext)) →
      th.park = .service n word st →
      (4095 < arg 2 ∨ arg 3 < 1 ∨ 64 < arg 3 → Answers i s fun s' => only s' kservArg ∧ s'.mem = s.mem) ∧
      (∀ a c, arg 2 ≤ 4095 → 1 ≤ arg 3 → arg 3 ≤ 64 →
        let bs := (List.range (arg 3)).flatMap fun j => slot w ((arg 2 + j) % 4096)
        (arg 5 = 2 ^ 64 - 1 ∧ c = count s.m ∨ arg 5 < 2 ^ 32 ∧ ackWrite (count s.m) (BitVec.ofNat 32 (arg 5)) = some c) →
        threadPieces w t .write (arg 4) bs.length = .ok [⟨arg 4, bs.length, some a, none⟩] →
        Answers i s fun s' => rest s' ∧ count s'.m = c ∧ tread 0 (threadOf s' t).g 1 = 0 ∧
          tread 0 (threadOf s' t).g 2 = (ackOut c).setWidth 64 ∧
          tread 0 (threadOf s' t).g 3 = BitVec.ofNat 64 (next s.m) ∧
          ∀ x, storedByte s' x = if a ≤ x ∧ x < a + bs.length then bs.getD (x - a) 0 else storedByte s x)) ∧
    (th.park = .service 4 word st →
      let err := xlinvError (arg 2) (arg 3) (arg 4)
      (err ≠ 0 → Answers (.xlinv t) s fun s' => only s' 0 ∧ s'.m.x = s.m.x ∧ writes s' 4 (arg 5) (arg 6) 5 err) ∧
      (err = 0 → Answers (.xlinv t) s fun s' => only s' 0 ∧ writes s' 4 (arg 5) (arg 6) 2 0 ∧
        ∃ x, s'.m.x.shoots = s.m.x.shoots ++ [x] ∧ x.cmd = none ∧ x.va = arg 2 ∧
          x.len = (if arg 3 = 0 then 2 ^ 48 else arg 3) ∧
          x.asid = (if bit (arg 4) 16 then none else some (BitVec.ofNat 16 (arg 4))) ∧ x.sent = false ∧
          x.tick = s.m.tick))) ∧
  (∀ (s : State), Powered s →
    let w := begin s
    (s.m.sec.decImg = none → exec .decodeCheck s = .next s) ∧
    (∀ i, s.m.sec.decImg = some i → Answers .decodeCheck s fun s' => s'.m.sec.decImg = none ∧ s'.m.decTab = s.m.decTab ∧
      (imageError w i.bytes ≠ 0 → s'.m.sec.decNext = s.m.sec.decNext ∧ s'.m.sec.decKept = s.m.sec.decKept) ∧
      (imageError w i.bytes = 0 → s'.m.sec.decNext = some i.bytes ∧ s'.m.sec.decKept = i.bytes ∧ s'.m.sec.decDone = []) ∧
      ∀ va a, svcPieces w i.svc = [⟨va, 32, some a, none⟩] → ∀ x, storedByte s' x = if a ≤ x ∧ x < a + 32 then
        (svcBytes w i.svc (if imageError w i.bytes = 0 then 4 else 5) (imageError w i.bytes)).getD (x - a) 0
        else storedByte s x) ∧
    (s.m.sec.decNext = none → exec .decodeInstall s = .next s) ∧
    ∀ bs, s.m.sec.decNext = some bs → Answers .decodeInstall s fun s' =>
      let new (d : Nat) : Prop := ¬ d ∈ s.m.sec.decDone ∧ customRunning w d = false
      let all := ∀ d, d < 2 → d ∈ s.m.sec.decDone ∨ new d
      s'.mem = s.mem ∧
      (∀ d, d < 2 → (new d → tget s'.m.decTab d = (if bs = [] then none else some (imageTable bs))) ∧
        (¬ new d → tget s'.m.decTab d = tget s.m.decTab d)) ∧
      (all → s'.m.sec.decNext = none ∧ s'.m.sec.decDone = [] ∧ s'.m.sec.decOn = bs ∧
        s'.m.sec.decKept = (if bs = [] then [] else s.m.sec.decKept) ∧
        (bs ≠ [] → floorOf (begin s') 3 = max (floorOf w 3) (imgNum bs 0xC 4))) ∧
      (¬ all → s'.m.sec.decNext = some bs ∧ s'.m.sec.decKept = s.m.sec.decKept ∧
        ∀ d, d < 2 → (d ∈ s'.m.sec.decDone ↔ d ∈ s.m.sec.decDone ∨ new d)))

/-- The host's accesses of registers. A write of a register reads back as its fields hold it; a read-only register ignores
one; an access of another shape, or in recovery, is refused and logged, as is a write of a log. Eight bytes are two writes,
the lower first. An acknowledging write moves the acknowledged count or is refused. A read of a low half latches the high
one. DET and the lock wait for the boundary, as counters' copies and clearing do; TAKE moves a probe's live sums to its held
copy at once. A trace record that its unit takes is written, or counted as dropped. -/
def Obligations.HostRegisters : Prop :=
  (∀ (s : State) (fn : BitVec 5) (off n : Nat) (value : BitVec 64), Powered s → ackFull s.m.violCount = false →
    let w := begin s
    let v := value.toNat % 2 ^ 32
    let i : Instr := .registerWrite fn off n value
    (inRecovery w = true ∨ accessShape off n = false → Answers i s (HostRefused fn.toNat off s)) ∧
    (inRecovery w = false →
      (fn ≠ 0 → 0x1000 ≤ off → off % 4 = 0 → n = 4 → exec i s = .next s) ∧
      (off % 8 = 0 → off ≠ 0 → n = 8 → ∃ s1, exec (.registerWrite fn off 4 value) s = .next s1 ∧
        exec i s = exec (.registerWrite fn (off + 4) 4 (value >>> 32)) s1) ∧
      (fn = 0 → n = 4 →
        (off ∈ [0x1004, 0x1010, 0x1014, 0x1018, 0x1020, 0x1044, 0x1058, 0x2004, 0x2008, 0x3000, 0x3008, 0x10000, 0x5040] →
          exec i s = .next s) ∧
        (0x20000 ≤ off → off < 0xC0000 → off % 4 = 0 → Answers i s (HostLogged 0x0004 0 off true s)) ∧
        ∀ r d k, d < 2 → tread false s.m.hw.dieReset d = false → 5 < s.m.sec.bootPhase →
          let base := 0x1000000 + d * 0x800000
          (off = 0x1064 ∧ r = v ∨ off = 0x1068 ∧ r = v % 2 ^ 17 ∨
            (off = 0x1060 ∧ 1 ≤ v % 32 ∧ v % 32 ≤ 24 ∧ r = v % 32) ∨
            (off = 0x200C ∧ v % 65536 ≠ 0 ∧ r = v % 65536) ∨
            (∃ j, off = 0x4000 + 64 * k + 4 * j ∧ 1 ≤ k ∧ k < 64 ∧ j < 10 ∧ r = v % 2 ^ 20) ∨
            (off = 0x4000 + 64 * k + 40 ∧ 1 ≤ k ∧ k < 64 ∧ r = v % 4) ∨
            (off = 0x6000 + 4 * k ∧ k < 96 ∧ ringEmpty w k = true ∧ r = v % 32) ∨
            (off = 0x6500 + 4 * k ∧ k < 24 ∧ r = v % 64) ∨
            (off = base + 64 * k ∧ k < 4096 ∧ r = v) ∨
            (off = base + 0x80000 + 64 * k + 12 ∧ k < 256 ∧ (tread {} s.m.hw.channels (d * 256 + k)).busy = false ∧
              r = v &&& 0x013FFFFF) ∨
            (off = base + 0x84000 + 16 * k + 8 ∧ k < 5 ∧ r = v) ∨
            (off = base + 0x86100 + 32 * k ∧ k < 64 ∧ r = v &&& 0x80007FFF) ∨
            (off = base + 0x87004 ∧ r = v % 65536)) →
          Answers i s fun s' => readReg (begin s') off = r ∧ s'.mem = s.mem ∧ s'.pending = s.pending ∧
            s'.m.threads = s.m.threads))) ∧
  (∀ (s : State) (v : BitVec 32), Powered s → ackFull s.m.violCount = false →
    (∀ c, ackWrite s.m.violCount v = some c → Answers (.ackWrite 0 0x1030 v) s fun s' => s'.mem = s.mem ∧
      s'.m = { s.m with violCount := c }) ∧
    (∀ c, ackWrite s.m.errCount v = some c → Answers (.ackWrite 0 0x1038 v) s fun s' => s'.mem = s.mem ∧
      s'.m = { s.m with errCount := c }) ∧
    (ackWrite s.m.errCount v = none → Answers (.ackWrite 0 0x1038 v) s (HostLogged 0x0004 0 0x1038 true s)) ∧
    (∀ (fn : BitVec 5) (off : Nat), off % 4 ≠ 0 → exec (.ackWrite fn off v) s = .next s) ∧
    ∀ (fn : BitVec 5) (i : Nat), i < 96 →
      (tread 0 s.m.ringFn i ≠ fn.toNat → fn ≠ 0 → exec (.ackWrite fn (4 * i) v) s = .next s) ∧
      (∀ c, tread 0 s.m.ringFn i = fn.toNat → fn ≠ 0 → ackWrite (tread {} s.m.hifCtr i) v = some c →
        Answers (.ackWrite fn (4 * i) v) s fun s' => s'.mem = s.mem ∧ tread {} s'.m.hifCtr i = c ∧
          { s'.m with hifCtr := s.m.hifCtr, msgsSent := s.m.msgsSent } = s.m ∧
          (ackOut c = 0 → s'.m.msgsSent = s.m.msgsSent))) ∧
  (∀ (s : State) (fn : BitVec 5) (off n : Nat), Powered s → ackFull s.m.violCount = false →
    let w := begin s
    let i : Instr := .loReadLatch fn off n
    (accessShape off n = false → Answers i s fun s' => s'.m.h.readBack = toBytes n 0 ∧
      HostLogged 0x0012 fn.toNat off false { s with m := { s.m with h := { s.m.h with cpl := 1, readBack := toBytes n 0 } } }
        s') ∧
    (inRecovery w = false → off % 4 = 0 → n = 4 →
      (fn = 0 → isLo off = true → isLo (off - 4) = false → Answers i s fun s' => s'.mem = s.mem ∧
        s'.m.h.readBack = toBytes 4 (readReg w off) ∧ s'.m.h.cpl = 1 ∧
        tget s'.m.h.pfLatch (off + 4) = some (BitVec.ofNat 32 (readReg w (off + 4)))) ∧
      (∀ x, fn = 0 → 4 ≤ off → isLo (off - 4) = true → isLo off = false → tget s.m.h.pfLatch off = some x →
        Answers i s fun s' => s'.mem = s.mem ∧ s'.m.h.readBack = toBytes 4 x.toNat ∧ s'.m.h.pfLatch = s.m.h.pfLatch) ∧
      (fn ≠ 0 → Answers i s fun s' => s'.mem = s.mem ∧
        s'.m.h.readBack = toBytes 4 (if off < 0x1000 then readHif w fn.toNat off else 0)))) ∧
  (∀ (s : State) (v : Bool), Powered s → ackFull s.m.violCount = false →
    (s.m.twin.mode ≠ 1 → exec (.detWrite v) s = .next { s with m := { s.m with detW := some v } }) ∧
    (s.m.twin.mode = 1 → v = false → Answers (.detWrite v) s (HostLogged 0x0004 0 0 true s)) ∧
    exec (.cfglockWrite false) s = .next s ∧
    (s.m.cfglock = false → s.m.cfglockW = false →
      exec (.cfglockWrite true) s = .next { s with m := { s.m with cfglockW := true } }) ∧
    (s.m.cfglock = true ∨ s.m.cfglockW = true → Answers (.cfglockWrite true) s (HostLogged 0x0004 0 0 true s))) ∧
  (∀ (s : State) (die : BitVec 1), Powered s → tread false s.m.hw.dieReset die.toNat = false →
    let c := tread {} s.m.cnt die.toNat
    let sets (i : Instr) (d : Cnt) : Prop := Answers i s fun s' => s'.mem = s.mem ∧ { s'.m with cnt := s.m.cnt } = s.m ∧
      tread {} s'.m.cnt die.toNat = d ∧ ∀ k, k ≠ die.toNat → tread {} s'.m.cnt k = tread {} s.m.cnt k
    sets (.cntSnap die) { c with snap := true } ∧ sets (.cntClear die) { c with clear := true } ∧
    ∀ slot : BitVec 12,
      let k := die.toNat * 4096 + slot.toNat
      ∃ s', exec (.take die slot) s = .next s' ∧ s'.mem = s.mem ∧ s'.pending = s.pending ∧
        { s'.m with probes := s.m.probes } = s.m ∧
        tread {} s'.m.probes k =
          { live := {}, held := (tread {} s.m.probes k).live, taken := BitVec.ofNat 64 s.m.tick } ∧
        ∀ j, j ≠ k → tread {} s'.m.probes j = tread {} s.m.probes j) ∧
  ∀ (s : State) (buffer : BitVec 2) (record : BitVec 512), Powered s →
    let r := bits record.toNat 0 448 + traceName (begin s) buffer.toNat record.toNat <<< 448
    let kind := bits r 96 8
    let i : Instr := .traceRecordWrite buffer record
    (s.m.tick ≤ bits r 0 64 + 128 ∨ kind = 0 ∨ 11 < kind → exec i s = .next s) ∧
    (bits r 0 64 + 128 < s.m.tick → 1 ≤ kind → kind ≤ 11 →
      (buffer = 2 → kind = 11 → s.m.k.ktrcLast < traceRank r → Answers i s fun s' => s'.mem = s.mem ∧
        tget s'.m.k.ktrc (s.m.k.ktrcHead % 4096) = some r ∧ s'.m.k.ktrcHead = s.m.k.ktrcHead + 1) ∧
      (buffer.toNat < 2 →
        let b := tread {} s.m.k.trc buffer.toNat
        let taken := b.ctl.getLsbD 0 = true ∧ b.ctl.getLsbD (kind + 4) = true ∧ b.min.toNat ≤ bits r 160 32 ∧
          b.last < traceRank r
        let cap := b.size.toNat * 1024
        let base := b.base.toNat
        let a := base + b.head.toNat % cap * 64
        (¬ taken → exec i s = .next s) ∧
        (taken → 0 < cap → isDevice (begin s) base = true → isDevice (begin s) (base + cap * 64 - 1) = true →
          (b.ctl.getLsbD 1 = true → cap ≤ b.head.toNat → ackFull b.drop = false → Answers i s fun s' => s'.mem = s.mem ∧
            tread {} s'.m.k.trc buffer.toNat = { b with last := traceRank r, drop := ackEvent b.drop }) ∧
          (b.ctl.getLsbD 1 = false ∨ b.head.toNat < cap → Answers i s fun s' =>
            tread {} s'.m.k.trc buffer.toNat = { b with last := traceRank r, head := b.head + 1 } ∧
            ∀ x, storedByte s' x = if a ≤ x ∧ x < a + 64 then (toBytes 64 r).getD (x - a) 0 else storedByte s x))))

/-- Service of units. A drain that would leave no die, or no vector processor of a die, is refused; else the unit drains, a
channel after its grace. One that has drained, or fails, is in PUPA; there it may molt, which clears it, or be retired for
good. A molt that passes puts it back in service at a boundary. A die reset takes the die through PUPA into its molt. A
spare takes over a copied bank; a restriped stack presents its channels in service. -/
def Obligations.UnitService : Prop :=
  (∀ (s : State) (seq action : Nat) (i : Instr), Starts seq 0x14 s → Quiet seq s →
    (action, i) ∈ [(0, .drain seq), (1, .molt seq), (2, .retire seq)] →
    let w := begin s
    let c := cmdOf w seq
    let u := serviceUnit c
    let kind := u / 0x1000
    let st := unitState w u
    c.stage = 0 → serviceBehind w seq c = false → serviceAction c = action → operandsClean c [(128, 19)] = true →
    (isUnit u = false → Finishes seq 0x60 s i s) ∧
    (isUnit u = true →
      (action = 0 →
        (st ≠ .inService → Finishes seq 0x60 s i s) ∧
        (st = .inService → isLast w u = true → Finishes seq 0x61 s i s) ∧
        (st = .inService → isLast w u = false →
          (∀ d, drainsDie u = some d → drainFits d w = false → Finishes seq 0x62 s i s) ∧
          (∀ d, drainsDie u = some d → drainFits d w = true → Answers i s fun s' =>
            Ended seq 0 s' ∧ UnitIs u .draining (· = d) s s' ∧
            (unitState w d = .inService → unitState (begin s') d = .draining)) ∧
          (kind = 5 → tget s.m.hw.grace u = none → Answers i s fun s' => stateOf (begin s') seq = 2 ∧
            tget s'.m.hw.grace u = some (s.m.tick / 4096 + graceOf w) ∧ s'.m.units = s.m.units ∧
            (∃ r, tget s'.m.alerts (s.m.alertNo % 256) = some r ∧ r.code = 0x07 ∧ r.unit = BitVec.ofNat 16 u)) ∧
          (drainsDie u = none → kind ≠ 5 → Answers i s fun s' => Ended seq 0 s' ∧
            UnitIs u .draining (fun _ => False) s s' ∧ (kind = 4 → u ∈ s'.m.hw.bankCopy)))) ∧
      (action = 1 →
        (st ≠ .pupa ∨ (u < 2 ∧ cooled w u = false) → Finishes seq 0x60 s i s) ∧
        (st = .pupa → 2 ≤ u → Answers i s fun s' => Ended seq 0 s' ∧ UnitIs u .molting (fun _ => False) s s' ∧
          (kind = 1 → ∀ t, t.vp.toNat = u % 0x1000 → (threadOf s' t).g = [] ∧ (threadOf s' t).park = .none ∧
            (threadOf s' t).bank = []) ∧
          (kind = 5 → tread {} s'.m.hw.channels (u % 0x1000)
            = { stopped := (tread {} s.m.hw.channels (u % 0x1000)).busy }) ∧
          (kind = 6 → moverOf (begin s') (u % 0x1000) = {})) ∧
        (st = .pupa → u < 2 → cooled w u = true → Answers i s fun s' => Ended seq 0 s' ∧
          UnitIs u .molting (· ∈ unitsOfDie u) s s' ∧
          (∀ x ∈ unitsOfDie u, unitState w x = .pupa → unitState (begin s') x = .molting) ∧
          ∀ x, (u * 0x3C0000000 ≤ x ∧ x < u * 0x3C0000000 + 0x3C0000000) ∨
            (0x010000000000 + u * 0x4800000000 ≤ x ∧ x < 0x010000000000 + u * 0x4800000000 + 0x4800000000) →
            storedByte s' x = 0)) ∧
      (action = 2 →
        (st ≠ .pupa → Finishes seq 0x60 s i s) ∧
        (st = .pupa → Answers i s fun s' => Ended seq 0 s' ∧ UnitIs u .retired (fun _ => False) s s')))) ∧
  (∀ (s : State) (u : Nat), Powered s →
    let w := begin s
    let kind := u / 0x1000
    let live := unitState w u = .inService ∨ unitState w u = .draining
    (drainsDie u = none → (isUnit u = false ∨ unitState w u ≠ .draining ∨ hasDrained w u = false) →
      exec (.unitDrained u) s = .next s) ∧
    (isUnit u = true → drainsDie u = none → kind ≠ 4 → unitState w u = .draining → hasDrained w u = true →
      Answers (.unitDrained u) s (UnitIs u .pupa (fun _ => False) s)) ∧
    (isUnit u = true → kind = 4 → unitState w u = .draining → hasDrained w u = true →
      Answers (.unitDrained u) s fun s' => unitState (begin s') u = .pupa) ∧
    (∀ d, isUnit u = true → drainsDie u = some d → unitState w u = .draining → hasDrained (rehomeBlocks true w).1 u = true →
      Answers (.unitDrained u) s fun s' => unitState (begin s') u = .pupa ∧
        ∀ x ∈ d :: unitsOfDie d, (unitState w x = .inService ∨ unitState w x = .draining) → unitState (begin s') x = .pupa) ∧
    (isUnit u = false ∨ ¬ live → exec (.unitFailure u) s = .next s) ∧
    (isUnit u = true → live →
      (kind = 1 → Answers (.unitFailure u) s fun s' => UnitIs u .pupa (fun _ => False) s s' ∧
        ∀ t c k, t.vp.toNat = u % 0x1000 → (threadOf s t).binding = .plan c k → (planOf w c).bound = true →
          (planOf (begin s') c).aborted = true) ∧
      (kind = 2 ∨ kind = 5 ∨ kind = 6 → Answers (.unitFailure u) s (UnitIs u .pupa (fun _ => False) s)) ∧
      (kind = 4 → Answers (.unitFailure u) s fun s' =>
        let t := u % 0x1000 / 64
        match servedBank w t (u % 64), freeSpare w t with
        | some b, some n => UnitIs u .pupa (fun _ => False) s s' ∧ tget s'.m.hw.spares (t * 64 + b) = some n
        | none, _ => UnitIs u .pupa (fun _ => False) s s'
        | some _, none => unitState (begin s') u = .pupa ∧ unitState (begin s') (dieOfUnit u) ≠ .inService) ∧
      (kind = 3 → Answers (.unitFailure u) s (UnitIs u .pupa (· = 0x2000 + u % 0x1000 / 4) s)) ∧
      (kind = 0 → Answers (.unitFailure u) s fun s' => UnitIs u .pupa (· ∈ unitsOfDie u) s s' ∧
        ∀ x ∈ unitsOfDie u, (unitState w x = .inService ∨ unitState w x = .draining) → unitState (begin s') x = .pupa) ∧
      (kind = 7 ∨ kind = 8 → Answers (.unitFailure u) s fun s' => unitState (begin s') u = .pupa))) ∧
  (∀ (s : State) (u : Nat) (ok : Bool) (bad : List Nat), Powered s →
    let i : Instr := .moltComplete u ok bad
    let st := unitState (begin s) u
    (st ≠ .molting ∨ isUnit u = false ∨ s.m.tick % 4096 ≠ 0 → exec i s = .next s) ∧
    (st = .molting → isUnit u = true → s.m.tick % 4096 = 0 →
      (ok = false → Answers i s (UnitIs u .pupa (fun _ => False) s)) ∧
      (ok = true → 2 ≤ u → Answers i s (UnitIs u .inService (fun _ => False) s)) ∧
      (ok = true → u < 2 → Answers i s fun s' => UnitIs u .inService (· ∈ unitsOfDie u) s s' ∧
        tread false s'.m.hw.dieReset u = false ∧
        ∀ x ∈ unitsOfDie u, unitState (begin s) x = .molting →
          unitState (begin s') x = if bad.contains x then .pupa else .inService))) ∧
  (∀ (s : State) (d : BitVec 1) (i : Instr), Powered s → ackFull s.m.violCount = false →
    let u := d.toNat
    exec (.dieReset 0) s = .next s ∧ Answers (.dieReset 3) s (HostLogged 0x0004 0 0 true s) ∧
    (s.m.k.servctl.getLsbD 16 = false ∨ unitState (begin s) u ≠ .inService ∧ unitState (begin s) u ≠ .draining →
      exec (.dieWedged d) s = .next s) ∧
    (unitState (begin s) u = .inService ∨ unitState (begin s) u = .draining → tget s.m.power.shut u = none →
      i = .dieReset (if d = 0 then 1 else 2) ∨ i = .dieWedged d ∧ s.m.k.servctl.getLsbD 16 = true →
      Answers i s fun s' => UnitIs u .molting (· ∈ unitsOfDie u) s s' ∧ tread false s'.m.hw.dieReset u = true ∧
        ∀ x, u * 0x3C0000000 ≤ x → x < u * 0x3C0000000 + 0x3C0000000 → storedByte s' x = 0)) ∧
  (∀ (s : State) (ch : BitVec 9) (vp : BitVec 5), Powered s →
    let w := begin s
    let u := 0x5000 + ch.toNat
    let late (x : Nat) : Prop := unitState w x = .draining ∧
      ∃ p, tget s.m.hw.drainAt x = some p ∧ p + 64 ≤ s.m.tick / 4096
    (∀ p, tget s.m.hw.grace u = none ∨ (tget s.m.hw.grace u = some p ∧ s.m.tick / 4096 < p) →
      exec (.channelGraceExpiry ch) s = .next s) ∧
    (∀ p, tget s.m.hw.grace u = some p → p ≤ s.m.tick / 4096 → unitState w u = .inService →
      Answers (.channelGraceExpiry ch) s fun s' => UnitIs u .draining (fun _ => False) s s' ∧
        tget s'.m.hw.grace u = none ∧ ch.toNat / 32 ∈ s'.m.hw.restripe) ∧
    (¬ late (0x1000 + vp.toNat) → ¬ late (vp.toNat / 16) → exec (.vpDrainExpiry vp) s = .next s) ∧
    (late (0x1000 + vp.toNat) ∨ late (vp.toNat / 16) → Answers (.vpDrainExpiry vp) s fun s' => s'.mem = s.mem ∧
      s'.m.units = s.m.units ∧ ∀ t c k, t.vp = vp → (threadOf s t).binding = .plan c k →
        (planOf (begin s') c).aborted = true ∧ (threadOf s' t).stopped = true)) ∧
  ∀ (s : State) (u : Nat) (stack : BitVec 4), Powered s →
    let w := begin s
    let t := u % 0x1000 / 64
    let k := stack.toNat
    let base := 0x010000000000 + k * 0x900000000
    (¬ u ∈ s.m.hw.bankCopy → exec (.tierBankCopyEnd u) s = .next s) ∧
    (∀ b n, u ∈ s.m.hw.bankCopy → KeeperPaid (2 ^ 40 + u) s → servedBank w t (u % 64) = some b → freeSpare w t = some n →
      Answers (.tierBankCopyEnd u) s fun s' => s'.mem = s.mem ∧ tget s'.m.hw.spares (t * 64 + b) = some n ∧
        (∀ j, j ≠ t * 64 + b → tget s'.m.hw.spares j = tget s.m.hw.spares j) ∧ ¬ u ∈ s'.m.hw.bankCopy) ∧
    (¬ k ∈ s.m.hw.restripe → exec (.restripeEnd stack []) s = .next s) ∧
    (k ∈ s.m.hw.restripe → KeeperPaid (2 ^ 40 + 0x5000 + k) s → Answers (.restripeEnd stack []) s fun s' => ¬ k ∈ s'.m.hw.restripe ∧
      ∀ x, storedByte s' x = if base + stackBytes w k ≤ x ∧ x < base + 0x900000000 then 0 else storedByte s x)

/-- Errors. A scrub of a clean or correctable granule leaves its data; an uncorrectable one is kept as such and logged.
The fourth failed resend in a row on a path is logged, the eighth takes its link out of service. A channel's second parity
error starts its repair. A weevil starts where its channel's state allows, stops on request, and its run ends with its
counts; a write run leaves the pattern. -/
def Obligations.ErrorsAndWeevils : Prop :=
  (∀ (s : State) (addr : Nat) (err : BitVec 288), Powered s →
    let w := begin s
    let g := addr / 32
    let i : Instr := .scrubRead addr err false
    (isDevice w addr = false → exec i s = .next s) ∧
    (isDevice w addr = true → KeeperPaid (2 ^ 42 + g) s → tget s.m.hw.bad g = none →
      (err = 0 → Answers i s fun s' => s'.mem = s.mem ∧ tget s'.m.hw.bad g = none ∧ s'.m.errNext = s.m.errNext) ∧
      (∀ p b, chitinDecode (toBytes 36 err.toNat) = .corrected p b → err.toNat = b.toNat <<< (8 * p) →
        Answers i s fun s' => s'.mem = s.mem ∧ tget s'.m.hw.bad g = none) ∧
      (chitinDecode (toBytes 36 err.toNat) = .uncorrectable → sessionsAt w g = [] →
        (∀ e ∈ s.m.h.plans, e.2.serve = false ∨ e.2.ended = true) → Answers i s fun s' => s'.mem = s.mem ∧ tget s'.m.hw.bad g = some err.toNat ∧
          ∃ r, tget s'.m.elog s.m.errNext = some r ∧ r.code = 0x03 ∧ r.addr = BitVec.ofNat 64 (32 * g)))) ∧
  (∀ (s : State) (path : BitVec 3) (good : Bool), Powered s →
    let p := path.toNat
    let n := tread 0 s.m.hw.flits p + 1
    let i : Instr := .bridgeFlitRetry path good
    let u := if p < 3 then 0x8000 + p else p - 3
    (5 ≤ p → exec i s = .next s) ∧
    (p < 5 → good = true → Answers i s fun s' => s'.mem = s.mem ∧ tget s'.m.hw.flits p = none ∧
      { s'.m with hw := { s'.m.hw with flits := s.m.hw.flits } } = s.m) ∧
    (p < 5 → good = false →
      (n < 8 → Answers i s fun s' => s'.mem = s.mem ∧ tget s'.m.hw.flits p = some n ∧ s'.m.units = s.m.units ∧
        (n = 4 → ∃ r, tget s'.m.elog s.m.errNext = some r ∧ r.code = 0x07 ∧ r.unit = BitVec.ofNat 16 u) ∧
        (n ≠ 4 → s'.m.errNext = s.m.errNext)) ∧
      (8 ≤ n → (unitState (begin s) u = .inService ∨ unitState (begin s) u = .draining) →
        Answers i s fun s' => unitState (begin s') u = .pupa))) ∧
  (∀ (s : State) (ch : BitVec 9), Powered s →
    let c := tread {} s.m.hw.channels ch.toNat
    let u := 0x5000 + ch.toNat
    Answers (.commandParityError ch) s fun s' => s'.mem = s.mem ∧
      tread {} s'.m.hw.channels ch.toNat = { c with retried := !c.retried } ∧
      (∃ r, tget s'.m.elog s.m.errNext = some r ∧ r.code = 0x0E ∧ r.unit = BitVec.ofNat 16 u) ∧
      (c.retried = false → s'.m.hw.grace = s.m.hw.grace) ∧
      (c.retried = true → unitState (begin s) u = .inService → tget s.m.hw.grace u = none →
        tget s'.m.hw.grace u = some (s.m.tick / 4096 + graceOf (begin s)))) ∧
  ∀ (s : State) (ch : BitVec 9), Powered s →
    let w := begin s
    let k := ch.toNat
    let c := tread {} s.m.hw.channels k
    let chan (s' : State) : Channel := tread {} s'.m.hw.channels k
    (c.busy = false → weevilAllowed w k c = true → Answers (.weevilStart ch) s fun s' => s'.mem = s.mem ∧
      chan s' = { c with busy := true, done := false, stopped := false, refused := false, abort := false, slots := 0,
                         gran := 0, began := stateCode (unitState w (0x5000 + k)) }) ∧
    (c.busy = true ∨ weevilAllowed w k c = false → Answers (.weevilStart ch) s fun s' => s'.mem = s.mem ∧
      chan s' = { c with refused := true } ∧ Logged (fun r => r.code = 0x0004) s s') ∧
    Answers (.weevilAbort ch) s (fun s' => s'.mem = s.mem ∧ chan s' = { c with abort := c.abort || c.busy } ∧
      { s'.m with hw := { s'.m.hw with channels := s.m.hw.channels } } = s.m) ∧
    ∀ (part : Nat) (slots : BitVec 32) (errs : List (Nat × Nat × BitVec 288)),
      let i : Instr := .weevilRunEnd ch part slots errs
      let halted := c.abort || stateCode (unitState w (0x5000 + k)) != c.began
      let all := c.lines * weevilDepth c
      let n := if halted then min part all else all
      (c.busy = false → exec i s = .next s) ∧
      (c.busy = true → Answers i s fun s' => (chan s').slots = slots ∧ (chan s').gran = BitVec.ofNat 32 n ∧
        (chan s').busy = (!halted && c.ctl.getLsbD 7) ∧ (chan s').stopped = halted ∧ (chan s').done = !halted ∧
        (chan s').abort = false ∧
        (bits c.ctl.toNat 2 3 = 1 → s'.mem = s.mem ∧ ∀ j, j < n →
          let m := weevilLine c (j / 64)
          tread 0 (chan s').cells (m * 64 + j % 64) = patternGran c m (j % 64)))

/-- Frames of the Neraxo link. None has an effect while the link is down; one that the module's mode does not allow is
logged and has no other. LINK acknowledges: frames up to its FSEQ leave the replay buffer, each of the others keeps its
credit, and eight failed resends of one frame take the link down; a frame waits while the buffer is full. The cicada tells of the twin and fences on a higher generation; CUT declares
it silent; the lead's verdicts, records, inputs and snapshot take effect on a follower; a digest releases or fails a result
that the lead withholds; what the twin asks for goes out once the link's gate admits it; what was asked for arrives. -/
def Obligations.NeraxoFrames : Prop :=
  (∀ (s : State) (i : Instr) (typ : Nat) (allowed : Bool), Powered s →
    let x := s.m.twin
    ((typ = 0 ∧ allowed = true ∧ i = .idle) ∨ (typ = 1 ∧ allowed = true ∧ ∃ a n c j, i = .link a n c j) ∨
      (typ = 2 ∧ allowed = (x.role != 0) ∧ ∃ t e g j md r sv d mt, i = .cicada t e g j md r sv d mt) ∨
      (typ = 3 ∧ allowed = (x.role != 0) ∧ ∃ t e, i = .cut t e) ∨
      (typ = 4 ∧ ∃ l msg, i = .ctrl l msg ∧ allowed = (x.role == 2 || (match msg with | .owner _ => true | _ => false))) ∨
      (typ = 0x10 ∧ allowed = (x.role == 2) ∧ ∃ c r, i = .jrec c r) ∨
      (typ = 0x11 ∧ allowed = (x.role == 2 && x.mode == 1) ∧ ∃ l c n h p k b, i = .input l c n h p k b) ∨
      (typ = 0x12 ∧ allowed = (x.mode == 1 && (x.role == 1 || x.role == 3)) ∧ ∃ c d, i = .digest c d) ∨
      (typ = 0x20 ∧ allowed = (x.role == 2) ∧ ∃ l p, i = .snap l p) ∨
      (typ = 0x21 ∧ allowed = (x.role != 0) ∧ ∃ l p, i = .fetchReq l p) ∨
      (typ = 0x22 ∧ allowed = (x.role != 0 || s.m.sec.waiting.isSome) ∧ ∃ l p, i = .fetchData l p)) →
    (x.link.up = false → exec i s = .next s) ∧
    (x.link.up = true → allowed = false → ackFull s.m.violCount = false → Answers i s fun s' => s'.mem = s.mem ∧
      s'.pending = s.pending ∧ Logged (fun r => r.code = 0x0013 ∧ r.detail = BitVec.ofNat 32 typ) s s' ∧
      s'.m.twin = { x with link := { x.link with rxSeq := (x.link.rxSeq + 1) % 2 ^ 32 } } ∧ s'.m.h = s.m.h ∧
      s'.m.s = s.m.s ∧ s'.m.k = s.m.k ∧ s'.m.threads = s.m.threads)) ∧
  (∀ (s : State), Powered s → s.m.twin.link.up = true →
    let w := begin s
    let x := s.m.twin
    let l := x.link
    exec .idle s = .next (after s (onLink fun l => { l with rxSeq := (l.rxSeq + 1) % 2 ^ 32 })) ∧
    (∀ (ack : BitVec 32) (nak : Bool) (cr : List Nat) (jseqc : Nat),
      -- the frames after FSEQ `ack`, and the failed resends of the first of them
      let left := l.unacked.filter fun f => decide (2 ^ 31 ≤ (ack.toNat + 2 ^ 32 - f.1) % 2 ^ 32)
      let failed := if ack.toNat = l.acked then l.resends else 0
      Answers (.link ack nak cr jseqc) s fun s' =>
      s'.mem = s.mem ∧ s'.m.twin.link.acked = ack.toNat ∧
      (nak = false → s'.m.twin.link.resends = failed ∧ s'.m.twin.link.up = true ∧
        (l.waiting = [] → s'.m.twin.link.unacked = left ∧ s'.m.twin.link.waiting = [] ∧ ∀ k, k < 3 →
          tread 0 s'.m.twin.link.credits k = max (left.countP fun f => f.2 == k) (tread 0 l.credits k - cr.getD k 0))) ∧
      (nak = true → failed ≠ 8 → s'.m.twin.link.resends = failed + 1 ∧ s'.m.twin.retry = ackEvent x.retry) ∧
      (nak = true → failed = 8 → s'.m.twin.link.up = false ∧ s'.m.twin.link.credits = [] ∧
        (s.m.s.heldResp = [] → ∃ r, tget s'.m.elog s.m.errNext = some r ∧ r.code = 0x08)) ∧
      (x.role = 1 → s'.m.twin.peerJseq = max x.peerJseq jseqc ∧ ∀ j r, tget s.m.k.journal j = some r → j < jseqc →
        ∃ r', tget s'.m.k.journal j = some r' ∧ r'.twin = true ∧ r'.body = r.body)) ∧
    (∀ (t : Nat) (e g mt : BitVec 32) (j : Nat) (md r d : BitVec 2) (sv : Bool), x.role ≠ 0 →
      Answers (.cicada t e g j md r sv d mt) s fun s' =>
        (x.pairing = none → x.pairgen < g.toNat → s'.m.twin.role = 3 ∧ s'.m.twin.mode = 0) ∧
        (x.pairing ≠ none → s'.m.twin.pairgen = max x.pairgen g.toNat ∧ s'.m.twin.role = x.role) ∧
        (g.toNat ≤ x.pairgen → x.resume = false → s'.m.twin.role = x.role ∧ s'.m.twin.quiet = 0 ∧
          s'.m.twin.peerJseq = j ∧ s'.m.twin.peerRole = r.toNat ∧ s'.m.twin.peerGen = g.toNat)) ∧
    (∀ (t : Nat) (e : BitVec 32), x.role ≠ 0 → x.silent = false → Answers (.cut t e) s fun s' =>
      s'.m.twin.silent = true ∧ s'.m.twin.role = x.role ∧
      ∃ r, tget s'.m.alerts (s.m.alertNo % 256) = some r ∧ r.code = 0x0B) ∧
    (∀ (len : BitVec 4) (keys : Option (List Nat)), Answers (.ctrl len (.owner keys)) s fun s' => s'.mem = s.mem ∧
      s'.m.twin.peerOwner = keys) ∧
    (∀ (len : BitVec 4), x.role = 2 →
      Answers (.ctrl len .enter) s (fun s' => s'.m.twin.enter = true ∧ s'.m.twin.mode = x.mode) ∧
      Answers (.ctrl len (.mode 0)) s (fun s' => s'.m.twin.role = 3) ∧
      (∀ m, m ≠ 0 → Answers (.ctrl len (.mode m)) s fun s' => s'.m.twin.modeW = some (m, none) ∧
        s'.m.twin.mode = x.mode) ∧
      (∀ seq h, x.held.find? (fun h => h.ctx == .cmd seq) = some h → isRunning w seq = true → wordOver w seq = false →
        Answers (.ctrl len (.equal (.cmd seq))) s (Ended seq h.err)) ∧
      (∀ seq n, isRunning w seq = true → wordOver w seq = false → Answers (.ctrl len (.diverged (.cmd seq) n)) s fun s' =>
        Ended seq 0x72 s' ∧ s'.m.twin.diverged = x.diverged ++ [(n, .cmd seq)] ∧ s'.m.twin.verdicts = n ∧
        s'.m.twin.diverge = ackEvent x.diverge) ∧
      (∀ n f seq, x.diverged.find? (fun e => e.1 == n) = some (n, .cmd seq) → Answers (.ctrl len (.resolve n f)) s fun s' =>
        ∀ e, e ∈ s'.m.twin.diverged ↔ e ∈ x.diverged ∧ e.1 ≠ n)) ∧
    (∀ (cls : BitVec 6) (n : Nat) (rec : BitVec 1152), x.role = 2 →
      let j := (readRecord w n rec).1
      let r := (readRecord w n rec).2
      r.typ ≠ 0 → tget s.m.k.journal j = none → x.early = [] → Answers (.jrec cls [(n, rec)]) s fun s' =>
        (∃ y, tget s'.m.k.journal j = some y ∧ y.committed = true ∧ y.body = r.body ∧ y.typ = r.typ ∧ y.cmd = n) ∧
        s'.m.k.jseq = max s.m.k.jseq (j + 1) ∧
        (dormant w = true → s'.m.s = s.m.s ∧ s'.m.h.cmds = s.m.h.cmds) ∧
        (dormant w = false → x.applied ≤ j →
          (r.typ = 1 → ∃ q, (sessOf (begin s') (bits r.body 0 20)).queue = (sessOf w (bits r.body 0 20)).queue ++ [q] ∧
            q.jseq = j ∧ q.body = r.body ∧ q.tick = r.tick ∧ q.epoch = r.epoch) ∧
          (r.typ = 2 → x.pairing = none → opcodeInfo (bits (r.body >>> 256) 0 8) = some true →
            stateOf (begin s') n = 1 ∧ ∃ c, tget s'.m.h.cmds n = some c ∧ c.entry = bits (r.body >>> 256) 0 512 ∧
              c.jseq = j ∧ c.tick = r.tick))) ∧
    (∀ (len : BitVec 4) (cls : BitVec 6) (n : Nat) (lt : BitVec 16) (sp : BitVec 64) (ix : BitVec 32) (bs : List (BitVec 8)),
      x.role = 2 → x.mode = 1 →
      let tag := ((n * 2 ^ 16 + lt.toNat) * 2 ^ 64 + sp.toNat) * 2 ^ 32 + ix.toNat
      Answers (.input len cls n lt sp ix bs) s fun s' => s'.mem = s.mem ∧
        tread [] s'.m.twin.inputs tag = tread [] x.inputs tag ++ bs ∧
        ∀ k, k ≠ tag → tread [] s'.m.twin.inputs k = tread [] x.inputs k) ∧
    (∀ (ctx : Context) (d : BitVec 256) (seq : Nat) (h : Held), x.role = 1 → x.mode = 1 →
      (x.held = [] → Answers (.digest ctx d) s fun s' => (ctx, d.toNat) ∈ s'.m.twin.digests ∧ s'.mem = s.mem) ∧
      (x.held = [h] → h.ctx = ctx → ctx = .cmd seq → isRunning w seq = true → wordOver w seq = false →
        (h.digest = d.toNat → h.err ≠ 0x72 → Answers (.digest ctx d) s fun s' => Ended seq h.err s' ∧
          s'.m.twin.held = [] ∧ s'.m.twin.verdicts = x.verdicts) ∧
        (h.digest ≠ d.toNat → Answers (.digest ctx d) s fun s' => Ended seq 0x72 s' ∧ s'.m.twin.held = [] ∧
          s'.m.twin.verdicts = x.verdicts + 1 ∧ s'.m.twin.diverge = ackEvent x.diverge ∧
          s'.m.twin.diverged = x.diverged ++ [(x.verdicts + 1, ctx)]))) ∧
    (∀ (len : BitVec 4) (a : Nat) (bs : List (BitVec 8)), x.role = 2 →
      (x.mode ≠ 1 → isDevice w a = true → Answers (.snap len (.bytes a bs)) s fun s' =>
        ∀ b, storedByte s' b = if a ≤ b ∧ b < a + bs.length then bs.getD (b - a) 0 else storedByte s b) ∧
      (x.mode = 1 → Answers (.snap len (.bytes a bs)) s fun s' => s'.mem = s.mem) ∧
      (∀ kind gen epoch tick body ed ml, Answers (.snap len (.record kind gen epoch tick body ed ml)) s fun s' =>
        s'.mem = s.mem ∧
        s'.m.k.recs = s.m.k.recs ∧
        ((∃ r ∈ x.peerRecs, r.kind = kind ∧ gen < r.gen) → s'.m.twin.peerRecs = x.peerRecs) ∧
        ((∀ r ∈ x.peerRecs, r.kind = kind → r.gen ≤ gen) → ∀ r, r ∈ s'.m.twin.peerRecs ↔
          (r ∈ x.peerRecs ∧ r.kind ≠ kind) ∨
          r = { kind := kind, gen := gen, epoch := epoch, tick := tick, body := body, ed := ed, ml := ml })) ∧
      (∀ jcut cnts inv, Answers (.snap len (.header jcut cnts inv)) s fun s' => s'.m.k.snapSeq = s.m.k.snapSeq + 1 ∧
        (x.mode ≠ 1 → s'.m.twin.applied = jcut ∧ s'.m.k.jseq = max s.m.k.jseq jcut ∧
          tread 0 s'.m.s.invNext 0 = inv.1 ∧ tread 0 s'.m.s.invNext 1 = inv.2))) ∧
    (∀ (len : BitVec 4) (n : Nat), x.role ≠ 0 → 0 < n →
      let frames := max 1 (ceilDiv (ceilDiv n 32) 9)
      let q : GateReq := ⟨.nrxOut, 0, 0, 32 * ceilDiv n 32, .keeper 0, some (.frames 2 frames)⟩
      (admittedNow w q = true → l.waiting = [] → l.unacked.length + frames ≤ 256 →
        Answers (.fetchReq len (.unit n)) s fun s' => s'.mem = s.mem ∧
          s'.m.twin.link.txSeq = (l.txSeq + frames) % 2 ^ 32 ∧
          tread 0 s'.m.twin.link.credits 2 = tread 0 l.credits 2 + frames) ∧
      (admittedNow w q = true → l.unacked.length = 256 → Answers (.fetchReq len (.unit n)) s fun s' =>
        s'.m.twin.link.txSeq = l.txSeq ∧ s'.m.twin.link.waiting = l.waiting ++ List.replicate frames 2) ∧
      (admittedNow w q = false → Answers (.fetchReq len (.unit n)) s fun s' => s'.mem = s.mem ∧
        s'.m.twin.link.txSeq = l.txSeq ∧ s'.m.twin.link.credits = l.credits ∧ q ∈ s'.m.gateQ)) ∧
    ∀ (len : BitVec 4) (a : Nat) (bs : List (BitVec 8)) (sid : BitVec 20) (desc : BitVec 2048), x.role ≠ 0 →
      (Answers (.fetchData len (.unit a bs)) s fun s' => s'.mem = s.mem ∧
        ∀ old sn t, s.m.k.snaps = old ++ [sn] → (∀ y ∈ old, y.num ≠ sn.num) → tget sn.units (a / 4096) = some t →
          ∃ sn', s'.m.k.snaps = old ++ [sn'] ∧ ∀ b, b / 4096 = a / 4096 → tread 0 (tread [] sn'.units (a / 4096)) b =
            if a ≤ b ∧ b < a + bs.length then bs.getD (b - a) 0 else tread 0 t b) ∧
      (¬ sid.toNat ∈ x.fetch → ¬ sid.toNat ∈ s.m.s.regen → Answers (.fetchData len (.session sid desc bs)) s fun s' =>
        s'.mem = s.mem ∧ s'.m.s = s.m.s) ∧
      (sid.toNat ∈ x.fetch → blockHome w sid.toNat = true → Answers (.fetchData len (.session sid desc bs)) s fun s' =>
        (sessOf (begin s') sid.toNat).step = bits desc.toNat 320 64 ∧
        (sessOf (begin s') sid.toNat).queue = (sessOf w sid.toNat).queue ∧
        (sessOf (begin s') sid.toNat).state = (if (sessOf w sid.toNat).queue.isEmpty then 1 else 2) ∧
        ∀ k, k ∈ s'.m.twin.fetch ↔ k ∈ x.fetch ∧ k ≠ sid.toNat))

/-- The Neraxo link and pairing. The link trains where a cable is mated, trains on half its lanes once one has failed, in
training or in service, and is down without a cable, with what it held reclaimed; a damaged frame is answered with a NAK. TWIN_PAIR makes the module lead or follower, with a new generation; mode and
fence wait for a boundary, a takeover raises the generation at once; a resolved divergence is gone. A lead whose follower
is late, but not silent, goes SOLO; eight periods without a cicada make the twin silent. -/
def Obligations.TwinPairing : Prop :=
  (∀ (s : State), Powered s →
    let l := s.m.twin.link
    let gives (i : Instr) (n : Link) : Prop := Answers i s fun s' => s'.mem = s.mem ∧ s'.m.twin.link = n ∧
      { s'.m with twin := { s'.m.twin with link := l } } = s.m
    let gone : Link := { l with
      up := false, retrain := false, half := false, credits := [], unacked := [], waiting := [], resends := 0,
      reclaimed := l.reclaimed + (l.credits.map (·.2)).sum }
    gives (.twinPresent true) { l with present := true } ∧
    gives (.twinPresent false) { gone with present := false } ∧
    (∀ lanes16, (l.present = false ∨ l.up = true → exec (.neraxoLinkUp lanes16) s = .next s) ∧
      (l.present = true → l.up = false → l.retrain = true →
        gives (.neraxoLinkUp lanes16) { l with up := true, retrain := false, lanes8 := l.half || !lanes16 }) ∧
      (l.present = true → l.up = false → l.retrain = false →
        gives (.neraxoLinkUp lanes16) { present := true, up := true, lanes8 := l.half || !lanes16, naks := l.naks,
                                        half := l.half, reclaimed := l.reclaimed })) ∧
    (l.present = false → exec (.laneFailure true) s = .next s ∧ exec (.laneFailure false) s = .next s) ∧
    (l.present = true → gives (.laneFailure true) gone ∧
      gives (.laneFailure false) { l with up := false, retrain := l.up || l.retrain, half := true }) ∧
    (l.up = false → exec .neraxoFrameReject s = .next s) ∧
    (l.up = true → Answers .neraxoFrameReject s fun s' => s'.mem = s.mem ∧ s'.m.twin.link.naks = l.naks + 1 ∧
      s'.m.twin.link.rxSeq = l.rxSeq ∧ s'.m.twin.link.up = true)) ∧
  (∀ (s : State) (seq : Nat), Starts seq 0x20 s → Quiet seq s → operandsClean (cmdOf (begin s) seq) [(128, 3)] = true →
    let c := cmdOf (begin s) seq
    let mode := cmdBits c 0x10 0 2
    let x := s.m.twin
    (mode = 0 ∨ mode = 3 → Finishes seq 0x01 s (.twinPair seq) s) ∧
    (mode = 1 ∨ mode = 2 →
      (x.link.up = false ∨ x.mode = 1 ∨ x.pairing.isSome = true ∨ x.resume = true ∨ x.peerOwner ≠ s.m.sec.owned →
        Finishes seq 0x70 s (.twinPair seq) s) ∧
      (x.link.up = true → x.mode ≠ 1 → x.pairing = none → x.takeW = none → x.resume = false →
        x.peerOwner = s.m.sec.owned →
        (cmdBits c 0x10 2 1 = 0 → Answers (.twinPair seq) s fun s' => s'.mem = s.mem ∧ stateOf (begin s') seq = 2 ∧
          s'.m.twin.role = 1 ∧ s'.m.twin.mode = 0 ∧ s'.m.twin.pairgen = (x.pairgen + 1) % 2 ^ 32 ∧
          s'.m.twin.pairing = some (seq, mode, false) ∧
          s'.m.k.snapQ = s.m.k.snapQ ++ [{ full := true, ship := true }] ∧ s'.m.s = s.m.s) ∧
        (cmdBits c 0x10 2 1 = 1 → Answers (.twinPair seq) s fun s' => s'.m.twin.role = 2 ∧ s'.m.twin.mode = 0 ∧
          s'.m.twin.pairgen = (x.pairgen + 1) % 2 ^ 32 ∧ s'.m.s.sessions = [] ∧ s'.m.k.journal = [] ∧
          s'.m.h.plans = [])))) ∧
  (∀ (s : State) (seq op : Nat) (used : List (Nat × Nat)) (i : Instr), Powered s → mayStart (begin s) seq op = true →
    s.m.hw.tally = [] → (cmdOf (begin s) seq).ring = 31 → Quiet seq s →
    (i, op, used) ∈ [(.twinMode seq, 0x21, [(128, 2)]), (.twinFence seq, 0x22, []), (.twinTakeover seq, 0x23, [(128, 33)]),
      (.twinResolve seq, 0x24, [(128, 1), (160, 32)])] →
    let c := cmdOf (begin s) seq
    let x := s.m.twin
    let mode := cmdBits c 0x10 0 2
    let free := x.pairing = none ∧ x.modeW = none
    let may := x.role = 1 ∧ (mode = 0 ∨ x.link.up = true ∧ (mode = x.mode ∨ x.mode = 1 ∧ mode = 2))
    let takes := x.role = 2 ∧ x.pairing = none ∧ x.takeW = none ∧ cmdBits c 0x10 0 32 = x.pairgen ∧
      (x.silent = true ∨ x.peerRole = 3 ∨ cmdBits c 0x10 32 1 = 1)
    let n := cmdBits c 0x14 0 32
    let runs (y : Twin) : Prop := Answers i s fun s' => s'.mem = s.mem ∧ stateOf (begin s') seq = 2 ∧ s'.m.twin = y
    (operandsClean c used = false → Finishes seq 0x01 s i s) ∧
    (operandsClean c used = true →
      (op = 0x21 → (mode = 3 → Finishes seq 0x01 s i s) ∧
        (mode ≠ 3 → ¬ (may ∧ free) → Finishes seq 0x70 s i s) ∧
        (mode ≠ 3 → may ∧ free → runs { x with modeW := some (mode, some seq) })) ∧
      (op = 0x22 → ((x.role = 1 ∨ x.role = 2) ∧ x.fenceW = none → runs { x with fenceW := some seq }) ∧
        (¬ ((x.role = 1 ∨ x.role = 2) ∧ x.fenceW = none) → Finishes seq 0x70 s i s)) ∧
      (op = 0x23 → (takes → runs { x with pairgen := (x.pairgen + 1) % 2 ^ 32, takeW := some (seq, false) }) ∧
        (¬ takes → Finishes seq 0x70 s i s)) ∧
      (op = 0x24 →
        (x.role ≠ 1 ∨ x.link.up = false ∨ (∀ e ∈ x.diverged, e.1 ≠ n) → Finishes seq 0x70 s i s) ∧
        (x.role = 1 → x.link.up = true → (∃ e ∈ x.diverged, e.1 = n) → Answers i s fun s' => Ended seq 0 s' ∧
          ∀ e, e ∈ s'.m.twin.diverged ↔ e ∈ x.diverged ∧ e.1 ≠ n)))) ∧
  ∀ (s : State), Powered s →
    let x := s.m.twin
    let late := x.role = 1 ∧ x.mode = 1 ∧ x.silent = false ∧ ∃ h ∈ x.held, h.period + x.lagmax ≤ s.m.tick / 4096
    let alerts (code : Nat) (s' : State) : Prop := ∃ r, tget s'.m.alerts (s.m.alertNo % 256) = some r ∧
      r.code = BitVec.ofNat 16 code ∧ r.tick = s.m.tick
    (¬ late → exec .twinDegraded s = .next s) ∧
    (late → Answers .twinDegraded s fun s' => s'.m.twin.mode = 0 ∧ s'.m.twin.role = 1 ∧ s'.m.twin.held = [] ∧
      s'.m.det = x.detSaved ∧ alerts 0x09 s') ∧
    (x.quiet < 8 ∨ x.role = 0 → exec .twinSilent s = .next s) ∧
    (8 ≤ x.quiet → x.role ≠ 0 → x.silent = false → Answers .twinSilent s fun s' => s'.m.twin.silent = true ∧
      s'.m.twin.role = x.role ∧ alerts 0x0B s' ∧
      (x.role = 2 → ∀ t, (threadOf s t).binding ≠ .free → (threadOf s' t).stopped = true))

/-- Power and heat. Without power no command but the power stage's has an effect (log 44). A cut, an overvoltage and the
deassertion of PWR_EN end alike: once intake has resumed, every record taken in is committed and status memory goes to the
save slot that does not hold the newest image; what is volatile is gone, and the keeping store stays. Input within its
rating, and a transient that the input stage absorbs, end nothing. Sensors report what is beyond a threshold; a die shut
down by heat goes to PUPA with its units; HOLD_OK stands from 45 J on, and below 60 J an alert is raised. -/
def Obligations.PowerAndHeat : Prop :=
  (∀ (s : State) (i : Instr), s.m.power.off = true → powerStage i = false → exec i s = .next s) ∧
  (∀ (s : State) (i : Instr) (mv : Nat) (long : Bool) (p : Power),
    let p0 := s.m.power
    let k := s.m.k
    (i = .powerCut mv ∧ mv < 40000 ∧ p = { p0 with inputMv := mv }) ∨
      (i = .overvoltage mv long ∧ (80000 < mv ∨ 60000 < mv ∧ long = true) ∧
        p = { p0 with inputMv := mv, isolated := true }) ∨
      (i = .pwrEnDeassert ∧ p = { p0 with en := false }) →
    (p0.good = false → exec i s = .next { s with m := { s.m with power := { p with off := true } } }) ∧
    (p0.good = true → Answers i s fun s' =>
      let p1 := s'.m.power
      s'.pending = s.pending ∧ p1.off = true ∧ p1.good = false ∧ p1.holdOk = false ∧ p1.en = p.en ∧
      p1.inputMv = p.inputMv ∧ p1.isolated = p.isolated ∧
      (∀ x, x < 2 ^ 48 → storedByte s' x = 0) ∧ s'.m.threads = [] ∧ s'.m.s.sessions = [] ∧ s'.m.h = {} ∧ s'.m.x = {} ∧
      s'.m.epoch = s.m.epoch ∧ s'.m.molt = s.m.molt ∧ s'.m.sec.owned = s.m.sec.owned ∧
      s'.m.twin.pairgen = s.m.twin.pairgen ∧ s'.m.k.jseq = k.jseq ∧ s'.m.k.recs = k.recs ∧ s'.m.k.snaps = k.snaps ∧
      (s.m.sec.intake = false → s'.m.k.journal = k.journal ∧ s'.m.k.saves = k.saves) ∧
      (s.m.sec.intake = true → (∀ e ∈ s'.m.k.journal, e.2.committed = true) ∧
        s'.m.k.journal.map (fun e => (e.1, e.2.body)) = k.journal.map (fun e => (e.1, e.2.body)) ∧
        ∃ slot img, slot < 2 ∧ k.saveNew ≠ some slot ∧ s'.m.k.saveNew = some slot ∧ tget s'.m.k.saves slot = some img ∧
          (∀ n, n ≠ slot → tget s'.m.k.saves n = tget k.saves n) ∧ img.h = s.m.h ∧ img.sessions = s.m.s.sessions ∧
          img.tick = s.m.tick ∧ img.epoch = s.m.epoch ∧ img.role = s.m.twin.role ∧ img.mode = s.m.twin.mode))) ∧
  (∀ (s : State) (mv : Nat) (long : Bool),
    let p := s.m.power
    exec .pwrEnAssert s = .next { s with m := { s.m with power := { p with en := true } } } ∧
    (40000 ≤ mv → exec (.powerCut mv) s = .next s) ∧
    (mv ≤ 60000 ∨ (mv ≤ 80000 ∧ long = false) → exec (.overvoltage mv long) s = .next s) ∧
    (p.en = true ∧ 42000 ≤ mv ∧ mv ≤ 58000 →
      exec (.inputReturn mv) s = .next { s with m := { s.m with power := { p with inputMv := mv, isolated := false } } }) ∧
    (¬ (p.en = true ∧ 42000 ≤ mv ∧ mv ≤ 58000) → exec (.inputReturn mv) s = .next s)) ∧
  (∀ (s : State) (id : BitVec 4) (v : Nat) (i : Instr), Powered s →
    let k := id.toNat
    let outside : Prop := (k = 1 ∧ (v < 42000 ∨ 58000 < v)) ∨ (k = 2 ∧ 2000 < v) ∨ ((k = 3 ∨ k = 4) ∧ 1000 < v) ∨
      (k = 5 ∧ 950 < v) ∨ (k = 6 ∧ 450 < v) ∨ (k = 8 ∧ v < 150) ∨ (k = 9 ∧ v < 60)
    let critical (x : Nat) : Prop := (k = 1 ∧ (x < 40000 ∨ 60000 < x)) ∨ ((k = 3 ∨ k = 4) ∧ 1150 ≤ x) ∨
      (k = 5 ∧ 1100 < x) ∨ (k = 6 ∧ 500 < x) ∨ (k = 8 ∧ x < 100) ∨ (k = 9 ∧ x < 45)
    let old := tread 0 s.m.power.sensors k
    (i = .inputTransient v ∧ (v ≤ 60000 ∨ 80000 < v) ∨ i = .sensorUpdate id v ∧ (k = 0 ∨ 9 < k) → exec i s = .next s) ∧
    (i = .inputTransient v ∧ k = 1 ∧ 60000 < v ∧ v ≤ 80000 ∨ i = .sensorUpdate id v ∧ 1 ≤ k ∧ k ≤ 9 →
      Answers i s fun s' => s'.mem = s.mem ∧ s'.pending = s.pending ∧ tget s'.m.power.sensors k = some v ∧
        (∀ j, j ≠ k → (j ∈ s'.m.power.beyond ↔ j ∈ s.m.power.beyond)) ∧ (k ∈ s'.m.power.beyond ↔ outside) ∧
        (outside → ¬ k ∈ s.m.power.beyond → s'.m.power.events = s.m.power.events + 1) ∧
        (k ∈ s.m.power.beyond → critical v → ¬ critical old → s'.m.power.events = s.m.power.events + 1) ∧
        (¬ outside ∨ (k ∈ s.m.power.beyond ∧ (critical v → critical old)) → s'.m.power.events = s.m.power.events) ∧
        (outside → alertPin (begin s') = true) ∧ { s'.m with power := s.m.power } = s.m)) ∧
  (∀ (s : State) (d : BitVec 1), Powered s →
    let u := d.toNat
    let live (x : Nat) : Prop := unitState (begin s) x = .inService ∨ unitState (begin s) x = .draining
    (¬ live u → exec (.thermalShutdown d) s =
      .next { s with m := { s.m with power := { s.m.power with shut := tput s.m.power.shut u s.m.tick } } }) ∧
    (live u → Answers (.thermalShutdown d) s fun s' => UnitIs u .pupa (· ∈ unitsOfDie u) s s' ∧
      (∀ x ∈ unitsOfDie u, live x → unitState (begin s') x = .pupa) ∧ tget s'.m.power.shut u = some s.m.tick) ∧
    (live 0 → live 1 → Answers .coolantShutdown s fun s' => s'.m.power.off = false ∧
      ∀ x, x < 2 → unitState (begin s') x = .pupa ∧ tget s'.m.power.shut x = some s.m.tick)) ∧
  ∀ (s : State) (j : BitVec 8), Powered s →
    let p := s.m.power
    (p.good = false → exec (.holdupMeasure j) s = .next s ∧ exec .holdOk s = .next s) ∧
    (p.good = true →
      (Answers (.holdupMeasure j) s fun s' => s'.mem = s.mem ∧ s'.m.power.joules = j.toNat ∧
        s'.m.power.holdOk = decide (45 ≤ j.toNat) ∧ tget s'.m.power.sensors 9 = some j.toNat ∧
        (60 ≤ j.toNat → s'.m.alerts = s.m.alerts) ∧
        (j.toNat < 60 → ∃ r, tget s'.m.alerts (s.m.alertNo % 256) = some r ∧ r.code = 0x04 ∧
          r.arg = j.setWidth 32 ∧ r.tick = s.m.tick)) ∧
      Answers .holdOk s fun s' => s'.mem = s.mem ∧ s'.m.power.holdOk = true ∧ s'.m.power.joules = max p.joules 45 ∧
        { s'.m with power := p } = s.m)

/-- Start-up. PWR_GOOD needs PWR_EN and rated input; the tick starts at 0 and the epoch number is one higher. A part that
fails stops start-up with its code; without a sound image of a type the module is in recovery, and without a floor record it
waits. Otherwise intake resumes, failed channels in PUPA, and an unpaired module is ready. An image activated in recovery,
and a floor record supplied, let it go on. -/
def Obligations.StartUp : Prop :=
  (∀ (s : State) (x : BootTests),
    let p := s.m.power
    let w := begin s
    let i : Instr := .pwrGood x
    let ready := p.en = true ∧ p.good = false ∧ p.isolated = false ∧ 42000 ≤ p.inputMv ∧ p.inputMv ≤ 58000
    let stops (n code : Nat) (s' : State) : Prop :=
      s'.m.sec.bootPhase = n ∧ s'.m.sec.bootFail = code ∧ s'.m.sec.intake = false
    (¬ ready → exec i s = .next s) ∧
    (ready → Answers i s fun s' =>
      s'.pending = s.pending ∧ s'.m.power.good = true ∧ s'.m.power.off = false ∧ s'.m.tick = 0 ∧
      s'.m.power.joules = x.joules ∧ s'.m.power.holdOk = decide (45 ≤ x.joules) ∧
      (x.mram = false → stops 3 7 s' ∧ s'.m.epoch = s.m.epoch) ∧
      (x.mram = true → x.puf = false → stops 3 1 s' ∧ s'.m.epoch = s.m.epoch) ∧
      (x.mram = true → x.puf = true → s'.m.epoch = (s.m.epoch + 1) % 2 ^ 32 ∧
        s'.m.sec.deviceId = BitVec.ofNat 64 (ofBytes (deviceIdentity.take 8)) ∧
        (bootSlot w 1 = none ∨ bootSlot w 2 = none → s'.m.sec.bootPhase = 4 ∧ s'.m.sec.intake = false ∧
          inRecovery (begin s') = true ∧ s'.m.sec.waiting = some x) ∧
        (∀ a b, bootSlot w 1 = some a → bootSlot w 2 = some b → inRecovery (begin s') = false ∧
          tread 0 s'.m.sec.fwRun 1 = a ∧ tread 0 s'.m.sec.fwRun 2 = b ∧
          (x.owner = false → s'.m.sec.owned = none) ∧
          (x.floor = false → stops 5 5 s' ∧ s'.m.sec.waiting = some x) ∧
          (x.floor = true →
            (x.dies = 3 → stops 8 6 s') ∧
            (x.dies ≠ 3 → s'.m.sec.intake = true ∧ s'.m.sec.bootFail = 0 ∧
              (∀ c ∈ x.channels, c < 512 → unitState (begin s') (0x5000 + c) ≠ .inService) ∧
              (∀ d, d < 2 → x.dies.getLsbD d = true → unitState (begin s') d ≠ .inService) ∧
              (s.m.k.saveNew = none → s'.m.sec.bootPhase = 11 ∧ s'.m.twin.role = 0))))))) ∧
  (∀ (s : State) (comp : BitVec 16), Powered s →
    let c := s.m.sec
    let i : Instr := .activateFirmware comp
    let good (slot : Nat) : Prop := c.pldm = some (comp.toNat, slot) ∧
      (tread {} c.fwSlots (comp.toNat * 2 + slot)).verified = true
    ((∀ slot, ¬ good slot) → exec i s = .next { s with m := { s.m with sec := { c with status := .refused } } }) ∧
    (∀ slot, good slot →
      (c.waiting = none ∨ inRecovery (begin s) = false → exec i s = .next { s with m := { s.m with sec :=
        { c with status := .ok, pldm := none, fwPref := twrite 0 c.fwPref comp.toNat slot } } }) ∧
      (∀ x, c.waiting = some x → inRecovery (begin s) = true → x.mram = true → x.puf = true → Answers i s fun s' =>
        s'.m.sec.status = .ok ∧ s'.m.sec.pldm = none ∧ s'.m.tick = 0 ∧ s'.m.epoch = (s.m.epoch + 1) % 2 ^ 32 ∧
        tread 0 s'.m.sec.fwPref comp.toNat = slot))) ∧
  ∀ (s : State) (conn : Conn) (kind : BitVec 8) (gen : BitVec 64) (epoch : BitVec 32) (wtick : BitVec 64)
      (body : List Nat) (ed : BitVec 512) (ml : BitVec 26472), Powered s → connAnswers (begin s) conn = true →
    let c := s.m.sec
    let i : Instr := .recordSupply conn kind gen epoch wtick body ed ml
    let ok := recordValid kind.toNat gen.toNat epoch.toNat wtick.toNat body ed.toNat ml.toNat
    let old := ((recordOf (begin s) kind.toNat).map (·.gen)).getD 0
    (ok = false ∨ c.waiting = none ∨ 3 < kind.toNat → exec i s = .next { s with m := { s.m with sec := { c with
      pending := c.pending.filter fun e => e.1 != conn, status := .refused, answer := [] } } }) ∧
    (∀ x, ok = true → c.waiting = some x → kind.toNat ≤ 3 → inRecovery (begin s) = false →
      (gen.toNat ≤ old → Answers i s fun s' => s'.m.k.recs = s.m.k.recs ∧ s'.m.sec.waiting = some x ∧ s'.m.sec.status = .ok) ∧
      (old < gen.toNat → kind ≠ 2 → Answers i s fun s' => s'.m.sec.waiting = some x ∧ s'.m.sec.status = .ok ∧
        recordOf (begin s') kind.toNat = some ⟨kind.toNat, gen.toNat, epoch.toNat, wtick.toNat, body, ed.toNat, ml.toNat⟩) ∧
      (old < gen.toNat → kind = 2 → x.dies ≠ 3 → Answers i s fun s' => s'.m.sec.waiting = none ∧
        s'.m.sec.bootFail = 0 ∧ s'.m.sec.intake = true ∧ s'.m.sec.status = .ok ∧
        ∀ k, k < 3 → s'.m.sec.bootPhase ≠ 11 → tread 0 s'.m.sec.floors (1 + k) = body.getD k 0))

/-- Identity, attestation and ownership. A connection that does not answer changes nothing. A signed response may be
followed, on its connection, by PQ_SIG, once; any other request discards it. Measurements are the blocks of the table.
Enrolment of an unowned module needs a secured session on DOE, and of an owned one its owner's two signatures over the
record's GEN; it is written with GEN one higher and waits for the boundary. Slot 1 takes a chain of an owned module. IDE has
the link stream and eight selective ones. -/
def Obligations.AttestationAndOwnership : Prop :=
  (∀ (s : State) (c : Conn) (i : Instr), Powered s → connAnswers (begin s) c = false →
    (∃ r, i = .spdmRequest c r) ∨ (∃ n b, i = .measurements c n b) ∨ (∃ n, i = .challenge c n) ∨
      (∃ n bs, i = .setCertificate c n bs) ∨ i = .pqCert c ∨ i = .pqSig c ∨ (∃ a b e m, i = .ownerEnroll c a b e m) ∨
      (∃ e m, i = .ownerRelease c e m) ∨ (∃ n key, i = .ideKm n key ∧ c = ⟨true, 0⟩) ∨
      (∃ k g e t b x y, i = .recordSupply c k g e t b x y) →
    exec i s = .next s) ∧
  ∀ (s : State) (c : Conn), Powered s → connAnswers (begin s) c = true →
    let w := begin s
    let m := s.m
    let rest := m.sec.pending.filter fun e => e.1 != c
    let told (i : Instr) (st : ReqStatus) (bs : List Byte) (x : SecSt) : Prop :=
      exec i s = .next { s with m := { m with sec := { x with pending := rest, status := st, answer := bs } } }
    let refuses (i : Instr) : Prop := told i .refused [] m.sec
    let signs (i : Instr) (bs : List Byte) (x : SecSt) : Prop := Answers i s fun s' => s'.mem = s.mem ∧
      ∃ msg, s'.m = { m with free := m.free + 1, sec := { x with pending := rest ++ [(c, msg)], status := .ok,
                                                                 answer := bs ++ toBytes 64 (Config.sign 0 msg 0) } }
    (∀ (index : BitVec 8) (signed : Bool),
      let i := index.toNat
      let bs := if i = 0 then [8] else if i = 255 then (List.range 8).flatMap fun k => measurement w (k + 1)
        else measurement w i
      (8 < i → i < 255 → refuses (.measurements c index signed)) ∧
      (i ≤ 8 ∨ i = 255 → (signed = true → signs (.measurements c index signed) bs m.sec) ∧
        (signed = false → told (.measurements c index signed) .ok bs m.sec) ∧
        (i = 4 → bs = if m.decTab = [] then List.replicate 32 0 else sha256 m.sec.decOn) ∧ (i = 5 → bs = sha256 (recordBody w 2)) ∧
        (i = 6 → bs = if m.sec.owned = none then List.replicate 32 0 else sha256 (recordBody w 3)) ∧
        (i = 7 → bs = sha256 (geomRecord w)) ∧
        (i = 8 → bs = sha256 (toBytes 4 (bootReg w) ++ toBytes 4 m.molt ++ toBytes 4 m.epoch)))) ∧
    (∀ n : BitVec 4, (certChain w n.toNat = [] → refuses (.challenge c n)) ∧
      (certChain w n.toNat ≠ [] → signs (.challenge c n) (sha256 (certChain w n.toNat)) m.sec)) ∧
    told (.spdmRequest c .other) .ok [] m.sec ∧
    (∀ n, (certChain w n = [] → refuses (.spdmRequest c (.getCertificate n))) ∧
      (certChain w n ≠ [] → told (.spdmRequest c (.getCertificate n)) .ok (certChain w n) m.sec) ∧
      (n = 1 → certChain w n = m.sec.certSlot1) ∧ (1 < n → certChain w n = [])) ∧
    (∀ n, let c' : Conn := { c with session := n }
      (n = 0 ∨ c' ∈ m.sec.secured → refuses (.spdmRequest c (.keyExchange n))) ∧
      (n ≠ 0 → ¬ c' ∈ m.sec.secured → signs (.spdmRequest c (.keyExchange n)) []
        { m.sec with secured := m.sec.secured ++ [c'] }) ∧
      told (.spdmRequest c (.endSession n)) .ok [] { m.sec with secured := m.sec.secured.filter (· != c') }) ∧
    (∀ (n : BitVec 4) (bs : List Byte),
      let valid := ∃ o, m.sec.owned = some o ∧ n = 1 ∧
        Config.chainValid (Config.deviceKey 0) (ownerKeys o 0) (ofBytes bs) = true
      (¬ valid → refuses (.setCertificate c n bs)) ∧
      (valid → told (.setCertificate c n bs) .ok [] { m.sec with certSlot1 := bs })) ∧
    told (.pqCert c) .ok (toBytes 1952 (Config.deviceKey 1) ++ toBytes 3309 Config.pqCertificate) m.sec ∧
    ((∀ e ∈ m.sec.pending, e.1 ≠ c) → told (.pqSig c) .noTranscript [] m.sec) ∧
    (∀ msg, m.sec.pending.find? (fun e => e.1 == c) = some (c, msg) → Answers (.pqSig c) s fun s' => s'.mem = s.mem ∧
      s'.m = { m with free := m.free + 1, sec := { m.sec with pending := rest, status := .ok,
                                                              answer := toBytes 3309 (Config.sign 1 msg m.free) } }) ∧
    (∀ (ke : BitVec 256) (km : BitVec 15616) (ed : BitVec 512) (ml : BitVec 26472),
      let keys := toBytes 32 ke.toNat ++ toBytes 1952 km.toNat
      let told (code : Nat) (ks : List Byte) : List Byte := toBytes 1 code ++ ks ++ deviceIdentity ++ toBytes 8 (ownerGen w)
      let signed (code : Nat) (ks : List Byte) : Prop :=
        ∃ o, m.sec.owned = some o ∧ bothVerify (ownerKeys o) (told code ks) ed.toNat ml.toNat = true
      let may := m.sec.owned = none ∧ c.doe = true ∧ c.session ≠ 0 ∨ signed 0x10 keys
      let changes (i : Instr) (o : Option (List Nat)) : Prop := Answers i s fun s' => s'.mem = s.mem ∧
        s'.m.sec = { m.sec with pending := rest, status := .ok, answer := [], ownerW := some o } ∧
        (∃ r, recordOf (begin s') 3 = some r ∧ r.gen = ownerGen w + 1 ∧ r.body = o.getD []) ∧
        ∀ r, r.kind ≠ 3 → (r ∈ s'.m.k.recs ↔ r ∈ m.k.recs)
      (may → changes (.ownerEnroll c ke km ed ml) (some [ke.toNat, km.toNat])) ∧
      (¬ may → refuses (.ownerEnroll c ke km ed ml)) ∧
      (signed 0x11 [] → changes (.ownerRelease c ed ml) none) ∧
      (¬ signed 0x11 [] → refuses (.ownerRelease c ed ml))) ∧
    ∀ (n : BitVec 4) (key : BitVec 256), c = ⟨true, 0⟩ → (8 < n.toNat → refuses (.ideKm n key)) ∧
      (n.toNat ≤ 8 → told (.ideKm n key) .ok [] { m.sec with ideKeys := tput m.sec.ideKeys n.toNat key.toNat })

/-- Firmware updates and the PCIe endpoint. An update goes to the slot that is not running, which stays unmarked until its
image has been verified. PERST# holds the endpoint in reset; the link trains at Gen4 to Gen6, x8 or x16. Configuration
requests are retried until step 4 ends. BAR4 reaches device memory through segments; anything else is HOST_ACCESS, memory
of a fenced die STALE_UNIT, a write to a session table PROT_WRITE. A
function level reset fails the function's commands and zeroes its counts; sessions and the journal stay. -/
def Obligations.UpdatesAndTheEndpoint : Prop :=
  (∀ (s : State) (comp : BitVec 16) (off : Nat) (bs : List (BitVec 8)), Powered s →
    let x := s.m.sec
    let t := comp.toNat
    let slot := 1 - tread 0 x.fwRun t
    let k := t * 2 + slot
    let held := (tread {} x.fwSlots k).bytes
    let old := if x.pldm = none then [] else held
    let refuses (i : Instr) (y : SecSt) : Prop :=
      exec i s = .next { s with m := { s.m with sec := { y with status := .refused } } }
    let takes := s.m.power.good = true ∧ (t = 1 ∨ t = 2 ∧ inRecovery (begin s) = false) ∧
      (x.pldm = none ∨ ∃ n, x.pldm = some (t, n)) ∧ bs.length ≤ 4096 ∧ off = old.length
    let i : Instr := .firmwareTransfer comp off bs
    (¬ takes → refuses i x) ∧
    (takes → Answers i s fun s' => s'.mem = s.mem ∧ { s'.m with sec := x } = s.m ∧ s'.m.sec.status = .ok ∧
      s'.m.sec.pldm = some (t, slot) ∧ s'.m.sec.fwRun = x.fwRun ∧
      tget s'.m.sec.fwSlots k = some { bytes := old ++ bs } ∧
      (∀ n, n ≠ k → tget s'.m.sec.fwSlots n = tget x.fwSlots n) ∧
      tread 0 s'.m.sec.fwPref t ≠ slot) ∧
    (∀ n, x.pldm = some (t, n) →
      let y := tread {} x.fwSlots (t * 2 + n)
      (imageFault (begin s) t y.bytes = 0 → exec (.verifyComplete comp) s = .next { s with m := { s.m with sec :=
        { x with status := .ok, fwSlots := tput x.fwSlots (t * 2 + n) { y with verified := true } } } }) ∧
      (imageFault (begin s) t y.bytes ≠ 0 → refuses (.verifyComplete comp) { x with pldm := none })) ∧
    ((∀ n, x.pldm ≠ some (t, n)) → refuses (.verifyComplete comp) x)) ∧
  (∀ (s : State), Powered s →
    let h := s.m.h
    let p := s.m.power
    let gives (i : Instr) (p' : Power) (h' : HostSt) : Prop :=
      exec i s = .next { s with m := { s.m with power := p', h := h' } }
    gives (.perst true) { p with perst := true }
      { h with linkUp := false, bar4 := 2 ^ 30, cpl := 0, readBack := [],
               funcs := h.funcs.map fun e => (e.1, { e.2 with ats := false }) } ∧
    gives (.perst false) { p with perst := false } h ∧
    (∀ b, gives (.refclkLoss b) { p with refclk := b } h) ∧
    (∀ (g : BitVec 3) (n : BitVec 5),
      let trains := p.perst = false ∧ p.good = true ∧ 4 ≤ g.toNat ∧ g.toNat ≤ 6 ∧ (n.toNat = 8 ∨ n.toNat = 16)
      (trains → gives (.pcieLinkTraining g n) p { h with linkUp := true, linkGen := g.toNat, linkWidth := n.toNat }) ∧
      (¬ trains → exec (.pcieLinkTraining g n) s = .next s)) ∧
    (∀ (fn : BitVec 5) (a : Option Bool) (b : Bool),
      let hears := p.perst = false ∧ h.linkUp = true ∧ (inRecovery (begin s) = false ∨ fn = 0)
      let ready := 4 < s.m.sec.bootPhase ∨ inRecovery (begin s) = true
      (¬ hears → exec (.configurationRequest fn a) s = .next s) ∧
      (hears → ¬ ready → gives (.configurationRequest fn a) p { h with cpl := 2 }) ∧
      (hears → ready → gives (.configurationRequest fn none) p { h with cpl := 1 } ∧
        Answers (.configurationRequest fn (some b)) s fun s' => s'.m.h.cpl = 1 ∧
          tread {} s'.m.h.funcs fn.toNat = { tread {} h.funcs fn.toNat with ats := b } ∧
          (∀ n, n ≠ fn.toNat → tread {} s'.m.h.funcs n = tread {} h.funcs n) ∧
          { s'.m with h := { s'.m.h with cpl := h.cpl, funcs := h.funcs } } = s.m)) ∧
    (∀ size, (size ∈ (List.range 11).map (fun i => 2 ^ (30 + i)) → gives (.bar4Resize size) p { h with bar4 := size }) ∧
      (¬ size ∈ (List.range 11).map (fun i => 2 ^ (30 + i)) → exec (.bar4Resize size) s = .next s))) ∧
  (∀ (s : State) (write : Bool) (off n : Nat) (bs : List (BitVec 8)), Powered s → ackFull s.m.violCount = false →
    let w := begin s
    let h := s.m.h
    let i : Instr := .bar4Access write off n bs
    let live := h.linkUp = true ∧ s.m.power.perst = false
    let seg := h.bar4 / 16
    (¬ live → exec i s = .next s) ∧
    (live → inRecovery w = true ∨ (∃ k, k < n ∧ bar4Addr w (off + k) = none) → Answers i s (HostLogged 0x0012 0 off write
      { s with m := { s.m with h := { h with
          cpl := 1, readBack := if write then h.readBack else List.replicate n 0 } } })) ∧
    (∀ x a, bar4Addr w x = some a ↔ x < h.bar4 ∧ a = (tread 0 h.wins (x / seg)).toNat % 2 ^ 48 + x % seg ∧
      (tread 0 h.wins (x / seg)).getLsbD 63 = true ∧ seg ∣ (tread 0 h.wins (x / seg)).toNat % 2 ^ 48 ∧
      (isDevice w a = true ∨ fencedAddr w a = true)) ∧
    ∀ a, live → inRecovery w = false → (∀ k, k < n → bar4Addr w (off + k) = some (a + k)) →
      let denied (code detail : Nat) : Prop := Answers i s (HostLogged code detail off write
        { s with m := { s.m with h := { h with
            cpl := 1, readBack := if write then h.readBack else List.replicate n 0 } } })
      (∀ d, ((List.range n).findSome? fun k => fencedDie w (a + k)) = some d → denied 0x0011 d) ∧
      ((∀ k, k < n → fencedAddr w (a + k) = false) →
        (write = true → (∃ k, k < n ∧ inSessTable w (a + k) = true) → denied 0x0002 0) ∧
        (write = true → bs.length = n → (∀ k, k < n → inSessTable w (a + k) = false) → KeeperPaid (2 ^ 41) s →
          Answers i s fun s' =>
          s'.pending = s.pending ∧ s'.m.h = { h with cpl := 1 } ∧
          ∀ x, storedByte s' x = if a ≤ x ∧ x < a + n then bs.getD (x - a) 0 else storedByte s x) ∧
        (write = false → Sound s → KeeperPaid (2 ^ 41) s → Answers i s fun s' =>
          s'.pending = s.pending ∧ s'.mem = s.mem ∧ s'.m.h = { h with cpl := 1, readBack := s'.m.h.readBack } ∧
          s'.m.h.readBack.length = n ∧
          ∀ k, k < n → beyondProgress w (a + k) = false → s'.m.h.readBack[k]? = some (byteAt w (a + k))) ∧
        (write = false → (∃ k, k < n ∧ granBad w ((a + k) / 32) = true) → KeeperPaid (2 ^ 41) s → Answers i s fun s' =>
          s'.mem = s.mem ∧ s'.m.h.cpl = 3 ∧ s'.m.h.readBack = []))) ∧
  ∀ (s : State) (fn : BitVec 5), Powered s →
    let f := fn.toNat
    Answers (.functionLevelReset fn) s fun s' =>
      s'.pending = s.pending ∧ s'.m.k.journal = s.m.k.journal ∧ s'.m.k.jseq = s.m.k.jseq ∧
      (∀ seq c, tget s.m.h.cmds seq = some c → c.fn = f → isOver (begin s) seq = false →
        (∀ o ∈ s'.m.hw.movers, (∀ x ∈ o.2.queue, x.cmd ≠ seq) ∧ ∀ x, o.2.run = some x → x.entry.cmd ≠ seq) ∧
        (wordOver (begin s) seq = false → tread 0 s.m.h.swOwn (swordOf c / 1024) ≠ f → Ended seq 0x04 s')) ∧
      (∀ n, tread 0 s.m.h.swOwn (n / 1024) = f → tread {} s'.m.h.sw n = {}) ∧
      (∀ r, r < 32 → cmdRingFn (begin s) r = f → ringCount (begin s') r = 0 ∧ ringCount (begin s') (64 + r) = 0 ∧
        tread {} s'.m.hifCtr r = {}) ∧
      (∀ r, r < 64 → evRingFn (begin s) r = f → tread {} s'.m.hifCtr (32 + r) = {} ∧
        tget s'.m.h.respDrop r = some s.m.k.jseq ∧
        ∀ k ∈ ([128, 192, 256, 320, 512] : List Nat), ringCount (begin s') (k + r) = 0) ∧
      (∀ r, r < 32 → cmdRingFn (begin s) r ≠ f → ringCount (begin s') r = ringCount (begin s) r ∧
        ringCount (begin s') (64 + r) = ringCount (begin s) (64 + r)) ∧
      (f ≠ 0 → s'.m.ringFn = s.m.ringFn ∧ s'.m.h.swOwn = s.m.h.swOwn ∧ s'.m.h.wins = s.m.h.wins) ∧
      (f = 0 → s'.m.ringFn = [] ∧ s'.m.h.swOwn = [] ∧ s'.m.h.wins = [] ∧ s'.m.h.routes = [] ∧
        ∀ n, tread {} s'.m.h.funcs n = { ats := (tread {} s.m.h.funcs n).ats }) ∧
      ∀ sid, (sessOf (begin s') sid).step = (sessOf (begin s) sid).step ∧
        (sessOf (begin s') sid).queue = (sessOf (begin s) sid).queue ∧
        (sessOf (begin s') sid).block = (sessOf (begin s) sid).block

/-- The module after reset: no command waits, device memory lists nothing, and every register holds the reset value of its
table. A kept value reads zero until its step of start-up. Registers without a stated reset value read zero (the model's
choice, log 3); device memory reads zero (log 4). -/
def Obligations.Reset : Prop :=
  let s := State.reset
  let w := begin s
  s.pending = [] ∧ s.mem = [] ∧ memWf s.mem = true ∧ (∀ a, storedByte s a = 0) ∧ s.m.tick = 0 ∧ Powered s ∧
  (∀ t : Tid, let th := threadOf s t
    tsrOf (vpOf w t.vp.toNat) th = 1 ∧ th.bank = [] ∧ th.groups = [] ∧ th.sbuf = [] ∧ th.step = 0 ∧ th.lc0 = 0 ∧ th.lc1 = 0 ∧
    th.eaddr = 0 ∧ th.spilled = 0 ∧ th.tmcmp0 = 0 ∧ th.tmcmp1 = 0 ∧ th.gblim = 0 ∧ th.binding = .free ∧
    (∀ r, getG th r = 0) ∧ (∀ r, getV th r = 0) ∧ (∀ r, getP th r = 0) ∧ th.vln = 0 ∧ th.pc = 0) ∧
  readReg w 0 = 1 ∧ readReg w 4 = 0x76160001 ∧
  (∀ o, o < 0x80 → readKeep w o = 0) ∧ (∀ o, o < 0x20 → readTwin w o = 0) ∧ (∀ o, readHif w 0 o = 0) ∧
  (∀ o, o < 0x600 → readHifCfg w o = 0) ∧ (∀ d o, d < 2 → readCnt (tread {} s.m.cnt d) o = 0) ∧
  (∀ d o, d < 2 → readTrc (tread {} s.m.k.trc d) o = if o = 4 then 256 else 0) ∧
  (∀ c, c < 64 → tread {} s.m.active c = {} ∧ tread {} s.m.staging c = {}) ∧
  ({} : Grant).surplus = true ∧ ({} : Grant).hold = false ∧ ({} : Grant).amounts = [] ∧
  s.m.h.bar4 = 2 ^ 30 ∧ s.m.h.linkUp = false ∧ s.m.vlog = [] ∧ s.m.elog = [] ∧ s.m.alerts = []
end

