-- ==== Sys2Proof/Laws/Table.lean ====
section
/-! SUPPORT. Tables and memory: reading after writing, and the canonical form that every update keeps. -/

namespace Sys2Proof.Machine
open Sys2Proof

variable {α : Type}

theorem tget_tput_same (t : Table α) (k : Nat) (v : α) : tget (tput t k v) k = some v := by
  induction t with
  | nil => simp [tput, tget]
  | cons e r ih =>
    obtain ⟨k', v'⟩ := e
    by_cases h1 : k < k'
    · simp [tput, h1, tget]
    · by_cases h2 : k = k'
      · simp [tput, h2, tget]
      · simp [tput, h1, h2, tget, ih, Ne.symm h2]

theorem tget_tput_ne (t : Table α) {k j : Nat} (v : α) (h : j ≠ k) : tget (tput t k v) j = tget t j := by
  induction t with
  | nil => simp [tput, tget, Ne.symm h]
  | cons e r ih =>
    obtain ⟨k', v'⟩ := e
    by_cases h1 : k < k'
    · simp [tput, h1, tget, Ne.symm h]
    · by_cases h2 : k = k'
      · subst h2; simp [tput, tget, Ne.symm h]
      · simp [tput, h1, h2, tget, ih]

theorem tget_tdel_same (t : Table α) (k : Nat) : tget (tdel t k) k = none := by
  induction t with
  | nil => simp [tdel, tget]
  | cons e r ih =>
    obtain ⟨k', v'⟩ := e
    unfold tdel at ih ⊢
    by_cases h : k' = k
    · simp [h, ih]
    · simp [h, tget, ih]

theorem tget_tdel_ne (t : Table α) {k j : Nat} (h : j ≠ k) : tget (tdel t k) j = tget t j := by
  induction t with
  | nil => simp [tdel, tget]
  | cons e r ih =>
    obtain ⟨k', v'⟩ := e
    unfold tdel at ih ⊢
    by_cases h1 : k' = k
    · simp [h1, ih, tget, Ne.symm h]
    · simp [h1, tget, ih]

@[simp] theorem tread_tput_same (d : α) (t : Table α) (k : Nat) (v : α) : tread d (tput t k v) k = v := by
  simp [tread, tget_tput_same]

theorem tread_tput_ne (d : α) (t : Table α) {k j : Nat} (v : α) (h : j ≠ k) :
    tread d (tput t k v) j = tread d t j := by
  simp [tread, tget_tput_ne t v h]

/-- A key reads as what was written last. -/
@[simp] theorem tread_twrite_same [DecidableEq α] (d : α) (t : Table α) (k : Nat) (v : α) :
    tread d (twrite d t k v) k = v := by
  unfold twrite
  split
  · next h => simp [tread, tget_tdel_same, h]
  · simp

/-- A write leaves every other key alone. -/
theorem tread_twrite_ne [DecidableEq α] (d : α) (t : Table α) {k j : Nat} (v : α) (h : j ≠ k) :
    tread d (twrite d t k v) j = tread d t j := by
  unfold twrite
  split
  · simp [tread, tget_tdel_ne t h]
  · exact tread_tput_ne d t v h

/-- Every key read after a write. -/
theorem tread_twrite [DecidableEq α] (d : α) (t : Table α) (k j : Nat) (v : α) :
    tread d (twrite d t k v) j = if j = k then v else tread d t j := by
  by_cases h : j = k
  · simp [h]
  · simp [h, tread_twrite_ne d t v h]

/-! ### The canonical form -/

/-- The form, said of each entry: no default, and keys rise strictly. -/
theorem twf_iff [DecidableEq α] (d : α) (t : Table α) :
    twf d t = true ↔ (∀ e ∈ t, e.2 ≠ d) ∧ t.Pairwise (fun a b => a.1 < b.1) := by
  induction t with
  | nil => simp [twf]
  | cons e r ih =>
    obtain ⟨k, v⟩ := e
    cases r with
    | nil => simp [twf]
    | cons e' r' =>
      obtain ⟨k', v'⟩ := e'
      simp only [twf, Bool.and_eq_true, decide_eq_true_eq, ih]
      constructor
      · rintro ⟨⟨h1, h2⟩, h3, h4⟩
        refine ⟨by simpa [h1] using h3, List.pairwise_cons.2 ⟨?_, h4⟩⟩
        intro b hb
        rcases List.mem_cons.1 hb with rfl | hb
        · exact h2
        · exact Nat.lt_trans h2 ((List.pairwise_cons.1 h4).1 b hb)
      · rintro ⟨h1, h2⟩
        have h2' := List.pairwise_cons.1 h2
        exact ⟨⟨h1 (k, v) (List.mem_cons_self ..), h2'.1 (k', v') (List.mem_cons_self ..)⟩,
          fun e he => h1 e (List.mem_cons_of_mem _ he), h2'.2⟩

theorem mem_tput {t : Table α} {k : Nat} {v : α} {e : Nat × α} (h : e ∈ tput t k v) : e = (k, v) ∨ e ∈ t := by
  induction t with
  | nil => simpa [tput] using h
  | cons x r ih =>
    obtain ⟨k', v'⟩ := x
    by_cases h1 : k < k'
    · simpa [tput, h1] using h
    · by_cases h2 : k = k'
      · subst h2
        simp only [tput, Nat.lt_irrefl, if_false, if_true, List.mem_cons] at h ⊢
        rcases h with h | h
        · exact .inl h
        · exact .inr (.inr h)
      · simp only [tput, h1, h2, if_false, List.mem_cons] at h ⊢
        rcases h with h | h
        · exact .inr (.inl h)
        · rcases ih h with h | h
          · exact .inl h
          · exact .inr (.inr h)

theorem pairwise_tput {t : Table α} (k : Nat) (v : α) (h : t.Pairwise (fun a b => a.1 < b.1)) :
    (tput t k v).Pairwise (fun a b => a.1 < b.1) := by
  induction t with
  | nil => simp [tput]
  | cons x r ih =>
    obtain ⟨k', v'⟩ := x
    have hc := List.pairwise_cons.1 h
    by_cases h1 : k < k'
    · simp only [tput, h1, if_true]
      refine List.pairwise_cons.2 ⟨?_, h⟩
      intro b hb
      rcases List.mem_cons.1 hb with rfl | hb
      · exact h1
      · exact Nat.lt_trans h1 (hc.1 b hb)
    · by_cases h2 : k = k'
      · subst h2
        simp only [tput, Nat.lt_irrefl, if_false, if_true]
        exact List.pairwise_cons.2 ⟨hc.1, hc.2⟩
      · simp only [tput, h1, h2, if_false]
        refine List.pairwise_cons.2 ⟨?_, ih hc.2⟩
        intro b hb
        rcases mem_tput hb with rfl | hb
        · show k' < k; omega
        · exact hc.1 b hb

/-- A write keeps the canonical form. -/
theorem twf_twrite [DecidableEq α] (d : α) (t : Table α) (k : Nat) (v : α) (h : twf d t = true) :
    twf d (twrite d t k v) = true := by
  rw [twf_iff] at h ⊢
  unfold twrite
  split
  · exact ⟨fun e he => h.1 e ((List.mem_filter.1 he).1), h.2.filter _⟩
  · next hv =>
    refine ⟨fun e he => ?_, pairwise_tput k v h.2⟩
    rcases mem_tput he with rfl | he
    · exact hv
    · exact h.1 e he

theorem twf_filter [DecidableEq α] (d : α) (t : Table α) (p : Nat × α → Bool) (h : twf d t = true) :
    twf d (t.filter p) = true := by
  rw [twf_iff] at h ⊢
  exact ⟨fun e he => h.1 e ((List.mem_filter.1 he).1), h.2.filter _⟩

/-- What a command wrote enters memory in the canonical form. -/
theorem memWf_memApply (m wr : List Host.Cell) (h : memWf m = true) : memWf (memApply m wr) = true := by
  induction wr with
  | nil => exact h
  | cons c r ih => exact twf_twrite 0 _ _ _ ih

@[simp] theorem memApply_nil (m : List Host.Cell) : memApply m [] = m := rfl

@[simp] theorem memApply_cons (m wr : List Host.Cell) (c : Host.Cell) :
    memApply m (c :: wr) = memPut (memApply m wr) c.1 c.2 := rfl

/-- A byte read after one write. -/
theorem memByte_memPut (m : List Host.Cell) (a j : Nat) (b : Byte) :
    memByte (memPut m a b) j = if j = a then b else memByte m j := tread_twrite 0 m a j b

/-- A byte of memory after a command's writes: the newest write of it, else what stood there. -/
theorem memByte_memApply (m wr : List Host.Cell) (a : Nat) :
    memByte (memApply m wr) a = (tget wr a).getD (memByte m a) := by
  induction wr with
  | nil => simp [tget]
  | cons c r ih =>
    obtain ⟨k, b⟩ := c
    by_cases h : a = k
    · simp [h, memByte_memPut, tget]
    · simp [h, memByte_memPut, tget, ih, Ne.symm h]

theorem tread_filter_key (d : α) (t : Table α) (p : Nat → Bool) (a : Nat) :
    tread d (t.filter fun c => p c.1) a = if p a then tread d t a else d := by
  induction t with
  | nil => simp [tread, tget]
  | cons e r ih =>
    obtain ⟨k, v⟩ := e
    unfold tread at ih ⊢
    by_cases hk : k = a
    · subst hk
      by_cases hp : p k
      · simp [hp, tget]
      · simp only [List.filter_cons, hp, Bool.false_eq_true, if_false]
        simpa [hp] using ih
    · by_cases hp : p k
      · simp [hp, tget, hk, ih]
      · simp [hp, tget, hk, ih]

end Sys2Proof.Machine
end

