-- ==== Sys2Proof/Laws/State.lean ====
section
/-! SUPPORT. What each update of the machine leaves in each of its parts. -/

namespace Sys2Proof.Machine
open Sys2Proof

@[simp] theorem onM_m (f : Module → Module) (w : Mach) : (onM f w).m = f w.m := rfl
@[simp] theorem onM_mem (f : Module → Module) (w : Mach) : (onM f w).mem = w.mem := rfl
@[simp] theorem onM_gone (f : Module → Module) (w : Mach) : (onM f w).gone = w.gone := rfl
@[simp] theorem onM_wr (f : Module → Module) (w : Mach) : (onM f w).wr = w.wr := rfl
@[simp] theorem onM_asking (f : Module → Module) (w : Mach) : (onM f w).asking = w.asking := rfl
@[simp] theorem onM_asked (f : Module → Module) (w : Mach) : (onM f w).asked = w.asked := rfl
@[simp] theorem onH_m (f : HostSt → HostSt) (w : Mach) : (onH f w).m = { w.m with h := f w.m.h } := rfl
@[simp] theorem onH_mem (f : HostSt → HostSt) (w : Mach) : (onH f w).mem = w.mem := rfl
@[simp] theorem onH_gone (f : HostSt → HostSt) (w : Mach) : (onH f w).gone = w.gone := rfl
@[simp] theorem onH_wr (f : HostSt → HostSt) (w : Mach) : (onH f w).wr = w.wr := rfl
@[simp] theorem onH_asking (f : HostSt → HostSt) (w : Mach) : (onH f w).asking = w.asking := rfl
@[simp] theorem onH_asked (f : HostSt → HostSt) (w : Mach) : (onH f w).asked = w.asked := rfl
@[simp] theorem onS_m (f : SessSt → SessSt) (w : Mach) : (onS f w).m = { w.m with s := f w.m.s } := rfl
@[simp] theorem onS_mem (f : SessSt → SessSt) (w : Mach) : (onS f w).mem = w.mem := rfl
@[simp] theorem onS_gone (f : SessSt → SessSt) (w : Mach) : (onS f w).gone = w.gone := rfl
@[simp] theorem onS_wr (f : SessSt → SessSt) (w : Mach) : (onS f w).wr = w.wr := rfl
@[simp] theorem onS_asking (f : SessSt → SessSt) (w : Mach) : (onS f w).asking = w.asking := rfl
@[simp] theorem onS_asked (f : SessSt → SessSt) (w : Mach) : (onS f w).asked = w.asked := rfl
@[simp] theorem onHw_m (f : HwSt → HwSt) (w : Mach) : (onHw f w).m = { w.m with hw := f w.m.hw } := rfl
@[simp] theorem onHw_mem (f : HwSt → HwSt) (w : Mach) : (onHw f w).mem = w.mem := rfl
@[simp] theorem onHw_gone (f : HwSt → HwSt) (w : Mach) : (onHw f w).gone = w.gone := rfl
@[simp] theorem onHw_wr (f : HwSt → HwSt) (w : Mach) : (onHw f w).wr = w.wr := rfl
@[simp] theorem onHw_asking (f : HwSt → HwSt) (w : Mach) : (onHw f w).asking = w.asking := rfl
@[simp] theorem onHw_asked (f : HwSt → HwSt) (w : Mach) : (onHw f w).asked = w.asked := rfl
@[simp] theorem onX_m (f : XlatSt → XlatSt) (w : Mach) : (onX f w).m = { w.m with x := f w.m.x } := rfl
@[simp] theorem onX_mem (f : XlatSt → XlatSt) (w : Mach) : (onX f w).mem = w.mem := rfl
@[simp] theorem onX_gone (f : XlatSt → XlatSt) (w : Mach) : (onX f w).gone = w.gone := rfl
@[simp] theorem onX_wr (f : XlatSt → XlatSt) (w : Mach) : (onX f w).wr = w.wr := rfl
@[simp] theorem onX_asking (f : XlatSt → XlatSt) (w : Mach) : (onX f w).asking = w.asking := rfl
@[simp] theorem onX_asked (f : XlatSt → XlatSt) (w : Mach) : (onX f w).asked = w.asked := rfl
@[simp] theorem onK_m (f : KeepSt → KeepSt) (w : Mach) : (onK f w).m = { w.m with k := f w.m.k } := rfl
@[simp] theorem onK_mem (f : KeepSt → KeepSt) (w : Mach) : (onK f w).mem = w.mem := rfl
@[simp] theorem onK_gone (f : KeepSt → KeepSt) (w : Mach) : (onK f w).gone = w.gone := rfl
@[simp] theorem onK_wr (f : KeepSt → KeepSt) (w : Mach) : (onK f w).wr = w.wr := rfl
@[simp] theorem onK_asking (f : KeepSt → KeepSt) (w : Mach) : (onK f w).asking = w.asking := rfl
@[simp] theorem onK_asked (f : KeepSt → KeepSt) (w : Mach) : (onK f w).asked = w.asked := rfl
@[simp] theorem onSec_m (f : SecSt → SecSt) (w : Mach) : (onSec f w).m = { w.m with sec := f w.m.sec } := rfl
@[simp] theorem onSec_mem (f : SecSt → SecSt) (w : Mach) : (onSec f w).mem = w.mem := rfl
@[simp] theorem onSec_gone (f : SecSt → SecSt) (w : Mach) : (onSec f w).gone = w.gone := rfl
@[simp] theorem onSec_wr (f : SecSt → SecSt) (w : Mach) : (onSec f w).wr = w.wr := rfl
@[simp] theorem onSec_asking (f : SecSt → SecSt) (w : Mach) : (onSec f w).asking = w.asking := rfl
@[simp] theorem onSec_asked (f : SecSt → SecSt) (w : Mach) : (onSec f w).asked = w.asked := rfl
@[simp] theorem onTwin_m (f : Twin → Twin) (w : Mach) : (onTwin f w).m = { w.m with twin := f w.m.twin } := rfl
@[simp] theorem onTwin_mem (f : Twin → Twin) (w : Mach) : (onTwin f w).mem = w.mem := rfl
@[simp] theorem onTwin_gone (f : Twin → Twin) (w : Mach) : (onTwin f w).gone = w.gone := rfl
@[simp] theorem onTwin_wr (f : Twin → Twin) (w : Mach) : (onTwin f w).wr = w.wr := rfl
@[simp] theorem onTwin_asking (f : Twin → Twin) (w : Mach) : (onTwin f w).asking = w.asking := rfl
@[simp] theorem onTwin_asked (f : Twin → Twin) (w : Mach) : (onTwin f w).asked = w.asked := rfl
@[simp] theorem onPower_m (f : Power → Power) (w : Mach) : (onPower f w).m = { w.m with power := f w.m.power } := rfl
@[simp] theorem onPower_mem (f : Power → Power) (w : Mach) : (onPower f w).mem = w.mem := rfl
@[simp] theorem onPower_gone (f : Power → Power) (w : Mach) : (onPower f w).gone = w.gone := rfl
@[simp] theorem onPower_wr (f : Power → Power) (w : Mach) : (onPower f w).wr = w.wr := rfl
@[simp] theorem onPower_asking (f : Power → Power) (w : Mach) : (onPower f w).asking = w.asking := rfl
@[simp] theorem onPower_asked (f : Power → Power) (w : Mach) : (onPower f w).asked = w.asked := rfl
@[simp] theorem setThr_m (t : Tid) (th : Thread) (w : Mach) : (setThr t th w).m = { w.m with threads := twrite {} w.m.threads (tkey t) th } := rfl
@[simp] theorem setThr_mem (t : Tid) (th : Thread) (w : Mach) : (setThr t th w).mem = w.mem := rfl
@[simp] theorem setThr_gone (t : Tid) (th : Thread) (w : Mach) : (setThr t th w).gone = w.gone := rfl
@[simp] theorem setThr_wr (t : Tid) (th : Thread) (w : Mach) : (setThr t th w).wr = w.wr := rfl
@[simp] theorem setThr_asking (t : Tid) (th : Thread) (w : Mach) : (setThr t th w).asking = w.asking := rfl
@[simp] theorem setThr_asked (t : Tid) (th : Thread) (w : Mach) : (setThr t th w).asked = w.asked := rfl
@[simp] theorem updThr_m (t : Tid) (f : Thread → Thread) (w : Mach) : (updThr t f w).m = { w.m with threads := twrite {} w.m.threads (tkey t) (f (thr w t)) } := rfl
@[simp] theorem updThr_mem (t : Tid) (f : Thread → Thread) (w : Mach) : (updThr t f w).mem = w.mem := rfl
@[simp] theorem updThr_gone (t : Tid) (f : Thread → Thread) (w : Mach) : (updThr t f w).gone = w.gone := rfl
@[simp] theorem updThr_wr (t : Tid) (f : Thread → Thread) (w : Mach) : (updThr t f w).wr = w.wr := rfl
@[simp] theorem updThr_asking (t : Tid) (f : Thread → Thread) (w : Mach) : (updThr t f w).asking = w.asking := rfl
@[simp] theorem updThr_asked (t : Tid) (f : Thread → Thread) (w : Mach) : (updThr t f w).asked = w.asked := rfl
@[simp] theorem updVp_m (vp : Nat) (f : Vp → Vp) (w : Mach) : (updVp vp f w).m = { w.m with vps := twrite {} w.m.vps vp (f (tread {} w.m.vps vp)) } := rfl
@[simp] theorem updVp_mem (vp : Nat) (f : Vp → Vp) (w : Mach) : (updVp vp f w).mem = w.mem := rfl
@[simp] theorem updVp_gone (vp : Nat) (f : Vp → Vp) (w : Mach) : (updVp vp f w).gone = w.gone := rfl
@[simp] theorem updVp_wr (vp : Nat) (f : Vp → Vp) (w : Mach) : (updVp vp f w).wr = w.wr := rfl
@[simp] theorem updVp_asking (vp : Nat) (f : Vp → Vp) (w : Mach) : (updVp vp f w).asking = w.asking := rfl
@[simp] theorem updVp_asked (vp : Nat) (f : Vp → Vp) (w : Mach) : (updVp vp f w).asked = w.asked := rfl
@[simp] theorem takeStamp_m (u : Nat) (w : Mach) : (takeStamp u w).m = { w.m with stamps := tput w.m.stamps u (nextStamp u w) } := rfl
@[simp] theorem takeStamp_mem (u : Nat) (w : Mach) : (takeStamp u w).mem = w.mem := rfl
@[simp] theorem takeStamp_gone (u : Nat) (w : Mach) : (takeStamp u w).gone = w.gone := rfl
@[simp] theorem takeStamp_wr (u : Nat) (w : Mach) : (takeStamp u w).wr = w.wr := rfl
@[simp] theorem takeStamp_asking (u : Nat) (w : Mach) : (takeStamp u w).asking = w.asking := rfl
@[simp] theorem takeStamp_asked (u : Nat) (w : Mach) : (takeStamp u w).asked = w.asked := rfl
@[simp] theorem putByte_m (a : Nat) (b : Byte) (w : Mach) : (putByte a b w).m = w.m := rfl
@[simp] theorem putByte_mem (a : Nat) (b : Byte) (w : Mach) : (putByte a b w).mem = w.mem := rfl
@[simp] theorem putByte_gone (a : Nat) (b : Byte) (w : Mach) : (putByte a b w).gone = w.gone := rfl
@[simp] theorem putByte_wr (a : Nat) (b : Byte) (w : Mach) : (putByte a b w).wr = (a, b) :: w.wr := rfl
@[simp] theorem putByte_asking (a : Nat) (b : Byte) (w : Mach) : (putByte a b w).asking = w.asking := rfl
@[simp] theorem putByte_asked (a : Nat) (b : Byte) (w : Mach) : (putByte a b w).asked = w.asked := rfl
@[simp] theorem wipe_m (lo hi : Nat) (w : Mach) : (wipe lo hi w).m = w.m := rfl
@[simp] theorem wipe_mem (lo hi : Nat) (w : Mach) : (wipe lo hi w).mem = w.mem := rfl
@[simp] theorem wipe_asking (lo hi : Nat) (w : Mach) : (wipe lo hi w).asking = w.asking := rfl
@[simp] theorem wipe_asked (lo hi : Nat) (w : Mach) : (wipe lo hi w).asked = w.asked := rfl

@[simp] theorem begin_m (s : State) : (begin s).m = s.m := rfl
@[simp] theorem begin_mem (s : State) : (begin s).mem = s.mem := rfl
@[simp] theorem begin_gone (s : State) : (begin s).gone = [] := rfl
@[simp] theorem begin_wr (s : State) : (begin s).wr = [] := rfl
@[simp] theorem begin_asking (s : State) : (begin s).asking = none := rfl
@[simp] theorem begin_asked (s : State) : (begin s).asked = [] := rfl

/-- A thread's number determines it. -/
theorem tkey_inj {t u : Tid} (h : tkey t = tkey u) : t = u := by
  obtain ⟨a, b⟩ := t
  obtain ⟨c, d⟩ := u
  simp only [tkey] at h
  have hb := b.isLt
  have hd := d.isLt
  have h1 : a.toNat = c.toNat := by omega
  have h2 : b.toNat = d.toNat := by omega
  rw [BitVec.eq_of_toNat_eq h1, BitVec.eq_of_toNat_eq h2]

/-- Reading the threads after one is replaced. -/
theorem thr_setThr (t u : Tid) (th : Thread) (w : Mach) :
    thr (setThr t th w) u = if u = t then th else thr w u := by
  unfold thr
  rw [setThr_m, tread_twrite]
  by_cases h : u = t
  · simp [h]
  · rw [if_neg h, if_neg (fun e => h (tkey_inj e))]

@[simp] theorem thr_setThr_same (t : Tid) (th : Thread) (w : Mach) : thr (setThr t th w) t = th := by
  simp [thr_setThr]

theorem thr_setThr_ne {t u : Tid} (th : Thread) (w : Mach) (h : u ≠ t) : thr (setThr t th w) u = thr w u := by
  simp [thr_setThr, h]

@[simp] theorem thr_updThr_same (t : Tid) (f : Thread → Thread) (w : Mach) : thr (updThr t f w) t = f (thr w t) := by
  simp [updThr]

theorem thr_updThr_ne {t u : Tid} (f : Thread → Thread) (w : Mach) (h : u ≠ t) : thr (updThr t f w) u = thr w u := by
  simp [updThr, thr_setThr, h]

/-- What is no thread leaves the threads. -/
theorem thr_congr {w w' : Mach} (h : w'.m.threads = w.m.threads) (t : Tid) : thr w' t = thr w t := by
  simp [thr, h]

end Sys2Proof.Machine
end

