-- ==== Sys2Proof/Laws/Issue.lean ====
section
/-! SUPPORT. What running a command, issuing an instruction and retiring it can do, said once. -/

namespace Sys2Proof.Machine
open Sys2Proof

/-! ### Running a command -/

/-- A command that always acts answers a next state. -/
theorem runAny_eq (f : Mach → Mach) (s : State) :
    runAny f s = .next (State.mk s.pending
      (memApply (s.mem.filter fun c => !inGone (f (begin s)).gone c.1) (f (begin s)).wr) (f (begin s)).m) := rfl

/-- A powered module runs a command. -/
theorem run_powered {s : State} (h : Powered s) (f : Mach → Mach) : run f s = runAny f s := by
  unfold run runAny
  have : (begin s).m.power.off = false := h
  simp only [this]
  rfl

/-- A module without power does nothing (log 44). -/
theorem run_off {s : State} (h : s.m.power.off = true) (f : Mach → Mach) : run f s = .next s := by
  unfold run runAny
  have : (begin s).m.power.off = true := h
  simp only [this, if_true]
  have hf : s.mem.filter (fun c => !inGone (begin s).gone c.1) = s.mem := List.filter_eq_self.2 (by simp [inGone])
  simp only [begin_wr, memApply_nil, hf]
  rfl

/-- A command that touches no memory. -/
theorem runAny_quiet {f : Mach → Mach} {s : State} (hg : (f (begin s)).gone = []) (hw : (f (begin s)).wr = []) :
    runAny f s = .next { s with m := (f (begin s)).m } := by
  rw [runAny_eq, hg, hw, memApply_nil]
  have hf : s.mem.filter (fun c => !inGone [] c.1) = s.mem := List.filter_eq_self.2 (by simp [inGone])
  rw [hf]

/-! ### Requests and event counts -/

/-- What costs nothing asks for nothing. -/
@[simp] theorem request_zero (r : Res) (i c : Nat) (who : Asker) (a : Option GateAct) (w : Mach) : request ⟨r, i, c, 0, who, a⟩ w = w := by
  simp [request]

/-- An event count changes the counters of one die at most. -/
theorem countGlobal_eq (ev n : Nat) (g : Tag) (w : Mach) :
    ∃ c, countGlobal ev n g w = onM (fun m => { m with cnt := c }) w := by
  unfold countGlobal
  dsimp only
  by_cases h : (tread {} w.m.cnt g.die).run = true
  · rw [if_pos h]; exact ⟨_, rfl⟩
  · rw [if_neg h]; exact ⟨w.m.cnt, rfl⟩

/-- A thread's event changes its user counts and the counters. -/
theorem countThread_eq (t : Tid) (ev n : Nat) (w : Mach) :
    ∃ c, countThread t ev n w = onM (fun m => { m with cnt := c }) (setThr t (countUser ev n (thr w t)) w) := by
  unfold countThread
  split
  · exact ⟨w.m.cnt, rfl⟩
  · obtain ⟨c, hc⟩ := countGlobal_eq ev n (tagOf w t) (updThr t (countUser ev n) w)
    exact ⟨c, hc⟩

/-- One step of a user count. -/
theorem countUser_step (ev n i : Nat) (th : Thread) :
    ∃ u, (if bits th.ucsel.toNat (8 * i) 8 = ev then
      { th with ucnt := twrite 0 th.ucnt i (tread 0 th.ucnt i + BitVec.ofNat 64 n) } else th) = { th with ucnt := u } := by
  by_cases h : bits th.ucsel.toNat (8 * i) 8 = ev
  · rw [if_pos h]; exact ⟨_, rfl⟩
  · rw [if_neg h]; exact ⟨th.ucnt, rfl⟩

/-- A fold whose every step is a user count is one. -/
theorem foldl_ucnt (f : Thread → Nat → Thread) (hf : ∀ th i, ∃ u, f th i = { th with ucnt := u }) (l : List Nat)
    (th : Thread) : ∃ u, l.foldl f th = { th with ucnt := u } := by
  induction l generalizing th with
  | nil => exact ⟨th.ucnt, rfl⟩
  | cons i r ih =>
    obtain ⟨u, hu⟩ := hf th i
    obtain ⟨v, hv⟩ := ih (f th i)
    exact ⟨v, by rw [List.foldl_cons, hv, hu]⟩

/-- A user count changes nothing else of a thread. -/
theorem countUser_eq (ev n : Nat) (th : Thread) : ∃ u, countUser ev n th = { th with ucnt := u } := by
  unfold countUser
  split
  · exact ⟨th.ucnt, rfl⟩
  · exact foldl_ucnt _ (fun th i => countUser_step ev n i th) _ th

/-- The counters hold no thread. -/
theorem thr_onCnt (c : Table Cnt) (w : Mach) (t : Tid) : thr (onM (fun m => { m with cnt := c }) w) t = thr w t := rfl

/-- Of its thread, an event changes the user counts alone. -/
theorem countThread_thr (t : Tid) (ev n : Nat) (w : Mach) :
    ∃ u, thr (countThread t ev n w) t = { thr w t with ucnt := u } := by
  obtain ⟨c, h⟩ := countThread_eq t ev n w
  obtain ⟨u, hu⟩ := countUser_eq ev n (thr w t)
  exact ⟨u, by rw [h, thr_onCnt, thr_setThr_same, hu]⟩

/-! ### What stays beside one thread -/

/-- Nothing but thread `t` and the event counters differs between two machines. -/
def Beside (t : Tid) (w w' : Mach) : Prop :=
  w'.mem = w.mem ∧ w'.gone = w.gone ∧ w'.wr = w.wr ∧ w'.asking = w.asking ∧ w'.asked = w.asked
    ∧ (∀ u, u ≠ t → thr w' u = thr w u) ∧ { w'.m with threads := w.m.threads, cnt := w.m.cnt } = w.m

theorem Beside.refl (t : Tid) (w : Mach) : Beside t w w := ⟨rfl, rfl, rfl, rfl, rfl, fun _ _ => rfl, rfl⟩

theorem Beside.trans {t : Tid} {a b c : Mach} (h : Beside t a b) (k : Beside t b c) : Beside t a c := by
  obtain ⟨h1, h2, h3, h4, h5, h6, h7⟩ := h
  obtain ⟨k1, k2, k3, k4, k5, k6, k7⟩ := k
  refine ⟨k1.trans h1, k2.trans h2, k3.trans h3, k4.trans h4, k5.trans h5, fun u hu => (k6 u hu).trans (h6 u hu), ?_⟩
  rw [← h7, ← k7]

theorem beside_setThr (t : Tid) (th : Thread) (w : Mach) : Beside t w (setThr t th w) :=
  ⟨rfl, rfl, rfl, rfl, rfl, fun _ hu => thr_setThr_ne th w hu, rfl⟩

theorem beside_updThr (t : Tid) (f : Thread → Thread) (w : Mach) : Beside t w (updThr t f w) := beside_setThr t _ w

theorem beside_countThread (t : Tid) (ev n : Nat) (w : Mach) : Beside t w (countThread t ev n w) := by
  obtain ⟨c, h⟩ := countThread_eq t ev n w
  rw [h]
  exact (beside_setThr t _ w).trans ⟨rfl, rfl, rfl, rfl, rfl, fun _ _ => rfl, rfl⟩

/-! ### Retiring -/

theorem loopLevel_eq (b : Bool) (th : Thread) : ∃ x y, (loopLevel b th).1 = { th with lc0 := x, lc1 := y } := by
  unfold loopLevel
  dsimp only
  cases b <;> simp only [Bool.false_eq_true, if_false, if_true]
  · by_cases h : th.lc0 = 0
    · rw [if_pos h]; exact ⟨th.lc0, th.lc1, rfl⟩
    · rw [if_neg h]
      by_cases k : th.lc0 = 1
      · rw [if_pos k]; exact ⟨_, th.lc1, rfl⟩
      · rw [if_neg k]; exact ⟨_, th.lc1, rfl⟩
  · by_cases h : th.lc1 = 0
    · rw [if_pos h]; exact ⟨th.lc0, th.lc1, rfl⟩
    · rw [if_neg h]
      by_cases k : th.lc1 = 1
      · rw [if_pos k]; exact ⟨th.lc0, _, rfl⟩
      · rw [if_neg k]; exact ⟨th.lc0, _, rfl⟩

/-- The loop test changes the loop counts alone. -/
theorem loopBack_eq (pc : Addr) (k : Nat) (th : Thread) :
    ∃ a b, (loopBack pc k th).1 = { th with lc0 := a, lc1 := b } := by
  have level : ∀ (c : Bool) (b : Bool) (th : Thread),
      ∃ x y, (if c then loopLevel b th else (th, false)).1 = { th with lc0 := x, lc1 := y } := by
    intro c b th
    cases c
    · exact ⟨th.lc0, th.lc1, rfl⟩
    · exact loopLevel_eq b th
  unfold loopBack
  dsimp only
  obtain ⟨x, y, h1⟩ := level (th.le1 == pc || k == 2 && th.le1 == pc + 4) true th
  generalize (if (th.le1 == pc || k == 2 && th.le1 == pc + 4) = true then loopLevel true th else (th, false)) = p at *
  split
  · exact ⟨x, y, h1⟩
  · obtain ⟨x', y', h2⟩ := level (p.1.le0 == pc || k == 2 && p.1.le0 == pc + 4) false p.1
    exact ⟨x', y', by rw [h2, h1]⟩

/-- Where a thread goes on, it changes the loop counts alone. -/
theorem loopNext_eq (pc : Addr) (k : Nat) (th : Thread) :
    ∃ a b, (loopNext pc k th).1 = { th with lc0 := a, lc1 := b } := loopBack_eq pc k th

/-- No group acts outside group mode. -/
@[simp] theorem curGroup_none {th : Thread} (h : th.gm = false) : curGroup th = none := by simp [curGroup, h]

theorem pcOf_eq {th : Thread} (h : th.gm = false) : pcOf th = th.pc := by simp [pcOf, h]

theorem setPc_eq {th : Thread} (h : th.gm = false) (a : Addr) : setPc a th = { th with pc := a } := by simp [setPc, h]

theorem stepOne_eq {th : Thread} (h : th.gm = false) :
    stepOne th = if th.priv then th else { th with step := th.step + 1 } := by
  unfold stepOne
  rw [curGroup_none h]

/-- Energy below a unit of the residue asks for nothing. -/
theorem threadEnergy_small (t : Tid) (e : Nat) (w : Mach) (h : (thr w t).residue + e < energyUnit) :
    threadEnergy t e w = setThr t { thr w t with residue := (thr w t).residue + e } w := by
  unfold threadEnergy
  dsimp only
  rw [Nat.div_eq_of_lt h, request_zero, Nat.mod_eq_of_lt h]

theorem SameRegisters.gm {a b : Thread} (h : SameRegisters a b) : a.gm = b.gm := by
  unfold SameRegisters at h; rw [← h]
theorem SameRegisters.stopAt {a b : Thread} (h : SameRegisters a b) : a.stopAt = b.stopAt := by
  unfold SameRegisters at h; rw [← h]
theorem SameRegisters.priv {a b : Thread} (h : SameRegisters a b) : a.priv = b.priv := by
  unfold SameRegisters at h; rw [← h]

/-- Where a thread outside group mode goes, and the registers that retiring moves on (R32, R149, R170, R260, R344). -/
theorem moveOn_eq (r : Ret) {th : Thread} (h : th.gm = false) :
    SameRegisters (moveOn r th) th ∧ GoesOn r.words r.target th (moveOn r th)
      ∧ (moveOn r th).step = (if th.priv then th.step else th.step + 1) ∧ (moveOn r th).residue = th.residue := by
  have key : ∀ p : Thread × Addr, (∃ a b, p.1 = { th with lc0 := a, lc1 := b }) → 
      setPc p.2 (stepOne p.1) =
        { th with lc0 := p.1.lc0, lc1 := p.1.lc1, step := if th.priv then th.step else th.step + 1, pc := p.2 } := by
    rintro ⟨x, n⟩ ⟨a, b, rfl⟩
    dsimp only
    rw [stepOne_eq (th := { th with lc0 := a, lc1 := b }) h]
    by_cases hp : th.priv = true
    · rw [if_pos hp, if_pos hp]
      exact setPc_eq (th := { th with lc0 := a, lc1 := b }) h n
    · rw [if_neg hp, if_neg hp]
      exact setPc_eq (th := { th with lc0 := a, lc1 := b, step := th.step + 1 }) h n
  unfold moveOn
  rw [pcOf_eq h]
  cases ht : r.target with
  | some a =>
    dsimp only
    rw [key (th, _) ⟨th.lc0, th.lc1, rfl⟩]
    exact ⟨rfl, ⟨rfl, rfl, rfl⟩, rfl, rfl⟩
  | none =>
    dsimp only
    rw [key _ (loopNext_eq _ _ _)]
    exact ⟨rfl, ⟨rfl, rfl, rfl⟩, rfl, rfl⟩

/-- No replay stops a thread whose target step this is not (R367). -/
theorem reachStop_eq {th : Thread} (h : th.stopAt ≠ some th.step) (w : Mach) : reachStop th w = w := by
  unfold reachStop
  split
  · exact if_pos h
  · rfl

/-- Retiring outside group mode, energy below a unit: nothing beside the thread but the counters, and the thread itself
moved on. -/
theorem retire_calm (t : Tid) (r : Ret) (w : Mach) (hg : (thr w t).gm = false)
    (he : (thr w t).residue + r.energy.getD (15 * ceilDiv r.cost 8) < energyUnit)
    (hs : (thr w t).stopAt ≠ some ((thr w t).step + 1)) :
    Beside t w (retire t r w) ∧ Retired r.words r.target (thr w t) (thr (retire t r w) t) := by
  obtain ⟨h1, h2, h3, h4⟩ := moveOn_eq r hg
  have hg' := h1.gm.trans hg
  have hs' := h1.stopAt
  have hp' := h1.priv
  unfold retire
  simp only [hg', Bool.false_eq_true, if_false]
  generalize hth : moveOn r (thr w t) = th at *
  -- the machine once events are counted
  obtain ⟨w2, hw2, hb, u, hu⟩ : ∃ w2, (if !(thr w t).priv then
      countThread t 0x02 r.cost (countThread t 0x01 1 (setThr t th w)) else setThr t th w) = w2 ∧ Beside t w w2 ∧
      ∃ u, thr w2 t = { th with ucnt := u } := by
    refine ⟨_, rfl, ?_, ?_⟩
    · split
      · exact ((beside_setThr t th w).trans (beside_countThread ..)).trans (beside_countThread ..)
      · exact beside_setThr t th w
    · split
      · obtain ⟨u, hu⟩ := countThread_thr t 0x01 1 (setThr t th w)
        obtain ⟨v, hv⟩ := countThread_thr t 0x02 r.cost (countThread t 0x01 1 (setThr t th w))
        exact ⟨v, by rw [hv, hu, thr_setThr_same]⟩
      · exact ⟨th.ucnt, thr_setThr_same ..⟩
  rw [hw2]
  have hstop : (if (!(thr w t).priv) = true then reachStop th w2 else w2) = w2 := by
    by_cases hp : (thr w t).priv = true
    · simp [hp]
    · rw [if_neg hp] at h3
      rw [if_pos (by simp [hp]), reachStop_eq]
      rw [hs', h3]
      exact hs
  rw [hstop]
  have hres : (thr w2 t).residue = (thr w t).residue := by rw [hu]; exact h4
  rw [threadEnergy_small _ _ _ (by rw [hres]; exact he)]
  refine ⟨hb.trans (beside_setThr ..), ?_⟩
  rw [thr_setThr_same, hu]
  refine ⟨?_, h2, h3⟩
  have := h1
  unfold SameRegisters at this ⊢
  rw [← this]

/-! ### Issuing -/

/-- The machine in which a thread's requests are collected. -/
def mine (t : Tid) (w : Mach) : Mach := { w with asking := some (.thread (tkey t)), asked := [] }

/-- A thread with nothing paid for that asks for nothing has its effect at once. -/
theorem paying_free (t : Tid) (key : Nat) (f : Mach → Mach) (w : Mach) (hp : (thr w t).paid = [])
    (hq : (f (mine t w)).asked = []) : paying t key f w = { f (mine t w) with asking := none, asked := [] } := by
  unfold paying payFor
  rw [hp]
  simp only [mine] at hq ⊢
  simp [hq]

/-- Outside group mode an instruction's effect is its thread's. -/
theorem asIssuer_eq {t : Tid} {w : Mach} (hg : (thr w t).gm = false) (f : Mach → Mach) : asIssuer t f w = f w := by
  simp [asIssuer, curGroup_none hg]

/-- An instruction that asks for nothing, in a slot that its thread can use. -/
theorem issue_eq {t : Tid} {s : State} (f : Mach → Mach) (hP : Powered s) (hc : canIssue (threadOf s t) = true)
    (hi : interruptDue (begin s) t = false) (hg : (threadOf s t).gm = false) (hp : (threadOf s t).paid = []) (hq : (f (mine t (begin s))).asked = []) :
    issue t f s = runAny (fun w => { f (mine t w) with asking := none, asked := [] }) s := by
  unfold issue
  rw [run_powered hP, runAny_eq, runAny_eq]
  have hc' : canIssue (thr (begin s) t) = true := hc
  have hf : asIssuer t f (mine t (begin s)) = f (mine t (begin s)) := asIssuer_eq (w := mine t (begin s)) hg f
  simp only [hc', hi, Bool.not_false, Bool.and_self, if_true, paying_free t _ (asIssuer t f) (begin s) hp (by rw [hf]; exact hq), hf]

/-- Spec of `issue`: an instruction that retires from a machine in which its thread alone has changed. -/
theorem issue_at {e : Nat} {t : Tid} {s : State} {f : Mach → Mach} {r : Ret} {th : Thread} {w0 : Mach}
    (hC : Calm e t s) (h0 : Beside t (mine t (begin s)) w0) (hf : f (mine t (begin s)) = retire t r w0)
    (hth : thr w0 t = th) (hg : th.gm = (threadOf s t).gm) (hr : th.residue = (threadOf s t).residue)
    (hs : th.stopAt = (threadOf s t).stopAt) (hst : th.step = (threadOf s t).step)
    (he : r.energy.getD (15 * ceilDiv r.cost 8) ≤ e) :
    ∃ s', issue t f s = .next s' ∧ OnlyThread t s s' ∧ Retired r.words r.target th (threadOf s' t) := by
  obtain ⟨hP, ⟨hc, hi⟩, hgm, hp, hres, hstop⟩ := hC
  subst hth
  obtain ⟨hb, hret⟩ := retire_calm t r w0 (by rw [hg, hgm]) (by rw [hr]; omega) (by rw [hs, hst]; exact hstop)
  obtain ⟨b1, b2, b3, b4, b5, b6, b7⟩ := h0.trans hb
  rw [← hf] at b1 b2 b3 b4 b5 b6 b7 hret
  rw [issue_eq f hP hc hi hgm hp b5, runAny_quiet b2 b3]
  exact ⟨_, rfl, ⟨rfl, rfl, b6, b7⟩, hret⟩

/-- Spec of `issue`: an instruction that changes its thread's registers alone and retires. -/
theorem issue_retires {e : Nat} {t : Tid} {s : State} {f : Mach → Mach} {r : Ret} {th : Thread} (hC : Calm e t s)
    (hf : ∀ w, thr w t = threadOf s t → f w = retire t r (setThr t th w))
    (hg : th.gm = (threadOf s t).gm) (hr : th.residue = (threadOf s t).residue)
    (hs : th.stopAt = (threadOf s t).stopAt) (hst : th.step = (threadOf s t).step)
    (he : r.energy.getD (15 * ceilDiv r.cost 8) ≤ e) :
    ∃ s', issue t f s = .next s' ∧ OnlyThread t s s' ∧ Retired r.words r.target th (threadOf s' t) :=
  issue_at hC (beside_setThr t th _) (hf _ rfl) (thr_setThr_same ..) hg hr hs hst he

end Sys2Proof.Machine
end

