-- ==== Sys2Proof/Laws/Exec.lean ====
section
/-! SUPPORT. What every command's answer has in common. -/

namespace Sys2Proof.Machine
open Sys2Proof

theorem run_runs (f : Mach → Mach) (s : State) : ∃ g, run f s = runAny g s :=
  ⟨fun w => if w.m.power.off then w else f w, rfl⟩

theorem issue_isRun (t : Tid) (f : Mach → Mach) (s : State) : ∃ g, issue t f s = run g s := ⟨_, rfl⟩

theorem run_isRun (f : Mach → Mach) (s : State) : ∃ g, run f s = run g s := ⟨f, rfl⟩

/-- Every command is some effect run on the machine, and only the power stage's runs without power. -/
theorem exec_shape (c : Instr) (s : State) : (∃ f, exec c s = run f s) ∨ powerStage c = true ∧ ∃ f, exec c s = runAny f s := by
  cases c with
  | add t rd ra rb => exact .inl (show ∃ f, execAdd t rd ra rb s = run f s from issue_isRun _ _ s)
  | sub t rd ra rb => exact .inl (show ∃ f, execSub t rd ra rb s = run f s from issue_isRun _ _ s)
  | and t rd ra rb => exact .inl (show ∃ f, execAnd t rd ra rb s = run f s from issue_isRun _ _ s)
  | or t rd ra rb => exact .inl (show ∃ f, execOr t rd ra rb s = run f s from issue_isRun _ _ s)
  | xor t rd ra rb => exact .inl (show ∃ f, execXor t rd ra rb s = run f s from issue_isRun _ _ s)
  | shl t rd ra rb => exact .inl (show ∃ f, execShl t rd ra rb s = run f s from issue_isRun _ _ s)
  | shr t rd ra rb => exact .inl (show ∃ f, execShr t rd ra rb s = run f s from issue_isRun _ _ s)
  | sar t rd ra rb => exact .inl (show ∃ f, execSar t rd ra rb s = run f s from issue_isRun _ _ s)
  | slt t rd ra rb => exact .inl (show ∃ f, execSlt t rd ra rb s = run f s from issue_isRun _ _ s)
  | sltu t rd ra rb => exact .inl (show ∃ f, execSltu t rd ra rb s = run f s from issue_isRun _ _ s)
  | min t rd ra rb => exact .inl (show ∃ f, execMin t rd ra rb s = run f s from issue_isRun _ _ s)
  | max t rd ra rb => exact .inl (show ∃ f, execMax t rd ra rb s = run f s from issue_isRun _ _ s)
  | minu t rd ra rb => exact .inl (show ∃ f, execMinu t rd ra rb s = run f s from issue_isRun _ _ s)
  | maxu t rd ra rb => exact .inl (show ∃ f, execMaxu t rd ra rb s = run f s from issue_isRun _ _ s)
  | clz t rd ra => exact .inl (show ∃ f, execClz t rd ra s = run f s from issue_isRun _ _ s)
  | ctz t rd ra => exact .inl (show ∃ f, execCtz t rd ra s = run f s from issue_isRun _ _ s)
  | popc t rd ra => exact .inl (show ∃ f, execPopc t rd ra s = run f s from issue_isRun _ _ s)
  | mul t rd ra rb => exact .inl (show ∃ f, execMul t rd ra rb s = run f s from issue_isRun _ _ s)
  | mulh t rd ra rb => exact .inl (show ∃ f, execMulh t rd ra rb s = run f s from issue_isRun _ _ s)
  | mulhu t rd ra rb => exact .inl (show ∃ f, execMulhu t rd ra rb s = run f s from issue_isRun _ _ s)
  | div t rd ra rb => exact .inl (show ∃ f, execDiv t rd ra rb s = run f s from issue_isRun _ _ s)
  | divu t rd ra rb => exact .inl (show ∃ f, execDivu t rd ra rb s = run f s from issue_isRun _ _ s)
  | rem t rd ra rb => exact .inl (show ∃ f, execRem t rd ra rb s = run f s from issue_isRun _ _ s)
  | remu t rd ra rb => exact .inl (show ∃ f, execRemu t rd ra rb s = run f s from issue_isRun _ _ s)
  | addi t rd ra imm => exact .inl (show ∃ f, execAddi t rd ra imm s = run f s from issue_isRun _ _ s)
  | slti t rd ra imm => exact .inl (show ∃ f, execSlti t rd ra imm s = run f s from issue_isRun _ _ s)
  | andi t rd ra imm => exact .inl (show ∃ f, execAndi t rd ra imm s = run f s from issue_isRun _ _ s)
  | ori t rd ra imm => exact .inl (show ∃ f, execOri t rd ra imm s = run f s from issue_isRun _ _ s)
  | xori t rd ra imm => exact .inl (show ∃ f, execXori t rd ra imm s = run f s from issue_isRun _ _ s)
  | shi t rd ra kind amount => exact .inl (show ∃ f, execShi t rd ra kind amount s = run f s from issue_isRun _ _ s)
  | lui t rd imm => exact .inl (show ∃ f, execLui t rd imm s = run f s from issue_isRun _ _ s)
  | li t rd imm => exact .inl (show ∃ f, execLi t rd imm s = run f s from issue_isRun _ _ s)
  | la t rd imm => exact .inl (show ∃ f, execLa t rd imm s = run f s from issue_isRun _ _ s)
  | ld t rd ra width off => exact .inl (show ∃ f, execLd t rd ra width off s = run f s from issue_isRun _ _ s)
  | st t rd ra width off => exact .inl (show ∃ f, execSt t rd ra width off s = run f s from issue_isRun _ _ s)
  | fld t rd ra width off => exact .inl (show ∃ f, execFld t rd ra width off s = run f s from issue_isRun _ _ s)
  | fst t rd ra width off => exact .inl (show ∃ f, execFst t rd ra width off s = run f s from issue_isRun _ _ s)
  | aadd t rd ra rb => exact .inl (show ∃ f, execAadd t rd ra rb s = run f s from issue_isRun _ _ s)
  | aand t rd ra rb => exact .inl (show ∃ f, execAand t rd ra rb s = run f s from issue_isRun _ _ s)
  | aor t rd ra rb => exact .inl (show ∃ f, execAor t rd ra rb s = run f s from issue_isRun _ _ s)
  | axor t rd ra rb => exact .inl (show ∃ f, execAxor t rd ra rb s = run f s from issue_isRun _ _ s)
  | amin t rd ra rb => exact .inl (show ∃ f, execAmin t rd ra rb s = run f s from issue_isRun _ _ s)
  | amax t rd ra rb => exact .inl (show ∃ f, execAmax t rd ra rb s = run f s from issue_isRun _ _ s)
  | aswap t rd ra rb => exact .inl (show ∃ f, execAswap t rd ra rb s = run f s from issue_isRun _ _ s)
  | acas t rd ra rb => exact .inl (show ∃ f, execAcas t rd ra rb s = run f s from issue_isRun _ _ s)
  | faadd t rd ra rb dbl => exact .inl (show ∃ f, execFaadd t rd ra rb dbl s = run f s from issue_isRun _ _ s)
  | beq t ra rb off => exact .inl (show ∃ f, execBeq t ra rb off s = run f s from issue_isRun _ _ s)
  | bne t ra rb off => exact .inl (show ∃ f, execBne t ra rb off s = run f s from issue_isRun _ _ s)
  | blt t ra rb off => exact .inl (show ∃ f, execBlt t ra rb off s = run f s from issue_isRun _ _ s)
  | bge t ra rb off => exact .inl (show ∃ f, execBge t ra rb off s = run f s from issue_isRun _ _ s)
  | bltu t ra rb off => exact .inl (show ∃ f, execBltu t ra rb off s = run f s from issue_isRun _ _ s)
  | bgeu t ra rb off => exact .inl (show ∃ f, execBgeu t ra rb off s = run f s from issue_isRun _ _ s)
  | b t off => exact .inl (show ∃ f, execB t off s = run f s from issue_isRun _ _ s)
  | call t off => exact .inl (show ∃ f, execCall t off s = run f s from issue_isRun _ _ s)
  | br t ra => exact .inl (show ∃ f, execBr t ra s = run f s from issue_isRun _ _ s)
  | callr t ra => exact .inl (show ∃ f, execCallr t ra s = run f s from issue_isRun _ _ s)
  | ret t => exact .inl (show ∃ f, execRet t s = run f s from issue_isRun _ _ s)
  | jl t target => exact .inl (show ∃ f, execJl t target s = run f s from issue_isRun _ _ s)
  | calll t target => exact .inl (show ∃ f, execCalll t target s = run f s from issue_isRun _ _ s)
  | callm t imm => exact .inl (show ∃ f, execCallm t imm s = run f s from issue_isRun _ _ s)
  | retm t mask => exact .inl (show ∃ f, execRetm t mask s = run f s from issue_isRun _ _ s)
  | loop t gs level imm => exact .inl (show ∃ f, execLoop t gs level imm s = run f s from issue_isRun _ _ s)
  | crr t rd num => exact .inl (show ∃ f, execCrr t rd num s = run f s from issue_isRun _ _ s)
  | crw t rd num => exact .inl (show ∃ f, execCrw t rd num s = run f s from issue_isRun _ _ s)
  | sigsend t rd => exact .inl (show ∃ f, execSigsend t rd s = run f s from issue_isRun _ _ s)
  | gtdata t write rd => exact .inl (show ∃ f, execGtdata t write rd s = run f s from issue_isRun _ _ s)
  | nop t => exact .inl (show ∃ f, execNop t s = run f s from issue_isRun _ _ s)
  | trap t n => exact .inl (show ∃ f, execTrap t n s = run f s from issue_isRun _ _ s)
  | gate t n => exact .inl (show ∃ f, execGate t n s = run f s from issue_isRun _ _ s)
  | eret t => exact .inl (show ∃ f, execEret t s = run f s from issue_isRun _ _ s)
  | csync t => exact .inl (show ∃ f, execCsync t s = run f s from issue_isRun _ _ s)
  | isync t ra rb => exact .inl (show ∃ f, execIsync t ra rb s = run f s from issue_isRun _ _ s)
  | fence t => exact .inl (show ∃ f, execFence t s = run f s from issue_isRun _ _ s)
  | fadd t rd ra rb dbl => exact .inl (show ∃ f, execFadd t rd ra rb dbl s = run f s from issue_isRun _ _ s)
  | fsub t rd ra rb dbl => exact .inl (show ∃ f, execFsub t rd ra rb dbl s = run f s from issue_isRun _ _ s)
  | fmul t rd ra rb dbl => exact .inl (show ∃ f, execFmul t rd ra rb dbl s = run f s from issue_isRun _ _ s)
  | fdiv t rd ra rb dbl => exact .inl (show ∃ f, execFdiv t rd ra rb dbl s = run f s from issue_isRun _ _ s)
  | fsqrt t rd ra dbl => exact .inl (show ∃ f, execFsqrt t rd ra dbl s = run f s from issue_isRun _ _ s)
  | fmin t rd ra rb dbl => exact .inl (show ∃ f, execFmin t rd ra rb dbl s = run f s from issue_isRun _ _ s)
  | fmax t rd ra rb dbl => exact .inl (show ∃ f, execFmax t rd ra rb dbl s = run f s from issue_isRun _ _ s)
  | fneg t rd ra dbl => exact .inl (show ∃ f, execFneg t rd ra dbl s = run f s from issue_isRun _ _ s)
  | fabs t rd ra dbl => exact .inl (show ∃ f, execFabs t rd ra dbl s = run f s from issue_isRun _ _ s)
  | fsgn t rd ra rb dbl => exact .inl (show ∃ f, execFsgn t rd ra rb dbl s = run f s from issue_isRun _ _ s)
  | feq t rd ra rb dbl => exact .inl (show ∃ f, execFeq t rd ra rb dbl s = run f s from issue_isRun _ _ s)
  | flt t rd ra rb dbl => exact .inl (show ∃ f, execFlt t rd ra rb dbl s = run f s from issue_isRun _ _ s)
  | fle t rd ra rb dbl => exact .inl (show ∃ f, execFle t rd ra rb dbl s = run f s from issue_isRun _ _ s)
  | funord t rd ra rb dbl => exact .inl (show ∃ f, execFunord t rd ra rb dbl s = run f s from issue_isRun _ _ s)
  | fcvt t rd ra op dbl rm => exact .inl (show ∃ f, execFcvt t rd ra op dbl rm s = run f s from issue_isRun _ _ s)
  | fmvgf t rd ra dbl => exact .inl (show ∃ f, execFmvgf t rd ra dbl s = run f s from issue_isRun _ _ s)
  | fmvfg t rd ra dbl => exact .inl (show ∃ f, execFmvfg t rd ra dbl s = run f s from issue_isRun _ _ s)
  | fma t rd ra rb rc dbl => exact .inl (show ∃ f, execFma t rd ra rb rc dbl s = run f s from issue_isRun _ _ s)
  | fms t rd ra rb rc dbl => exact .inl (show ∃ f, execFms t rd ra rb rc dbl s = run f s from issue_isRun _ _ s)
  | fnma t rd ra rb rc dbl => exact .inl (show ∃ f, execFnma t rd ra rb rc dbl s = run f s from issue_isRun _ _ s)
  | fnms t rd ra rb rc dbl => exact .inl (show ∃ f, execFnms t rd ra rb rc dbl s = run f s from issue_isRun _ _ s)
  | tcfg t ra => exact .inl (show ∃ f, execTcfg t ra s = run f s from issue_isRun _ _ s)
  | tload t tile ra rb hint stop => exact .inl (show ∃ f, execTload t tile ra rb hint stop s = run f s from issue_isRun _ _ s)
  | tstore t tile ra rb hint stop => exact .inl (show ∃ f, execTstore t tile ra rb hint stop s = run f s from issue_isRun _ _ s)
  | trel t mask => exact .inl (show ∃ f, execTrel t mask s = run f s from issue_isRun _ _ s)
  | tileRowAbsent t => exact .inl (show ∃ f, execTileRowAbsent t s = run f s from run_isRun _ s)
  | tileTransferEnd t => exact .inl (show ∃ f, execTileTransferEnd t s = run f s from run_isRun _ s)
  | fop t ra => exact .inl (show ∃ f, execFop t ra s = run f s from issue_isRun _ _ s)
  | fwait t ra => exact .inl (show ∃ f, execFwait t ra s = run f s from issue_isRun _ _ s)
  | xfer t ra => exact .inl (show ∃ f, execXfer t ra s = run f s from issue_isRun _ _ s)
  | xwait t ra => exact .inl (show ∃ f, execXwait t ra s = run f s from issue_isRun _ _ s)
  | vsetl t rd ra et => exact .inl (show ∃ f, execVsetl t rd ra et s = run f s from issue_isRun _ _ s)
  | vld t x => exact .inl (show ∃ f, execVld t x s = run f s from issue_isRun _ _ s)
  | vst t x => exact .inl (show ∃ f, execVst t x s = run f s from issue_isRun _ _ s)
  | vldu t x => exact .inl (show ∃ f, execVldu t x s = run f s from issue_isRun _ _ s)
  | vstu t x => exact .inl (show ∃ f, execVstu t x s = run f s from issue_isRun _ _ s)
  | vfadd t x bf => exact .inl (show ∃ f, execVfadd t x bf s = run f s from issue_isRun _ _ s)
  | vfsub t x bf => exact .inl (show ∃ f, execVfsub t x bf s = run f s from issue_isRun _ _ s)
  | vfmul t x bf => exact .inl (show ∃ f, execVfmul t x bf s = run f s from issue_isRun _ _ s)
  | vfma t x bf => exact .inl (show ∃ f, execVfma t x bf s = run f s from issue_isRun _ _ s)
  | vfms t x bf => exact .inl (show ∃ f, execVfms t x bf s = run f s from issue_isRun _ _ s)
  | vfnma t x bf => exact .inl (show ∃ f, execVfnma t x bf s = run f s from issue_isRun _ _ s)
  | vfnms t x bf => exact .inl (show ∃ f, execVfnms t x bf s = run f s from issue_isRun _ _ s)
  | vadd t x => exact .inl (show ∃ f, execVadd t x s = run f s from issue_isRun _ _ s)
  | vsub t x => exact .inl (show ∃ f, execVsub t x s = run f s from issue_isRun _ _ s)
  | vand t x => exact .inl (show ∃ f, execVand t x s = run f s from issue_isRun _ _ s)
  | vor t x => exact .inl (show ∃ f, execVor t x s = run f s from issue_isRun _ _ s)
  | vxor t x => exact .inl (show ∃ f, execVxor t x s = run f s from issue_isRun _ _ s)
  | vshl t x => exact .inl (show ∃ f, execVshl t x s = run f s from issue_isRun _ _ s)
  | vshr t x => exact .inl (show ∃ f, execVshr t x s = run f s from issue_isRun _ _ s)
  | vsar t x => exact .inl (show ∃ f, execVsar t x s = run f s from issue_isRun _ _ s)
  | vmul t x => exact .inl (show ∃ f, execVmul t x s = run f s from issue_isRun _ _ s)
  | vmulh t x => exact .inl (show ∃ f, execVmulh t x s = run f s from issue_isRun _ _ s)
  | vdiv t x => exact .inl (show ∃ f, execVdiv t x s = run f s from issue_isRun _ _ s)
  | vdivu t x => exact .inl (show ∃ f, execVdivu t x s = run f s from issue_isRun _ _ s)
  | vbcast t x => exact .inl (show ∃ f, execVbcast t x s = run f s from issue_isRun _ _ s)
  | vsadd t x => exact .inl (show ∃ f, execVsadd t x s = run f s from issue_isRun _ _ s)
  | vsaddu t x => exact .inl (show ∃ f, execVsaddu t x s = run f s from issue_isRun _ _ s)
  | vssub t x => exact .inl (show ∃ f, execVssub t x s = run f s from issue_isRun _ _ s)
  | vssubu t x => exact .inl (show ∃ f, execVssubu t x s = run f s from issue_isRun _ _ s)
  | vsdmulhRhu t x => exact .inl (show ∃ f, execVsdmulhRhu t x s = run f s from issue_isRun _ _ s)
  | vsdmulhRne t x => exact .inl (show ∃ f, execVsdmulhRne t x s = run f s from issue_isRun _ _ s)
  | vrshr t x => exact .inl (show ∃ f, execVrshr t x s = run f s from issue_isRun _ _ s)
  | vnarrows t x => exact .inl (show ∃ f, execVnarrows t x s = run f s from issue_isRun _ _ s)
  | vnarrowu t x => exact .inl (show ∃ f, execVnarrowu t x s = run f s from issue_isRun _ _ s)
  | vcvt t vd va src dst pe p rm sat => exact .inl (show ∃ f, execVcvt t vd va src dst pe p rm sat s = run f s from issue_isRun _ _ s)
  | vcmp t x cc => exact .inl (show ∃ f, execVcmp t x cc s = run f s from issue_isRun _ _ s)
  | vcmpu t x cc => exact .inl (show ∃ f, execVcmpu t x cc s = run f s from issue_isRun _ _ s)
  | vfcmp t x cc => exact .inl (show ∃ f, execVfcmp t x cc s = run f s from issue_isRun _ _ s)
  | vsel t x => exact .inl (show ∃ f, execVsel t x s = run f s from issue_isRun _ _ s)
  | vmin t x => exact .inl (show ∃ f, execVmin t x s = run f s from issue_isRun _ _ s)
  | vmax t x => exact .inl (show ∃ f, execVmax t x s = run f s from issue_isRun _ _ s)
  | vminu t x => exact .inl (show ∃ f, execVminu t x s = run f s from issue_isRun _ _ s)
  | vmaxu t x => exact .inl (show ∃ f, execVmaxu t x s = run f s from issue_isRun _ _ s)
  | vfmin t x => exact .inl (show ∃ f, execVfmin t x s = run f s from issue_isRun _ _ s)
  | vfmax t x => exact .inl (show ∃ f, execVfmax t x s = run f s from issue_isRun _ _ s)
  | vexp2 t x => exact .inl (show ∃ f, execVexp2 t x s = run f s from issue_isRun _ _ s)
  | vlog2 t x => exact .inl (show ∃ f, execVlog2 t x s = run f s from issue_isRun _ _ s)
  | vrcp t x => exact .inl (show ∃ f, execVrcp t x s = run f s from issue_isRun _ _ s)
  | vrsqrt t x => exact .inl (show ∃ f, execVrsqrt t x s = run f s from issue_isRun _ _ s)
  | vtanh t x => exact .inl (show ∃ f, execVtanh t x s = run f s from issue_isRun _ _ s)
  | vredsum t x => exact .inl (show ∃ f, execVredsum t x s = run f s from issue_isRun _ _ s)
  | vfredsum t x => exact .inl (show ∃ f, execVfredsum t x s = run f s from issue_isRun _ _ s)
  | vredmin t x => exact .inl (show ∃ f, execVredmin t x s = run f s from issue_isRun _ _ s)
  | vredmax t x => exact .inl (show ∃ f, execVredmax t x s = run f s from issue_isRun _ _ s)
  | vfredmin t x => exact .inl (show ∃ f, execVfredmin t x s = run f s from issue_isRun _ _ s)
  | vfredmax t x => exact .inl (show ∃ f, execVfredmax t x s = run f s from issue_isRun _ _ s)
  | vredand t x => exact .inl (show ∃ f, execVredand t x s = run f s from issue_isRun _ _ s)
  | vredor t x => exact .inl (show ∃ f, execVredor t x s = run f s from issue_isRun _ _ s)
  | vslideup t x => exact .inl (show ∃ f, execVslideup t x s = run f s from issue_isRun _ _ s)
  | vslidedn t x => exact .inl (show ∃ f, execVslidedn t x s = run f s from issue_isRun _ _ s)
  | vcompress t x => exact .inl (show ∃ f, execVcompress t x s = run f s from issue_isRun _ _ s)
  | vexpand t x => exact .inl (show ∃ f, execVexpand t x s = run f s from issue_isRun _ _ s)
  | vmergec t x => exact .inl (show ∃ f, execVmergec t x s = run f s from issue_isRun _ _ s)
  | vmergecF t x => exact .inl (show ∃ f, execVmergecF t x s = run f s from issue_isRun _ _ s)
  | vinter t x => exact .inl (show ∃ f, execVinter t x s = run f s from issue_isRun _ _ s)
  | vinterF t x => exact .inl (show ∃ f, execVinterF t x s = run f s from issue_isRun _ _ s)
  | pand t x => exact .inl (show ∃ f, execPand t x s = run f s from issue_isRun _ _ s)
  | por t x => exact .inl (show ∃ f, execPor t x s = run f s from issue_isRun _ _ s)
  | pxor t x => exact .inl (show ∃ f, execPxor t x s = run f s from issue_isRun _ _ s)
  | pnot t x => exact .inl (show ∃ f, execPnot t x s = run f s from issue_isRun _ _ s)
  | pcnt t x => exact .inl (show ∃ f, execPcnt t x s = run f s from issue_isRun _ _ s)
  | pset t x => exact .inl (show ∃ f, execPset t x s = run f s from issue_isRun _ _ s)
  | pclr t x => exact .inl (show ∃ f, execPclr t x s = run f s from issue_isRun _ _ s)
  | vmac2 t x int => exact .inl (show ∃ f, execVmac2 t x int s = run f s from issue_isRun _ _ s)
  | vchain t n members => exact .inl (show ∃ f, execVchain t n members s = run f s from issue_isRun _ _ s)
  | gspawn t rd ra rb => exact .inl (show ∃ f, execGspawn t rd ra rb s = run f s from issue_isRun _ _ s)
  | gexit t => exact .inl (show ∃ f, execGexit t s = run f s from issue_isRun _ _ s)
  | glock t ra => exact .inl (show ∃ f, execGlock t ra s = run f s from issue_isRun _ _ s)
  | glockRetry t slot => exact .inl (show ∃ f, execGlockRetry t slot s = run f s from run_isRun _ s)
  | gunlock t ra => exact .inl (show ∃ f, execGunlock t ra s = run f s from issue_isRun _ _ s)
  | gbar t ra => exact .inl (show ∃ f, execGbar t ra s = run f s from issue_isRun _ _ s)
  | gbr t p off => exact .inl (show ∃ f, execGbr t p off s = run f s from issue_isRun _ _ s)
  | customInstruction t entry rd ra rb imm => exact .inl (show ∃ f, execCustomInstruction t entry rd ra rb imm s = run f s from issue_isRun _ _ s)
  | undefinedOp t word => exact .inl (show ∃ f, execUndefinedOp t word s = run f s from issue_isRun _ _ s)
  | storeBufferDrain t => exact .inl (show ∃ f, execStoreBufferDrain t s = run f s from run_isRun _ s)
  | dataCacheFill t sector => exact .inl (show ∃ f, execDataCacheFill t sector s = run f s from run_isRun _ s)
  | tableWalk t va => exact .inl (show ∃ f, execTableWalk t va s = run f s from run_isRun _ s)
  | atomicApply t => exact .inl (show ∃ f, execAtomicApply t s = run f s from run_isRun _ s)
  | horizonStall seq => exact .inl (show ∃ f, execHorizonStall seq s = run f s from run_isRun _ s)
  | nearMemoryCacheFill t addr sectors whole hint write => exact .inl (show ∃ f, execNearMemoryCacheFill t addr sectors whole hint write s = run f s from run_isRun _ s)
  | hbmChannelRun ch => exact .inl (show ∃ f, execHbmChannelRun ch s = run f s from run_isRun _ s)
  | hbmRefresh ch => exact .inl (show ∃ f, execHbmRefresh ch s = run f s from run_isRun _ s)
  | exceptionEntry t => exact .inl (show ∃ f, execExceptionEntry t s = run f s from run_isRun _ s)
  | windowExpiry t => exact .inl (show ∃ f, execWindowExpiry t s = run f s from run_isRun _ s)
  | timerCompare t second => exact .inl (show ∃ f, execTimerCompare t second s = run f s from run_isRun _ s)
  | fieldAdmission => exact .inl (show ∃ f, execFieldAdmission s = run f s from run_isRun _ s)
  | fieldCompletion => exact .inl (show ∃ f, execFieldCompletion s = run f s from run_isRun _ s)
  | fieldAbsentStop => exact .inl (show ∃ f, execFieldAbsentStop s = run f s from run_isRun _ s)
  | columnFail plot array => exact .inl (show ∃ f, execColumnFail plot array s = run f s from run_isRun _ s)
  | moverTransferStart die mover => exact .inl (show ∃ f, execMoverTransferStart die mover s = run f s from run_isRun _ s)
  | moverRun die mover => exact .inl (show ∃ f, execMoverRun die mover s = run f s from run_isRun _ s)
  | moverAbsentStop die mover => exact .inl (show ∃ f, execMoverAbsentStop die mover s = run f s from run_isRun _ s)
  | moverTransferComplete die mover => exact .inl (show ∃ f, execMoverTransferComplete die mover s = run f s from run_isRun _ s)
  | gateAdmission res inst => exact .inl (show ∃ f, execGateAdmission res inst s = run f s from run_isRun _ s)
  | periodBoundary beatsA beatsB faults => exact .inl (show ∃ f, execPeriodBoundary beatsA beatsB faults s = run f s from run_isRun _ s)
  | energyWindowEnd mj => exact .inl (show ∃ f, execEnergyWindowEnd mj s = run f s from run_isRun _ s)
  | shootdownDrainReport n use => exact .inl (show ∃ f, execShootdownDrainReport n use s = run f s from run_isRun _ s)
  | cmdPcountWrite fn ring value slots => exact .inl (show ∃ f, execCmdPcountWrite fn ring value slots s = run f s from run_isRun _ s)
  | evtPcountWrite fn ring value slots => exact .inl (show ∃ f, execEvtPcountWrite fn ring value slots s = run f s from run_isRun _ s)
  | rspCcountWrite fn ring value => exact .inl (show ∃ f, execRspCcountWrite fn ring value s = run f s from run_isRun _ s)
  | msgPcountWrite fn channel value slots => exact .inl (show ∃ f, execMsgPcountWrite fn channel value slots s = run f s from run_isRun _ s)
  | hostDoorbell fn d => exact .inl (show ∃ f, execHostDoorbell fn d s = run f s from run_isRun _ s)
  | messageIntake channel => exact .inl (show ∃ f, execMessageIntake channel s = run f s from run_isRun _ s)
  | commandIntake ring => exact .inl (show ∃ f, execCommandIntake ring s = run f s from run_isRun _ s)
  | eventIntake ring => exact .inl (show ∃ f, execEventIntake ring s = run f s from run_isRun _ s)
  | journalCommit => exact .inl (show ∃ f, execJournalCommit s = run f s from run_isRun _ s)
  | segmentDrain => exact .inl (show ∃ f, execSegmentDrain s = run f s from run_isRun _ s)
  | nopCommand seq => exact .inl (show ∃ f, execNopCommand seq s = run f s from run_isRun _ s)
  | runPlan seq => exact .inl (show ∃ f, execRunPlan seq s = run f s from run_isRun _ s)
  | planBind seq prefs => exact .inl (show ∃ f, execPlanBind seq prefs s = run f s from run_isRun _ s)
  | checkpoint seq => exact .inl (show ∃ f, execCheckpoint seq s = run f s from run_isRun _ s)
  | rollback seq prefs => exact .inl (show ∃ f, execRollback seq prefs s = run f s from run_isRun _ s)
  | planDone seq => exact .inl (show ∃ f, execPlanDone seq s = run f s from run_isRun _ s)
  | move seq => exact .inl (show ∃ f, execMove seq s = run f s from run_isRun _ s)
  | prefetch seq => exact .inl (show ∃ f, execPrefetch seq s = run f s from run_isRun _ s)
  | advise seq => exact .inl (show ∃ f, execAdvise seq s = run f s from run_isRun _ s)
  | invalidate seq => exact .inl (show ∃ f, execInvalidate seq s = run f s from run_isRun _ s)
  | sessionOpen seq => exact .inl (show ∃ f, execSessionOpen seq s = run f s from run_isRun _ s)
  | sessionClose seq => exact .inl (show ∃ f, execSessionClose seq s = run f s from run_isRun _ s)
  | sessionPark seq => exact .inl (show ∃ f, execSessionPark seq s = run f s from run_isRun _ s)
  | snapshot seq => exact .inl (show ∃ f, execSnapshot seq s = run f s from run_isRun _ s)
  | snapshotComplete => exact .inl (show ∃ f, execSnapshotComplete s = run f s from run_isRun _ s)
  | replayTo seq => exact .inl (show ∃ f, execReplayTo seq s = run f s from run_isRun _ s)
  | journalRead seq => exact .inl (show ∃ f, execJournalRead seq s = run f s from run_isRun _ s)
  | budgetSet seq => exact .inl (show ∃ f, execBudgetSet seq s = run f s from run_isRun _ s)
  | drain seq => exact .inl (show ∃ f, execDrain seq s = run f s from run_isRun _ s)
  | molt seq => exact .inl (show ∃ f, execMolt seq s = run f s from run_isRun _ s)
  | retire seq => exact .inl (show ∃ f, execRetire seq s = run f s from run_isRun _ s)
  | unitDrained unit => exact .inl (show ∃ f, execUnitDrained unit s = run f s from run_isRun _ s)
  | moltComplete unit ok bad => exact .inl (show ∃ f, execMoltComplete unit ok bad s = run f s from run_isRun _ s)
  | release seq => exact .inl (show ∃ f, execRelease seq s = run f s from run_isRun _ s)
  | twinPair seq => exact .inl (show ∃ f, execTwinPair seq s = run f s from run_isRun _ s)
  | twinMode seq => exact .inl (show ∃ f, execTwinMode seq s = run f s from run_isRun _ s)
  | twinFence seq => exact .inl (show ∃ f, execTwinFence seq s = run f s from run_isRun _ s)
  | twinTakeover seq => exact .inl (show ∃ f, execTwinTakeover seq s = run f s from run_isRun _ s)
  | twinResolve seq => exact .inl (show ∃ f, execTwinResolve seq s = run f s from run_isRun _ s)
  | invocationStart die pref => exact .inl (show ∃ f, execInvocationStart die pref s = run f s from run_isRun _ s)
  | invocationLimit t => exact .inl (show ∃ f, execInvocationLimit t s = run f s from run_isRun _ s)
  | decodeLoad t => exact .inl (show ∃ f, execDecodeLoad t s = run f s from run_isRun _ s)
  | decodeCheck => exact .inl (show ∃ f, execDecodeCheck s = run f s from run_isRun _ s)
  | decodeInstall => exact .inl (show ∃ f, execDecodeInstall s = run f s from run_isRun _ s)
  | violRead t => exact .inl (show ∃ f, execViolRead t s = run f s from run_isRun _ s)
  | errRead t => exact .inl (show ∃ f, execErrRead t s = run f s from run_isRun _ s)
  | xlinv t => exact .inl (show ∃ f, execXlinv t s = run f s from run_isRun _ s)
  | registerWrite fn off n value => exact .inl (show ∃ f, execRegisterWrite fn off n value s = run f s from run_isRun _ s)
  | ackWrite fn off value => exact .inl (show ∃ f, execAckWrite fn off value s = run f s from run_isRun _ s)
  | loReadLatch fn off n => exact .inl (show ∃ f, execLoReadLatch fn off n s = run f s from run_isRun _ s)
  | detWrite value => exact .inl (show ∃ f, execDetWrite value s = run f s from run_isRun _ s)
  | cfglockWrite value => exact .inl (show ∃ f, execCfglockWrite value s = run f s from run_isRun _ s)
  | dieReset dies => exact .inl (show ∃ f, execDieReset dies s = run f s from run_isRun _ s)
  | dieWedged die => exact .inl (show ∃ f, execDieWedged die s = run f s from run_isRun _ s)
  | take die slot => exact .inl (show ∃ f, execTake die slot s = run f s from run_isRun _ s)
  | cntSnap die => exact .inl (show ∃ f, execCntSnap die s = run f s from run_isRun _ s)
  | cntClear die => exact .inl (show ∃ f, execCntClear die s = run f s from run_isRun _ s)
  | weevilStart ch => exact .inl (show ∃ f, execWeevilStart ch s = run f s from run_isRun _ s)
  | weevilAbort ch => exact .inl (show ∃ f, execWeevilAbort ch s = run f s from run_isRun _ s)
  | weevilRunEnd ch part slots errs => exact .inl (show ∃ f, execWeevilRunEnd ch part slots errs s = run f s from run_isRun _ s)
  | scrubRead addr err cached => exact .inl (show ∃ f, execScrubRead addr err cached s = run f s from run_isRun _ s)
  | regenerationComplete sid => exact .inl (show ∃ f, execRegenerationComplete sid s = run f s from run_isRun _ s)
  | tierBankCopyEnd unit => exact .inl (show ∃ f, execTierBankCopyEnd unit s = run f s from run_isRun _ s)
  | restripeEnd stack lost => exact .inl (show ∃ f, execRestripeEnd stack lost s = run f s from run_isRun _ s)
  | channelGraceExpiry ch => exact .inl (show ∃ f, execChannelGraceExpiry ch s = run f s from run_isRun _ s)
  | vpDrainExpiry vp => exact .inl (show ∃ f, execVpDrainExpiry vp s = run f s from run_isRun _ s)
  | bridgeFlitRetry path good => exact .inl (show ∃ f, execBridgeFlitRetry path good s = run f s from run_isRun _ s)
  | traceRecordWrite buffer record => exact .inl (show ∃ f, execTraceRecordWrite buffer record s = run f s from run_isRun _ s)
  | holdupMeasure joules => exact .inl (show ∃ f, execHoldupMeasure joules s = run f s from run_isRun _ s)
  | nandRetentionRefresh used => exact .inl (show ∃ f, execNandRetentionRefresh used s = run f s from run_isRun _ s)
  | idle => exact .inl (show ∃ f, execIdle s = run f s from run_isRun _ s)
  | link ack nak credits jseqc => exact .inl (show ∃ f, execLink ack nak credits jseqc s = run f s from run_isRun _ s)
  | cicada tick epoch pairgen jseqc mode role saving dies molt => exact .inl (show ∃ f, execCicada tick epoch pairgen jseqc mode role saving dies molt s = run f s from run_isRun _ s)
  | cut tick epoch => exact .inl (show ∃ f, execCut tick epoch s = run f s from run_isRun _ s)
  | ctrl len msg => exact .inl (show ∃ f, execCtrl len msg s = run f s from run_isRun _ s)
  | jrec cls recs => exact .inl (show ∃ f, execJrec cls recs s = run f s from run_isRun _ s)
  | input len cls cmd lthread sstep index bytes => exact .inl (show ∃ f, execInput len cls cmd lthread sstep index bytes s = run f s from run_isRun _ s)
  | digest ctx digest => exact .inl (show ∃ f, execDigest ctx digest s = run f s from run_isRun _ s)
  | snap len part => exact .inl (show ∃ f, execSnap len part s = run f s from run_isRun _ s)
  | fetchReq len what => exact .inl (show ∃ f, execFetchReq len what s = run f s from run_isRun _ s)
  | fetchData len part => exact .inl (show ∃ f, execFetchData len part s = run f s from run_isRun _ s)
  | twinSilent => exact .inl (show ∃ f, execTwinSilent s = run f s from run_isRun _ s)
  | twinDegraded => exact .inl (show ∃ f, execTwinDegraded s = run f s from run_isRun _ s)
  | twinPresent mated => exact .inl (show ∃ f, execTwinPresent mated s = run f s from run_isRun _ s)
  | laneFailure down => exact .inl (show ∃ f, execLaneFailure down s = run f s from run_isRun _ s)
  | functionLevelReset fn => exact .inl (show ∃ f, execFunctionLevelReset fn s = run f s from run_isRun _ s)
  | perst asserted => exact .inl (show ∃ f, execPerst asserted s = run f s from run_isRun _ s)
  | configurationRequest fn ats => exact .inl (show ∃ f, execConfigurationRequest fn ats s = run f s from run_isRun _ s)
  | pcieLinkTraining gen width => exact .inl (show ∃ f, execPcieLinkTraining gen width s = run f s from run_isRun _ s)
  | bar4Access write off n data => exact .inl (show ∃ f, execBar4Access write off n data s = run f s from run_isRun _ s)
  | bar4Resize size => exact .inl (show ∃ f, execBar4Resize size s = run f s from run_isRun _ s)
  | atsTranslationCompletion fn page read write => exact .inl (show ∃ f, execAtsTranslationCompletion fn page read write s = run f s from run_isRun _ s)
  | atsInvalidateRequest fn page pages => exact .inl (show ∃ f, execAtsInvalidateRequest fn page pages s = run f s from run_isRun _ s)
  | invalidateCompletion => exact .inl (show ∃ f, execInvalidateCompletion s = run f s from run_isRun _ s)
  | ideKm stream key => exact .inl (show ∃ f, execIdeKm stream key s = run f s from run_isRun _ s)
  | measurements conn index signed => exact .inl (show ∃ f, execMeasurements conn index signed s = run f s from run_isRun _ s)
  | challenge conn slot => exact .inl (show ∃ f, execChallenge conn slot s = run f s from run_isRun _ s)
  | setCertificate conn slot chain => exact .inl (show ∃ f, execSetCertificate conn slot chain s = run f s from run_isRun _ s)
  | pqCert conn => exact .inl (show ∃ f, execPqCert conn s = run f s from run_isRun _ s)
  | pqSig conn => exact .inl (show ∃ f, execPqSig conn s = run f s from run_isRun _ s)
  | ownerEnroll conn keyEd keyMl sigEd sigMl => exact .inl (show ∃ f, execOwnerEnroll conn keyEd keyMl sigEd sigMl s = run f s from run_isRun _ s)
  | ownerRelease conn sigEd sigMl => exact .inl (show ∃ f, execOwnerRelease conn sigEd sigMl s = run f s from run_isRun _ s)
  | recordSupply conn kind gen epoch wtick body sigEd sigMl => exact .inl (show ∃ f, execRecordSupply conn kind gen epoch wtick body sigEd sigMl s = run f s from run_isRun _ s)
  | firmwareTransfer comp off data => exact .inl (show ∃ f, execFirmwareTransfer comp off data s = run f s from run_isRun _ s)
  | verifyComplete comp => exact .inl (show ∃ f, execVerifyComplete comp s = run f s from run_isRun _ s)
  | activateFirmware comp => exact .inl (show ∃ f, execActivateFirmware comp s = run f s from run_isRun _ s)
  | pwrEnAssert => exact .inr ⟨rfl, show ∃ f, execPwrEnAssert s = runAny f s from ⟨_, rfl⟩⟩
  | pwrGood tests => exact .inr ⟨rfl, show ∃ f, execPwrGood tests s = runAny f s from ⟨_, rfl⟩⟩
  | holdOk => exact .inl (show ∃ f, execHoldOk s = run f s from run_isRun _ s)
  | pwrEnDeassert => exact .inr ⟨rfl, show ∃ f, execPwrEnDeassert s = runAny f s from ⟨_, rfl⟩⟩
  | powerCut mv => exact .inr ⟨rfl, show ∃ f, execPowerCut mv s = runAny f s from ⟨_, rfl⟩⟩
  | overvoltage mv long => exact .inr ⟨rfl, show ∃ f, execOvervoltage mv long s = runAny f s from ⟨_, rfl⟩⟩
  | inputTransient peak => exact .inl (show ∃ f, execInputTransient peak s = run f s from run_isRun _ s)
  | inputReturn mv => exact .inr ⟨rfl, show ∃ f, execInputReturn mv s = runAny f s from ⟨_, rfl⟩⟩
  | thermalShutdown die => exact .inl (show ∃ f, execThermalShutdown die s = run f s from run_isRun _ s)
  | coolantShutdown => exact .inl (show ∃ f, execCoolantShutdown s = run f s from run_isRun _ s)
  | instructionCacheFill t line => exact .inl (show ∃ f, execInstructionCacheFill t line s = run f s from run_isRun _ s)
  | neraxoLinkUp lanes16 => exact .inl (show ∃ f, execNeraxoLinkUp lanes16 s = run f s from run_isRun _ s)
  | neraxoFrameReject => exact .inl (show ∃ f, execNeraxoFrameReject s = run f s from run_isRun _ s)
  | commandParityError ch => exact .inl (show ∃ f, execCommandParityError ch s = run f s from run_isRun _ s)
  | sensorUpdate id value => exact .inl (show ∃ f, execSensorUpdate id value s = run f s from run_isRun _ s)
  | spdmRequest conn req => exact .inl (show ∃ f, execSpdmRequest conn req s = run f s from run_isRun _ s)
  | unitFailure unit => exact .inl (show ∃ f, execUnitFailure unit s = run f s from run_isRun _ s)
  | refclkLoss present => exact .inl (show ∃ f, execRefclkLoss present s = run f s from run_isRun _ s)

/-- Every command is some effect run on the machine: it never faults and is never refused. -/
theorem exec_runs (c : Instr) (s : State) : ∃ f, exec c s = runAny f s := by
  rcases exec_shape c s with ⟨f, h⟩ | ⟨_, h⟩
  · obtain ⟨g, hg⟩ := run_runs f s
    exact ⟨g, h.trans hg⟩
  · exact h

/-- What a command that runs leaves: the queue, and memory in its canonical form. -/
theorem runAny_keeps {f : Mach → Mach} {s s' : State} (h : runAny f s = .next s') :
    s'.pending = s.pending ∧ (memWf s.mem = true → memWf s'.mem = true) := by
  rw [runAny_eq] at h
  injection h with h
  subst h
  exact ⟨rfl, fun hm => memWf_memApply _ _ (twf_filter _ _ _ hm)⟩

end Sys2Proof.Machine
end

