-- ==== Sys2Proof/Laws/Registers.lean ====
section
/-! SUPPORT. The registers of a thread: reading after writing, and what a write leaves. -/

namespace Sys2Proof.Machine
open Sys2Proof

theorem reg_ext {r q : Reg} (h : r.toNat = q.toNat) : r = q := BitVec.eq_of_toNat_eq h

@[simp] theorem getG_zero (th : Thread) : getG th 0#5 = 0 := rfl
@[simp] theorem putG_zero (v : W64) (th : Thread) : putG 0#5 v th = th := rfl

/-- What a write to a g register is outside group mode. -/
theorem putG_eq {th : Thread} (h : th.gm = false) {r : Reg} (hr : r ≠ 0) (v : W64) :
    putG r v th = { th with g := twrite 0 th.g r.toNat v } := by
  simp only [putG, hr, if_false, curGroup_none h]

/-- A write to a g register changes the g registers alone. -/
theorem putG_frame {th : Thread} (h : th.gm = false) (r : Reg) (v : W64) : ∃ g, putG r v th = { th with g := g } := by
  by_cases hr : r = 0
  · subst hr; exact ⟨th.g, rfl⟩
  · exact ⟨_, putG_eq h hr v⟩

theorem getG_eq {th : Thread} (h : th.gm = false) {r : Reg} (hr : r ≠ 0) : getG th r = tread 0 th.g r.toNat := by
  simp only [getG, hr, if_false, curGroup_none h]

/-- Reading a g register after one is written (R146). -/
theorem getG_putG {th : Thread} (h : th.gm = false) (rd r : Reg) (v : W64) :
    getG (putG rd v th) r = if r = rd ∧ rd ≠ 0 then v else getG th r := by
  by_cases hd : rd = 0
  · subst hd
    rw [if_neg (fun e => e.2 rfl)]
    rfl
  · rw [putG_eq h hd]
    by_cases hr : r = 0
    · subst hr
      rw [if_neg (fun e => hd e.1.symm)]
      rfl
    · have e1 := getG_eq (th := { th with g := twrite 0 th.g rd.toNat v }) h hr
      rw [e1, getG_eq h hr]
      dsimp only
      rw [tread_twrite]
      by_cases he : r = rd
      · subst he; rw [if_pos rfl, if_pos ⟨rfl, hd⟩]
      · rw [if_neg (fun e => he (reg_ext e)), if_neg (fun e => he e.1)]

/-- Reading a vector register after one is written. -/
theorem getV_putV (rd r : Reg) (v : VReg) (th : Thread) : getV (putV rd v th) r = if r = rd then v else getV th r := by
  unfold getV putV
  dsimp only
  rw [tread_twrite]
  by_cases he : r = rd
  · subst he; simp
  · have : r.toNat ≠ rd.toNat := fun e => he (reg_ext e)
    simp [he, this]

/-- A write to a vector register changes the vector registers alone. -/
theorem putV_frame (r : Reg) (v : VReg) (th : Thread) : ∃ x, putV r v th = { th with v := x } := ⟨_, rfl⟩

theorem putF_frame (r : Reg) (v : W64) (th : Thread) : ∃ x, putF r v th = { th with v := x } := ⟨_, rfl⟩

/-- Reading a predicate after one is written. -/
theorem getP_putP (d p : BitVec 3) (v : PReg) (th : Thread) : getP (putP d v th) p = if p = d then v else getP th p := by
  unfold getP putP
  dsimp only
  rw [tread_twrite]
  by_cases he : p = d
  · subst he; simp
  · have : p.toNat ≠ d.toNat := fun e => he (BitVec.eq_of_toNat_eq e)
    simp [he, this]

/-- Joining a low word to a high part. -/
theorem low_join (old : VReg) (v : W64) :
    ((old >>> 64) <<< 64 ||| v.setWidth 65536).setWidth 64 = v ∧
      ((old >>> 64) <<< 64 ||| v.setWidth 65536) >>> 64 = old >>> 64 := by
  constructor
  · apply BitVec.eq_of_getLsbD_eq
    intro i hi
    have : i < 65536 := by omega
    simp [hi]
  · apply BitVec.eq_of_getLsbD_eq
    intro i hi
    simp only [BitVec.getLsbD_ushiftRight, BitVec.getLsbD_or, BitVec.getLsbD_shiftLeft, BitVec.getLsbD_setWidth]
    have h1 : ¬(64 + i < 64) := by omega
    have h2 : v.getLsbD (64 + i) = false := BitVec.getLsbD_of_ge _ _ (by omega)
    have h3 : 64 + (64 + i - 64) = 64 + i := by omega
    simp only [h1, h2, h3, decide_false, Bool.not_false, Bool.and_true, Bool.and_false, Bool.or_false]
    by_cases h4 : 64 + i < 65536
    · simp [h4]
    · have : old.getLsbD (64 + i) = false := BitVec.getLsbD_of_ge _ _ (by omega)
      simp [this]

/-- Reading fN after one is written (R147). -/
theorem getF_putF (rd r : Reg) (v : W64) (th : Thread) : getF (putF rd v th) r = if r = rd then v else getF th r := by
  unfold getF putF
  dsimp only
  rw [getV_putV]
  by_cases he : r = rd
  · subst he; simp only [if_true]; exact (low_join _ v).1
  · simp [he]

/-! ### Instructions that write registers of their thread -/

/-- What retirement looks at is the same in both. -/
def Alike (a b : Thread) : Prop := a.gm = b.gm ∧ a.residue = b.residue ∧ a.stopAt = b.stopAt ∧ a.step = b.step

theorem alike_putG {th : Thread} (h : th.gm = false) (r : Reg) (v : W64) : Alike (putG r v th) th := by
  obtain ⟨g, hg⟩ := putG_frame h r v
  rw [hg]; exact ⟨rfl, rfl, rfl, rfl⟩

theorem alike_putF (r : Reg) (v : W64) (th : Thread) : Alike (putF r v th) th := ⟨rfl, rfl, rfl, rfl⟩

/-- Spec of `issue` for an effect on the thread's registers alone. -/
theorem issue_gives {e : Nat} {t : Tid} {s : State} {f : Mach → Mach} {r : Ret} {g : Thread → Thread} (hC : Calm e t s)
    (hf : ∀ w, thr w t = threadOf s t → f w = retire t r (updThr t g w)) (ha : Alike (g (threadOf s t)) (threadOf s t))
    (he : r.energy.getD (15 * ceilDiv r.cost 8) ≤ e) :
    ∃ s', issue t f s = .next s' ∧ OnlyThread t s s' ∧ Retired r.words r.target (g (threadOf s t)) (threadOf s' t) :=
  issue_retires hC (fun w hw => by rw [hf w hw, updThr, hw]) ha.1 ha.2.1 ha.2.2.1 ha.2.2.2 he

/-- An effect on the thread's registers that retires as one word. -/
theorem gives_of {e : Nat} {t : Tid} {s : State} {i : Instr} {f : Mach → Mach} {c : Nat} {g : Thread → Thread}
    (hC : Calm e t s) (hi : exec i s = issue t f s)
    (hf : ∀ w, thr w t = threadOf s t → f w = retire t { cost := c } (updThr t g w))
    (ha : Alike (g (threadOf s t)) (threadOf s t)) (he : 15 * ceilDiv c 8 ≤ e) : Gives t s i g := by
  unfold Gives Completes CompletesFrom
  rw [hi]
  exact issue_gives hC hf ha he

theorem writesG_of {e : Nat} {t : Tid} {s : State} {i : Instr} {f : Mach → Mach} {c : Nat} {rd : Reg} {v : W64}
    (hC : Calm e t s) (hi : exec i s = issue t f s)
    (hf : ∀ w, thr w t = threadOf s t → f w = retire t { cost := c } (setG t rd v w)) (he : 15 * ceilDiv c 8 ≤ e) :
    WritesG t s i rd v :=
  gives_of hC hi hf (alike_putG hC.2.2.1 rd v) he

theorem writesF_of {e : Nat} {t : Tid} {s : State} {i : Instr} {f : Mach → Mach} {c : Nat} {rd : Reg} {v : Nat}
    (hC : Calm e t s) (hi : exec i s = issue t f s)
    (hf : ∀ w, thr w t = threadOf s t → f w = retire t { cost := c } (updThr t (putF rd (BitVec.ofNat 64 v)) w))
    (he : 15 * ceilDiv c 8 ≤ e) : WritesF t s i rd v :=
  gives_of hC hi hf (alike_putF rd _ _) he

end Sys2Proof.Machine
end

