-- ==== Sys2Proof/Laws/Memory.lean ====
section
/-! SUPPORT. What a command's writes leave in device memory. -/

namespace Sys2Proof.Machine
open Sys2Proof

/-- What a command leaves at an address is what it last saw there. -/
theorem storedByte_runAny {f : Mach → Mach} {s s' : State} (h : runAny f s = .next s')
    (hm : (f (begin s)).mem = s.mem) (x : Nat) : storedByte s' x = rawByte (f (begin s)) x := by
  rw [runAny_eq] at h
  injection h with h
  subst h
  unfold storedByte rawByte
  dsimp only
  rw [memByte_memApply, hm]
  unfold memByte
  rw [tread_filter_key (0 : Byte) s.mem (fun a => !inGone (f (begin s)).gone a) x]
  cases inGone (f (begin s)).gone x <;> rfl

@[simp] theorem putBytes_m (a : Nat) (bs : List Byte) (w : Mach) : (putBytes a bs w).m = w.m := by
  induction bs generalizing a w with
  | nil => rfl
  | cons b r ih => exact ih (a + 1) (putByte a b w)
@[simp] theorem putBytes_mem (a : Nat) (bs : List Byte) (w : Mach) : (putBytes a bs w).mem = w.mem := by
  induction bs generalizing a w with
  | nil => rfl
  | cons b r ih => exact ih (a + 1) (putByte a b w)
@[simp] theorem putBytes_gone (a : Nat) (bs : List Byte) (w : Mach) : (putBytes a bs w).gone = w.gone := by
  induction bs generalizing a w with
  | nil => rfl
  | cons b r ih => exact ih (a + 1) (putByte a b w)
@[simp] theorem putBytes_asking (a : Nat) (bs : List Byte) (w : Mach) : (putBytes a bs w).asking = w.asking := by
  induction bs generalizing a w with
  | nil => rfl
  | cons b r ih => exact ih (a + 1) (putByte a b w)
@[simp] theorem putBytes_asked (a : Nat) (bs : List Byte) (w : Mach) : (putBytes a bs w).asked = w.asked := by
  induction bs generalizing a w with
  | nil => rfl
  | cons b r ih => exact ih (a + 1) (putByte a b w)

/-- Reading a byte after one is written. -/
theorem rawByte_putByte (a : Nat) (b : Byte) (w : Mach) (x : Nat) :
    rawByte (putByte a b w) x = if x = a then b else rawByte w x := by
  unfold rawByte putByte
  dsimp only
  by_cases h : x = a
  · subst h; simp [tget]
  · simp [tget, h, Ne.symm h]

/-- Reading a byte after some are written: those written, and every other as before. -/
theorem rawByte_putBytes (a : Nat) (bs : List Byte) (w : Mach) (x : Nat) :
    rawByte (putBytes a bs w) x = if a ≤ x ∧ x < a + bs.length then bs.getD (x - a) 0 else rawByte w x := by
  induction bs generalizing a w with
  | nil =>
    have : ¬(a ≤ x ∧ x < a + ([] : List Byte).length) := by simp
    rw [if_neg this]; rfl
  | cons b r ih =>
    show rawByte (putBytes (a + 1) r (putByte a b w)) x = _
    rw [ih, rawByte_putByte]
    by_cases h : x = a
    · subst h
      rw [if_neg (by omega), if_pos rfl, if_pos (by simp)]
      simp
    · by_cases h2 : a + 1 ≤ x ∧ x < a + 1 + r.length
      · rw [if_pos h2, if_pos (by simp; omega)]
        obtain ⟨k, hk⟩ : ∃ k, x - a = k + 1 := ⟨x - a - 1, by omega⟩
        rw [hk, show x - (a + 1) = k by omega]
        simp
      · rw [if_neg h2, if_neg h, if_neg (by simp; omega)]

end Sys2Proof.Machine
end

