-- ==== Sys2Proof/Laws/Mine.lean ====
section
/-! SUPPORT. Collecting a thread's requests changes nothing that an access reads. -/

namespace Sys2Proof.Machine
open Sys2Proof

variable (t : Tid) (w : Mach)

@[simp] theorem mine_m : (mine t w).m = w.m := rfl
@[simp] theorem mine_mem : (mine t w).mem = w.mem := rfl
@[simp] theorem mine_wr : (mine t w).wr = w.wr := rfl
@[simp] theorem mine_gone : (mine t w).gone = w.gone := rfl
@[simp] theorem mine_asked : (mine t w).asked = [] := rfl
@[simp] theorem thr_mine (u : Tid) : thr (mine t w) u = thr w u := rfl
@[simp] theorem vpOf_mine (v : Nat) : vpOf (mine t w) v = vpOf w v := rfl
@[simp] theorem rawByte_mine (a : Nat) : rawByte (mine t w) a = rawByte w a := rfl
@[simp] theorem byteAt_mine (a : Nat) : byteAt (mine t w) a = byteAt w a := rfl
@[simp] theorem readBytes_mine (a n : Nat) : readBytes (mine t w) a n = readBytes w a n := rfl
@[simp] theorem readNum_mine (a n : Nat) : readNum (mine t w) a n = readNum w a n := rfl
@[simp] theorem regionOf_mine (a : Nat) : regionOf (mine t w) a = regionOf w a := rfl
@[simp] theorem isDevice_mine (a : Nat) : isDevice (mine t w) a = isDevice w a := rfl
@[simp] theorem fencedDie_mine (a : Nat) : fencedDie (mine t w) a = fencedDie w a := rfl
@[simp] theorem fencedAddr_mine (a : Nat) : fencedAddr (mine t w) a = fencedAddr w a := rfl
@[simp] theorem inSessTable_mine (a : Nat) : inSessTable (mine t w) a = inSessTable w a := rfl
@[simp] theorem readEntry_mine (a : Nat) : readEntry (mine t w) a = readEntry w a := rfl

@[simp] theorem walkFrom_mine (va l b : Nat) : walkFrom (mine t w) va l b = walkFrom w va l b := by
  induction l generalizing b with
  | zero => rfl
  | succ l ih => simp only [walkFrom, readEntry_mine, ih]

@[simp] theorem walk_mine (x : W64) (va : Nat) : walk (mine t w) x va = walk w x va := by simp only [walk, walkFrom_mine]

@[simp] theorem translate_mine (tlb : List TlbEntry) (c : Ctx) (va : Nat) :
    translate (mine t w) tlb c va = translate w tlb c va := by simp only [translate, walk_mine]

@[simp] theorem pieces_mine (tlb : List TlbEntry) (c : Ctx) (n : Need) (ok : Nat → Bool) (va len : Nat) :
    pieces (mine t w) tlb c n ok va len = pieces w tlb c n ok va len := by
  simp only [pieces, translate_mine, fencedDie_mine, inSessTable_mine]; rfl

@[simp] theorem scalarPieces_mine (u : Tid) (n : Need) (va len : Nat) :
    scalarPieces (mine t w) u n va len = scalarPieces w u n va len := by
  simp only [scalarPieces, pieces_mine, thr_mine, vpOf_mine]; rfl

@[simp] theorem threadPieces_mine (u : Tid) (n : Need) (va len : Nat) :
    threadPieces (mine t w) u n va len = threadPieces w u n va len := by
  simp only [threadPieces, pieces_mine, thr_mine, vpOf_mine]; rfl

@[simp] theorem loadByte_mine (th : Thread) (a : Nat) : loadByte (mine t w) th a = loadByte w th a := rfl

@[simp] theorem loadPieces_mine (th : Thread) (cs : List Chunk) : loadPieces (mine t w) th cs = loadPieces w th cs := rfl

@[simp] theorem missing_mine (v : Nat) (cs : List Chunk) : missing (mine t w) v cs = missing w v cs := rfl

/-! ### Accesses that are granted -/

/-- Nothing is logged of pieces that may all be accessed. -/
theorem logDenied_granted (u : Tid) (wr : Bool) (word : W32) {cs : List Chunk} (h : ∀ c ∈ cs, c.pa.isSome = true) :
    logDenied u wr word cs w = w := by
  unfold logDenied
  dsimp only
  induction cs generalizing w with
  | nil => rfl
  | cons c r ih =>
    rw [List.foldl_cons]
    have hc := h c (by simp)
    have : c.pa.isNone = false := by cases hp : c.pa <;> simp_all
    rw [this]
    exact ih w (fun d hd => h d (by simp [hd]))

/-- A read of memory without errors is only a read. -/
theorem readCheck_sound (u : Tid) (cs : List Chunk) (h : w.m.hw.bad = []) : readCheck u cs w = w := by
  simp [readCheck, h]

theorem Beside.hw {t : Tid} {w w' : Mach} (h : Beside t w w') : w'.m.hw = w.m.hw := by
  have h7 := h.2.2.2.2.2.2
  rw [← h7]

end Sys2Proof.Machine
end

