-- ==== Sys2Proof/Laws/Uses.lean ====
section
/-! SUPPORT. Notes of writes, outputs not yet covered, and the walks of an access: when they change nothing. -/

namespace Sys2Proof.Machine
open Sys2Proof

/-- A noted write changes the log of noted writes alone. -/
theorem note_eq (n : WNote) (w : Mach) : ∃ l, note n w = onM (fun m => { m with wlog := l }) w := by
  by_cases h : watching w = true
  · exact ⟨n :: w.m.wlog, by rw [note, if_pos h]; rfl⟩
  · exact ⟨w.m.wlog, by rw [note, if_neg h]; rfl⟩

/-- With nothing posted, no write is noted. -/
theorem note_idle {w : Mach} (h : watching w = false) (n : WNote) : note n w = w := by simp [note, h]

@[simp] theorem note_mem (n : WNote) (w : Mach) : (note n w).mem = w.mem := by obtain ⟨l, h⟩ := note_eq n w; rw [h]; rfl
@[simp] theorem note_gone (n : WNote) (w : Mach) : (note n w).gone = w.gone := by obtain ⟨l, h⟩ := note_eq n w; rw [h]; rfl
@[simp] theorem note_wr (n : WNote) (w : Mach) : (note n w).wr = w.wr := by obtain ⟨l, h⟩ := note_eq n w; rw [h]; rfl
@[simp] theorem thr_note (n : WNote) (w : Mach) (t : Tid) : thr (note n w) t = thr w t := by
  obtain ⟨l, h⟩ := note_eq n w; rw [h]; rfl

/-- A write over pieces notes at most, too. -/
theorem notePieces_eq (mk : Nat → Nat → WNote) (cs : List Chunk) (w : Mach) :
    ∃ l, notePieces mk cs w = onM (fun m => { m with wlog := l }) w := by
  unfold notePieces
  induction cs generalizing w with
  | nil => exact ⟨w.m.wlog, rfl⟩
  | cons c r ih =>
    rw [List.foldl_cons]
    cases h : c.pa with
    | none => exact ih w
    | some a =>
      obtain ⟨l, hl⟩ := note_eq (mk a c.len) w
      obtain ⟨l', hl'⟩ := ih (onM (fun m => { m with wlog := l }) w)
      exact ⟨l', by dsimp only; rw [hl, hl']; rfl⟩

/-- A byte outside every uncovered output reads as memory holds it (R106). -/
theorem seenByte_covered {w : Mach} {a : Nat} (h : outOpen w a = false) : seenByte w a = byteAt w a := by
  simp [seenByte, h]

/-- Without operations posted, a thread reads memory as it stands. -/
theorem seenByte_noQueues {w : Mach} (h : w.m.fqueues = []) (a : Nat) : seenByte w a = byteAt w a :=
  seenByte_covered (by simp [outOpen, h])

/-- Where every address is without a page or found in the buffer, no table is read (R282, R284). -/
theorem chargeWalks_none (who : Asker) (cls die : Nat) (tlb : List TlbEntry) (c : Ctx) (vas : List Nat) (w : Mach)
    (h : ∀ a ∈ vas, 2 ^ 48 ≤ a ∨ (tlbHit tlb c.asid a).isSome = true) : chargeWalks who cls die tlb c vas w = w := by
  unfold chargeWalks
  suffices ∀ r : Mach × Option Leaf, (vas.foldl (fun (r : Mach × Option Leaf) va =>
      let same := match r.2 with | some l => decide (l.va ≤ va ∧ va < l.va + l.size) | none => false
      if same || decide (2 ^ 48 ≤ va) || (tlbHit tlb c.asid va).isSome then r
      else
        ((walkTables r.1 va 3 (bits c.xlbase.toNat 12 36 * 4096)).foldl (fun w a => chargeTableRead who cls die a w) r.1,
         walk r.1 c.xlbase va)) r).1 = r.1 from this (w, none)
  induction vas with
  | nil => intro r; rfl
  | cons a l ih =>
    intro r
    rw [List.foldl_cons]
    have ha := h a (by simp)
    have hs : ∀ b : Bool, (b || decide (2 ^ 48 ≤ a) || (tlbHit tlb c.asid a).isSome) = true := by
      intro b
      rcases ha with ha | ha
      · simp only [decide_eq_true ha, Bool.or_true, Bool.true_or]
      · simp only [ha, Bool.or_true]
    simp only [hs, if_true]
    exact ih (fun x hx => h x (by simp [hx])) r

/-- An access that needs no walk asks for none. -/
theorem threadWalks_none (t : Tid) (va len : Nat) (w : Mach)
    (h : ∀ a ∈ pagesOf va len, 2 ^ 48 ≤ a ∨ (tlbHit (vpOf w t.vp.toNat).tlb (ctxOf (thr w t)).asid a).isSome = true) :
    threadWalks t va len w = w := by
  have hp : missedPages w t va len = [] := by
    rw [missedPages, List.filter_eq_nil_iff]
    intro a ha hb
    rw [Bool.and_eq_true, decide_eq_true_iff] at hb
    rcases h a ha with h1 | h1
    · omega
    · have : (tlbHit (vpOf w t.vp.toNat).tlb (thr w t).asid a).isNone = false := by
        cases hx : tlbHit (vpOf w t.vp.toNat).tlb (thr w t).asid a with
        | none => rw [show (ctxOf (thr w t)).asid = (thr w t).asid from rfl, hx] at h1; exact absurd h1 (by decide)
        | some _ => rfl
      rw [this] at hb
      exact absurd hb.2 (by decide)
  simp [threadWalks, hp]

end Sys2Proof.Machine
end

