-- ==== Sys2Proof/Laws/Vector.lean ====
section
/-! SUPPORT. Elements of a vector register: reading after some are replaced. -/

namespace Sys2Proof.Machine
open Sys2Proof

/-- Digit `i` in base `B` of a number. -/
theorem digit_split (n B i : Nat) : n = n / B ^ (i + 1) * B ^ (i + 1) + n / B ^ i % B * B ^ i + n % B ^ i := by
  have h1 := Nat.div_add_mod n (B ^ i)
  have h2 := Nat.div_add_mod (n / B ^ i) B
  rw [Nat.div_div_eq_div_mul, ← Nat.pow_succ] at h2
  have h3 : B ^ (i + 1) = B ^ i * B := Nat.pow_succ ..
  calc n = B ^ i * (n / B ^ i) + n % B ^ i := h1.symm
    _ = B ^ i * (B * (n / B ^ (i + 1)) + n / B ^ i % B) + n % B ^ i := by rw [h2]
    _ = _ := by rw [h3, Nat.mul_add]; ac_rfl

/-- Replacing digit `i` of a number. -/
def putDigit (B n i x : Nat) : Nat := n - n / B ^ i % B * B ^ i + x % B * B ^ i

theorem putDigit_eq (B n i x : Nat) :
    putDigit B n i x = n / B ^ (i + 1) * B ^ (i + 1) + x % B * B ^ i + n % B ^ i := by
  have h := digit_split n B i
  unfold putDigit
  generalize n / B ^ (i + 1) * B ^ (i + 1) = q at h ⊢
  generalize n / B ^ i % B * B ^ i = d at h ⊢
  generalize n % B ^ i = r at h ⊢
  omega

/-- Reading a digit after one is replaced. -/
theorem putDigit_get {B : Nat} (hB : 0 < B) (n i x k : Nat) :
    putDigit B n i x / B ^ k % B = if k = i then x % B else n / B ^ k % B := by
  have hp : ∀ j, 0 < B ^ j := fun j => Nat.pow_pos hB
  rw [putDigit_eq]
  by_cases hk : k = i
  · subst hk
    rw [if_pos rfl]
    have e : n / B ^ (k + 1) * B ^ (k + 1) + x % B * B ^ k + n % B ^ k
        = (n / B ^ (k + 1) * B + x % B) * B ^ k + n % B ^ k := by
      rw [Nat.add_mul, Nat.pow_succ]; ac_rfl
    rw [e, Nat.mul_comm _ (B ^ k), Nat.mul_add_div (hp k), Nat.div_eq_of_lt (Nat.mod_lt _ (hp k)), Nat.add_zero,
      Nat.mul_comm, Nat.mul_add_mod, Nat.mod_mod]
  · rw [if_neg hk]
    rcases Nat.lt_or_ge k i with h | h
    · -- a lower digit: only multiples of B ^ (k + 1) have changed
      obtain ⟨d, hd⟩ : ∃ d, i = k + 1 + d := ⟨i - k - 1, by omega⟩
      have key : ∀ a b : Nat, (a * B ^ (i + 1) + b * B ^ i + n % B ^ i) / B ^ k % B = n % B ^ i / B ^ k % B := by
        intro a b
        have e : a * B ^ (i + 1) + b * B ^ i + n % B ^ i = B ^ k * (B * (a * B ^ (d + 1) + b * B ^ d)) + n % B ^ i := by
          subst hd
          have e1 : B ^ (k + 1 + d + 1) = B ^ k * B * B ^ (d + 1) := by
            rw [← Nat.pow_succ, ← Nat.pow_add]; congr 1
          have e2 : B ^ (k + 1 + d) = B ^ k * B * B ^ d := by
            rw [← Nat.pow_succ, ← Nat.pow_add]
          rw [e1, e2, Nat.mul_add, Nat.mul_add]
          congr 1
          ac_rfl
        rw [e, Nat.mul_add_div (hp k), Nat.mul_add_mod]
      rw [key, ← key (n / B ^ (i + 1)) (n / B ^ i % B), ← digit_split]
    · -- a higher digit
      obtain ⟨d, hd⟩ : ∃ d, k = i + 1 + d := ⟨k - i - 1, by omega⟩
      have hx : x % B * B ^ i + n % B ^ i < B ^ (i + 1) := by
        have h1 := Nat.mod_lt x hB
        have h2 := Nat.mod_lt n (hp i)
        have h3 : (x % B + 1) * B ^ i ≤ B * B ^ i := Nat.mul_le_mul_right _ h1
        rw [Nat.add_mul, Nat.one_mul] at h3
        rw [Nat.pow_succ, Nat.mul_comm (B ^ i)]
        omega
      have e : (n / B ^ (i + 1) * B ^ (i + 1) + x % B * B ^ i + n % B ^ i) / B ^ (i + 1) = n / B ^ (i + 1) := by
        rw [Nat.add_assoc, Nat.mul_comm, Nat.mul_add_div (hp _), Nat.div_eq_of_lt hx, Nat.add_zero]
      rw [hd, Nat.pow_add B (i + 1) d, ← Nat.div_div_eq_div_mul, e, Nat.div_div_eq_div_mul]

theorem putDigit_lt {B n i x C : Nat} (hB : 0 < B) (hn : n < B ^ (i + 1) * C) : putDigit B n i x < B ^ (i + 1) * C := by
  have hp : ∀ j, 0 < B ^ j := fun j => Nat.pow_pos hB
  rw [putDigit_eq]
  have hx : x % B * B ^ i + n % B ^ i < B ^ (i + 1) := by
    have h1 := Nat.mod_lt x hB
    have h2 := Nat.mod_lt n (hp i)
    have h3 : (x % B + 1) * B ^ i ≤ B * B ^ i := Nat.mul_le_mul_right _ h1
    rw [Nat.add_mul, Nat.one_mul] at h3
    rw [Nat.pow_succ, Nat.mul_comm (B ^ i)]
    omega
  have hq : n / B ^ (i + 1) < C := by
    rw [Nat.div_lt_iff_lt_mul (hp _), Nat.mul_comm]; exact hn
  have h4 : (n / B ^ (i + 1) + 1) * B ^ (i + 1) ≤ C * B ^ (i + 1) := Nat.mul_le_mul_right _ hq
  rw [Nat.add_mul, Nat.one_mul, Nat.mul_comm C] at h4
  omega

/-- Reading an element is reading a digit. -/
theorem vget_eq (w : Nat) (v : VReg) (i : Nat) : vget w v i = v.toNat / (2 ^ w) ^ i % 2 ^ w := by
  unfold vget
  rw [Nat.shiftRight_eq_div_pow, Nat.mul_comm, Nat.pow_mul]

/-- What replacing some elements leaves in each: the last value given for it, else what it held. -/
theorem vget_vset {w : Nat} (v : VReg) (es : List (Nat × Nat))
    (he : ∀ e ∈ es, (e.1 + 1) * w ≤ 65536) (k : Nat) :
    vget w (vset w v es) k = (es.foldl (fun o e => if e.1 = k then e.2 % 2 ^ w else o) (vget w v k)) := by
  have hB : 0 < 2 ^ w := Nat.pow_pos (by decide)
  have hfold : ∀ (es : List (Nat × Nat)) (n : Nat), (∀ e ∈ es, (e.1 + 1) * w ≤ 65536) → n < 2 ^ 65536 →
      (es.foldl (fun n e => n - ((n >>> (e.1 * w)) % 2 ^ w) <<< (e.1 * w) + (e.2 % 2 ^ w) <<< (e.1 * w)) n) < 2 ^ 65536 ∧
      (es.foldl (fun n e => n - ((n >>> (e.1 * w)) % 2 ^ w) <<< (e.1 * w) + (e.2 % 2 ^ w) <<< (e.1 * w)) n)
        / (2 ^ w) ^ k % 2 ^ w = es.foldl (fun o e => if e.1 = k then e.2 % 2 ^ w else o) (n / (2 ^ w) ^ k % 2 ^ w) := by
    intro es
    induction es with
    | nil => intro n _ hn; exact ⟨hn, rfl⟩
    | cons e r ih =>
      intro n he hn
      have hs : n - ((n >>> (e.1 * w)) % 2 ^ w) <<< (e.1 * w) + (e.2 % 2 ^ w) <<< (e.1 * w)
          = putDigit (2 ^ w) n e.1 e.2 := by
        unfold putDigit
        rw [Nat.shiftLeft_eq, Nat.shiftLeft_eq, Nat.shiftRight_eq_div_pow, Nat.mul_comm e.1 w, Nat.pow_mul]
      have hlt : putDigit (2 ^ w) n e.1 e.2 < 2 ^ 65536 := by
        have h1 := he e (by simp)
        have h2 : 2 ^ 65536 = (2 ^ w) ^ (e.1 + 1) * 2 ^ (65536 - (e.1 + 1) * w) := by
          rw [← Nat.pow_mul, ← Nat.pow_add, Nat.mul_comm w]; congr 1; omega
        rw [h2] at hn ⊢
        exact putDigit_lt hB hn
      rw [List.foldl_cons, List.foldl_cons, hs]
      have := ih (putDigit (2 ^ w) n e.1 e.2) (fun d hd => he d (by simp [hd])) hlt
      rw [putDigit_get hB] at this
      refine ⟨this.1, this.2.trans ?_⟩
      congr 1
      by_cases h : k = e.1
      · simp [h]
      · simp [h, Ne.symm h]
  rw [vget_eq, vget_eq]
  unfold vset
  have := hfold es v.toNat he v.isLt
  rw [BitVec.toNat_ofNat, Nat.mod_eq_of_lt this.1, this.2]

end Sys2Proof.Machine
end

