-- ==== Sys2Proof/Tests/Slice0.lean ====
section
/-! SUPPORT. Tests: ill-formed terms that WellFormed refuses; for every statement a state and operands that meet its
hypotheses; worked examples of the spec. -/

namespace Sys2Proof.Tests
open Sys2Proof Sys2Proof.Machine

set_option Elab.async false

/-! ### Terms that the well-formedness check refuses, one for each of its checks -/

def t0 : Tid := ⟨0, 0⟩

/-- A V form: registers, PE, etype. -/
def vf (vd va vb : Reg) (pe : Bool) (et : BitVec 2) : VF := ⟨vd, va, vb, pe, 0, et⟩

theorem smoke_scalar : ∀ i ∈ ([.shi t0 1 2 3 0, .ld t0 1 2 7 0, .st t0 1 2 4 0, .fld t0 1 2 1 0, .fst t0 1 2 4 0,
    .fcvt t0 1 2 5 true 0, .tload t0 0 1 2 0 65, .tstore t0 0 1 2 0 65] : List Instr), i.wellFormed = false := by decide

theorem smoke_vector_float : ∀ i ∈ ([.vfadd t0 (vf 1 2 3 false 0) false, .vfsub t0 (vf 1 2 3 false 2) true,
    .vfmul t0 (vf 1 2 3 false 0) false, .vfma t0 (vf 1 2 3 false 3) true, .vfms t0 (vf 1 2 3 false 0) false,
    .vfnma t0 (vf 1 2 3 false 0) false, .vfnms t0 (vf 1 2 3 false 0) true, .vfmin t0 (vf 1 2 3 false 0),
    .vfmax t0 (vf 1 2 3 false 0), .vexp2 t0 (vf 1 2 0 false 0), .vlog2 t0 (vf 1 2 0 false 0), .vrcp t0 (vf 1 2 0 false 0),
    .vrsqrt t0 (vf 1 2 0 false 0), .vtanh t0 (vf 1 2 0 false 0), .vfredsum t0 (vf 1 2 3 false 0),
    .vfredmin t0 (vf 1 2 3 false 0), .vfredmax t0 (vf 1 2 3 false 0)] : List Instr), i.wellFormed = false := by decide

theorem smoke_vector : ∀ i ∈ ([.vnarrows t0 (vf 1 2 3 false 3), .vnarrowu t0 (vf 1 2 3 false 3),
    .vcvt t0 1 2 13 0 false 0 0 false, .vcvt t0 1 2 0 13 false 0 0 false, .vcmp t0 (vf 8 2 3 false 2) 0,
    .vcmp t0 (vf 1 2 3 false 2) 6, .vcmpu t0 (vf 8 2 3 false 2) 2, .vcmpu t0 (vf 1 2 3 false 2) 1,
    .vcmpu t0 (vf 1 2 3 false 2) 6, .vfcmp t0 (vf 1 2 3 false 0) 0, .vfcmp t0 (vf 8 2 3 false 2) 0,
    .vfcmp t0 (vf 1 2 3 false 2) 7, .vsel t0 (vf 1 2 3 true 2), .vcompress t0 (vf 1 2 0 false 2),
    .vexpand t0 (vf 1 2 0 false 2), .vinter t0 (vf 1 2 3 true 2), .vinterF t0 (vf 1 2 3 true 2), .vmac2 t0 (vf 1 2 3 false 1) false,
    .vchain t0 2 [0]] : List Instr), i.wellFormed = false := by decide

theorem smoke_predicates : ∀ f ∈ ([Instr.pand t0, .por t0, .pxor t0, .pnot t0, .pset t0, .pclr t0] : List (VF → Instr)),
    ∀ x ∈ [vf 8 0 0 false 0, vf 0 8 0 false 0, vf 0 0 8 false 0], (f x).wellFormed = false := by decide

theorem smoke_pcnt : ∀ i ∈ ([.pcnt t0 (vf 9 8 0 false 0), .pcnt t0 (vf 9 0 8 false 0)] : List Instr),
    i.wellFormed = false := by decide

theorem smoke_memory_events : ∀ i ∈ ([.dataCacheFill t0 (2 ^ 48), .dataCacheFill t0 32, .instructionCacheFill t0 (2 ^ 64),
    .instructionCacheFill t0 128, .nearMemoryCacheFill t0 (2 ^ 48) 0 0 0 false, .nearMemoryCacheFill t0 0 1 0 2 false, .gateAdmission 10 0, .periodBoundary 0 0 [2 ^ 24],
    .energyWindowEnd (2 ^ 32), .shootdownDrainReport 0 4, .weevilRunEnd 0 0 0 [(2 ^ 26, 0, 0)], .scrubRead (2 ^ 48) 0 false,
    .tierBankCopyEnd (2 ^ 16), .restripeEnd 0 [2 ^ 43], .unitDrained (2 ^ 16), .moltComplete (2 ^ 16) true [],
    .unitFailure (2 ^ 16)] : List Instr), i.wellFormed = false := by decide

theorem smoke_host : ∀ i ∈ ([.cmdPcountWrite 0 0 1 [(256, 0)], .evtPcountWrite 0 0 1 [(1024, 0)],
    .msgPcountWrite 0 0 1 [(16, 0)], .planBind 1 [256], .rollback 1 [256], .invocationStart 0 (2 ^ 32),
    .registerWrite 0 (2 ^ 26) 4 0, .registerWrite 0 0 0 0, .registerWrite 0 0 9 0, .ackWrite 0 (2 ^ 26) 0,
    .loReadLatch 0 (2 ^ 26) 4, .loReadLatch 0 0 0, .loReadLatch 0 0 9, .bar4Access false 0 0 [], .bar4Access false 0 4097 [],
    .bar4Access true 0 2 [0], .bar4Resize (2 ^ 44), .atsTranslationCompletion 0 (2 ^ 36) true true,
    .atsInvalidateRequest 0 (2 ^ 36) 1, .atsInvalidateRequest 0 0 (2 ^ 36 + 1),
    .firmwareTransfer 1 (2 ^ 32) [0]] : List Instr), i.wellFormed = false := by decide

theorem smoke_twin_and_power : ∀ i ∈ ([.link 0 false [] (2 ^ 64), .link 0 false [0, 0, 0, 0, 0, 0, 0, 0, 0] 0,
    .cicada (2 ^ 64) 0 0 0 0 0 false 0 0, .cicada 0 0 0 (2 ^ 64) 0 0 false 0 0, .cut (2 ^ 64) 0, .jrec 0 [(2 ^ 32, 0)],
    .input 0 0 (2 ^ 32) 0 0 0 [], .powerCut (2 ^ 20), .overvoltage (2 ^ 20) true, .inputTransient (2 ^ 20),
    .inputReturn (2 ^ 20), .sensorUpdate 1 (2 ^ 32), .pwrGood ⟨true, true, true, true, [512], [], 0, 120, [], [], true⟩,
    .pwrGood ⟨true, true, true, true, [], [640], 0, 120, [], [], true⟩] : List Instr), i.wellFormed = false := by decide

/-- A term of each of those rows that it accepts. -/
theorem smoke_accepts : ∀ i ∈ ([.shi t0 1 2 2 63, .ld t0 1 2 6 0, .st t0 1 2 3 0, .fld t0 1 2 2 0, .fst t0 1 2 3 0,
    .fcvt t0 1 2 4 true 3, .tload t0 0 1 2 0 64, .vfadd t0 (vf 1 2 3 false 1) true, .vcvt t0 1 2 10 10 false 0 0 false,
    .vcmpu t0 (vf 7 2 3 false 2) 5, .vsel t0 (vf 1 2 3 false 2), .vchain t0 2 [0, 0], .vmac2 t0 (vf 1 2 3 false 1) true,
    .gateAdmission 9 0, .bar4Access true 0 2 [0, 0], .powerCut (2 ^ 20 - 1), .registerWrite 0 0 8 0] : List Instr),
    i.wellFormed = true := by decide

/-! ### States that meet the hypotheses of the statements -/

/-- A thread of plan 1 at user level, with some register values; r2 is an address. -/
def user : Thread := { binding := .plan 1 0, priv := false, pc := 0x2000, vln := 4,
                       g := [(1, 5), (2, 0x4040), (3, 2 ^ 64 - 1)], p := [(1, 0x5)], det := false }

/-- The same thread with DET, at supervisor level. -/
def super : Thread := { user with priv := true }

/-- Its vector processor: 4 MiB of HBM, readable and writable at user level, code in the first MiB, a cached sector. -/
def vp0 : Vp := { tlb := [⟨0x100000, 0x300000, 0x010000100000, 0, 0x2D⟩, ⟨0, 0x4000, 0x010000000000, 0, 0x35⟩,
                          ⟨0x4000, 0x4000, 0x010000004000, 0, 0x2D⟩],
                  dcache := [(0x100000040, (15, 0))] }

/-- A machine in which thread 0 is `th` and its vector processor `v`. -/
def machine (th : Thread) (v : Vp := vp0) : State := { m := { threads := [(0, th)], vps := [(0, v)] } }

/-- The requests of the instruction at the thread's PC have been admitted. -/
def paid : Thread := { user with paid := [0x2000] }

/-- A machine whose die 0 is fenced. -/
def fencing (th : Thread) : State :=
  let s := machine th
  { s with m := { s.m with molt := 1, units := [(0, { state := .pupa })] } }

/-- The physical address of virtual 0x4040. -/
def pa : Nat := 0x010000004040

/-- A translated range is these pieces, or absent from here. -/
def ok (x : Except Nat (List Chunk)) (cs : List Chunk) : Bool := match x with | .ok y => y == cs | .error _ => false
def absent (x : Except Nat (List Chunk)) (a : Nat) : Bool := match x with | .ok _ => false | .error b => a == b

theorem of_ok {x : Except Nat (List Chunk)} {cs : List Chunk} (h : ok x cs = true) : x = .ok cs := by
  cases x with
  | ok y => rw [eq_of_beq h]
  | error b => cases h

theorem of_absent {x : Except Nat (List Chunk)} {a : Nat} (h : absent x a = true) : x = .error a := by
  cases x with
  | ok y => cases h
  | error b => rw [eq_of_beq h]

theorem witness_StepRunsTheFrontCommand : ({ pending := [.nop t0] } : State).pending = .nop t0 :: [] ∧
    State.reset.pending = [] ∧ State.reset.m.power.off = false ∧
    ({ m := { power := { off := true } } } : State).pending = [] ∧
    ({ m := { power := { off := true } } } : State).m.power.off = true := ⟨rfl, rfl, rfl, rfl, rfl⟩

theorem witness_EveryStepKeepsMemoryForm : memWf State.reset.mem = true ∧ ∃ s', step State.reset = .next s' :=
  ⟨rfl, _, rfl⟩

theorem witness_RegistersReadBack : user.gm = false := rfl

/-- Every energy that a statement names leaves the thread calm. -/
theorem calm_machine : ∀ e ∈ [0, 15, 30, 75, 120, 180, 240, 300, 600, 1020, 8000], ∀ th ∈ [user, super],
    Calm e t0 (machine th) := by unfold Calm Powered; decide

theorem witness_IntegerInstructions : Calm 15 t0 (machine user) ∧ Calm 120 t0 (machine user) := by
  unfold Calm Powered; decide

theorem witness_UndefinedWordsAreLoggedNoOps : Calm 15 t0 (machine user) ∧
    ackFull (begin (machine user)).m.violCount = false ∧ 4 ≤ (4 : BitVec 3).toNat ∧ 5 ≤ (5 : BitVec 5).toNat ∧
    ((0 : BitVec 3) ≠ 2 ∧ (0 : BitVec 3) ≠ 3) := by unfold Calm Powered; decide

theorem witness_NumbersRoundAndEncode : ((-1 : Int) < 0) ∧ b64 ∈ [b64, b32, b16, bf16, e4m3, e5m2, e2m1] ∧
    decodeF b64 0 ≠ .nan ∧ decodeF b64 0x7FF0000000000000 ≠ .nan := by decide

theorem witness_ScalarFloatInstructions : Calm 180 t0 (machine user) ∧ Calm 15 t0 (machine user) ∧
    ((2 : BitVec 2) = 2 → (threadOf (machine user) t0).rngsel = false ∨ (threadOf (machine user) t0).det = true) := by
  unfold Calm Powered; decide

theorem witness_Transfers : Calm 15 t0 (machine user) ∧
    ¬EndsInvocation (threadOf (machine user) t0) ((threadOf (machine user) t0).pc + 4) := by
  refine ⟨by unfold Calm Powered; decide, fun h => ?_⟩
  obtain ⟨⟨i, c, hb⟩, -⟩ := h
  exact absurd hb (by simp [threadOf, thr, machine, user, begin, tread, tget, t0, tkey])

theorem witness_Loops : Calm 15 t0 (machine user) ∧
    (∀ th ∈ [{ user with le1 := user.pc, lc1 := 2 }, { user with le1 := user.pc, lc1 := 1, le0 := user.pc, lc0 := 2 },
             { user with le0 := user.pc, lc0 := 1 }, { user with le0 := user.pc, lc0 := 2 }],
      (th.le1 = th.pc ∧ 1 < th.lc1.toNat) ∨ (th.le1 = th.pc ∧ th.lc1 = 1 ∧ th.le0 = th.pc ∧ 1 < th.lc0.toNat) ∨
      (th.le1 ≠ th.pc ∧ th.le0 = th.pc ∧ th.lc0 = 1) ∨ (th.le1 ≠ th.pc ∧ th.le0 = th.pc ∧ 1 < th.lc0.toNat)) := by
  unfold Calm Powered; decide

/-- A doubleword of the thread's data, in its cache; no walk is made for it, and no output lies in it. -/
def word0 : List Chunk := [⟨0x4040, 8, some pa, none⟩]
theorem near_word0 : NoWalks t0 0x4040 8 (machine user) ∧ Granted word0 ∧ Settled word0 (machine user) := by
  unfold NoWalks Granted Settled; decide +kernel
theorem witness_Loads : CalmFor 30 t0 0x4040 8 (machine user) ∧ Sound (machine user) ∧
    scalarPieces (begin (walked t0 0x4040 8 (machine user))) t0 .read 0x4040 8 = .ok word0 ∧
    missing (begin (walked t0 0x4040 8 (machine user))) 0 word0 = [] ∧
    outOpen (begin (machine user)) pa = false ∧
    outOpen (begin { machine user with m := { (machine user).m with
      fqueues := [(.plan 1, { outs := [(1, [(pa, 4)])] })] } }) pa = true := by
  refine ⟨.inl ⟨by unfold Calm Powered; decide, near_word0.1⟩, rfl, of_ok (by decide +kernel), ?_⟩
  decide +kernel

/-- A doubleword of code may not be written, one of a fenced die may not be read, and one beyond every page is absent. -/
theorem witness_denied_accesses : CalmFor 30 t0 0x100 8 (machine user) ∧ CalmFor 30 t0 0x7FFC 8 (machine paid) ∧
    scalarPieces (begin (walked t0 0x100 8 (machine user))) t0 .write 0x100 8 = .ok [⟨0x100, 8, none, none⟩] ∧
    scalarPieces (begin (walked t0 0x4040 8 (fencing user))) t0 .read 0x4040 8 = .ok [⟨0x4040, 8, none, some 0⟩] ∧
    scalarPieces (begin (walked t0 0x8000 8 (machine paid))) t0 .read 0x8000 8 = .error 0x8000 ∧
    scalarPieces (begin (walked t0 0x7FFC 8 (machine paid))) t0 .write 0x7FFC 8 = .error 0x8000 := by
  refine ⟨.inl ⟨by unfold Calm Powered; decide, by unfold NoWalks; decide +kernel⟩,
    .inr (by unfold CalmPaid Powered; decide), of_ok (by decide +kernel), of_ok (by decide +kernel),
    of_absent (by decide +kernel), of_absent (by decide +kernel)⟩

/-- A buffered store, one across a sector, and one entry alone, in sectors of the cache and with the drain's requests paid. -/
theorem witness_StoresAndTheStoreBuffer : CalmFor 30 t0 0x4040 8 (machine user) ∧
    scalarPieces (begin (walked t0 0x4040 8 (machine user))) t0 .write 0x4040 8 = .ok word0 ∧
    (∀ sb ∈ [[⟨pa, [1, 2], false, 0⟩], [⟨pa, [1], true, 0⟩, ⟨pa + 1, [2], false, 0⟩]], ∀ keys ∈ [[], [2 ^ 48]],
      let th := threadOf (machine { user with sbuf := sb, paid := keys }) t0
      th.gateWaits = 0 ∧ th.paid = keys ∧ th.park = .none ∧ th.groups = [] ∧ th.sbuf ≠ [] ∧
      ∀ x ∈ sb, cached (vpOf (begin (machine user)) 0) x.addr = true) ∧
    storeChunks word0 (toBytes 8 5) = [⟨pa, toBytes 8 5, false, 0⟩] ∧ Calm 1020 t0 (machine user) ∧
    fenced (begin (machine user)) (unitVp 0) = false ∧
    (let s := machine { user with sbuf := [⟨pa, [1, 2], false, 0⟩], paid := [2 ^ 48] }
     fenced (begin { s with m := { s.m with molt := 1, units := [(0x1000, { state := .pupa })] } }) (unitVp 0) = true) := by
  refine ⟨.inl ⟨by unfold Calm Powered; decide, near_word0.1⟩, of_ok (by decide +kernel), by decide, by decide,
    by unfold Calm Powered; decide, by decide, by decide⟩

theorem witness_ScalarFormsComplete : Calm 30 t0 (machine user) ∧ NoWalks t0 0x4040 8 (machine user) ∧
    scalarPieces (begin (machine user)) t0 .write 0x4040 8 = .ok word0 ∧ windowOf word0 = none ∧
    crLevel 0x010 = some false ∧ crLevel 0x11D = some true ∧ (threadOf (machine super) t0).priv = true ∧
    Calm 1020 t0 (machine user) ∧ (threadOf (machine user) t0).sbuf = [] := by
  refine ⟨by unfold Calm Powered; decide, near_word0.1, of_ok (by decide +kernel), ?_⟩
  unfold Calm Powered; decide

theorem witness_Atomics : CalmPaid 75 t0 (machine paid) ∧ Idle t0 (machine paid) ∧ (threadOf (machine paid) t0).det = false ∧
    threadPieces (begin (walked t0 0x4040 8 (machine paid))) t0 .both 0x4040 8 = .ok word0 ∧
    threadPieces (begin (walked t0 0x4040 4 (machine paid))) t0 .both 0x4040 4 = .ok [⟨0x4040, 4, some pa, none⟩] ∧
    (getG (threadOf (machine paid) t0) 2).toNat = 0x4040 ∧ Settled word0 (machine paid) ∧
    (getG (threadOf (machine paid) t0) 1).toNat % 8 ≠ 0 ∧
    threadPieces (begin (walked t0 0x100 8 (machine paid))) t0 .both 0x100 8 = .ok [⟨0x100, 8, none, none⟩] ∧
    threadPieces (begin (walked t0 0x8000 8 (machine paid))) t0 .both 0x8000 8 = .error 0x8000 := by
  refine ⟨by unfold CalmPaid Powered; decide, by unfold Idle; decide, rfl, of_ok (by decide +kernel), of_ok (by decide +kernel),
    by decide, by unfold Settled; decide, by decide, of_ok (by decide +kernel), of_absent (by decide +kernel)⟩

theorem witness_ControlRegisterAccess : crLevel 0x0FF = none ∧ crLevel 0x001 = some true ∧ crLevel 0x010 = some false ∧
    (threadOf (machine user) t0).priv = false ∧ (threadOf (machine super) t0).priv = true ∧
    (thr (begin (machine user)) t0).pend = [] := by decide

theorem witness_ControlRegisterWrites : Calm 30 t0 (machine { super with pend := [(0x20, 1), (0x11E, 64)] }) ∧
    ([(0x20, 1), (0x11E, 64)] : Table W64).Pairwise (fun x y => x.1 < y.1) ∧
    (thr (begin (machine { super with bank := [{}] })) t0).bank = [{}] := by
  refine ⟨by unfold Calm Powered; decide, by decide, rfl⟩

theorem witness_SignalsTimersAndTheGroupTable : (threadOf (machine super) t0).priv = true ∧
    unitState (begin (machine super)) 0x1000 = .inService ∧ ackFull (threadOf (machine super) t0).sig = false ∧
    unitState (begin { machine super with m := { (machine super).m with units := [(0x1001, { state := .pupa })] } }) 0x1001
      ≠ .inService ∧ Calm 15 t0 (machine user) ∧ Powered (machine user) := by unfold Calm Powered; decide

/-- A vector table in HBM, all of whose entries name handler 0x1000; timer 0 has fired, at level 3. -/
def vectors : State :=
  { machine { super with timer0 := true, ie := true, paid := [entryKey] } { vp0 with vecbase := 0x010000008000, icache := [0x2000] } with
    mem := [(0x010000008001, 0x10), (0x010000008041, 0x10), (0x010000008046, 3), (0x010000008047, 1)] }

theorem witness_ExceptionEntry : CanEnter t0 vectors ∧ Sound vectors ∧ interruptible (threadOf vectors t0) = true ∧
    bestVector ((pendingVectors (begin vectors) t0).filter fun e => unmasked (vpOf (begin vectors) 0) (threadOf vectors t0) e.1)
      = some (3, 4) ∧
    fetchTest (begin vectors) 0 (ctxOf (threadOf vectors t0)) 0x2000 = .ok ∧
    fetchTest (begin vectors) 0 (ctxOf (threadOf vectors t0)) 0x8000 = .fault 1 0x8000 := by
  refine ⟨by unfold CanEnter Powered; decide, by unfold Sound; decide, by decide, by decide, by decide +kernel, by decide +kernel⟩

/-- No interrupt is pending: the fetch at 0x2000 succeeds, with its line in the instruction cache and without. -/
theorem witness_fetches : ∀ v ∈ [vp0, { vp0 with icache := [0x2000] }],
    let s := machine { user with paid := [entryKey] } v
    CanEnter t0 s ∧ canIssue (threadOf s t0) = true ∧ (threadOf s t0).cause = none ∧
    bestVector ((pendingVectors (begin s) t0).filter fun e => unmasked (vpOf (begin s) 0) (threadOf s t0) e.1) = none ∧
    fetchTest (begin s) 0 (ctxOf (threadOf s t0)) 0x2000 = .ok ∧ longAt (begin s) 0 (ctxOf (threadOf s t0)) 0x2000 = false ∧
    askedEntries (begin s) t0 = [] := by
  unfold CanEnter Powered; decide +kernel

theorem witness_ReturnFromException : Calm 30 t0 (machine { super with bank := [{ estat := 1 }] }) ∧
    (thr (begin (machine { super with bank := [{}, {}, {}, {}], fsp := 0x5000 })) t0).bank = [{}, {}, {}, {}] ∧
    frameAddrOk (begin (machine { super with bank := [{}, {}, {}, {}], fsp := 0x010000005000 })) 0x010000004FB0 = true := by
  refine ⟨by unfold Calm Powered; decide, rfl, by decide⟩
/-- Gate descriptors: slot 0 is empty, slot 1 a gate without arguments at 0x1000, slot 2 the service VIOL_READ, slot 3 a gate
whose one argument is at most 3. -/
def gates (th : Thread) : State :=
  { machine th { vp0 with gatebase := 0x010000008000 } with
    mem := [(0x010000008041, 0x10), (0x010000008046, 0x10), (0x010000008086, 0x18), (0x010000008087, 2),
            (0x0100000080C6, 0x11), (0x0100000080C8, 1), (0x0100000080D0, 3)] }

/-- The descriptor of a slot. -/
def slotOf (n : Nat) : Nat := physNum (begin (gates super)) (0x010000008000 + 64 * n) 64

theorem witness_CallGates : (∀ k ∈ [0, 1], CalmPaid (15 * (4 + k)) t0 (gates { super with paid := [super.pc.toNat] })) ∧
    gateValid (slotOf 0) = false ∧
    (gateValid (slotOf 1) = true ∧ gateChecks (begin (gates super)) t0 (slotOf 1) 0 = (0, none) ∧
      bits (slotOf 1) 48 3 = 0 ∧ bit (slotOf 1) 51 = false) ∧
    (gateValid (slotOf 2) = true ∧ bits (slotOf 2) 48 3 = 0 ∧ bit (slotOf 2) 51 = true ∧ bits (slotOf 2) 56 8 = 2) ∧
    (gateValid (slotOf 3) = true ∧ bits (slotOf 3) 48 3 = 1 ∧
      gateChecks (begin (gates super)) t0 (slotOf 3) 1 = (1, some (gateRange, 0))) := by
  refine ⟨by unfold CalmPaid Powered; decide, ?_⟩
  decide +kernel

theorem witness_vector_statements : Calm 600 t0 (machine user) ∧ Calm 15 t0 (machine user) ∧
    elemCount (threadOf (machine user) t0) 64 = 4 ∧
    (∀ x ∈ [vf 1 2 3 true 1, vf 1 2 3 false 2, vf 1 2 3 true 3], x.et = 1 ∨ x.et = 2 ∨ x.et = 3) ∧
    (7 : Reg).toNat ≤ 7 := by unfold Calm Powered; decide

theorem witness_VectorSortedSets : Calm 600 t0 (machine user) ∧ 0 < elemCount (threadOf (machine user) t0) 8 ∧
    (vf 1 2 3 false 1).et ≠ 0 := by unfold Calm Powered; decide

theorem witness_VectorFormsComplete : Calm 600 t0 (machine user) ∧ (vf 1 2 3 false 1).et = 1 ∧ (vf 1 2 3 true 2).pe = true ∧
    (vf 1 2 3 false 2).et ≠ 0 ∧ (vf 1 2 3 false 2).pe = false ∧
    0 < elemCount (threadOf (machine user) t0) (8 * 2 ^ (vf 1 2 3 false 2).et.toNat) := by unfold Calm Powered; decide

/-- Binary32 to binary16, binary32 to MXFP8 and back. -/
theorem witness_VectorConversions : Calm 600 t0 (machine { user with vln := 64 }) ∧
    (∃ src dst : BitVec 4, hasPath src.toNat dst.toNat = true ∧ fmtMx src.toNat = false ∧ fmtMx dst.toNat = false) ∧
    (∃ src dst : BitVec 4, hasPath src.toNat dst.toNat = true ∧ fmtMx src.toNat = false ∧ fmtMx dst.toNat = true ∧
      elemCount { user with vln := 64 } (max (fmtBits src.toNat) (fmtBits dst.toNat)) % 32 = 0) ∧
    (∃ src dst : BitVec 4, hasPath src.toNat dst.toNat = true ∧ fmtMx src.toNat = true ∧ fmtMx dst.toNat = false ∧
      dst.toNat ≤ 1) ∧
    (∃ src dst : BitVec 4, hasPath src.toNat dst.toNat = true ∧ fmtMx src.toNat = true ∧ fmtMx dst.toNat = false ∧
      1 < dst.toNat) := by
  unfold Calm Powered; decide +kernel

/-- Four doublewords at 0x4040, which the cache holds. -/
def words4 : List Chunk := [⟨0x4040, 32, some pa, none⟩]
theorem witness_VectorLoadsAndStores : Idle t0 (machine user) ∧ Sound (machine user) ∧
    CalmFor 600 t0 0x4040 32 (machine user) ∧ CalmPaid 600 t0 (machine paid) ∧
    threadPieces (begin (walked t0 0x4040 32 (machine user))) t0 .read 0x4040 32 = .ok words4 ∧
    threadPieces (begin (walked t0 0x4040 32 (machine user))) t0 .write 0x4040 32 = .ok words4 ∧
    (let rd := activePieces words4 0x4040 8 [0, 1, 2, 3]
     missing (begin (machine user)) 0 rd = [] ∧ Settled (words4 ++ rd) (machine user)) ∧
    (∀ k < 32, cached (vpOf (begin (machine user)) 0) (pa + k) = true) := by
  refine ⟨by unfold Idle; decide, rfl, .inl ⟨by unfold Calm Powered; decide, by unfold NoWalks; decide +kernel⟩,
    by unfold CalmPaid Powered; decide, of_ok (by decide +kernel), of_ok (by decide +kernel), ?_⟩
  unfold Settled; decide +kernel

/-- Both streams of a VMAC2 at 0x4040. -/
theorem witness_vmac2 : let b := walked t0 0x4040 32 (machine user)
    threadPieces (begin b) t0 .read 0x4040 32 = .ok words4 ∧ Calm 600 t0 (machine user) ∧
    NoWalks t0 0x4040 32 (machine user) := by
  refine ⟨of_ok (by decide +kernel), by unfold Calm Powered; decide, by unfold NoWalks; decide +kernel⟩

/-- VADD v1, v2, v3 then VREDSUM v4, v0, v5 at e64 are a chain; a VSEL of a branch's word is none. -/
def chainWords : List (BitVec 32) :=
  [(0x27 : BitVec 6) ++ (1 : Reg) ++ (2 : Reg) ++ (3 : Reg) ++ (3 : BitVec 11) <<< 5,
   (0x2C : BitVec 6) ++ (4 : Reg) ++ (0 : Reg) ++ (5 : Reg) ++ (3 : BitVec 11) <<< 5]

theorem witness_VectorChains : Calm 8000 t0 (machine user) ∧
    chainLegal user user.pc 2 (chainWords.map vopOfWord) 4 = true ∧ chainLegal user user.pc 2 ([0, 0].map vopOfWord) 4 = false ∧
    (∀ o ∈ chainWords.map vopOfWord, o.major ≠ 0x25 ∧ o.major ≠ 0x29) ∧ user.stopAt = none ∧ user.lc0 = 0 := by
  unfold Calm Powered; decide +kernel

/-- A stack in HBM. -/
def stacked : Thread := { user with g := [(30, 0x1000), (31, 0x4080)] }

theorem witness_FramedCalls : CalmFor 120 t0 0x4050 48 (machine stacked) ∧ CalmFor 120 t0 0x4080 16 (machine stacked) ∧
    Idle t0 (machine stacked) ∧ Sound (machine stacked) ∧
    threadPieces (begin (walked t0 0x4050 48 (machine stacked))) t0 .write 0x4050 48 = .ok [⟨0x4050, 48, some (pa + 16), none⟩] ∧
    (∀ k < 48, cached (vpOf (begin (machine stacked)) 0) (pa + 16 + k) = true) ∧
    threadPieces (begin (walked t0 0x4080 16 (machine stacked))) t0 .read 0x4080 16 = .ok [⟨0x4080, 16, some (pa + 64), none⟩] ∧
    Settled [⟨0x4080, 16, some (pa + 64), none⟩] (machine stacked) ∧
    missing (begin (machine stacked)) 0 [⟨0x4080, 16, some (pa + 64), none⟩] = [] := by
  refine ⟨.inl ⟨by unfold Calm Powered; decide, by unfold NoWalks; decide +kernel⟩,
    .inl ⟨by unfold Calm Powered; decide, by unfold NoWalks; decide +kernel⟩, by unfold Idle; decide, rfl,
    of_ok (by decide +kernel), by decide +kernel, of_ok (by decide +kernel), by unfold Settled; decide, by decide +kernel⟩

/-- Page tables at 0x010000010000: one 512 GiB entry down to a 2 MiB leaf of user data. -/
def tables : State :=
  { machine { user with xlbase := 0x010000010000 } {} with
    mem := [(0x010000010000, 0x01), (0x010000010001, 0x10), (0x010000010002, 0x01), (0x010000010005, 0x01),
            (0x010000011000, 0x01), (0x010000011001, 0x20), (0x010000011002, 0x01), (0x010000011005, 0x01),
            (0x010000012000, 0x2F), (0x010000012005, 0x01)] }

theorem witness_FillsAndTableWalks : Powered tables ∧ (threadOf tables t0).groups = [] ∧ Sound tables ∧
    (walk (begin tables) 0x010000010000 0x4040).isSome = true ∧ walk (begin tables) 0x010000010000 0x200000 = none ∧
    (vpOf (begin tables) 0).dcache = [] ∧ (vpOf (begin tables) 0).icache.length < 1024 ∧
    (∀ c ∈ linePieces (begin tables) t0 0x2000, c.stale = none) ∧ (threadOf tables t0).gateWaits = 0 ∧
    (threadOf { tables with m := { tables.m with threads := [(0, { (threadOf tables t0) with paid := [walkKey] })] } } t0).paid
      = [walkKey] ∧ (∀ va ∈ [0x4040, 0x200000], walkedIn t0 (walkRange (begin tables) 0x010000010000 va) (0, va / 4096) = true) := by
  unfold Powered Sound; decide +kernel

/-- A family of two lanes, whose one group is ready. -/
def group0 : Group := { mask := 3, pc := 0x2000, g := [(1, 5), (2, 0x4040)] }
def family : Thread := { user with gm := true, family := true, groups := [(0, group0)], live := 3, famCount := 1,
                                   sbuf := [], p := [(1, 1)] }

theorem witness_ThreadGroups : Calm 30 t0 (machine user) ∧ (threadOf (machine user) t0).family = false ∧
    OneGroup 15 t0 (machine family) group0 ∧ (threadOf (machine family) t0).paid = [] ∧
    (threadOf (machine family) t0).priv = false ∧
    (group0.mask &&& (getP family 1).setWidth 1024 ≠ 0 ∧ group0.mask &&& ~~~((getP family 1).setWidth 1024) ≠ 0) ∧
    group0.mask &&& (getP family 2).setWidth 1024 = 0 := by
  unfold Calm OneGroup Powered; decide +kernel

/-- Lanes 0 and 1 run; the inner join waits for them at the next instruction, the outer one for them and lane 2. -/
def joining : Thread :=
  { family with
    live := 15
    groups := [(0, group0), (1, { group0 with mask := 4, pc := 0x2004, stamp := { seq := 1 }, wait := .join 3 }),
               (2, { group0 with mask := 8, pc := 0x2010, stamp := { seq := 2 }, wait := .join 7 })] }

theorem witness_joins : Powered (machine joining) ∧ canIssue joining = true ∧ group0.mask &&& 3 = group0.mask ∧
    joining.live &&& ~~~group0.mask ≠ 0 ∧ joining.residue + 15 < energyUnit ∧ joining.stopAt ≠ some (joining.step + 1) := by
  unfold Powered; decide +kernel

/-- The running lanes merge at the inner join, and leave both joins when they end instead. -/
theorem test_joins :
    (match exec (.nop t0) (machine joining) with
      | .next s => (threadOf s t0).groups.map fun e => (e.1, e.2.mask, e.2.wait)
      | _ => []) = [(1, 7, .ready), (2, 8, .join 7)] ∧
    (match exec (.gexit t0) (machine joining) with
      | .next s => (threadOf s t0).groups.map fun e => (e.1, e.2.mask, e.2.wait)
      | _ => []) = [(1, 4, .ready), (2, 8, .join 4)] := by
  decide +kernel

/-- The group's request for its lock has been admitted; and a group that waits for the word, its retry paid. -/
def locker : Thread := { family with paid := [0x2000] }
def waiter : Thread := { family with groups := [(0, { group0 with wait := .lock 2 pa })], paid := [2 ^ 48 + 2] }

theorem witness_GroupLocks : OneGroup 75 t0 (machine locker) group0 ∧ (threadOf (machine locker) t0).paid = [group0.pc.toNat] ∧
    group0.mask.getLsbD 0 = true ∧ Sound (machine locker) ∧ (threadOf (machine locker) t0).sbuf = [] ∧
    (∀ th ∈ [locker, waiter], ok (threadPieces (begin (walked t0 0x4040 8 (machine th))) t0 .both 0x4040 8) word0 = true) ∧
    Settled word0 (machine locker) ∧ readNum (begin (machine locker)) pa 8 = 0 ∧
    readNum (begin { machine locker with mem := [(pa, 1)] }) pa 8 ≠ 0 ∧
    ((threadOf (machine waiter) t0).groups = [(0, { group0 with wait := .lock 2 pa })] ∧
      (threadOf (machine waiter) t0).acting = none ∧ (threadOf (machine waiter) t0).live = group0.mask ∧
      (threadOf (machine waiter) t0).gateWaits = 0 ∧ (threadOf (machine waiter) t0).park = .none ∧
      (threadOf (machine waiter) t0).gm = true ∧ (threadOf (machine waiter) t0).det = false) := by
  unfold OneGroup Powered Sound Settled; decide +kernel

/-- An atomic of a plan with DET waits, and the gates have admitted it. -/
def ordered : Thread := { user with det := true, park := .atomic 0 0 3 (some pa) 1 0, paid := [2 ^ 48 + 1] }

theorem witness_OrderedAtomics : CalmFor 75 t0 0x4040 8 (machine { user with det := true }) ∧
    threadPieces (begin (walked t0 0x4040 8 (machine { user with det := true }))) t0 .both 0x4040 8 = .ok word0 ∧
    ((threadOf (machine ordered) t0).park = .atomic 0 (atomMinor .add) 3 (some pa) 1 0 ∧
      (threadOf (machine ordered) t0).gateWaits = 0 ∧ Settled word0 (machine ordered) ∧
      horizonsPast (begin (machine ordered)) t0 1 0 0 = true) ∧
    horizonsPast (begin { machine ordered with m := { (machine ordered).m with
      threads := [(0, ordered), (1, { user with binding := .plan 1 1 })] } }) ⟨0, 1⟩ 1 0 1 = false := by
  refine ⟨.inl ⟨by unfold Calm Powered; decide, by unfold NoWalks; decide +kernel⟩, of_ok (by decide +kernel),
    by unfold Settled; decide +kernel, by decide +kernel⟩

/-- Tile 0 belongs to thread 0 and holds rows; tile 1 belongs to nobody. -/
def tiled : Vp := { vp0 with tmap := 0x8, full := 1 }
def between (load : Bool) (next : Nat) (keys : List Nat) : Thread :=
  { user with park := .tile load false 0 0 next 0x4000 0 0, paid := keys }

/-- Every row at 0x4000, stride 0. -/
def row0 : List Chunk := [⟨0x4000, 256, some 0x010000004000, none⟩]
theorem rows0 (s : State) (n : Need) (lo hi : Nat) (h : ok (threadPieces (begin s) t0 n 0x4000 256) row0 = true)
    (o : Settled row0 s) : Rows t0 s n 0x4000 0 lo hi (fun _ => 0x010000004000) := fun r _ _ => by
  simpa [row0] using And.intro (of_ok h) o

theorem witness_TileRegisters : Calm 15 t0 (machine super tiled) ∧ (threadOf (machine user tiled) t0).priv = false ∧
    CalmPaid 0 t0 (machine paid tiled) ∧ Calm 300 t0 (machine user tiled) ∧ tileOwner tiled.tmap 0 = some 0 ∧
    tileOwner tiled.tmap 1 ≠ some 0 ∧ tiled.full.getLsbD 0 = true ∧ ({ tiled with full := 0 } : Vp).full.getLsbD 0 = false ∧
    Idle t0 (machine paid tiled) ∧ Sound (machine paid tiled) ∧
    (∀ n, n = Need.read ∨ n = Need.write → Rows t0 (machine paid tiled) n 0x4000 0 0 64 fun _ => 0x010000004000) ∧
    (∀ keys ∈ [[], [2 ^ 49]], ∀ load ∈ [true, false],
      (threadOf (machine (between load 63 keys) tiled) t0).park = .tile load false 0 0 63 0x4000 0 0 ∧
      (threadOf (machine (between load 63 keys) tiled) t0).gateWaits = 0 ∧
      (threadOf (machine (between load 63 keys) tiled) t0).paid = keys) ∧
    (∀ keys ∈ [[], [2 ^ 49]], ∀ n, n = Need.read ∨ n = Need.write →
      Rows t0 (machine (between true 63 keys) tiled) n 0x4000 0 63 64 fun _ => 0x010000004000) ∧
    absent (threadPieces (begin (walked t0 0x8000 256 (machine (between true 63 [2 ^ 49]) tiled))) t0 .read 0x8000 256) 0x8000
      = true := by
  refine ⟨by unfold Calm Powered; decide, rfl, by unfold CalmPaid Powered; decide, by unfold Calm Powered; decide, by decide,
    by decide, by decide, by decide, by unfold Idle; decide, rfl, ?_, by decide +kernel, ?_, by decide +kernel⟩
  · rintro n (rfl | rfl) <;> exact rows0 _ _ _ _ (by decide +kernel) (by unfold Settled; decide)
  · intro keys hk
    simp only [List.mem_cons, List.not_mem_nil, or_false] at hk
    rcases hk with rfl | rfl <;> rintro n (rfl | rfl) <;>
      exact rows0 _ _ _ _ (by decide +kernel) (by unfold Settled; decide)

/-- The cells of bytes from an address on. -/
def cells (a : Nat) (bs : List Byte) : List Host.Cell := ((bs.zipIdx a).filter fun e => e.1 != 0).map fun e => (e.2, e.1)

/-- An element-wise operation on one row of four binary32 elements, from 0x4040 and 0x4080 to 0x40C0. -/
def fieldDesc : Nat := 2 + 2 <<< 32 + 2 <<< 36 + 2 <<< 40 + 1 <<< 128 + 4 <<< 160 + 1 <<< 224 + 0x4040 <<< 384 +
  0x4080 <<< 576 + 0x40C0 <<< 768
def fieldDescriptor : Nat := fieldDesc + documentedCost (fdOf fieldDesc) 64 <<< 80

/-- A plan whose thread posts it: FOP's requests are paid for, and its descriptor stands at 0x4100. -/
def poster : Thread := { paid with g := [(1, 5), (2, 0x4100)] }
def posting : State :=
  { machine poster with
    mem := cells 0x010000004100 (toBytes 128 fieldDescriptor)
    m := { (machine poster).m with fqueues := [(.plan 1, {})] } }

/-- The operation is at the head of its queue; and it runs. -/
def fieldEntry : FieldEntry := { thr := 0, desc := fieldDescriptor, cls := 0, ctx := ctxOf user }
def admitting : State :=
  { machine user with m := { (machine user).m with fqueues := [(.plan 1, { entries := [fieldEntry], digest := BitVec.ofNat 64 (geomDigest (begin (machine user))) })] } }
def fieldRun0 (ctx : Ctx) : FieldRun :=
  { owner := .plan 1, entry := { fieldEntry with ctx := ctx }, plots := 1, cost := 1, geom := [] }
def running (v : Vp) : State :=
  { machine user v with m := { (machine user v).m with
      fqueues := [(.plan 1, { entries := [fieldEntry] })], fieldRun := some (fieldRun0 (ctxOf user)) } }

/-- Where no thread waits, none waits for room in a field queue. -/
theorem no_fop (s : State) (h : ∀ e ∈ s.m.threads, waitsOf e.2 = [(none, .none)]) (u : Tid) (p : Option Nat × Park)
    (bs : List Byte) (hp : p ∈ waitsOf (threadOf s u)) : p.2 ≠ .fopQueue bs := by
  have key : waitsOf (threadOf s u) = [(none, .none)] := by
    show waitsOf (tread {} s.m.threads (tkey u)) = _
    revert h
    induction s.m.threads with
    | nil => exact fun _ => rfl
    | cons e r ih =>
      intro h
      by_cases he : e.1 = tkey u
      · simpa [tread, tget, he] using h e (List.mem_cons_self ..)
      · simpa [tread, tget, he] using ih fun x hx => h x (List.mem_cons_of_mem _ hx)
  rw [key, List.mem_singleton] at hp
  subst hp
  exact fun h => by cases h

theorem witness_FieldOperations :
    (fieldOwner (threadOf posting t0) = some (.plan 1) ∧ CalmPaid 30 t0 posting ∧ Idle t0 posting ∧
      fopRefusal (begin posting) (fdOf fieldDescriptor) = 0 ∧ seqDistance {} 0 < 16 ∧
      ofBytes (readPieces (begin posting) [⟨0x4100, 128, some 0x010000004100, none⟩]) = fieldDescriptor ∧ Sound posting ∧
      Settled [⟨0x4100, 128, some 0x010000004100, none⟩] posting ∧ (fieldQueue (begin posting) (.plan 1)).entries = []) ∧
    threadPieces (begin (walked t0 0x4100 128 posting)) t0 .read 0x4100 128 = .ok [⟨0x4100, 128, some 0x010000004100, none⟩] ∧
    (Calm 15 t0 (machine user) ∧ fieldOwner (threadOf (machine user) t0) = some (.plan 1)) ∧
    fieldChoice (begin admitting) = some (.plan 1, fieldEntry) ∧ fieldChoice (begin (machine user)) = none ∧
    (absentIn (begin (running {})) (ctxOf user) (planesOf (fdOf fieldDescriptor) (widthOf (begin (running {})) [0])) ≠ [] ∧
      (threadOf (running {}) t0).cause = none) ∧
    (fieldRun0 {}).plots.getLsbD 0 = true ∧ tread 0 (running {}).m.hw.failed 0 < 6 := by
  refine ⟨?_, of_ok (by decide +kernel), ?_⟩
  · unfold CalmPaid Idle Powered Sound Settled; decide +kernel
  · unfold Calm Powered; decide +kernel

/-- Where the tables of its context map the ranges of the running operation, no address is absent. -/
theorem witness_field_completion : let s := { tables with m := { tables.m with
      fqueues := [(.plan 1, { entries := [fieldEntry] })],
      fieldRun := some (fieldRun0 { xlbase := 0x010000010000 }) } }
    waitsAtGate (begin s) .field = false ∧
    absentIn (begin s) { xlbase := 0x010000010000 } (planesOf (fdOf fieldDescriptor) (widthOf (begin s) [0])) = [] ∧
    (∀ p ∈ readSide (begin s) (fieldRun0 { xlbase := 0x010000010000 }) (fdOf fieldDescriptor), p.pa.isSome = true) ∧
    (∀ u p bs, p ∈ waitsOf (threadOf s u) → p.2 ≠ .fopQueue bs) := by
  refine ⟨by decide +kernel, by decide +kernel, by decide +kernel, fun u p bs => no_fop _ (by decide +kernel) u p bs⟩

/-- A raw transfer of one row of 64 bytes from 0x4040 to 0x4080, and one of no rows. -/
def xferDesc : Nat := 1 + 0xFF <<< 32 + 1 <<< 128 + 64 <<< 160 + 0x4040 <<< 256 + 0x4080 <<< 320
def xferring (q : List XEntry) : State :=
  { machine poster with
    mem := cells 0x010000004100 (toBytes 128 xferDesc)
    m := { (machine poster).m with hw := { movers := [(0, { queue := q })] } } }
def xentry (desc : Nat) : XEntry := { who := .thread 0 0, desc := desc, cmd := 1, ctx := { xlbase := 0x010000010000 } }
def moving (desc : Nat) (asked : Bool) : State :=
  { tables with m := { tables.m with hw := { movers := [(0, { run := some { entry := xentry desc, asked := asked } })] } } }

theorem witness_Movers :
    (CalmPaid 30 t0 (xferring []) ∧ Idle t0 (xferring []) ∧ xferRefusal (xdOf xferDesc) = 0 ∧
      ofBytes (readPieces (begin (xferring [])) [⟨0x4100, 128, some 0x010000004100, none⟩]) = xferDesc ∧
      Sound (xferring []) ∧ Settled [⟨0x4100, 128, some 0x010000004100, none⟩] (xferring []) ∧
      (xferring [xentry xferDesc]).m.hw.moved = []) ∧
    threadPieces (begin (walked t0 0x4100 128 (xferring []))) t0 .read 0x4100 128 = .ok [⟨0x4100, 128, some 0x010000004100, none⟩] ∧
    ((moverOf (begin (xferring (List.replicate 16 (xentry 0)))) 0).queue.length = 16 ∧
      Calm 15 t0 (machine user) ∧ (threadOf (machine user) t0).xferDone < (getG user 1).toNat) ∧
    ((moverOf (begin (xferring [xentry xferDesc])) 0).run = none ∧
      unitState (begin (xferring [xentry xferDesc])) 0x6000 = .inService ∧ (xdOf xferDesc).dig = false ∧
      (xdOf xferDesc).cplen = false ∧ xferDropped (begin (xferring [xentry xferDesc])) (xentry xferDesc) = false) := by
  refine ⟨?_, of_ok (by decide +kernel), ?_, ?_⟩
  · unfold CalmPaid Idle Powered Sound Settled; decide +kernel
  · unfold Calm Powered; decide +kernel
  · decide +kernel

/-- A run whose bytes are mapped; one whose are not; a transfer with no run left. -/
theorem witness_mover_runs :
    (∃ u row off, unitAt (xdOf xferDesc) (indexOf (begin (moving xferDesc true)) 0 (xentry xferDesc) (xdOf xferDesc)) 0 0
        = some (u, row, off) ∧
      ∃ cs, lookRanges (begin (moving xferDesc true)) 0 (xentry xferDesc) (unitRanges (xdOf xferDesc) u) = .ok cs) ∧
    waitsAtGate (begin (moving xferDesc true)) (.mover 0) = false ∧ jStages (begin (moving xferDesc true)) 1 = true ∧ (moving xferDesc true).m.twin.role ≠ 2 ∧
    (∃ u row off va, unitAt (xdOf (xferDesc + 0x400000 <<< 256)) (fun _ => 0) 0 0 = some (u, row, off) ∧
      lookRanges (begin (moving (xferDesc + 0x400000 <<< 256) true)) 0 (xentry (xferDesc + 0x400000 <<< 256))
        (unitRanges (xdOf (xferDesc + 0x400000 <<< 256)) u) = .absent va) ∧
    unitAt (xdOf 1) (fun _ => 0) 0 0 = none ∧
    converts (xdOf xferDesc) = false ∧ xferDropped (begin (moving xferDesc true)) (xentry xferDesc) = false := by
  refine ⟨⟨_, _, _, rfl, _, rfl⟩, ?_, ?_, ?_, ⟨_, _, _, _, rfl, rfl⟩, ?_, ?_, ?_⟩ <;> decide +kernel

/-- Entry 0 of the decode table is not valid; entry 1 is one micro-operation ADD rd, ra, rb. -/
def custom : State := { machine user with m := { (machine user).m with decTab := [(0, { entries := [(1, 1 <<< 29)], uops := [(0, 0)] })] } }

theorem witness_CustomInstructions : Calm 240 t0 custom ∧
    bit (tread 0 (decodeTab (begin custom) 0).entries 0) 29 = false ∧
    bit (tread 0 (decodeTab (begin custom) 0).entries 1) 29 = true ∧ (threadOf custom t0).sbuf.length ≤ 8 ∧
    (entryUops (decodeTab (begin custom) 0) (1 <<< 29)).length = 1 := by
  unfold Calm Powered; decide +kernel

/-- A line of HBM that its set does not hold, and one that it does; a run in a channel's queue. -/
def caching : State :=
  { m := { hw := { channels := [(0, { queue := [⟨0, 4, false, 1, 0⟩] })] } } }

theorem witness_MemoryChannelsAndCache : Powered caching ∧ regionOf (begin caching) 0x010000000000 = .hbm 0 0 ∧
    regionOf (begin caching) 0 = .nowhere ∧
    (∀ l ∈ nmSet (begin caching) (nmKey (nmPlace (begin caching) 0x010000000000).2.1 (nmPlace (begin caching) 0x010000000000).2.2),
      l.line ≠ (nmPlace (begin caching) 0x010000000000).1) ∧
    (fillWay (begin caching) (nmPlace (begin caching) 0x010000000000).2.1 false []).isSome = true ∧
    nextRun (tread {} caching.m.hw.channels 0) = some (0, ⟨0, 4, false, 1, 0⟩) ∧
    nextRun (tread {} caching.m.hw.channels 1) = none := by
  unfold Powered; decide +kernel

/-- A request waits at the energy gate, with a balance that admits it. -/
def gated : State :=
  { m := { gateQ := [⟨.energy, 0, 1, 5, .thread 0, none⟩], gates := [(gateKey .energy 0 1, { current := 100 })], active := [(1, { amounts := [(9, 100)] })],
           power := { good := true }, tick := 255 * 4096 } }

theorem witness_BudgetsAndPeriods : Powered gated ∧ resOf 10 = none ∧ (∃ k, k < 10 ∧ resOf k = some .energy) ∧
    gateChoice (begin gated) .energy 0 = some ⟨.energy, 0, 1, 5, .thread 0, none⟩ ∧
    gateChoice (begin gated) .energy 1 = none ∧ gated.m.tick / 4096 % 256 = 255 ∧
    gated.m.power.window ≠ some (gated.m.tick / 4096) ∧ gated.m.power.good = true ∧ gated.m.twin = {} ∧
    grantsFit [] = true ∧ grantsFit [(1, { amounts := [(0, 2 ^ 20 - 1)] })] = false := by
  refine ⟨rfl, by decide, by decide, ?_⟩
  decide +kernel

/-- Function 1 owns command ring 1; channel 0 and doorbell 0 go to vector processor 3. -/
def rings : State :=
  { m := { ringFn := [(1, 1)], h := { routes := [(0, 0x23), (16, 0x23)], counts := [(0, 2), (384, 1)] } } }

theorem witness_RingCountsAndDoorbells : Powered rings ∧ ackFull rings.m.violCount = false ∧
    inRecovery (begin rings) = false ∧ inRecovery (begin { rings with m := { rings.m with sec := { bootBits := 1 } } }) = true ∧
    cmdRingFn (begin rings) 1 = 1 ∧ cmdRingFn (begin rings) 0 = 0 ∧
    (countGap (ringCount (begin rings) 0) 256 < 2 ^ 31 ∧ countGap (ringCount (begin rings) 64) 256 ≤ 256) ∧
    (256 < countGap (ringCount (begin rings) 64) 257) ∧ (2 ^ 31 ≤ countGap (ringCount (begin rings) 0) 1) ∧
    (tread 0 rings.m.h.routes 0).getLsbD 5 = true ∧ (tread 0 rings.m.h.routes 1).getLsbD 5 = false ∧
    ackFull (tread {} (vpOf (begin rings) 3).xcnt 40) = false ∧
    ringCount (begin rings) 448 ≠ ringCount (begin rings) 384 ∧ ringCount (begin rings) 449 = ringCount (begin rings) 385 ∧
    countGap (ringCount (begin rings) 320) 0 ≤ countGap (ringCount (begin rings) 320) (ringCount (begin rings) 256) := by
  unfold Powered; decide +kernel

/-- An entry waits in command ring 0 and in event ring 0, for sessions 0, IDLE, and 1, FREE; the bank is full. -/
def taking (sid : Nat) : State :=
  { m := { sec := { intake := true }, power := { joules := 120 }, s := { sessions := [(0, { state := 1 })] },
           h := { counts := [(0, 1), (128, 1)], cmdSlots := [(0, 0x70000)], evSlots := [(0, sid)] },
           k := { journal := [(0, { typ := 2 })], jseq := 1 } } }

theorem witness_IntakeAndTheJournal : Powered (taking 0) ∧ (taking 0).m.twin.role = 0 ∧ intakeOpen (begin (taking 0)) = true ∧
    (intakeOpen (begin rings) = false ∧ jRoom (begin rings) 1 = true) ∧
    ringCount (begin (taking 0)) 64 ≠ ringCount (begin (taking 0)) 0 ∧ tget (taking 0).m.h.sw 7 = none ∧
    tread 0 (taking 0).m.h.swOwn 0 = cmdRingFn (begin (taking 0)) 0 ∧ ringTurn (begin (taking 0)) 0 = true ∧
    (let s : State := { taking 0 with m := { (taking 0).m with h := { (taking 0).m.h with turn := 0 } } }
     ringTurn (begin s) 0 = false ∧ ringTurn (begin s) 32 = true) ∧ cmdRingFn (begin rings) 1 ≠ tread 0 rings.m.h.swOwn 0 ∧
    ringCount (begin (taking 0)) 192 ≠ ringCount (begin (taking 0)) 128 ∧ intakeStatus (begin (taking 0)) 0 = none ∧
    intakeStatus (begin (taking 1)) 1 = some 2 ∧ poolUsed (begin (taking 0)) 0 < 524288 ∧
    (taking 0).m.k.journal.find? (fun e => !e.2.committed) = some (0, { typ := 2 }) ∧ jResident (begin (taking 0)) < 7338240 ∧
    tget (taking 0).m.k.journal 0 = some { typ := 2 } ∧
    (taking 0).m.k.jseq < (taking 0).m.k.jDrained + 7280 ∧ tableAt (begin (taking 0)) (homeDie (begin (taking 0)) 0) = none := by
  unfold Powered; decide +kernel

/-- A segment whose records have all left already, with the tally kept and not kept. -/
theorem witness_segment_drain : ∀ n ∈ [0, 1], let k : KeepSt := { jseq := 7280, jWritten := n }
    k.jDrained + 7280 ≤ k.jseq ∧ (∀ e ∈ k.journal, k.jDrained ≤ e.1 → e.1 < k.jDrained + 7280 → e.2.committed = true) ∧
    k.jseq ≤ 2 ^ 62 ∧ (k.jWritten = k.jGone + k.journal.length ↔ n = 0) ∧ State.reset.m.hw.tally = [] := by decide +kernel

/-! ### Commands of the rings -/

/-- Command 1 of opcode `op` is QUEUED in status word 7, its record committed, with an entry's other bits. -/
def commanded (op entry : Nat) (m : Module := {}) : State :=
  { m := { m with
      h := { m.h with cmds := [(1, { entry := op + 7 <<< 16 + entry })], sw := [(7, { seq := 1, state := 1, opcode := op })] },
      k := { m.k with journal := [(0, { typ := 2, committed := true })], jseq := 1 } } }

theorem witness_RingCommands :
    (∀ op ∈ [0x00, 0x01, 0x02, 0x03, 0x04, 0x05, 0x08, 0x10, 0x12, 0x13, 0x14, 0x18],
      Starts 1 op (commanded op 0) ∧ Quiet 1 (commanded op 0) ∧ mayStart (begin State.reset) 1 op = false ∧
      operandsClean (cmdOf (begin (commanded op 0)) 1) [] = true ∧
      operandsClean (cmdOf (begin (commanded op (1 <<< 511))) 1) [] = false ∧
      (cmdOf (begin (commanded op 0)) 1).stage = 0) := by
  unfold Starts Quiet Powered; decide +kernel

/-- The gates have admitted what the keeper's work `k` asks for. -/
def keeping (k : Nat) (m : Module := {}) : State := { m := { m with kpaid := [k] } }

/-- RELEASE of words 8 to 9, of its own word 7, and of none; MOVE of 64 bytes in class 1; JOURNAL_READ of one record. -/
theorem witness_ring_command_operands :
    (let c := cmdOf (begin (commanded 0x18 (8 <<< 128 + 2 <<< 144))) 1
     cmdBits c 0x10 0 15 = 8 ∧ cmdBits c 0x10 16 16 = 2 ∧ swordOf c < 8 ∧ operandsClean c [(128, 15), (144, 16)] = true) ∧
    (let c := cmdOf (begin (commanded 0x18 (7 <<< 128 + 1 <<< 144))) 1
     cmdBits c 0x10 0 15 ≤ swordOf c ∧ swordOf c < cmdBits c 0x10 0 15 + cmdBits c 0x10 16 16) ∧
    (let s := commanded 0x02 (0x4040 <<< 128 + 0x4080 <<< 192 + 64 <<< 256 + 1 <<< 336)
     let c := cmdOf (begin s) 1
     operandsClean c [(128, 48), (192, 48), (256, 48), (320, 23)] = true ∧ useCheck (begin s) c.fn (cmdBits c 0x28 16 6) (some 0) = 0 ∧
     0 < cmdBits c 0x20 0 48 ∧ cmdBits c 0x18 0 48 % 2048 + cmdBits c 0x20 0 48 ≤ 2048 ∧ c.posted = 0 ∧ c.absent = false) ∧
    useCheck (begin State.reset) 0 0 none ≠ 0 ∧ useCheck (begin State.reset) 0 1 none = 0 ∧ useCheck (begin State.reset) 1 1 none ≠ 0 ∧
    (let s := commanded 0x12 (1 <<< 192 + 0x4040 <<< 256 + 1 <<< 336)
     let c := cmdOf (begin s) 1
     cmdBits c 0x18 0 21 = 1 ∧ operandsClean c [(128, 64), (192, 21), (256, 48), (320, 22)] = true ∧
     s.m.k.journal.filter (fun e => decide (0 ≤ e.1 ∧ e.1 < 1) && e.2.committed) = [(0, { typ := 2, committed := true })]) ∧
    KeeperPaid (workOf 1 2) (keeping (workOf 1 2)) := by
  unfold KeeperPaid; decide +kernel

/-- The tables of `tables`, found through the thread of ASID 0. -/
theorem witness_keeper_writes :
    asidPieces (begin tables) 0 .write 0x4040 144 = .ok [⟨0x4040, 144, some 0x010000004040, none⟩] :=
  of_ok (by decide +kernel)

/-- A plan that has stood still: bound, with DET, and its thread waits for a field step that no queued operation brings. -/
def still (stall : Nat) : State :=
  let s := commanded 0x01 0 { threads := [(0, { user with det := true, park := .fwait 1 })], fqueues := [(.plan 1, {})] }
  { s with m := { s.m with h := { s.m.h with
      sw := [(7, { seq := 1, state := 2, opcode := 1 })], plans := [(1, { t := 1, bound := true, stall := stall })] } } }

theorem witness_horizon_stall : planStalled (begin (still 16)) 1 = true ∧ 16 ≤ (planOf (begin (still 16)) 1).stall ∧
    (tget (still 16).m.h.plans 1).isSome = true ∧ wordOver (begin (still 16)) 1 = false := by decide +kernel

/-- INVALIDATE of a page and of part of one; a shoot-down of one use, that has drained. -/
theorem witness_TranslationCommands :
    (let c := cmdOf (begin (commanded 0x05 (0x4000 <<< 128 + 0x1000 <<< 192 + 1 <<< 280))) 1
     cmdBits c 0x10 0 48 % 4096 = 0 ∧ cmdBits c 0x18 0 48 % 4096 = 0 ∧ cmdBits c 0x20 24 6 = 1 ∧
     operandsClean c [(128, 48), (192, 48), (256, 17), (280, 6)] = true) ∧
    cmdBits (cmdOf (begin (commanded 0x05 (0x4001 <<< 128 + 1 <<< 280))) 1) 0x10 0 48 % 4096 ≠ 0 ∧
    (let s := commanded 0x05 0 { x := { shoots := [{ cmd := some 1, sent := true, uses := [.field (.plan 1) 0] }] } }
     s.m.x.shoots[0]? = some { cmd := some 1, sent := true, uses := [.field (.plan 1) 0] } ∧ s.m.x.shoots[1]? = none ∧
     useDrained (begin s) (.field (.plan 1) 0) = true ∧
     opcodeOf (cmdOf (begin s) 1) ≠ 3) ∧
    (let c := cmdOf (begin (commanded 0x04 (0x4000 <<< 128 + 0x1000 <<< 192 + 1 <<< 280))) 1
     operandsClean c [(128, 48), (192, 48), (256, 22), (280, 6)] = true ∧ cutAdvice 0 0x4000 0x1000 [] = []) := by
  decide +kernel

/-- PREFETCH of the 2 MiB page of `tables`, found through the thread of ASID 0; and its copy, once drained. -/
theorem witness_prefetch :
    (∃ l, leavesOf (begin tables) (asidCtx (begin tables) 0).xlbase 513 0 0x200000 = some [l] ∧ l.size = 0x200000 ∧
      isDevice (begin tables) l.ent = true ∧ bit (readNum (begin tables) l.ent 8) 0 = true) ∧
    regionKind 0x010000200000 ≠ 0 ∧ regionKind (0x010000200000 + 0x200000 - 1) = regionKind 0x010000200000 ∧
    (let p : MovePage := { ent := 0x010000012000, va := 0, size := 0x200000, pa := 0x010000000000, bits := 0x2F }
     let s := commanded 0x03 (0x200000 <<< 192 + 0x010000400000 <<< 256 + 1 <<< 344)
       { kpaid := [workOf 1 1], x := { shoots := [{ cmd := some 1, drained := true, sent := true }], moves := [(1, [p])] } }
     let s := { s with m := { s.m with h := { s.m.h with
       sw := [(7, { seq := 1, state := 2, opcode := 3 })], cmds := s.m.h.cmds.map fun e => (e.1, { e.2 with stage := 1 }) } } }
     isRunning (begin s) 1 = true ∧ tread [] s.m.x.moves 1 = [p] ∧ (cmdOf (begin s) 1).stage ≠ 0 ∧
     cmdBits (cmdOf (begin s) 1) 0x20 0 48 = 0x010000400000 ∧ KeeperPaid (workOf 1 1) s ∧ s.m.advice = [] ∧
     (cmdOf (begin s) 1).posted = 0 ∧
     (physRange (begin s) p.va p.pa p.size ++ physRange (begin s) p.va 0x010000400000 p.size).all (fun x =>
       match x.pa with | some a => isDevice (begin s) a && !isHost a | none => false) = true ∧
     isDevice (begin s) p.ent = true) := by
  refine ⟨⟨⟨0, 0x200000, 0x010000000000, 0x2F, 0x010000012000⟩, ?_⟩, ?_⟩
  · decide +kernel
  · unfold KeeperPaid; decide +kernel

theorem witness_address_translation_services :
    (let s : State := { m := { x := { atsReq := [(1, 5)], atsInv := [⟨1, 5, 1, []⟩] } } }
     (1, 5) ∈ s.m.x.atsReq ∧ s.m.x.atsInv.length < 32 ∧ Powered s ∧
     (∀ q ∈ s.m.x.atsInv, q.uses.all (useDrained (begin s)) = true)) ∧
    (32 ≤ ({ atsInv := List.replicate 32 ⟨1, 5, 1, []⟩ } : XlatSt).atsInv.length) ∧
    useDrained (begin (running {})) (.field (.plan 1) 0) = false ∧ ¬ (1, 5) ∈ State.reset.m.x.atsReq := by
  unfold Powered; decide +kernel

/-! ### Plans, sessions and invocations -/

/-- A plan of one thread that waits for it; running, with its checkpoint 1 reached; aborted. -/
def plan0 : Plan := { t := 1, cks := [⟨0, 0, [(0, 0x2000)]⟩, ⟨0, 4, [(0, 0x2000)]⟩] }
def planned (state : Nat) (p : Plan) (th : Thread) (det : Bool := true) : State :=
  let s := commanded 0x01 0 { threads := [(0, th)], fqueues := [(.plan 1, {})] }
  { s with m := { s.m with h := { s.m.h with
      cmds := s.m.h.cmds.map fun e => (e.1, { e.2 with stage := 1, det := det })
      sw := [(7, { seq := 1, state := state, opcode := 1 })], plans := [(1, p)] } } }

theorem witness_Plans :
    (planWaits (begin (planned 1 plan0 {})) 1 = true ∧ stateOf (begin (planned 1 plan0 {})) 1 = 1 ∧
      (freeThreadsOf (begin (planned 1 plan0 {}))).length = 256 ∧ plan0.replay = none ∧ plan0.dec = 0) ∧
    (let s := planned 2 { plan0 with bound := true } user
     (planOf (begin s) 1).cks[1]? = some ⟨0, 4, [(0, 0x2000)]⟩ ∧ isRunning (begin s) 1 = true ∧
     planQuiet (begin s) 1 = true ∧ (threadOf s t0).binding = .plan 1 0 ∧ wordOver (begin s) 1 = false) ∧
    (let s := planned 2 { plan0 with replay := some { kind := 0, target := 0, lthread := 0, step := 0, stopped := true } } user
     (planOf (begin s) 1).replay.map (·.stopped) = some true ∧ mayStart (begin s) 1 0x11 = false ∧ isRunning (begin s) 1 = true ∧
     wordOver (begin s) 1 = false ∧ inField (begin s) 1 = false) ∧
    (∀ det ∈ [true, false],
      let s := planned 2 { plan0 with aborted := true, granule := some 1, attempts := if det then 8 else 0 } user det
      (planOf (begin s) 1).aborted = true ∧ inField (begin s) 1 = false ∧ onMover (begin s) 1 = false ∧
      wordOver (begin s) 1 = false ∧ isOver (begin s) 1 = false ∧
      (s.m.threads.any fun e => cmdOfThread e.2 == some 1 && !e.2.sbuf.isEmpty) = false ∧
      (cmdOf (begin s) 1).det = det ∧ inNamedInput (begin s) (planOf (begin s) 1) 1 = false) := by
  decide +kernel

/-- A plan image of one thread, one entry and one checkpoint, at 0x4000 of the tables of ASID 0. -/
def image0 : List Byte := toBytes 4 0x4E414C50 ++ toBytes 2 1 ++ toBytes 2 0 ++
  toBytes 8 (geomDigest (begin State.reset)) ++ toBytes 8 0 ++ toBytes 4 0x28 ++ toBytes 4 1 ++ toBytes 4 0x30 ++ toBytes 4 1 ++
  toBytes 8 0x2000 ++ toBytes 16 0 ++ toBytes 16 (0x2000 <<< 64)
def imaged : State :=
  let s := commanded 0x01 (0x4000 <<< 128 + 1 <<< 208) tables.m
  { s with mem := cells 0x010000004000 image0 ++ tables.mem }

theorem witness_plan_image : let s := imaged
    Starts 1 0x01 s ∧ Quiet 1 s ∧ (cmdOf (begin s) 1).stage = 0 ∧
    operandsClean (cmdOf (begin s) 1) [(128, 48), (192, 25), (256, 64), (320, 48), (384, 16)] = true ∧
    useCheck (begin s) 0 (cmdBits (cmdOf (begin s) 1) 0x18 16 6) (some 0) = 0 ∧
    (match readPlan (begin s) (cmdOf (begin s) 1) with
      | some p => decide (p.geom = geomDigest (begin s) ∧ p.dec = 0 ∧ p.ins = [] ∧ p.serve = false) && threadsSuffice (begin s) p
      | none => false) = true := by
  unfold Starts Quiet Powered; decide +kernel

/-- A plan image that is none. -/
theorem witness_run_plan : let s := commanded 0x01 (1 <<< 208)
    operandsClean (cmdOf (begin s) 1) [(128, 48), (192, 25), (256, 64), (320, 48), (384, 16)] = true ∧
    useCheck (begin s) 0 (cmdBits (cmdOf (begin s) 1) 0x18 16 6) (some 0) = 0 ∧ readPlan (begin s) (cmdOf (begin s) 1) = none ∧
    cmdBits (cmdOf (begin s) 1) 0x30 0 8 ≤ 64 := by decide +kernel

/-- REPLAY_TO of a plan that has ended and is kept, of one unknown, of a session; a snapshot in front, with its header. -/
theorem witness_ReplaysAndSnapshots :
    (let s := commanded 0x11 (5 <<< 160 + 1 <<< 152)
       { h := { plans := [(5, { plan0 with ended := true })] } }
     recordsKept (begin s) 5 = true ∧ recordsKept (begin State.reset) 5 = false ∧ Starts 1 0x11 s ∧ Quiet 1 s ∧ replayMalformed (cmdOf (begin s) 1) = false ∧
     useCheck (begin s) 0 (cmdBits (cmdOf (begin s) 1) 0x10 24 6) none = 0 ∧ cmdBits (cmdOf (begin s) 1) 0x14 0 32 = 5 ∧
     threadsSuffice (begin s) { plan0 with ended := true } = true) ∧
    replayMalformed (cmdOf (begin (commanded 0x11 (3 <<< 128))) 1) = true ∧
    (let s := commanded 0x11 (2 <<< 128 + 1 <<< 152) { s := { past := [(0, [(0, {})])], sessions := [(0, { state := 1 })] }, k := { snaps := [{ sessions := [(0, {})] }] } }
     cmdBits (cmdOf (begin s) 1) 0x10 0 2 = 2 ∧ (∃ n ∈ s.m.k.snaps, (tget n.sessions 0).isSome = true) ∧
     (sessOf (begin s) 0).step = 0) ∧
    (Starts 1 0x10 (commanded 0x10 0) ∧ operandsClean (cmdOf (begin (commanded 0x10 0)) 1) [(128, 1)] = true) ∧
    (let s : State := { m := { k := { snapQ := [{ snap := some {}, cut := 1 }], wear := 7999 } } }
     s.m.k.snapQ ≠ [] ∧ s.m.k.wear < 8000 ∧ (∀ e ∈ s.m.k.journal, ({} : Snap).jcut ≤ e.1 → e.2.ring ≠ 63)) ∧
    (let s : State := { m := { epoch := 2, s := { sessions := [(0, { state := 5, closedEp := 1, closed := 9 })] } } }
     beforeCut (begin s) (sessOf (begin s) 0).closedEp (sessOf (begin s) 0).closed 1 = true) := by
  unfold Starts Quiet Powered; decide +kernel

/-- SESSION_OPEN of a FREE session for a serving plan, with a block in the page that the tables of ASID 0 map, here to near memory's
first 2 MiB, the die's session region. -/
def opening (entry : Nat) : State :=
  let s := commanded 0x08 (entry + 1 <<< 152 + 1 <<< 176 + 5 <<< 192)
    { tables.m with h := { plans := [(5, { serve := true, entries := [0x2000] })] }, s := { sessRegs := [(0, 0xFFFFFF), (2, 1)] }, nmPlain := [(0, 1216)] }
  { s with mem := tables.mem.filter (·.1 != 0x010000012005), m := { s.m with h := { s.m.h with
      cmds := s.m.h.cmds ++ [(5, { entry := 1 + 9 <<< 16 })], sw := s.m.h.sw ++ [(9, { seq := 5, state := 2 })] } } }

theorem witness_SessionCommands :
    (let s := opening 0
     let c := cmdOf (begin s) 1
     Starts 1 0x08 s ∧ Quiet 1 s ∧ operandsClean c openBits = true ∧ cmdBits c 0x14 16 16 ≠ 0 ∧
     useCheck (begin s) c.fn (cmdBits c 0x10 24 6) (some 0) = 0 ∧ (sessOf (begin s) 0).state = 0 ∧
     servesOpen (begin s) c = true ∧ (blockPieces (begin s) 0 0 512 0).isSome = true ∧ pastCut (begin s) c = false ∧
     tableAt (begin s) (homeDie (begin s) 0) = none ∧ (∀ e ∈ sessionCommands (begin s) 0, ¬ e.1 < 1) ∧
     s.m.s.regen.contains 0 = false ∧ s.m.x.relos = []) ∧
    cmdBits (cmdOf (begin (opening (1 <<< 256))) 1) 0x20 0 48 % 512 ≠ 0 ∧
    operandsClean (cmdOf (begin (opening (1 <<< 400))) 1) openBits = true ∧
    operandsClean (cmdOf (begin (opening (1 <<< 151))) 1) openBits = false ∧
    (∀ op ∈ [0x09, 0x0A], ∀ st ∈ [0, 1, 2, 4, 5],
      let s := commanded op 0 { s := { sessions := [(0, { state := st })] } }
      Starts 1 op s ∧ Quiet 1 s ∧ s.m.twin = {} ∧ sessionTurn (begin s) 1 (cmdOf (begin s) 1) 0 = true ∧
      operandsClean (cmdOf (begin s) 1) [(128, 20)] = true) ∧
    sessionTurn (begin (commanded 0x09 0 { s := { sessions := [(0, { state := 3 })] } })) 1 {} 0 = false ∧
    (let s : State := { tables with m := { tables.m with s := { regen := [0], sessions := [(0, { state := 4, stateVa := 0 })] } } }
     0 ∈ s.m.s.regen ∧ blockHome (begin s) 0 = true ∧ descFits (begin s) 0 = true ∧ sessQuiet (begin s) 0 = true) := by
  unfold Starts Quiet Powered; decide +kernel

/-- An invocation of session 0 may start on the thread lent by plan 5; one runs, its thread about to return. -/
def inv0 : Inv := { evs := [(0, { jseq := 3 })], plan := 5, thread := none }
def invoking : State :=
  { m := { threads := [(0, { binding := .lent 5 })], active := [(0, {})],
           h := { plans := [(5, { serve := true, bound := true, entries := [0x2000] })], cmds := [(5, { entry := 1 + 7 <<< 16 })],
                  sw := [(7, { seq := 5, state := 2 })] },
           s := { invs := [(2, inv0)], sessions := [(0, { state := 2, plan := 5, queue := [{ jseq := 3 }] })] } } }
def returning : State :=
  { invoking with m := { invoking.m with
      threads := [(0, { user with binding := .inv 2 5, g := [(1, 1)], costLimit := 64, costSum := 0 })]
      s := { invoking.m.s with invs := [(2, { inv0 with thread := some 0 })] } } }

/-- The same, where the session's descriptor cannot be read. -/
def unreadable : State :=
  { invoking with m := { invoking.m with
      nmPlain := [(0, 1216)], hw := { bad := [(0, 0x0101)] }, s := { invoking.m.s with sessRegs := [] } } }

theorem witness_unreadable_descriptor : unreadable.m.det = true ∧ unreadable.m.s.redo = [] ∧ unreadable.m.k.snapQ = [] ∧
    nextInv (begin unreadable) 0 = some 2 ∧ idleLent (begin unreadable) 5 = [0] ∧ inv0.evs = [(0, { jseq := 3 })] ∧
    (descBad (begin unreadable) 0).isSome = true ∧ (sessOf (begin unreadable) 0).state = 2 ∧ unreadable.m.s.regen = [] := by
  decide +kernel

theorem witness_Invocations : invoking.m.det = true ∧ invoking.m.s.redo = [] ∧ invoking.m.k.snapQ = [] ∧
    returning.m.s.heldResp = [] ∧ (threadOf returning t0).sbuf = [] ∧ nextInv (begin invoking) 0 = some 2 ∧ idleLent (begin invoking) 5 = [0] ∧
    nextInv (begin State.reset) 0 = none ∧
    (Calm 15 t0 returning ∧ (threadOf returning t0).binding = .inv 2 5 ∧ (threadOf returning t0).groups = [] ∧
      ((getG (threadOf returning t0) 30).setWidth 48 >>> 2) <<< 2 = (0 : Addr) ∧ (threadOf returning t0).priv = false ∧
      tget returning.m.s.invs 2 = some { inv0 with thread := some 0 }) := by
  unfold Calm Powered; decide +kernel

/-! ### Keeper services, registers and service -/

/-- A thread that waits for keeper service `n`, with its arguments in g2 to g6. -/
def serving (n : Nat) (args : Table W64) (m : Module := {}) : State :=
  { m := { m with threads := [(0, { user with park := .service n 0x103 {}, g := args })], vps := [(0, vp0)] } }

theorem witness_KeeperServices :
    (∀ s ∈ [serving 1 [], serving 2 [(2, 4096)], serving 2 [(2, 4), (3, 1), (4, 0x4040), (5, 0)], serving 3 [(3, 65)],
            serving 3 [(3, 1), (4, 0x4040), (5, 2 ^ 64 - 1)], serving 4 [(2, 1)], serving 4 [(3, 0x1000), (4, 1 <<< 24)]],
      Powered s ∧ s.m.twin.role = 0 ∧ (∀ c, cmdOfThread (threadOf s t0) = some c → (planOf (begin s) c).replay = none) ∧
      (threadOf s t0).gm = false ∧ (threadOf s t0).groups = [] ∧ Sound s ∧ jStages (begin s) 1 = true ∧
      ∃ n word st, (threadOf s t0).park = .service n word st) ∧
    xlinvError 1 0 0 ≠ 0 ∧ xlinvError 0 0x1000 (1 <<< 24) = 0 ∧
    ackWrite (serving 2 []).m.violCount 0 = some (serving 2 []).m.violCount ∧
    svcAt (begin (serving 4 [])) t0 0x103 4 0x4040 7
      = { va := 0x4040, ctx := ctxOf (threadOf (serving 4 []) t0), word := 0x103, tag := 7, service := 4 } ∧
    svcPieces (begin (serving 4 [])) (svcAt (begin (serving 4 [])) t0 0x103 4 0x4040 7) = [⟨0x4040, 32, some pa, none⟩] := by
  unfold Powered Sound
  refine ⟨?_, by decide, by decide, by decide, by decide +kernel, by decide +kernel⟩
  intro s hs
  simp only [List.mem_cons, List.not_mem_nil, or_false] at hs
  rcases hs with rfl | rfl | rfl | rfl | rfl | rfl | rfl <;> refine ⟨rfl, rfl, ?_, rfl, rfl, rfl, rfl, _, _, _, rfl⟩ <;>
    · intro c hc; cases hc; rfl

theorem witness_keeper_memory :
    threadPieces (begin (serving 4 [])) t0 .write 0x4040 32 = .ok [⟨0x4040, 32, some pa, none⟩] ∧
    (match threadPieces (begin (serving 1 [])) t0 .read 0x4040 12653 with
      | .ok cs => cs.all (·.pa.isSome) && (readPieces (begin (serving 1 [])) cs).length == 12653
      | .error _ => false) = true := ⟨of_ok (by decide +kernel), by decide +kernel⟩

/-- An image of zeros is none; no table is installed while a plan of its own runs. -/
theorem witness_decode_images :
    (let s : State := { m := { sec := { decImg := some { bytes := [] } } } }
     imageError (begin s) [] ≠ 0 ∧ Powered s) ∧
    (let s : State := { m := { sec := { decNext := some [] } } }
     customRunning (begin s) 0 = false ∧ customRunning (begin s) 1 = false ∧ s.m.sec.decNext = some []) ∧
    (let s := planned 2 { t := 1, dec := 3 } user
     customRunning (begin s) 0 = true ∧ customRunning (begin s) 1 = false) := by unfold Powered; decide +kernel

/-- Each clause of a register write has an address and a value. -/
theorem witness_HostRegisters :
    let s : State := { m := { sec := { bootPhase := 6 } } }
    let w := begin s
    Powered s ∧ ackFull s.m.violCount = false ∧ inRecovery w = false ∧ accessShape 2 4 = false ∧ accessShape 0x1064 4 = true ∧
    inRecovery (begin { m := { sec := { bootBits := 1 } } }) = true ∧ ringEmpty w 0 = true ∧ ringEmpty w 95 = true ∧
    (∀ d ∈ [0, 1], tread false s.m.hw.dieReset d = false ∧ (tread {} s.m.hw.channels (d * 256 + 255)).busy = false) ∧
    5 < s.m.sec.bootPhase ∧ (1 ≤ 24 % 32 ∧ 24 % 32 ≤ 24) ∧ (0xFFFF % 65536 ≠ 0) ∧
    (0x20000 ≤ 0xBFFFC ∧ 0xBFFFC < 0xC0000 ∧ 0xBFFFC % 4 = 0) := by unfold Powered; decide +kernel

theorem witness_acknowledgements :
    let s : State := { m := { violCount := { seen := 5, ack := 3 }, ringFn := [(7, 2)], hifCtr := [(7, { seen := 2 })] } }
    ackWrite s.m.violCount 4 = some { seen := 5, ack := 4 } ∧ ackWrite s.m.errCount 1 = none ∧
    tread 0 s.m.ringFn 7 = (2 : BitVec 5).toNat ∧ ackWrite (tread {} s.m.hifCtr 7) 1 = some { seen := 2, ack := 1 } ∧
    tread 0 s.m.ringFn 8 ≠ (2 : BitVec 5).toNat ∧ ackFull s.m.violCount = false ∧ ackFull { seen := 2 ^ 32 - 1 } = true := by
  decide +kernel

theorem witness_latched_reads :
    let s : State := { m := { h := { pfLatch := [(0x1014, 9)] } } }
    Powered s ∧ isLo 0x1010 = true ∧ isLo 0x100C = false ∧ isLo 0x1014 = false ∧ tget s.m.h.pfLatch 0x1014 = some 9 ∧
    0x1014 % 4 = 0 ∧ inRecovery (begin s) = false := by unfold Powered; decide +kernel

theorem witness_device_control :
    (∀ s ∈ [State.reset, { m := { cfglock := true } }, { m := { cfglockW := true } }, { m := { twin := { mode := 1 } } }],
      Powered s ∧ ackFull s.m.violCount = false ∧ tread false s.m.hw.dieReset 1 = false) ∧
    State.reset.m.twin.mode ≠ 1 ∧ State.reset.m.cfglock = false ∧ State.reset.m.cfglockW = false := by
  unfold Powered; decide

/-- TAKE of the last probe entry of Die B. -/
theorem test_take :
    (match exec (.take 1 4095) { m := { probes := [(8191, { live := { n := 3 } })] } } with
     | .next s => (tread {} s.m.probes 8191).held.n == 3 && (tread {} s.m.probes 8191).live == {}
     | _ => false) = true := by decide +kernel

/-- A wait trace of 1,024 records at HBM address 0x010000100000, and a record 200 ticks old. -/
def traced (b : TraceBuf) : State := { m := { tick := 300, k := { trc := [(0, b)] } } }
def trc0 : TraceBuf := { ctl := 0xFFF1, min := 0, base := 0x010000100000, size := 1 }
theorem witness_traces :
    let r : Nat := 100 + 1 <<< 96
    Powered (traced trc0) ∧ bits r 0 64 + 128 < (traced trc0).m.tick ∧ 1 ≤ bits r 96 8 ∧ bits r 96 8 ≤ 11 ∧
    trc0.ctl.getLsbD 0 = true ∧ trc0.ctl.getLsbD (bits r 96 8 + 4) = true ∧ trc0.min.toNat ≤ bits r 160 32 ∧
    trc0.last < traceRank r ∧ 0 < trc0.size.toNat * 1024 ∧ isDevice (begin (traced trc0)) 0x010000100000 = true ∧
    isDevice (begin (traced trc0)) (0x010000100000 + 1024 * 64 - 1) = true ∧ trc0.ctl.getLsbD 1 = false ∧
    ({ trc0 with ctl := 0xFFF3, head := 1024 } : TraceBuf).ctl.getLsbD 1 = true ∧
    1024 ≤ ({ trc0 with ctl := 0xFFF3, head := 1024 } : TraceBuf).head.toNat ∧ ackFull trc0.drop = false ∧
    ¬ ({} : TraceBuf).ctl.getLsbD 0 = true ∧
    (bits (100 + 11 <<< 96) 96 8 = 11 ∧ (traced trc0).m.k.ktrcLast < traceRank (100 + 11 <<< 96)) := by
  unfold Powered; decide +kernel

/-- UNIT_SERVICE of unit `u`, which is in state `st`. -/
def service (u action : Nat) (st : UState) (m : Module := {}) : State :=
  commanded 0x14 (u <<< 128 + action <<< 144) { m with units := [(u, { state := st })] }

theorem witness_UnitService :
    (∀ a ∈ [0, 1, 2], ∀ u ∈ [0, 0x1000, 0x2000, 0x3000, 0x4000, 0x5000, 0x6000, 0x7000, 0x8000], ∀ st ∈ [.inService, .pupa],
      let s := service u a st
      let c := cmdOf (begin s) 1
      Starts 1 0x14 s ∧ Quiet 1 s ∧ c.stage = 0 ∧ serviceBehind (begin s) 1 c = false ∧ serviceAction c = a ∧
      serviceUnit c = u ∧ operandsClean c [(128, 19)] = true ∧ isUnit u = true ∧ unitState (begin s) u = st ∧
      isLast (begin s) u = false ∧ cooled (begin s) u = true ∧ tget s.m.hw.grace u = none ∧
      (∀ d, drainsDie u = some d → drainFits d (begin s) = true)) ∧
    isUnit 0x9000 = false ∧ isUnit 0x4034 = false ∧
    isLast (begin { m := { units := [(1, { state := .pupa })] } }) 0 = true ∧
    cooled (begin { m := { power := { shut := [(0, 0)] } } }) 0 = false ∧
    drainFits 0 (begin { tables with m := { tables.m with
      s := { sessions := [(0, { state := 1, block := [(0, 512)] })], sessRegs := [(0, 0xFFFFFF), (2, 1), (4, 0xFFFFFF)] } } }) = false := by
  unfold Starts Quiet Powered; decide +kernel

theorem witness_units_drain_and_fail :
    (∀ u ∈ [0x1000, 0x2000, 0x3000, 0x4000, 0x5000, 0x6000],
      let s := service u 0 .draining
      drainsDie u = none ∧ isUnit u = true ∧ unitState (begin s) u = .draining ∧ hasDrained (begin s) u = true) ∧
    (∀ u ∈ [0, 0x7000, 0x8000], (drainsDie u).isSome = true ∧ hasDrained (rehomeBlocks true (begin (service u 0 .draining))).1 u = true) ∧
    (∃ c k, (threadOf (machine user) t0).binding = .plan c k) ∧
    (planOf (begin (planned 2 { plan0 with bound := true } user)) 1).bound = true ∧
    (∀ u ∈ [0, 0x1000], unitState (begin (service u 1 .molting)) u = .molting ∧ (service u 1 .molting).m.tick % 4096 = 0) := by
  refine ⟨by decide +kernel, by decide +kernel, ⟨1, 0, rfl⟩, by decide +kernel, by decide +kernel⟩

theorem witness_resets_and_expiries :
    (let s : State := { m := { k := { servctl := 0x00015F5E } } }
     Powered s ∧ ackFull s.m.violCount = false ∧ unitState (begin s) 0 = .inService ∧ tget s.m.power.shut 0 = none ∧
     s.m.k.servctl.getLsbD 16 = true) ∧
    (let s : State := { m := { tick := 4096, hw := { grace := [(0x5000, 1)] } } }
     tget s.m.hw.grace 0x5000 = some 1 ∧ 1 ≤ s.m.tick / 4096 ∧ unitState (begin s) 0x5000 = .inService) ∧
    (let s : State := { m := { tick := 0x40000, units := [(0x1000, { state := .draining })], hw := { drainAt := [(0x1000, 0)] } } }
     unitState (begin s) 0x1000 = .draining ∧ tget s.m.hw.drainAt 0x1000 = some 0 ∧ 0 + 64 ≤ s.m.tick / 4096) ∧
    (let s : State := { m := { kpaid := [2 ^ 40 + 0x4000, 2 ^ 40 + 0x5000], hw := { bankCopy := [0x4000], restripe := [0] } } }
     KeeperPaid (2 ^ 40 + 0x4000) s ∧ KeeperPaid (2 ^ 40 + 0x5000) s ∧ 0x4000 ∈ s.m.hw.bankCopy ∧ servedBank (begin s) 0 0 = some 0 ∧ freeSpare (begin s) 0 = some 48 ∧ 0 ∈ s.m.hw.restripe) ∧
    tget State.reset.m.hw.grace 0x5000 = none := by unfold Powered KeeperPaid; decide +kernel

/-! ### Errors, the link and the twin -/

theorem witness_ErrorsAndWeevils :
    (isDevice (begin State.reset) 0x010000100000 = true ∧ tget State.reset.m.hw.bad 0x0800008000 = none ∧
      isDevice (begin State.reset) 0x800000000000 = false ∧
      (chitinDecode (toBytes 36 0xFF) == .corrected 0 0xFF) = true ∧ 0xFF = (0xFF : Nat) <<< (8 * 0) ∧
      (chitinDecode (toBytes 36 0x0101) == .uncorrectable) = true ∧ sessionsAt (begin State.reset) 0x0800008000 = [] ∧
      KeeperPaid (2 ^ 42 + 0x0800008000) { m := { kpaid := [2 ^ 42 + 0x0800008000] } }) ∧
    (let s : State := { m := { hw := { flits := [(0, 3), (1, 7)] } } }
     tread 0 s.m.hw.flits 0 + 1 = 4 ∧ tread 0 s.m.hw.flits 1 + 1 = 8 ∧ unitState (begin s) 0x8001 = .inService) ∧
    (∀ b ∈ [false, true], (({ retried := b } : Channel).retried = b)) ∧
    (let s : State := { m := { hw := { channels := [(0, { lines := 2, busy := true, ctl := 0x84 }), (1, { lines := 1 })] } } }
     weevilAllowed (begin s) 1 (tread {} s.m.hw.channels 1) = true ∧ (tread {} s.m.hw.channels 1).busy = false ∧
     weevilAllowed (begin s) 2 (tread {} s.m.hw.channels 2) = false ∧ (tread {} s.m.hw.channels 0).busy = true ∧
     bits (tread {} s.m.hw.channels 0).ctl.toNat 2 3 = 1) := by unfold KeeperPaid; decide +kernel

/-- A module whose link is up. -/
def linked (x : Twin) (m : Module := {}) : State :=
  { m := { m with twin := { x with link := { x.link with up := true, present := true } } } }

theorem witness_NeraxoFrames :
    (∀ r ∈ [0, 1, 2, 3], ∀ md ∈ [0, 1, 2], Powered (linked { role := r, mode := md }) ∧
      (linked { role := r, mode := md }).m.twin.link.up = true ∧ (linked { role := r, mode := md }).m.twin.role = r ∧
      (linked { role := r, mode := md }).m.twin.mode = md ∧ ackFull (linked { role := r, mode := md }).m.violCount = false) ∧
    State.reset.m.twin.link.up = false ∧
    (∀ n ∈ [7, 8], (linked { link := { resends := n } }).m.twin.link.resends = n ∧
      (0 : BitVec 32).toNat = (linked { link := { resends := n } }).m.twin.link.acked ∧
      (1 : BitVec 32).toNat ≠ (linked { link := { resends := n } }).m.twin.link.acked) ∧
    (linked { role := 2 }).m.twin.link.waiting = [] ∧ (linked { role := 2 }).m.twin.early = [] ∧
    (linked { link := { unacked := List.replicate 256 (0, 0) } }).m.twin.link.unacked.length = 256 ∧
    tget (linked { role := 1 } { k := { journal := [(0, {})] } }).m.k.journal 0 = some {} ∧
    ({ pairgen := 1 } : Twin).pairgen < (2 : BitVec 32).toNat ∧ (1 : BitVec 32).toNat ≤ ({ pairgen := 1 } : Twin).pairgen ∧
    ({ role := 2 } : Twin).silent = false ∧
    (let s := linked { role := 2 } { k := { snaps := [{ num := 1 }, { num := 2, units := [(5, [])] }] } }
     s.m.k.snaps = [{ num := 1 }] ++ [{ num := 2, units := [(5, [])] }] ∧
     tget ({ num := 2, units := [(5, [])] } : Snap).units (0x5FFF / 4096) = some []) := by unfold Powered; decide +kernel

/-- A twin that withholds or awaits the result of command 1, which runs. -/
def awaiting (x : Twin) : State :=
  let s := planned 2 {} {}
  linked { x with held := [{ ctx := .cmd 1, err := 0, digest := 5 }], diverged := [(3, .cmd 1)], verdicts := 3,
                  inputs := [(7, [1])], fetch := [0] } s.m

theorem witness_results_withheld :
    (∀ r ∈ [1, 2], let s := awaiting { role := r, mode := 1 }
      isRunning (begin s) 1 = true ∧ wordOver (begin s) 1 = false ∧ s.m.twin.held.find? (fun h => h.ctx == .cmd 1) = some { ctx := .cmd 1, digest := 5 } ∧
      s.m.twin.held = [{ ctx := .cmd 1, digest := 5 }] ∧ s.m.twin.diverged.find? (fun e => e.1 == 3) = some (3, .cmd 1)) ∧
    (5 = (5 : BitVec 256).toNat ∧ 5 ≠ (6 : BitVec 256).toNat) ∧ (linked { role := 1, mode := 1 }).m.twin.held = [] := by
  decide +kernel

/-- A shipped event record and a shipped command record, applied and kept. -/
theorem witness_shipped_records :
    (∀ typ ∈ [1, 2],
      let s := linked { role := 2, mode := 1 }
      let rec1 : BitVec 1152 := BitVec.ofNat 1152 (typ <<< 128 + 9 <<< 192)
      let r := readRecord (begin s) 4 rec1
      r.1 = 9 ∧ r.2.typ = typ ∧ tget s.m.k.journal r.1 = none ∧ dormant (begin s) = false ∧ s.m.twin.applied ≤ r.1 ∧
      s.m.twin.pairing = none ∧ opcodeInfo (bits (r.2.body >>> 256) 0 8) = some true) ∧
    dormant (begin (linked { role := 2, mode := 2 })) = true ∧ isDevice (begin (linked { role := 2, mode := 2 })) 0x010000100000 = true ∧
    0 ∈ (awaiting { role := 2 }).m.twin.fetch ∧ blockHome (begin (awaiting { role := 2 })) 0 = true ∧
    ¬ 1 ∈ (awaiting { role := 2 }).m.twin.fetch ∧ ¬ 1 ∈ (awaiting { role := 2 }).m.s.regen := by decide +kernel

/-- TWIN_PAIR as lead, as follower and with a reserved mode, on an unowned pair. -/
theorem witness_TwinPairing :
    (∀ l ∈ ([{}, { present := true }, { present := true, retrain := true, half := true }, { present := true, up := true }] : List Link),
      Powered { m := { twin := { link := l } } } ∧ (l.present = false → l.up = false)) ∧
    (∀ e ∈ [0, 1, 2, 3, 5, 6],
      let s0 := commanded 0x20 (e <<< 128)
      let s : State := { s0 with m := (linked {} s0.m).m }
      let c := cmdOf (begin s) 1
      Starts 1 0x20 s ∧ Quiet 1 s ∧ operandsClean c [(128, 3)] = true ∧ cmdBits c 0x10 0 2 = e % 4 ∧
      cmdBits c 0x10 2 1 = e / 4 ∧ s.m.twin.link.up = true ∧ s.m.twin.mode ≠ 1 ∧ s.m.twin.pairing = none ∧
      s.m.twin.takeW = none ∧ s.m.twin.resume = false ∧ s.m.twin.peerOwner = s.m.sec.owned) ∧
    (commanded 0x20 0).m.twin.link.up = false := by unfold Starts Quiet Powered; decide +kernel

theorem witness_twin_commands :
    (∀ e ∈ [(0x21, 2 <<< 128, ({ role := 1, mode := 2 } : Twin), [(128, 2)]), (0x22, 0, { role := 2 }, []),
            (0x23, 4 <<< 128, { role := 2, pairgen := 4, silent := true }, [(128, 33)]),
            (0x24, 3 <<< 160, { role := 1, diverged := [(3, .cmd 9)] }, [(128, 1), (160, 32)])],
      let s0 := commanded e.1 e.2.1
      let s0 : State := { s0 with m := (linked e.2.2.1 s0.m).m }
      let s : State := { s0 with m := { s0.m with h := { s0.m.h with cmds := s0.m.h.cmds.map fun c => (c.1, { c.2 with ring := 31 }) } } }
      Powered s ∧ mayStart (begin s) 1 e.1 = true ∧ s.m.hw.tally = [] ∧ (cmdOf (begin s) 1).ring = 31 ∧ Quiet 1 s ∧
      operandsClean (cmdOf (begin s) 1) e.2.2.2 = true ∧ s.m.twin.link.up = true ∧ s.m.twin.pairing = none ∧
      s.m.twin.modeW = none ∧ s.m.twin.fenceW = none ∧ s.m.twin.takeW = none ∧
      (e.1 = 0x21 → cmdBits (cmdOf (begin s) 1) 0x10 0 2 = 2 ∧ s.m.twin.role = 1 ∧ s.m.twin.mode = 2) ∧
      (e.1 = 0x23 → cmdBits (cmdOf (begin s) 1) 0x10 0 32 = s.m.twin.pairgen) ∧
      (e.1 = 0x24 → ∃ d ∈ s.m.twin.diverged, d.1 = cmdBits (cmdOf (begin s) 1) 0x14 0 32)) ∧
    (let x : Twin := { role := 1, mode := 1, held := [{ ctx := .cmd 1, period := 0 }] }
     x.silent = false ∧ ∃ h ∈ x.held, h.period + x.lagmax ≤ 4096 * 244 / 4096) ∧
    ((8 : Nat) ≤ ({ quiet := 8, role := 2 } : Twin).quiet ∧ ({ quiet := 8, role := 2 } : Twin).silent = false) := by
  unfold Quiet Powered; decide +kernel

/-! ### Power, start-up, security, updates and the endpoint -/

theorem witness_PowerAndHeat :
    (∃ s : State, s.m.power.off = true) ∧ powerStage (.nop t0) = false ∧ powerStage (.powerCut 0) = true ∧
    (∀ g ∈ [false, true], ({ good := g } : Power).good = g) ∧ 39999 < 40000 ∧ 80000 < 80001 ∧ (60000 < 60001 ∧ true = true) ∧
    (∀ i ∈ [false, true], ({ m := { power := { good := true }, sec := { intake := i } } } : State).m.sec.intake = i) ∧
    (let p : Power := { en := true }
     p.en = true ∧ 42000 ≤ 42000 ∧ 58000 ≤ 58000 ∧ p.beyond = []) ∧
    unitState (begin State.reset) 0 = .inService ∧ unitState (begin State.reset) 1 = .inService ∧
    unitState (begin { m := { units := [(0, { state := .pupa })] } }) 0 = .pupa ∧ Powered State.reset ∧
    ((59 : BitVec 8).toNat < 60 ∧ 60 ≤ (60 : BitVec 8).toNat) := by
  unfold Powered
  exact ⟨⟨{ m := { power := { off := true } } }, rfl⟩, by decide⟩

/-- A module under rated input with PWR_EN, and one whose RISC-V image slots are both empty; a part that passes. -/
def enabled (sec : SecSt := {}) (k : KeepSt := {}) : State := { m := { power := { en := true }, sec := sec, k := k } }
def tests0 : BootTests := ⟨true, true, true, true, [], [], 0, 45, [], [], true⟩
theorem witness_StartUp :
    (let p := (enabled).m.power
     p.en = true ∧ p.good = false ∧ p.isolated = false ∧ 42000 ≤ p.inputMv ∧ p.inputMv ≤ 58000) ∧
    (bootSlot (begin enabled) 1 = some 0 ∧ bootSlot (begin enabled) 2 = some 0) ∧
    bootSlot (begin (enabled { fwSlots := [(2, {}), (3, {})] })) 1 = none ∧
    ({ tests0 with floor := false, owner := false }).floor = false ∧
    ({ tests0 with dies := 3 }).dies = 3 ∧ tests0.dies ≠ 3 ∧ tests0.mram = true ∧ tests0.puf = true ∧ tests0.floor = true ∧
    (enabled).m.k.saveNew = none := by decide +kernel

theorem witness_recovery :
    let c : SecSt := { pldm := some (1, 1), fwSlots := [(3, { verified := true })], waiting := some tests0, bootBits := 1 }
    c.pldm = some ((1 : BitVec 16).toNat, 1) ∧ (tread {} c.fwSlots ((1 : BitVec 16).toNat * 2 + 1)).verified = true ∧
    c.waiting = some tests0 ∧ inRecovery (begin { m := { sec := c } }) = true ∧ Powered { m := { sec := c } } ∧
    connAnswers (begin { m := { power := { good := true }, sec := { waiting := some tests0 } } }) ⟨false, 0⟩ = true := by
  unfold Powered; decide +kernel

/-- Connections that answer, one over SMBus and a secured session on DOE, with a message that PQ_SIG may follow. -/
def connected (o : Option (List Nat) := none) : State :=
  { m := { power := { good := true, perst := false }, h := { linkUp := true },
           sec := { bootPhase := 11, owned := o, secured := [⟨true, 1⟩], pending := [(⟨true, 1⟩, 5)], certSlot1 := [1] } } }

theorem witness_AttestationAndOwnership :
    connAnswers (begin (connected)) ⟨true, 1⟩ = true ∧ connAnswers (begin (connected)) ⟨true, 0⟩ = true ∧
    connAnswers (begin (connected)) ⟨false, 0⟩ = true ∧ connAnswers (begin State.reset) ⟨true, 0⟩ = false ∧
    certChain (begin (connected)) 1 ≠ [] ∧ certChain (begin (connected)) 2 = [] ∧
    (connected).m.sec.pending.find? (fun e => e.1 == ⟨true, 1⟩) = some (⟨true, 1⟩, 5) ∧
    (∀ e ∈ (connected).m.sec.pending, e.1 ≠ ⟨true, 0⟩) ∧ (connected).m.sec.owned = none ∧
    (connected (some [1, 2])).m.sec.owned = some [1, 2] ∧ (connected).m.decTab = [] ∧ Powered (connected) ∧
    ¬ ({ doe := true, session := 2 } : Conn) ∈ (connected).m.sec.secured := by unfold Powered; decide +kernel

theorem witness_UpdatesAndTheEndpoint :
    (let s : State := { m := { power := { good := true } } }
     s.m.power.good = true ∧ s.m.sec.pldm = none ∧ inRecovery (begin s) = false ∧ Powered s ∧
     imageFault (begin s) 1 [] ≠ 0 ∧ ({ m := { sec := { pldm := some (1, 1) } } } : State).m.sec.pldm = some (1, 1)) ∧
    (let s := connected
     s.m.power.perst = false ∧ s.m.power.good = true ∧ s.m.h.linkUp = true ∧ inRecovery (begin s) = false ∧
     4 < s.m.sec.bootPhase ∧ 4 ≤ (4 : BitVec 3).toNat ∧ (6 : BitVec 3).toNat ≤ 6 ∧ (16 : BitVec 5).toNat = 16 ∧
     2 ^ 30 ∈ (List.range 11).map (fun i => 2 ^ (30 + i)) ∧ ¬ 5 ∈ (List.range 11).map (fun i => 2 ^ (30 + i))) ∧
    (let s : State := { connected with m := { (connected).m with h := { linkUp := true, wins := [(0, 0x8000010000000000)] },
                                                                 hw := { bad := [(0x0800000000, 0x0101)] } } }
     (∀ k, k < 8 → bar4Addr (begin s) (0 + k) = some (0x010000000000 + k)) ∧ bar4Addr (begin s) (2 ^ 26) = none ∧
     granBad (begin s) 0x0800000000 = true ∧ Sound (connected) ∧ KeeperPaid (2 ^ 41) (keeping (2 ^ 41) s.m)) ∧
    (let s : State := { m := { molt := 1, s := { sessRegs := [(0, 8)] }, nmPlain := [(0, 1216)], units := [(0, { state := .pupa })] } }
     ((List.range 8).findSome? fun k => fencedDie (begin s) (0x010000000000 + k)) = some 0 ∧ fencedAddr (begin s) 0x014800000000 = false ∧
     inSessTable (begin s) 0x1000000 = true ∧ inSessTable (begin s) 0xFFFFFF = false) ∧
    (let s : State := { m := { h := { cmds := [(1, { fn := 2 })], swOwn := [(0, 3)] } } }
     let w := begin { s with m := { s.m with h := { s.m.h with sw := [(0, { seq := 1, state := 1 })] } } }
     tget s.m.h.cmds 1 = some { fn := 2 } ∧ isOver w 1 = false ∧ wordOver w 1 = false ∧ tread 0 s.m.h.swOwn (swordOf ({ fn := 2 } : Cmd) / 1024) ≠ 2) := by
  unfold Powered Sound KeeperPaid; decide +kernel

/-! ### Words of instructions, written out from the forms (R166, R167, R171, R173, R178), and words that spell none (R169) -/

/-- The instruction of two words. -/
def spelled (a b : W32) : Option Instr := instrOf t0 fun i => if i = 0 then a else b

theorem test_words :
    spelled 0x04611000 0x00000000 = some (.add t0 3 1 2) ∧
    spelled 0x0861FFFF 0x00000000 = some (.addi t0 3 1 0xFFFF) ∧
    spelled 0x24826004 0x00000000 = some (.ld t0 4 2 3 4) ∧
    spelled 0x4022FFFE 0x00000000 = some (.beq t0 1 2 0xFFFE) ∧
    spelled 0x58000003 0x00000000 = some (.b t0 3) ∧
    spelled 0x68A00010 0x00000000 = some (.crr t0 5 0x10) ∧
    spelled 0x68A10010 0x00000000 = some (.crw t0 5 0x10) ∧
    spelled 0x9C221CC0 0x00000000 = some (.vadd t0 ⟨1, 2, 3, true, 1, 2⟩) ∧
    spelled 0xF0030F00 0x3F000970 = some (.callm t0 0x0F003F000970) ∧
    spelled 0x740F003F 0x00000000 = some (.retm t0 0x0F003F) ∧
    spelled 0xF8120867 0x00000000 = some (.customInstruction t0 1 4 2 3 7) := by decide +kernel

/-- A reserved major, a reserved minor, a field that must be zero, and a ra that major 0x1A does not assign. -/
theorem test_undefined_words : (spelled 0x8C000000 0).isNone = true ∧ (spelled 0x0461103F 0).isNone = true ∧
    (spelled 0x04611040 0).isNone = true ∧ (spelled 0x68A20010 0).isNone = true := by decide +kernel

/-! ### The spec's worked examples -/

/-- The stochastic hop of the pricing model: r, and the rounding of 0xDD6A91B4 x 2^-31 (R64, R65, R90). -/
theorem test_stochastic_hop :
    drawSr 0x9A1C581240B0A226 0x213 0x4A7 1 = 0x3647 ∧
    encodeF b32 (.sr 0x3647) false (.fin false 0xDD6A91B4 (-31)) = (0x3FDD6A91, []) := by decide +kernel

/-- The weight block with elytra lists, in units of 2^-20: its scale, its first codes and its elytra word (R61, R68). -/
def block0 : List Machine.Num :=
  ([314573, -115343, 52429, 0, 196608, 3250586, 0, 0, 0, 0, 0, 786432, 0, 0, 0, 0, 0, 0, 0, 0, -2516582, 0, 0, 0, 0, 0, 0, 0, 0,
    0, 0, 0] : List Int).map fun x => .fin (decide (x < 0)) x.natAbs (-20)
theorem test_weight_block :
    let b := packBlock 6 2 false (fun _ => .rne) block0
    b.scale = 0x7C ∧ b.codes.take 6 = [0x4, 0xA, 0x1, 0x0, 0x3, 0x0] ∧ b.codes.getD 11 0 = 7 ∧ b.side = 0x0DAA2E16 := by
  decide +kernel
theorem test_weight_block_without_lists :
    let b := packBlock 6 0 false (fun _ => .rne) block0
    b.scale = 0x7E ∧ b.codes.getD 5 0 = 7 ∧ b.codes.getD 20 0 = 0xE := by decide +kernel

/-- The documented costs of the strider layer, with and without elytra lists, and of the two factor updates (R115, R116). -/
def layer (elb : Bool) : FD :=
  { fdOf 0 with kind := 1, mode := 1, elb := elb, n := 1, fmta := 6, fmtb := 6, M := 4, N := 16384, K := 4096,
                plots := List.range 32, chunk := 512 }
def update (n order K N : Nat) : FD :=
  { fdOf 0 with kind := 1, n := n, order := order, M := 256, N := N, K := K, plots := List.range 32, chunk := 64 }
theorem test_layer_cost : documentedCost (layer true) 64 = 378 ∧ documentedCost (layer false) 64 = 360 := by decide +kernel
theorem test_update_costs : documentedCost (update 8 1 2048 8) 64 = 2132 ∧ documentedCost (update 16 2 4096 8) 64 = 608 ∧
    documentedCost (update 8 1 2048 64) 64 = 3924 := by decide +kernel

/-- Panel A's place in HBM: channel, line of the channel, bank and row, tier and set (R303, R318). -/
theorem test_factor_panel :
    channelLine (begin State.reset) 0x010234567800 = (15, 144470) ∧ bankRow 144470 = (2 * 16 + 7, 3009) ∧
    nmPlace (begin { m := { nmPlain := [(0, 1216)] } }) 0x010234567800 = (4623055, 0, 3011) := by decide +kernel

/-- The partial overlap: a load past two stores that have not drained (R159). -/
def overlap : State :=
  { machine { user with g := [(1, 0xBEEF), (2, 0x4000), (3, 0x5A)] } { vp0 with dcache := [(0x100000040, (15, 0))] } with
    mem := [(0x010000004001, 0x11), (0x010000004002, 0x22), (0x010000004003, 0x33), (0x010000004004, 0x44),
            (0x010000004005, 0x55), (0x010000004006, 0x66), (0x010000004007, 0x77)] }
def next (o : Host.Outcome State Fault Refusal) : State := match o with | .next s => s | _ => State.reset
theorem test_partial_overlap :
    let s := next (exec (.st t0 1 2 1 2) overlap)
    let s := next (exec (.st t0 3 2 0 3) s)
    getG (threadOf (next (exec (.ld t0 4 2 3 0) s)) t0) 4 = 0x776655445AEF1100 := by decide +kernel

end Sys2Proof.Tests
end

section
/-! SUPPORT. Effects that touch the module's registers alone: what a command that has one leaves, and that every write of
a register through BAR0 is one. -/

namespace Sys2Proof.Machine
open Sys2Proof

/-! ### Commands that touch registers alone -/

/-- Between two machines only registers differ, and neither the power stage's, nor start-up's, nor a thread's. -/
def RegsOnly (w w' : Mach) : Prop :=
  w' = { w with m := w'.m } ∧ w'.m.power = w.m.power ∧ w'.m.sec = w.m.sec ∧ w'.m.threads = w.m.threads

/-- An update of the module that leaves the power stage, start-up and the threads. -/
def LeavesSetup (f : Module → Module) : Prop :=
  ∀ m, (f m).power = m.power ∧ (f m).sec = m.sec ∧ (f m).threads = m.threads

theorem RegsOnly.refl (w : Mach) : RegsOnly w w := ⟨rfl, rfl, rfl, rfl⟩

theorem RegsOnly.trans {a b c : Mach} (h : RegsOnly a b) (k : RegsOnly b c) : RegsOnly a c := by
  obtain ⟨h1, h2, h3, h4⟩ := h
  obtain ⟨k1, k2, k3, k4⟩ := k
  refine ⟨?_, k2.trans h2, k3.trans h3, k4.trans h4⟩
  rw [k1, h1]

theorem regsOnly_onM {f : Module → Module} (h : LeavesSetup f) (w : Mach) : RegsOnly w (onM f w) := ⟨rfl, h w.m⟩

theorem regsOnly_ite {c : Prop} [Decidable c] {w a b : Mach} (ha : RegsOnly w a) (hb : RegsOnly w b) :
    RegsOnly w (if c then a else b) := by
  split
  · exact ha
  · exact hb

theorem regsOnly_foldl {f : Mach → Nat → Mach} (hf : ∀ w i, RegsOnly w (f w i)) (l : List Nat) (w : Mach) :
    RegsOnly w (l.foldl f w) := by
  induction l generalizing w with
  | nil => exact .refl w
  | cons i r ih => exact (hf w i).trans (ih (f w i))

theorem RegsOnly.gone {w w' : Mach} (h : RegsOnly w w') : w'.gone = w.gone := by rw [h.1]
theorem RegsOnly.wr {w w' : Mach} (h : RegsOnly w w') : w'.wr = w.wr := by rw [h.1]

/-- The machine of the next command is the one that the registers' effect left. -/
theorem RegsOnly.begin_next {s : State} {w : Mach} (h : RegsOnly (begin s) w) : begin { s with m := w.m } = w := h.1.symm

/-- A powered module that runs an effect on its registers keeps the queue and memory. -/
theorem run_regsOnly {s : State} {f : Mach → Mach} (hP : Powered s) (hf : RegsOnly (begin s) (f (begin s))) :
    run f s = .next { s with m := (f (begin s)).m } := by
  rw [run_powered hP, runAny_quiet hf.gone hf.wr]

section
variable {i : Instr} {s : State} {f : Mach → Mach} (hP : Powered s) (hi : exec i s = run f s)
include hP hi

/-- A command that leaves the machine as it is leaves the state. -/
theorem exec_unchanged (hf : f (begin s) = begin s) : exec i s = .next s := by
  rw [hi, run_regsOnly hP (by rw [hf]; exact .refl _), hf]
  rfl

/-- A command whose effect is one update of the registers. -/
theorem exec_onM {g : Module → Module} (hf : f (begin s) = onM g (begin s)) : exec i s = .next { s with m := g s.m } := by
  rw [hi, run_powered hP, runAny_quiet (by rw [hf]; rfl) (by rw [hf]; rfl), hf]
  rfl

end

theorem Answers.mono {i : Instr} {s : State} {P Q : State → Prop} (h : Answers i s P) (hPQ : ∀ s', P s' → Q s') :
    Answers i s Q := by
  obtain ⟨s', hs, hp⟩ := h
  exact ⟨s', hs, hPQ s' hp⟩

/-! ### Records of the logs -/

theorem regsOnly_takeStamp (u : Nat) (w : Mach) : RegsOnly w (takeStamp u w) := ⟨rfl, rfl, rfl, rfl⟩

theorem regsOnly_sendVector (i : Nat) (w : Mach) : RegsOnly w (sendVector i w) := by
  unfold sendVector
  exact regsOnly_ite ⟨rfl, rfl, rfl, rfl⟩ (.refl w)

theorem regsOnly_notifyOnce (i : Nat) (w : Mach) : RegsOnly w (notifyOnce i w).1 := by
  unfold notifyOnce
  have h : RegsOnly w (onM (fun m => { m with hifCtr := twrite {} m.hifCtr i (ackEvent (tread {} w.m.hifCtr i)) }) w) :=
    ⟨rfl, rfl, rfl, rfl⟩
  exact regsOnly_ite (h.trans (regsOnly_sendVector i _)) h

theorem regsOnly_errorRecord (code : Nat) (x : ErrInfo) (w : Mach) : RegsOnly w (errorRecord code x w) := by
  refine .trans (.trans (regsOnly_onM ?_ w) (regsOnly_takeStamp unitKeeper _)) (regsOnly_notifyOnce 96 _)
  exact fun _ => ⟨rfl, rfl, rfl⟩

/-- The record that a violation of a unit puts into the log (R242). -/
def violRecord (u code : Nat) (priv write : Bool) (addr : Nat) (d : W32) (w : Mach) : ViolRec :=
  { tick := (nextStamp u w).tick, source := sourceOf u, seq := BitVec.ofNat 16 (nextStamp u w).seq,
    code := BitVec.ofNat 16 code, priv := priv, write := write, addr := BitVec.ofNat 64 addr, detail := d,
    epoch := BitVec.ofNat 32 w.m.epoch }

theorem regsOnly_violation (u code : Nat) (priv write : Bool) (addr : Nat) (d : W32) (w : Mach) :
    RegsOnly w (violation u code priv write addr d w) := by
  have logged : RegsOnly w (takeStamp u (onM (fun m =>
      { m with vlog := mergeViol 4095 m.violNext (violRecord u code priv write addr d w) m.vlog,
               violNext := (m.violNext + 1) % 4096, violCount := ackEvent m.violCount }) w)) :=
    (regsOnly_onM (fun _ => ⟨rfl, rfl, rfl⟩) w).trans (regsOnly_takeStamp u _)
  exact regsOnly_ite (logged.trans (regsOnly_errorRecord ..)) logged

theorem regsOnly_regViolation (who : Requester) (code : Nat) (write : Bool) (off : Nat) (w : Mach) :
    RegsOnly w (regViolation who code write off w) := by
  cases who with
  | host fn => exact regsOnly_violation ..
  | thread t word => exact regsOnly_violation ..

theorem regsOnly_refuse (who : Requester) (off : Nat) (w : Mach) : RegsOnly w (refuse who off w) :=
  regsOnly_regViolation ..

/-! ### Writes of registers (R8, R501) -/

theorem regsOnly_ackReg (who : Requester) (off : Nat) (c : AckCtr) (v : Nat) {put : AckCtr → Module → Module} (w : Mach)
    (h : ∀ c, LeavesSetup (put c)) : RegsOnly w (ackReg who off c v put w) := by
  unfold ackReg
  split
  · exact regsOnly_onM (h _) w
  · exact regsOnly_regViolation ..

theorem regsOnly_rangedReg (who : Requester) (off : Nat) (ok : Bool) {f : Module → Module} (w : Mach)
    (h : LeavesSetup f) : RegsOnly w (rangedReg who off ok f w) := regsOnly_ite (regsOnly_onM h w) (regsOnly_refuse ..)

theorem regsOnly_writeDet (who : Requester) (off : Nat) (v : Bool) (w : Mach) : RegsOnly w (writeDet who off v w) :=
  regsOnly_ite ⟨rfl, rfl, rfl, rfl⟩ (regsOnly_ite ⟨rfl, rfl, rfl, rfl⟩ (regsOnly_refuse ..))

theorem regsOnly_writeLock (who : Requester) (v : Bool) (w : Mach) : RegsOnly w (writeLock who v w) :=
  regsOnly_ite (.refl w) (regsOnly_ite (regsOnly_refuse ..) ⟨rfl, rfl, rfl, rfl⟩)

theorem regsOnly_writeKeep (who : Requester) (off o v : Nat) (w : Mach) : RegsOnly w (writeKeep who off o v w) := by
  unfold writeKeep
  split
  · exact regsOnly_ackReg _ _ _ _ _ fun _ _ => ⟨rfl, rfl, rfl⟩
  · exact regsOnly_ackReg _ _ _ _ _ fun _ _ => ⟨rfl, rfl, rfl⟩
  · exact regsOnly_rangedReg _ _ _ _ fun _ => ⟨rfl, rfl, rfl⟩
  · exact regsOnly_rangedReg _ _ _ _ fun _ => ⟨rfl, rfl, rfl⟩
  · exact ⟨rfl, rfl, rfl, rfl⟩
  · exact ⟨rfl, rfl, rfl, rfl⟩
  · exact .refl w

theorem regsOnly_writeTwin (who : Requester) (off o v : Nat) (w : Mach) : RegsOnly w (writeTwin who off o v w) := by
  unfold writeTwin
  split
  · exact regsOnly_rangedReg _ _ _ _ fun _ => ⟨rfl, rfl, rfl⟩
  · exact regsOnly_ackReg _ _ _ _ _ fun _ _ => ⟨rfl, rfl, rfl⟩
  · exact regsOnly_ackReg _ _ _ _ _ fun _ _ => ⟨rfl, rfl, rfl⟩
  · exact .refl w

theorem regsOnly_writeBudg (who : Requester) (off o v : Nat) (w : Mach) : RegsOnly w (writeBudg who off o v w) :=
  regsOnly_ite (.refl w) (regsOnly_ite (regsOnly_refuse ..) ⟨rfl, rfl, rfl, rfl⟩)

theorem regsOnly_writeHifCfg (o v : Nat) (w : Mach) : RegsOnly w (writeHifCfg o v w) := by
  have own (i : Nat) : RegsOnly w
      (if ringEmpty w i then onM (fun m => { m with ringFn := twrite 0 m.ringFn i (v % 32) }) w else w) :=
    regsOnly_ite ⟨rfl, rfl, rfl, rfl⟩ (.refl w)
  have host (f : HostSt → HostSt) : RegsOnly w (onH f w) := ⟨rfl, rfl, rfl, rfl⟩
  exact regsOnly_ite (own _) <| regsOnly_ite (own _) <| regsOnly_ite (host _) <| regsOnly_ite (host _) <|
    regsOnly_ite (host _) <| regsOnly_ite (host _) (.refl w)

theorem regsOnly_writeHif (fn : Nat) (who : Requester) (off o v : Nat) (w : Mach) :
    RegsOnly w (writeHif fn who off o v w) := by
  unfold writeHif
  split
  · split
    · exact .refl w
    · split
      · have h (c : AckCtr) (i : Nat) : RegsOnly w (onM (fun m => { m with hifCtr := twrite {} m.hifCtr i c }) w) :=
          ⟨rfl, rfl, rfl, rfl⟩
        exact regsOnly_ite (h _ _) ((h _ _).trans (regsOnly_sendVector ..))
      · exact regsOnly_refuse ..
  · refine regsOnly_ite (regsOnly_foldl (fun w j => ?_) _ w) (.refl w)
    exact regsOnly_ite (.refl w) ⟨rfl, rfl, rfl, rfl⟩

theorem regsOnly_writeSlot (who : Requester) (off k o v : Nat) (w : Mach) : RegsOnly w (writeSlot who off k o v w) := by
  unfold writeSlot
  refine regsOnly_ite ⟨rfl, rfl, rfl, rfl⟩ (regsOnly_ite ?_ (.refl w))
  split
  · exact ⟨rfl, rfl, rfl, rfl⟩
  · exact regsOnly_refuse ..

theorem regsOnly_updChannel (ch : Nat) (f : Channel → Channel) (w : Mach) : RegsOnly w (updChannel ch f w) :=
  ⟨rfl, rfl, rfl, rfl⟩

theorem regsOnly_weevilStart (who : Requester) (off ch : Nat) (w : Mach) : RegsOnly w (weevilStart who off ch w) :=
  regsOnly_ite ((regsOnly_updChannel ..).trans (regsOnly_refuse ..)) (regsOnly_updChannel ..)

theorem regsOnly_writeWvCtl (who : Requester) (off ch v : Nat) (w : Mach) : RegsOnly w (writeWvCtl who off ch v w) := by
  have aborted : RegsOnly w (if bit v 1 then weevilAbort ch w else w) := regsOnly_ite (regsOnly_updChannel ..) (.refl w)
  have set (f : Channel → Channel) : RegsOnly w (updChannel ch f w) := regsOnly_updChannel ..
  exact regsOnly_ite
    (regsOnly_ite (aborted.trans (regsOnly_weevilStart ..)) (regsOnly_ite aborted (aborted.trans (regsOnly_refuse ..))))
    (regsOnly_ite ((set _).trans (regsOnly_weevilStart ..)) (set _))

theorem regsOnly_writeWeevil (who : Requester) (off ch o v : Nat) (w : Mach) :
    RegsOnly w (writeWeevil who off ch o v w) := by
  have idle (f : Channel → Channel) :
      RegsOnly w (if (tread {} w.m.hw.channels ch).busy then refuse who off w else updChannel ch f w) :=
    regsOnly_ite (regsOnly_refuse ..) (regsOnly_updChannel ..)
  unfold writeWeevil
  split
  · exact regsOnly_writeWvCtl ..
  · exact idle _
  · exact idle _
  · exact idle _
  · exact idle _
  · exact idle _
  · exact regsOnly_ackReg _ _ _ _ _ fun _ _ => ⟨rfl, rfl, rfl⟩
  · exact regsOnly_ackReg _ _ _ _ _ fun _ _ => ⟨rfl, rfl, rfl⟩
  · exact .refl w

theorem regsOnly_writeNm (who : Requester) (off die o v : Nat) (w : Mach) : RegsOnly w (writeNm who off die o v w) := by
  unfold writeNm
  refine regsOnly_ite (.refl w) ?_
  split
  · exact regsOnly_rangedReg _ _ _ _ fun _ => ⟨rfl, rfl, rfl⟩
  · exact ⟨rfl, rfl, rfl, rfl⟩
  · exact .refl w

theorem regsOnly_writeSess (who : Requester) (off die o v : Nat) (w : Mach) :
    RegsOnly w (writeSess who off die o v w) := by
  unfold writeSess
  split
  · exact regsOnly_rangedReg _ _ _ _ fun _ => ⟨rfl, rfl, rfl⟩
  · exact regsOnly_rangedReg _ _ _ _ fun _ => ⟨rfl, rfl, rfl⟩
  · exact regsOnly_rangedReg _ _ _ _ fun _ => ⟨rfl, rfl, rfl⟩
  · exact regsOnly_ackReg _ _ _ _ _ fun _ _ => ⟨rfl, rfl, rfl⟩
  · exact .refl w

theorem regsOnly_writeCnt (die o v : Nat) (w : Mach) : RegsOnly w (writeCnt die o v w) := by
  unfold writeCnt
  refine regsOnly_ite ⟨rfl, rfl, rfl, rfl⟩ (regsOnly_ite ?_ (.refl w))
  split
  · exact ⟨rfl, rfl, rfl, rfl⟩
  · exact ⟨rfl, rfl, rfl, rfl⟩
  · exact ⟨rfl, rfl, rfl, rfl⟩
  · exact .refl w

theorem regsOnly_writeTrc (who : Requester) (off die o v : Nat) (w : Mach) : RegsOnly w (writeTrc who off die o v w) := by
  have put (b : TraceBuf) : RegsOnly w (onK (fun k => { k with trc := twrite {} k.trc die b }) w) := ⟨rfl, rfl, rfl, rfl⟩
  unfold writeTrc
  split
  · exact put _
  · exact put _
  · exact regsOnly_ite (regsOnly_refuse ..) (put _)
  · exact regsOnly_ite (regsOnly_refuse ..) (put _)
  · exact regsOnly_ite (regsOnly_refuse ..) (put _)
  · exact regsOnly_ackReg _ _ _ _ _ fun _ _ => ⟨rfl, rfl, rfl⟩
  · exact .refl w

/-- Every write of a register touches registers alone, whatever its block. -/
theorem regsOnly_write4 (who : Requester) (off v : Nat) (w : Mach) : RegsOnly w (write4 who off v w) := by
  unfold write4
  refine regsOnly_ite (.refl w) ?_
  split
  · exact regsOnly_ite ((regsOnly_writeDet ..).trans (regsOnly_writeLock ..)) (.refl w)
  · exact regsOnly_writeKeep ..
  · exact regsOnly_writeTwin ..
  · exact .refl w
  · exact regsOnly_writeBudg ..
  · exact regsOnly_writeHifCfg ..
  · exact regsOnly_writeHif ..
  · exact .refl w
  · exact regsOnly_refuse ..
  · exact regsOnly_refuse ..
  · exact regsOnly_refuse ..
  · exact regsOnly_writeSlot ..
  · exact regsOnly_ite ⟨rfl, rfl, rfl, rfl⟩ (.refl w)
  · exact regsOnly_writeWeevil ..
  · exact regsOnly_writeNm ..
  · exact regsOnly_writeSess ..
  · exact regsOnly_writeCnt ..
  · exact regsOnly_writeTrc ..
  · exact .refl w

/-- DIE_RESET aside, a function's write touches registers alone. -/
theorem regsOnly_hostWrite4 (fn v : Nat) {off : Nat} (h : off ≠ 0) (w : Mach) : RegsOnly w (hostWrite4 fn off v w) := by
  unfold hostWrite4
  refine regsOnly_ite (regsOnly_ite (regsOnly_writeHif ..) (.refl w)) ?_
  rw [if_neg h]
  exact regsOnly_write4 ..

end Sys2Proof.Machine
end

section
/-! SUPPORT. Violations that the keeper logs for the host: the record, its place in the log, and what else stands. -/

namespace Sys2Proof.Machine
open Sys2Proof

/-- A record is in the log once it is merged. -/
theorem tget_mergeViol (n i : Nat) (r : ViolRec) (log : Table ViolRec) : ∃ k, tget (mergeViol n i r log) k = some r := by
  induction n generalizing i log with
  | zero => exact ⟨i, tget_tput_same log i r⟩
  | succ n ih =>
    unfold mergeViol
    split
    · split
      · exact ih ..
      · exact ⟨i, tget_tput_same log i r⟩
    · exact ⟨i, tget_tput_same log i r⟩

/-- A record that follows the one before it stands in the place that the index names. -/
theorem mergeViol_inOrder (n i : Nat) {r : ViolRec} {log : Table ViolRec}
    (h : ∀ q, tget log ((i + 4095) % 4096) = some q → violBefore r q = false) : mergeViol n i r log = tput log i r := by
  cases n with
  | zero => rfl
  | succ n =>
    unfold mergeViol
    split
    · next q hq => rw [if_neg (by rw [h q hq]; decide)]
    · rfl

/-- A violation of which the count can still tell changes the log, its index, its count and the unit's stamp. -/
theorem violation_eq {w : Mach} (hfull : ackFull w.m.violCount = false) (u code : Nat) (priv write : Bool) (addr : Nat)
    (d : W32) : violation u code priv write addr d w = takeStamp u (onM (fun m =>
      { m with vlog := mergeViol 4095 m.violNext (violRecord u code priv write addr d w) m.vlog,
               violNext := (m.violNext + 1) % 4096, violCount := ackEvent m.violCount }) w) := by
  unfold violation
  rw [hfull]
  rfl

/-- A unit's stamp is of the present tick (R25). -/
theorem nextStamp_tick (u : Nat) (w : Mach) : (nextStamp u w).tick = w.m.tick := by
  unfold nextStamp
  split <;> rfl

/-- Spec of a command that logs one violation of the host's with the keeper, and else leaves at most a change of the host
interface: the violation is new in the log, and all else is as that change leaves it. -/
theorem answers_hostLogged {s : State} {i : Instr} {f : Mach → Mach} {g : HostSt → HostSt} {code fn addr : Nat}
    {write : Bool} (hP : Powered s) (hfull : ackFull s.m.violCount = false) (hi : exec i s = run f s)
    (hf : f (begin s) = onH g (violation unitKeeper code false write addr (BitVec.ofNat 32 fn) (begin s))) :
    Answers i s fun s' => s'.m.h = g s.m.h ∧
      HostLogged code fn addr write { s with m := { s.m with h := g s.m.h } } s' := by
  have e := violation_eq (w := begin s) hfull unitKeeper code false write addr (BitVec.ofNat 32 fn)
  generalize hr : violRecord unitKeeper code false write addr (BitVec.ofNat 32 fn) (begin s) = r at e
  have hregs : RegsOnly (begin s) (f (begin s)) := by
    rw [hf]
    exact (regsOnly_violation ..).trans ⟨rfl, rfl, rfl, rfl⟩
  refine ⟨_, hi.trans (run_regsOnly hP hregs), ?_⟩
  rw [hf, e]
  obtain ⟨k, hk⟩ := tget_mergeViol 4095 s.m.violNext r s.m.vlog
  refine ⟨rfl, rfl, rfl, ⟨rfl, ?_⟩, rfl⟩
  have hP : (r.code = BitVec.ofNat 16 code ∧ r.priv = false ∧ r.write = write ∧ r.addr = BitVec.ofNat 64 addr ∧
      r.detail = BitVec.ofNat 32 fn) ∧ r.tick = s.m.tick := by
    subst hr
    exact ⟨⟨rfl, rfl, rfl, rfl, rfl⟩, nextStamp_tick unitKeeper (begin s)⟩
  by_cases hbefore : ∀ q, tget s.m.vlog ((s.m.violNext + 4095) % 4096) = some q → violBefore r q = false
  · have hm := mergeViol_inOrder 4095 s.m.violNext hbefore
    refine ⟨s.m.violNext, r, ?_, hP.1, hP.2, fun _ => rfl⟩
    exact (congrArg (tget · s.m.violNext) hm).trans (tget_tput_same ..)
  · exact ⟨k, r, hk, hP.1, hP.2, fun h => absurd h hbefore⟩

/-- Spec of a command that does nothing but log one violation of the host's with the keeper. -/
theorem answers_hostViolation {s : State} {i : Instr} {f : Mach → Mach} {code fn addr : Nat} {write : Bool}
    (hP : Powered s) (hfull : ackFull s.m.violCount = false) (hi : exec i s = run f s)
    (hf : f (begin s) = violation unitKeeper code false write addr (BitVec.ofNat 32 fn) (begin s)) :
    Answers i s (HostLogged code fn addr write s) :=
  (answers_hostLogged (g := id) hP hfull hi hf).mono fun _ h => h.2

end Sys2Proof.Machine
end

section
/-! SUPPORT. The map of BAR0: the block at an offset (R501), what a read or a write of it comes to, and what a register
reads once it is written (R8). -/

namespace Sys2Proof.Machine
open Sys2Proof

/-! ### The block at an offset -/

theorem blockOf_budg {o : Nat} (h : o < 0x2000) : blockOf (0x4000 + o) = (.budg, o) := by
  unfold blockOf
  rw [if_neg (by omega), if_neg (by omega), if_neg (by omega), if_neg (by omega), if_pos (by omega),
    Nat.add_sub_cancel_left]

theorem blockOf_hifCfg {o : Nat} (h : o < 0x1000) : blockOf (0x6000 + o) = (.hifCfg, o) := by
  unfold blockOf
  rw [if_neg (by omega), if_neg (by omega), if_neg (by omega), if_neg (by omega), if_neg (by omega), if_pos (by omega),
    Nat.add_sub_cancel_left]

/-- From 0x20000 to 0xC0000 the logs lie. -/
theorem blockOf_log {off : Nat} (hlo : 0x20000 ≤ off) (hhi : off < 0xC0000) :
    (blockOf off).1 ∈ [Block.vlog, .elog, .ktrc] := by
  unfold blockOf
  rw [if_neg (by omega), if_neg (by omega), if_neg (by omega), if_neg (by omega), if_neg (by omega), if_neg (by omega),
    if_neg (by omega), if_neg (by omega), if_neg (by omega)]
  by_cases h1 : off < 0x40000
  · rw [if_pos h1]; simp
  · by_cases h2 : off < 0x80000
    · rw [if_neg h1, if_pos h2]; simp
    · rw [if_neg h1, if_neg h2, if_pos hhi]; simp

/-- A die's part of the map. -/
theorem blockOf_die {d o : Nat} (hd : d < 2) (ho : o < 0x800000) :
    blockOf (0x1000000 + d * 0x800000 + o) = dieBlock d o := by
  have outside (n : Nat) (hn : n ≤ 0x1000000) : ¬ 0x1000000 + d * 0x800000 + o < n := by omega
  unfold blockOf
  rw [if_neg (outside _ (by decide)), if_neg (outside _ (by decide)), if_neg (outside _ (by decide)),
    if_neg (outside _ (by decide)), if_neg (outside _ (by decide)), if_neg (outside _ (by decide)),
    if_neg (outside _ (by decide)), if_neg (outside _ (by decide)), if_neg (outside _ (by decide)),
    if_neg (outside _ (by decide)), if_neg (outside _ (by decide)), if_neg (outside _ (by decide)),
    if_neg (outside _ (by decide))]
  obtain rfl | rfl : d = 0 ∨ d = 1 := by omega
  · rw [if_pos (by omega)]; exact congrArg (dieBlock 0) (by omega)
  · rw [if_neg (by omega), if_pos (by omega)]; exact congrArg (dieBlock 1) (by omega)

theorem blockOf_rwatch {d o : Nat} (hd : d < 2) (ho : o < 0x40000) :
    blockOf (0x1000000 + d * 0x800000 + o) = (.rwatch d, o) := by
  rw [blockOf_die hd (by omega), dieBlock, if_pos ho]

theorem blockOf_probe {d o : Nat} (hd : d < 2) (ho : o < 0x40000) :
    blockOf (0x1000000 + d * 0x800000 + (0x40000 + o)) = (.probe d, o) := by
  rw [blockOf_die hd (by omega), dieBlock, if_neg (by omega), if_pos (by omega), Nat.add_sub_cancel_left]

theorem blockOf_hb {d o : Nat} (hd : d < 2) (ho : o < 0x4000) :
    blockOf (0x1000000 + d * 0x800000 + (0x80000 + o)) = (.hb d, o) := by
  rw [blockOf_die hd (by omega), dieBlock, if_neg (by omega), if_neg (by omega), if_pos (by omega),
    Nat.add_sub_cancel_left]

theorem blockOf_nm {d o : Nat} (hd : d < 2) (ho : o < 0x1000) :
    blockOf (0x1000000 + d * 0x800000 + (0x84000 + o)) = (.nm d, o) := by
  rw [blockOf_die hd (by omega), dieBlock, if_neg (by omega), if_neg (by omega), if_neg (by omega), if_pos (by omega),
    Nat.add_sub_cancel_left]

theorem blockOf_cnt {d o : Nat} (hd : d < 2) (ho : o < 0x1000) :
    blockOf (0x1000000 + d * 0x800000 + (0x86000 + o)) = (.cnt d, o) := by
  rw [blockOf_die hd (by omega), dieBlock, if_neg (by omega), if_neg (by omega), if_neg (by omega), if_neg (by omega),
    if_neg (by omega), if_pos (by omega), Nat.add_sub_cancel_left]

theorem blockOf_trc {d o : Nat} (hd : d < 2) (ho : o < 0x1000) :
    blockOf (0x1000000 + d * 0x800000 + (0x87000 + o)) = (.trc d, o) := by
  rw [blockOf_die hd (by omega), dieBlock, if_neg (by omega), if_neg (by omega), if_neg (by omega), if_neg (by omega),
    if_neg (by omega), if_neg (by omega), if_pos (by omega), Nat.add_sub_cancel_left]

/-! ### Reads and writes by block -/

section
variable {w : Mach} {off o d : Nat}

theorem readReg_keep (h : blockOf off = (.keep, o)) : readReg w off = readKeep w o := by simp [readReg, h, Block.die?]
theorem readReg_twin (h : blockOf off = (.twin, o)) : readReg w off = readTwin w o := by simp [readReg, h, Block.die?]
theorem readReg_budg (h : blockOf off = (.budg, o)) : readReg w off = readBudg w o := by simp [readReg, h, Block.die?]
theorem readReg_hifCfg (h : blockOf off = (.hifCfg, o)) : readReg w off = readHifCfg w o := by
  simp [readReg, h, Block.die?]

theorem readReg_rwatch (h : blockOf off = (.rwatch d, o)) (hr : tread false w.m.hw.dieReset d = false) :
    readReg w off = readSlot (tread {} w.m.rwatch (d * 4096 + o / 64)) (o % 64) := by simp [readReg, h, Block.die?, hr]
theorem readReg_hb (h : blockOf off = (.hb d, o)) (hr : tread false w.m.hw.dieReset d = false) :
    readReg w off = readWeevil w (d * 256 + o / 64) (o % 64) := by simp [readReg, h, Block.die?, hr]
theorem readReg_nm (h : blockOf off = (.nm d, o)) (hr : tread false w.m.hw.dieReset d = false) :
    readReg w off = readNm w d o := by simp [readReg, h, Block.die?, hr]
theorem readReg_cnt (h : blockOf off = (.cnt d, o)) (hr : tread false w.m.hw.dieReset d = false) :
    readReg w off = readCnt (tread {} w.m.cnt d) o := by simp [readReg, h, Block.die?, hr]
theorem readReg_trc (h : blockOf off = (.trc d, o)) (hr : tread false w.m.hw.dieReset d = false) :
    readReg w off = readTrc (tread {} w.m.k.trc d) o := by simp [readReg, h, Block.die?, hr]

variable {who : Requester} {v : Nat}

theorem write4_keep (h : blockOf off = (.keep, o)) : write4 who off v w = writeKeep who off o v w := by
  simp [write4, h, Block.die?]
theorem write4_twin (h : blockOf off = (.twin, o)) : write4 who off v w = writeTwin who off o v w := by
  simp [write4, h, Block.die?]
theorem write4_geom (h : blockOf off = (.geom, o)) : write4 who off v w = w := by simp [write4, h, Block.die?]
theorem write4_serv (h : blockOf off = (.serv, o)) : write4 who off v w = w := by simp [write4, h, Block.die?]
theorem write4_budg (h : blockOf off = (.budg, o)) : write4 who off v w = writeBudg who off o v w := by
  simp [write4, h, Block.die?]
theorem write4_hifCfg (h : blockOf off = (.hifCfg, o)) : write4 who off v w = writeHifCfg o v w := by
  simp [write4, h, Block.die?]

/-- A write of a log is refused. -/
theorem write4_log (h : (blockOf off).1 ∈ [Block.vlog, .elog, .ktrc]) : write4 who off v w = refuse who off w := by
  rcases hb : blockOf off with ⟨b, o⟩
  rw [hb] at h
  simp only [List.mem_cons, List.not_mem_nil, or_false] at h
  obtain rfl | rfl | rfl := h <;> simp [write4, hb, Block.die?]

theorem write4_rwatch (h : blockOf off = (.rwatch d, o)) (hr : tread false w.m.hw.dieReset d = false) :
    write4 who off v w = writeSlot who off (d * 4096 + o / 64) (o % 64) v w := by simp [write4, h, Block.die?, hr]
theorem write4_probe (h : blockOf off = (.probe d, o)) (hr : tread false w.m.hw.dieReset d = false) :
    write4 who off v w = if o % 64 = 0 ∧ bit v 0 = true then takeProbe (d * 4096 + o / 64) w else w := by
  simp [write4, h, Block.die?, hr]
theorem write4_hb (h : blockOf off = (.hb d, o)) (hr : tread false w.m.hw.dieReset d = false) :
    write4 who off v w = writeWeevil who off (d * 256 + o / 64) (o % 64) v w := by simp [write4, h, Block.die?, hr]
theorem write4_nm (h : blockOf off = (.nm d, o)) (hr : tread false w.m.hw.dieReset d = false) :
    write4 who off v w = writeNm who off d o v w := by simp [write4, h, Block.die?, hr]
theorem write4_cnt (h : blockOf off = (.cnt d, o)) (hr : tread false w.m.hw.dieReset d = false) :
    write4 who off v w = writeCnt d o v w := by simp [write4, h, Block.die?, hr]
theorem write4_trc (h : blockOf off = (.trc d, o)) (hr : tread false w.m.hw.dieReset d = false) :
    write4 who off v w = writeTrc who off d o v w := by simp [write4, h, Block.die?, hr]

end

/-! ### What a register reads once it is written -/

section
variable {w : Mach} {who : Requester} {v k d : Nat}

theorem kept_of_lt {step n : Nat} (h : step < w.m.sec.bootPhase) : kept w step n = n := if_pos h

/-- KEEP_CETHRESH (R404). -/
theorem readsBack_cethresh (hv : v < 2 ^ 32) (hb : 5 < w.m.sec.bootPhase) :
    readReg (write4 who 0x1064 v w) 0x1064 = v := by
  have h : blockOf 0x1064 = (.keep, 0x64) := by decide
  rw [write4_keep h, readReg_keep h]
  simp only [writeKeep, readKeep, onK]
  rw [kept_of_lt (by exact hb)]
  exact Nat.mod_eq_of_lt hv

/-- KEEP_SERVCTL (R421). -/
theorem readsBack_servctl (hb : 5 < w.m.sec.bootPhase) : readReg (write4 who 0x1068 v w) 0x1068 = v % 2 ^ 17 := by
  have h : blockOf 0x1068 = (.keep, 0x68) := by decide
  rw [write4_keep h, readReg_keep h]
  simp only [writeKeep, readKeep, onK]
  rw [kept_of_lt (by exact hb)]
  simp only [onM_m, BitVec.toNat_ofNat]
  omega

/-- KEEP_SCRUB takes 1 to 24 (R404). -/
theorem readsBack_scrub (hb : 5 < w.m.sec.bootPhase) (h1 : 1 ≤ v % 32) (h2 : v % 32 ≤ 24) :
    readReg (write4 who 0x1060 v w) 0x1060 = v % 32 := by
  have h : blockOf 0x1060 = (.keep, 0x60) := by decide
  rw [write4_keep h, readReg_keep h]
  simp only [writeKeep, readKeep, rangedReg, h1, h2, and_self, decide_true, if_true]
  rw [kept_of_lt (by exact hb)]
  simp only [onM_m, BitVec.toNat_ofNat]
  omega

/-- TWIN_LAGMAX takes what is not zero (R443; log 33). -/
theorem readsBack_lagmax (hb : 5 < w.m.sec.bootPhase) (h0 : v % 65536 ≠ 0) :
    readReg (write4 who 0x200C v w) 0x200C = v % 65536 := by
  have h : blockOf 0x200C = (.twin, 0xC) := by decide
  rw [write4_twin h, readReg_twin h]
  simp only [writeTwin, readTwin, rangedReg, bne_iff_ne.2 h0, if_true]
  exact kept_of_lt hb

/-- A write of a class's staging copy, class 0 apart (R36). -/
theorem write4_staging {o : Nat} (h1 : 64 ≤ o) (h2 : o < 0x1000) (hi : o % 64 / 4 ≤ 10) :
    ∃ g', write4 who (0x4000 + o) v w = onM (fun m => { m with staging := twrite {} m.staging (o / 64) g' }) w ∧
      g' = (let g := tread {} w.m.staging (o / 64)
        if o % 64 / 4 < 10 then { g with amounts := twrite 0 g.amounts (o % 64 / 4) (v % 2 ^ 20) }
        else { g with surplus := bit v 0, hold := bit v 1 }) := by
  refine ⟨_, ?_, rfl⟩
  rw [write4_budg (blockOf_budg (by omega)), writeBudg]
  simp only [show ¬(0x1000 ≤ o ∨ 10 < o % 64 / 4) by omega, show ¬o < 64 by omega, if_false]
  rfl

theorem readReg_staging {o : Nat} (h : o < 0x1000) :
    readReg w (0x4000 + o) = readGrant (tread {} w.m.staging (o / 64)) (o % 64 / 4) := by
  rw [readReg_budg (blockOf_budg (by omega)), readBudg, if_pos h, Nat.mod_eq_of_lt h]

/-- The bits of a two-bit number. -/
theorem bits_of_mod_four (v : Nat) : b2n (bit v 0) + 2 * b2n (bit v 1) = v % 4 := by
  simp only [b2n, bit, Nat.testBit_eq_decide_div_mod_eq, decide_eq_true_eq]
  split <;> split <;> omega

/-- An amount of a class's staged grant (R36). -/
theorem readsBack_amount {j : Nat} (h1 : 1 ≤ k) (h2 : k < 64) (hj : j < 10) :
    readReg (write4 who (0x4000 + 64 * k + 4 * j) v w) (0x4000 + 64 * k + 4 * j) = v % 2 ^ 20 := by
  have hk : (64 * k + 4 * j) / 64 = k := by omega
  have hi : (64 * k + 4 * j) % 64 / 4 = j := by omega
  obtain ⟨g, hg, rfl⟩ :=
    write4_staging (w := w) (who := who) (v := v) (o := 64 * k + 4 * j) (by omega) (by omega) (by omega)
  rw [Nat.add_assoc, hg, readReg_staging (by omega), onM_m, tread_twrite_same, hi]
  simp only [hj, if_true, readGrant, tread_twrite_same]

/-- The flags of a class's staged grant (R36). -/
theorem readsBack_flags (h1 : 1 ≤ k) (h2 : k < 64) :
    readReg (write4 who (0x4000 + 64 * k + 40) v w) (0x4000 + 64 * k + 40) = v % 4 := by
  have hi : (64 * k + 40) % 64 / 4 = 10 := by omega
  obtain ⟨g, hg, rfl⟩ := write4_staging (w := w) (who := who) (v := v) (o := 64 * k + 40) (by omega) (by omega) (by omega)
  rw [Nat.add_assoc, hg, readReg_staging (by omega), onM_m, tread_twrite_same, hi]
  exact bits_of_mod_four v

/-- The function of a ring, while the ring is empty (R449). -/
theorem readsBack_ringFn (hk : k < 96) (he : ringEmpty w k = true) :
    readReg (write4 who (0x6000 + 4 * k) v w) (0x6000 + 4 * k) = v % 32 := by
  have h := blockOf_hifCfg (o := 4 * k) (by omega)
  rw [write4_hifCfg h, readReg_hifCfg h]
  by_cases h1 : 4 * k < 0x80
  · have hi : 4 * k / 4 = k := by omega
    simp only [writeHifCfg, readHifCfg, h1, hi, he, if_true, onM_m, tread_twrite_same]
  · have hi : 32 + (4 * k - 0x80) / 4 = k := by omega
    simp only [writeHifCfg, readHifCfg, h1, show 4 * k < 0x180 by omega, hi, he, if_true, if_false, onM_m,
      tread_twrite_same]

/-- The vector processor that a channel or a doorbell counts at: HIF_ROUTE (R449). -/
theorem readsBack_route (hk : k < 24) : readReg (write4 who (0x6500 + 4 * k) v w) (0x6500 + 4 * k) = v % 64 := by
  have h := blockOf_hifCfg (o := 0x500 + 4 * k) (by omega)
  have hi : (0x500 + 4 * k - 0x500) / 4 = k := by omega
  rw [show 0x6500 + 4 * k = 0x6000 + (0x500 + 4 * k) by omega, write4_hifCfg h, readReg_hifCfg h]
  have outside (n : Nat) (hn : n ≤ 0x500) : ¬ 0x500 + 4 * k < n := by omega
  have inside : 0x500 ≤ 0x500 + 4 * k ∧ 0x500 + 4 * k < 0x560 := by omega
  rw [writeHifCfg, if_neg (outside _ (by decide)), if_neg (outside _ (by decide)), if_neg (outside _ (by decide)),
    if_neg (outside _ (by decide)), if_neg (outside _ (by decide)), if_pos inside,
    readHifCfg, if_neg (outside _ (by decide)), if_neg (outside _ (by decide)), if_neg (outside _ (by decide)),
    if_neg (outside _ (by decide)), if_neg (outside _ (by decide)), if_pos inside, onH_m]
  simp only [tread_twrite_same, BitVec.toNat_ofNat]
  omega

section
variable (hd : d < 2) (hr : tread false w.m.hw.dieReset d = false)
include hd hr

/-- The tag of a range-watch slot (R98). -/
theorem readsBack_tag (hv : v < 2 ^ 32) (hk : k < 4096) :
    readReg (write4 who (0x1000000 + d * 0x800000 + 64 * k) v w) (0x1000000 + d * 0x800000 + 64 * k) = v := by
  have h := blockOf_rwatch hd (o := 64 * k) (by omega)
  rw [write4_rwatch h hr, Nat.mul_mod_right, writeSlot, if_pos rfl, readReg_rwatch h (by exact hr), onM_m]
  simp only [tread_twrite_same, Nat.mul_mod_right, readSlot, BitVec.toNat_ofNat]
  exact Nat.mod_eq_of_lt hv

/-- The mix of an idle weevil (R325). -/
theorem readsBack_mix (hk : k < 256) (hidle : (tread {} w.m.hw.channels (d * 256 + k)).busy = false) :
    readReg (write4 who (0x1000000 + d * 0x800000 + 0x80000 + 64 * k + 12) v w)
      (0x1000000 + d * 0x800000 + 0x80000 + 64 * k + 12) = v &&& 0x013FFFFF := by
  have h := blockOf_hb hd (o := 64 * k + 12) (by omega)
  have hi : (64 * k + 12) / 64 = k := by omega
  have ho : (64 * k + 12) % 64 = 12 := by omega
  rw [show 0x1000000 + d * 0x800000 + 0x80000 + 64 * k + 12 =
      0x1000000 + d * 0x800000 + (0x80000 + (64 * k + 12)) by omega, write4_hb h hr, hi, ho]
  simp only [writeWeevil, hidle, Bool.false_eq_true, if_false, updChannel]
  rw [readReg_hb h (by exact hr), hi, ho]
  simp only [readWeevil, onHw_m, tread_twrite_same, BitVec.toNat_ofNat]
  exact Nat.mod_eq_of_lt (Nat.and_lt_two_pow v (by decide))

/-- NM_WAYS of a tier (R301). -/
theorem readsBack_ways (hv : v < 2 ^ 32) (hk : k < 5) :
    readReg (write4 who (0x1000000 + d * 0x800000 + 0x84000 + 16 * k + 8) v w)
      (0x1000000 + d * 0x800000 + 0x84000 + 16 * k + 8) = v := by
  have h := blockOf_nm hd (o := 16 * k + 8) (by omega)
  have hi : (16 * k + 8) / 16 = k := by omega
  have ho : (16 * k + 8) % 16 = 8 := by omega
  rw [show 0x1000000 + d * 0x800000 + 0x84000 + 16 * k + 8 = 0x1000000 + d * 0x800000 + (0x84000 + (16 * k + 8)) by omega,
    write4_nm h hr]
  simp only [writeNm, hi, ho, show ¬5 ≤ k by omega, if_false]
  rw [readReg_nm h (by exact hr)]
  simp only [readNm, hi, ho, show ¬5 ≤ k by omega, if_false, onM_m, tread_twrite_same, BitVec.toNat_ofNat]
  exact Nat.mod_eq_of_lt hv

/-- The selection of a counter, as written for the next boundary (R495). -/
theorem readsBack_select (hk : k < 64) :
    readReg (write4 who (0x1000000 + d * 0x800000 + 0x86100 + 32 * k) v w)
      (0x1000000 + d * 0x800000 + 0x86100 + 32 * k) = v &&& 0x80007FFF := by
  have h := blockOf_cnt hd (o := 0x100 + 32 * k) (by omega)
  have outside (n : Nat) (hn : n < 0x100) : ¬ 0x100 + 32 * k = n := by omega
  have inside : 0x100 ≤ 0x100 + 32 * k ∧ 0x100 + 32 * k < 0x900 := by omega
  have hi : (0x100 + 32 * k - 0x100) / 0x20 = k := by omega
  have ho : (0x100 + 32 * k) % 0x20 = 0 := by omega
  rw [show 0x1000000 + d * 0x800000 + 0x86100 + 32 * k = 0x1000000 + d * 0x800000 + (0x86000 + (0x100 + 32 * k)) by omega,
    write4_cnt h hr]
  simp only [writeCnt, outside 0 (by decide), inside, hi, ho, and_self, if_false, if_true]
  rw [readReg_cnt h (by exact hr)]
  simp only [readCnt, outside 0 (by decide), outside 8 (by decide), outside 12 (by decide), inside, hi, ho, and_self,
    if_false, if_true, onM_m, tread_twrite_same, BitVec.toNat_ofNat]
  exact Nat.mod_eq_of_lt (Nat.and_lt_two_pow v (by decide))

/-- The shortest wait that a die's trace takes (R499). -/
theorem readsBack_traceMin :
    readReg (write4 who (0x1000000 + d * 0x800000 + 0x87004) v w) (0x1000000 + d * 0x800000 + 0x87004) = v % 65536 := by
  have h := blockOf_trc hd (o := 4) (by omega)
  rw [show 0x1000000 + d * 0x800000 + 0x87004 = 0x1000000 + d * 0x800000 + (0x87000 + 4) by omega, write4_trc h hr]
  simp only [writeTrc]
  rw [readReg_trc h (by exact hr)]
  simp only [readTrc, onK_m, tread_twrite_same, BitVec.toNat_ofNat]

end
end

end Sys2Proof.Machine
end

section
/-! SUPPORT. The wait trace (R498 to R500): when a die's unit takes a record, and what it then does. -/

namespace Sys2Proof.Machine
open Sys2Proof

/-! ### Traffic and the keeping store -/

/-- Between two machines neither memory nor anything that the keeping store holds differs. -/
def KeepsStore (w w' : Mach) : Prop := w'.mem = w.mem ∧ w'.gone = w.gone ∧ w'.wr = w.wr ∧ w'.m.k = w.m.k

theorem KeepsStore.refl (w : Mach) : KeepsStore w w := ⟨rfl, rfl, rfl, rfl⟩

theorem KeepsStore.trans {a b c : Mach} (h : KeepsStore a b) (k : KeepsStore b c) : KeepsStore a c := by
  obtain ⟨h1, h2, h3, h4⟩ := h
  obtain ⟨k1, k2, k3, k4⟩ := k
  exact ⟨k1.trans h1, k2.trans h2, k3.trans h3, k4.trans h4⟩

theorem keepsStore_ite {c : Prop} [Decidable c] {w a b : Mach} (ha : KeepsStore w a) (hb : KeepsStore w b) :
    KeepsStore w (if c then a else b) := by
  split
  · exact ha
  · exact hb

theorem keepsStore_foldl {α : Type} {f : Mach → α → Mach} (hf : ∀ w x, KeepsStore w (f w x)) (l : List α) (w : Mach) :
    KeepsStore w (l.foldl f w) := by
  induction l generalizing w with
  | nil => exact .refl w
  | cons x r ih => exact (hf w x).trans (ih (f w x))

theorem keepsStore_countGlobal (ev n : Nat) (g : Tag) (w : Mach) : KeepsStore w (countGlobal ev n g w) := by
  obtain ⟨c, hc⟩ := countGlobal_eq ev n g w
  rw [hc]
  exact ⟨rfl, rfl, rfl, rfl⟩

theorem keepsStore_countThread (t : Tid) (ev n : Nat) (w : Mach) : KeepsStore w (countThread t ev n w) := by
  obtain ⟨c, hc⟩ := countThread_eq t ev n w
  rw [hc]
  exact ⟨rfl, rfl, rfl, rfl⟩

theorem keepsStore_admitGate (g : Tag) (q : GateReq) (w : Mach) : KeepsStore w (admitGate g q w) := by
  have charged (g : Tag) : KeepsStore w (chargeGate q (if positive w q then w else countGlobal 0x21 1 g w)) :=
    (keepsStore_ite (.refl w) (keepsStore_countGlobal ..)).trans ⟨rfl, rfl, rfl, rfl⟩
  unfold admitGate
  cases q.act with
  | none => exact charged _
  | some a =>
    cases a with
    | run ch r => exact (charged _).trans ⟨rfl, rfl, rfl, rfl⟩
    | frames vc n => exact (charged _).trans ⟨rfl, rfl, rfl, rfl⟩

theorem keepsStore_request (q : GateReq) (w : Mach) : KeepsStore w (request q w) := by
  refine keepsStore_ite (.refl w) (keepsStore_ite ⟨rfl, rfl, rfl, rfl⟩ (keepsStore_ite (keepsStore_admitGate ..) ?_))
  unfold noteWait
  split <;> exact ⟨rfl, rfl, rfl, rfl⟩

/-- The traffic of an access leaves memory and the keeping store. -/
theorem keepsStore_chargeAccess (who : Asker) (cls die : Nat) (g : Option Tid) (write : Bool) (a len : Nat) (w : Mach) :
    KeepsStore w (chargeAccess who cls die g write a len w) := by
  have asked (dir : Nat) : KeepsStore w (request
      ⟨.brab, dir, cls, if dieOfAddr w a ≠ die then ceilDiv len 64 else 0, who, none⟩
      ((tierParts w a len).foldl (fun w p =>
        request ⟨.tier, tierOfAddr w p.1, cls, sectorsOf p.1 p.2, who, none⟩ w) w)) :=
    (keepsStore_foldl (fun _ _ => keepsStore_request ..) _ w).trans (keepsStore_request ..)
  unfold chargeAccess
  cases g with
  | some t => exact (asked _).trans ((keepsStore_countThread ..).trans (keepsStore_countThread ..))
  | none => exact asked _

/-- A store of bytes renews the copies and the granules beside it; the bytes are all that it writes. -/
theorem storeBytes_eq (keep : Option Nat) (a : Nat) (bs : List Byte) (w : Mach) :
    ∃ w', KeepsStore w w' ∧ storeBytes keep a bs w = putBytes a bs w' := by
  have copies : KeepsStore w (dropCopies keep a bs.length w) := keepsStore_ite (.refl w) ⟨rfl, rfl, rfl, rfl⟩
  have granules : KeepsStore (dropCopies keep a bs.length w)
      (renewGranules a bs.length (dropCopies keep a bs.length w)) := keepsStore_ite (.refl _) ⟨rfl, rfl, rfl, rfl⟩
  exact ⟨_, copies.trans granules, rfl⟩

theorem length_toBytes (n v : Nat) : (toBytes n v).length = n := by
  induction n generalizing v with
  | zero => rfl
  | succ n ih => simp [toBytes, ih]

/-! ### A die's trace unit -/

/-- A trace unit takes a record (R498, R500): it is enabled, the kind too, the wait is long enough, and the record follows
those before it. -/
def TraceTaken (b : TraceBuf) (r : Nat) : Prop :=
  b.ctl.getLsbD 0 = true ∧ b.ctl.getLsbD (bits r 96 8 + 4) = true ∧ b.min.toNat ≤ bits r 160 32 ∧ b.last < traceRank r

/-- The test of the model for a record that is not taken. -/
theorem not_traceTaken_iff (b : TraceBuf) (r : Nat) :
    (!(b.ctl.getLsbD 0 && b.ctl.getLsbD (bits r 96 8 + 4)) || decide (bits r 160 32 < b.min.toNat)
      || decide (traceRank r ≤ b.last)) = true ↔ ¬ TraceTaken b r := by
  simp only [TraceTaken, Bool.or_eq_true, Bool.not_eq_true', Bool.and_eq_false_iff, decide_eq_true_eq,
    Classical.not_and_iff_not_or_not, Bool.not_eq_true, Nat.not_le, Nat.not_lt, or_assoc]

/-- The buffer of a trace unit lies in device memory (R499). -/
def TracePlaced (w : Mach) (b : TraceBuf) : Prop :=
  0 < b.size.toNat * 1024 ∧ isDevice w b.base.toNat = true ∧
    isDevice w (b.base.toNat + b.size.toNat * 1024 * 64 - 1) = true

/-- Where the next record of a trace unit is stored (R499). -/
def traceHead (b : TraceBuf) : Nat := b.base.toNat + b.head.toNat % (b.size.toNat * 1024) * 64

section
variable {w : Mach} {d r : Nat} {b : TraceBuf} (hb : tread {} w.m.k.trc d = b)
include hb

/-- A record that is not taken leaves no trace. -/
theorem traceWrite_untaken (h : ¬ TraceTaken b r) : traceWrite d r w = w := by
  subst hb
  rw [traceWrite, if_pos ((not_traceTaken_iff ..).2 h)]

/-- A record taken where the buffer stops when full, and is full, is counted as dropped (R500). -/
theorem traceWrite_dropped (ht : TraceTaken b r) (hstop : b.ctl.getLsbD 1 = true)
    (hfull : b.size.toNat * 1024 ≤ b.head.toNat) (hdrop : ackFull b.drop = false) :
    traceWrite d r w = onK (fun k =>
      { k with trc := twrite {} k.trc d { b with last := traceRank r, drop := ackEvent b.drop } }) w := by
  subst hb
  rw [traceWrite, if_neg (fun h => (not_traceTaken_iff ..).1 h ht)]
  simp only [hstop, hfull, and_self, or_true, if_true, hdrop, Bool.false_eq_true, if_false]

/-- A record taken where there is room, or where the buffer wraps, is stored at its head (R499). -/
theorem traceWrite_stored (ht : TraceTaken b r) (hp : TracePlaced w b)
    (hroom : b.ctl.getLsbD 1 = false ∨ b.head.toNat < b.size.toNat * 1024) :
    ∃ w', KeepsStore w w' ∧ traceWrite d r w = onK (fun k =>
      { k with trc := twrite {} k.trc d { b with last := traceRank r, head := b.head + 1 } })
      (putBytes (traceHead b) (toBytes 64 r) w') := by
  obtain ⟨hcap, hfirst, hlast⟩ := hp
  have hstored : ¬((b.size.toNat * 1024 = 0 ∨ isDevice w b.base.toNat = false ∨
      isDevice w (b.base.toNat + b.size.toNat * 1024 * 64 - 1) = false) ∨
      (b.ctl.getLsbD 1 = true ∧ b.size.toNat * 1024 ≤ b.head.toNat)) := by
    rw [hfirst, hlast]
    rintro ((h | h | h) | ⟨h1, h2⟩)
    · omega
    · exact Bool.noConfusion h
    · exact Bool.noConfusion h
    · rcases hroom with h | h
      · exact Bool.noConfusion (h.symm.trans h1)
      · omega
  rw [traceWrite, hb, if_neg (fun h => (not_traceTaken_iff ..).1 h ht)]
  dsimp only
  rw [if_neg hstored]
  obtain ⟨w', hw', he⟩ := storeBytes_eq none (traceHead b) (toBytes 64 r)
    (chargeAccess (.keeper 0) 0 d none true (traceHead b) 64 w)
  exact ⟨w', (keepsStore_chargeAccess ..).trans hw', congrArg _ he⟩

end

/-- What a command leaves that stores bytes in machine `w'` and then changes no memory: those bytes, and else the
memory. -/
theorem storedByte_put {s s' : State} {f : Mach → Mach} {w' : Mach} (hw : KeepsStore (begin s) w') {a : Nat}
    {bs : List Byte} {g : KeepSt → KeepSt} (hf : f (begin s) = onK g (putBytes a bs w')) (h : runAny f s = .next s')
    (x : Nat) : storedByte s' x = if a ≤ x ∧ x < a + bs.length then bs.getD (x - a) 0 else storedByte s x := by
  obtain ⟨hmem, hgone, hwr, -⟩ := hw
  have hbytes : rawByte (f (begin s)) x = rawByte (putBytes a bs w') x := by rw [hf]; rfl
  rw [storedByte_runAny h (by rw [hf, onK_mem, putBytes_mem, hmem]; rfl), hbytes, rawByte_putBytes]
  have hbefore : rawByte w' x = storedByte s x := by
    unfold rawByte storedByte
    rw [hmem, hgone, hwr]
    rfl
  rw [hbefore]

end Sys2Proof.Machine
end

section
/-! SUPPORT. The host's accesses of BAR0 (R8 to R10, R502, R503): which act, which are refused, and what they leave. -/

namespace Sys2Proof.Machine
open Sys2Proof

theorem accessShape_four {off : Nat} (h : off % 4 = 0) : accessShape off 4 = true := by simp [accessShape, h]
theorem accessShape_eight {off : Nat} (h : off % 8 = 0) : accessShape off 8 = true := by simp [accessShape, h]

/-! ### What a function's write comes to -/

section
variable {w : Mach} {fn off v : Nat}

theorem hostWrite_refused {n : Nat} (h : inRecovery w = true ∨ accessShape off n = false) :
    hostWrite fn off n v w = hostViolation fn off true w := by
  rcases h with h | h <;> simp [hostWrite, h]

theorem hostWrite_four (hrec : inRecovery w = false) (h : off % 4 = 0) :
    hostWrite fn off 4 v w = hostWrite4 fn off (v % 2 ^ 32) w := by
  simp [hostWrite, hrec, accessShape_four h]

theorem hostWrite_eight (hrec : inRecovery w = false) (h : off % 8 = 0) :
    hostWrite fn off 8 v w = hostWrite4 fn (off + 4) (bits v 32 32) (hostWrite4 fn off (v % 2 ^ 32) w) := by
  simp [hostWrite, hrec, accessShape_eight h]

/-- The physical function reaches every block (R501). -/
theorem hostWrite4_physical (h : off ≠ 0) : hostWrite4 0 off v w = write4 (.host 0) off v w := by
  rw [hostWrite4, if_neg (not_not_intro rfl)]
  exact if_neg h

/-- Another function reaches its notification block alone (R448). -/
theorem hostWrite4_own (hf : fn ≠ 0) (h : off < 0x1000) :
    hostWrite4 fn off v w = writeHif fn (.host fn) off off v w := by
  rw [hostWrite4, if_pos hf, if_pos h]

theorem hostWrite4_outside (hf : fn ≠ 0) (h : 0x1000 ≤ off) : hostWrite4 fn off v w = w := by
  rw [hostWrite4, if_pos hf, if_neg (Nat.not_lt.2 h)]

end

/-! ### Register writes -/

section
variable {s : State} {off : Nat} (value : BitVec 64) (hP : Powered s) (hrec : inRecovery (begin s) = false)
include hP hrec

/-- A register write of four bytes by the physical function, DCTL apart. -/
theorem exec_registerWrite_physical (h4 : off % 4 = 0) (h0 : off ≠ 0) :
    exec (.registerWrite 0 off 4 value) s =
      .next { s with m := (write4 (.host 0) off (value.toNat % 2 ^ 32) (begin s)).m } := by
  have e : hostWrite 0 off 4 value.toNat (begin s) = write4 (.host 0) off (value.toNat % 2 ^ 32) (begin s) := by
    rw [hostWrite_four hrec h4, hostWrite4_physical h0]
  refine (run_regsOnly (f := hostWrite 0 off 4 value.toNat) hP ?_).trans (by rw [e])
  rw [e]
  exact regsOnly_write4 ..

/-- What the written register reads, with memory, the queue and the threads as they were. -/
theorem registerWrite_answers {r : Nat} (h4 : off % 4 = 0) (h0 : off ≠ 0)
    (hr : readReg (write4 (.host 0) off (value.toNat % 2 ^ 32) (begin s)) off = r) :
    Answers (.registerWrite 0 off 4 value) s fun s' => readReg (begin s') off = r ∧ s'.mem = s.mem ∧
      s'.pending = s.pending ∧ s'.m.threads = s.m.threads := by
  have hregs := regsOnly_write4 (.host 0) off (value.toNat % 2 ^ 32) (begin s)
  have ⟨_, _, _, hthreads⟩ := hregs
  exact ⟨_, exec_registerWrite_physical value hP hrec h4 h0, by rw [hregs.begin_next, hr], rfl, rfl, hthreads⟩

/-- A write that its block ignores leaves the state. -/
theorem registerWrite_ignored (h4 : off % 4 = 0) (h0 : off ≠ 0)
    (hw : ∀ v, write4 (.host 0) off v (begin s) = begin s) : exec (.registerWrite 0 off 4 value) s = .next s := by
  rw [exec_registerWrite_physical value hP hrec h4 h0, hw]
  rfl

/-- Eight bytes are two writes, the lower address first (R502). -/
theorem registerWrite_eight (fn : BitVec 5) (h8 : off % 8 = 0) (h0 : off ≠ 0) :
    ∃ s1, exec (.registerWrite fn off 4 value) s = .next s1 ∧
      exec (.registerWrite fn off 8 value) s = exec (.registerWrite fn (off + 4) 4 (value >>> 32)) s1 := by
  have hlow := regsOnly_hostWrite4 fn.toNat (value.toNat % 2 ^ 32) h0 (begin s)
  have hboth (w : Mach) := regsOnly_hostWrite4 fn.toNat (bits value.toNat 32 32) (Nat.succ_ne_zero (off + 3)) w
  have elow := hostWrite_four (fn := fn.toNat) (v := value.toNat) hrec (show off % 4 = 0 by omega)
  have ⟨_, hpower, hsec, _⟩ := hlow
  generalize hw1 : hostWrite4 fn.toNat off (value.toNat % 2 ^ 32) (begin s) = w1 at *
  have hbegin : begin { s with m := w1.m } = w1 := hlow.begin_next
  have hP1 : Powered { s with m := w1.m } := (congrArg Power.off hpower).trans hP
  have hrec1 : inRecovery w1 = false := by rw [← hrec, inRecovery, inRecovery, hsec]
  refine ⟨{ s with m := w1.m }, (run_regsOnly hP (by rw [elow]; exact hlow)).trans (by rw [elow]), ?_⟩
  have ehigh : hostWrite fn.toNat (off + 4) 4 (value >>> 32).toNat w1 =
      hostWrite4 fn.toNat (off + 4) (bits value.toNat 32 32) w1 := by
    rw [hostWrite_four hrec1 (by omega), BitVec.toNat_ushiftRight, bits]
  have eboth := hostWrite_eight (fn := fn.toNat) (v := value.toNat) hrec h8
  rw [hw1] at eboth
  calc exec (.registerWrite fn off 8 value) s
      = .next { s with m := (hostWrite4 fn.toNat (off + 4) (bits value.toNat 32 32) w1).m } :=
        (run_regsOnly hP (by rw [eboth]; exact hlow.trans (hboth w1))).trans (by rw [eboth])
    _ = exec (.registerWrite fn (off + 4) 4 (value >>> 32)) { s with m := w1.m } :=
        ((run_regsOnly hP1 (by rw [hbegin, ehigh]; exact hboth w1)).trans (by rw [hbegin, ehigh])).symm

end

/-- The registers of the list are read-only or unassigned: their blocks ignore a write. -/
theorem write4_readOnly {off : Nat} (h : off ∈ [0x1004, 0x1010, 0x1014, 0x1018, 0x1020, 0x1044, 0x1058, 0x2004, 0x2008,
      0x3000, 0x3008, 0x10000, 0x5040]) (v : Nat) (w : Mach) : write4 (.host 0) off v w = w := by
  simp only [List.mem_cons, List.not_mem_nil, or_false] at h
  obtain rfl | rfl | rfl | rfl | rfl | rfl | rfl | rfl | rfl | rfl | rfl | rfl | rfl := h
  · exact write4_keep (o := 0x04) (by decide)
  · exact write4_keep (o := 0x10) (by decide)
  · exact write4_keep (o := 0x14) (by decide)
  · exact write4_keep (o := 0x18) (by decide)
  · exact write4_keep (o := 0x20) (by decide)
  · exact write4_keep (o := 0x44) (by decide)
  · exact write4_keep (o := 0x58) (by decide)
  · exact write4_twin (o := 0x04) (by decide)
  · exact write4_twin (o := 0x08) (by decide)
  · exact write4_geom (o := 0x00) (by decide)
  · exact write4_geom (o := 0x08) (by decide)
  · exact write4_serv (o := 0x00) (by decide)
  · exact write4_budg (o := 0x1040) (by decide)

/-! ### Acknowledging writes (R10) -/

section
variable {who : Requester} {off : Nat} {v : BitVec 32} {c : AckCtr} {put : AckCtr → Module → Module} {w : Mach}

theorem ackReg_taken {c' : AckCtr} (h : ackWrite c v = some c') : ackReg who off c v.toNat put w = onM (put c') w := by
  rw [ackReg, BitVec.ofNat_toNat, BitVec.setWidth_eq, h]

theorem ackReg_refused (h : ackWrite c v = none) : ackReg who off c v.toNat put w = refuse who off w := by
  rw [ackReg, BitVec.ofNat_toNat, BitVec.setWidth_eq, h]
  rfl

end

/-- A vector that is sent is counted, and nothing else changes (R467). -/
theorem sendVector_eq (i : Nat) (w : Mach) : ∃ x, sendVector i w = onM (fun m => { m with msgsSent := x }) w := by
  unfold sendVector
  dsimp only
  generalize (if i < 96 then tread 0 w.m.ringFn i else 0) = fn
  split
  · exact ⟨_, rfl⟩
  · exact ⟨w.m.msgsSent, rfl⟩

/-- The effect of an acknowledging write of four aligned bytes in one of the physical function's fields. -/
theorem exec_ackWrite_physical {s : State} {off : Nat} (v : BitVec 32) (h4 : off % 4 = 0) (h0 : off ≠ 0)
    (hf : isAckField off = true) : ∃ f, exec (.ackWrite 0 off v) s = run f s ∧
      f (begin s) = write4 (.host 0) off v.toNat (begin s) := by
  have h : off % 4 = 0 ∧ (if (0 : BitVec 5).toNat = 0 then isAckField off else (hifIndex off).isSome) = true := ⟨h4, hf⟩
  exact ⟨_, rfl, (if_pos h).trans (hostWrite4_physical h0)⟩

/-- An access of another alignment acknowledges nothing. -/
theorem ackWrite_unaligned {s : State} (hP : Powered s) (fn : BitVec 5) {off : Nat} (v : BitVec 32) (h : off % 4 ≠ 0) :
    exec (.ackWrite fn off v) s = .next s := exec_unchanged hP rfl (if_neg fun hc => h hc.1)

theorem hifIndex_ring {i : Nat} (hi : i < 96) : hifIndex (4 * i) = some i := by
  rw [hifIndex, if_pos (by omega), Nat.mul_div_cancel_left i (by decide)]

/-- The effect of an acknowledging write by another function, in its own notification block. -/
theorem exec_ackWrite_own {s : State} (fn : BitVec 5) (hf : fn ≠ 0) {i : Nat} (hi : i < 96) (v : BitVec 32) :
    ∃ f, exec (.ackWrite fn (4 * i) v) s = run f s ∧
      f (begin s) = writeHif fn.toNat (.host fn.toNat) (4 * i) (4 * i) v.toNat (begin s) := by
  have h0 : fn.toNat ≠ 0 := Nat.ne_of_gt (BitVec.toNat_pos_of_ne_zero hf)
  refine ⟨_, rfl, (if_pos ⟨by omega, ?_⟩).trans (hostWrite4_own h0 (by omega))⟩
  rw [if_neg h0, hifIndex_ring hi]
  rfl

section
variable {w : Mach} {fn off i : Nat} {v : BitVec 32} {who : Requester} (hi : i < 96)
include hi

/-- A counter of another function's ring ignores a write (R449). -/
theorem writeHif_foreign (h : tread 0 w.m.ringFn i ≠ fn) : writeHif fn who off (4 * i) v.toNat w = w := by
  have ho : ownsCounter w fn i = false := by rw [ownsCounter, if_pos hi]; exact beq_false_of_ne h
  rw [writeHif, hifIndex_ring hi]
  simp only [ho, Bool.not_false, if_true]

/-- An acknowledgement of a ring's counter, with a signal where it leaves a count (R466, R467). -/
theorem writeHif_owned {c : AckCtr} (h : tread 0 w.m.ringFn i = fn)
    (hc : ackWrite (tread {} w.m.hifCtr i) v = some c) :
    ∃ x, writeHif fn who off (4 * i) v.toNat w =
      onM (fun m => { m with hifCtr := twrite {} m.hifCtr i c, msgsSent := x }) w ∧
      (ackOut c = 0 → x = w.m.msgsSent) := by
  have ho : ownsCounter w fn i = true := by rw [ownsCounter, if_pos hi]; exact beq_iff_eq.2 h
  rw [writeHif, hifIndex_ring hi]
  simp only [ho, Bool.not_true, Bool.false_eq_true, if_false, BitVec.ofNat_toNat, BitVec.setWidth_eq, hc]
  by_cases h0 : ackOut c = 0
  · rw [if_pos h0]
    exact ⟨w.m.msgsSent, rfl, fun _ => rfl⟩
  · obtain ⟨x, hx⟩ := sendVector_eq i (onM (fun m => { m with hifCtr := twrite {} m.hifCtr i c }) w)
    rw [if_neg h0, hx]
    exact ⟨x, rfl, fun h => absurd h h0⟩

end

/-! ### Reads (R502, R503) -/

section
variable {w : Mach} {fn off : Nat}

theorem hostRead_misshapen {n : Nat} (h : accessShape off n = false) :
    hostRead fn off n w = (0, hostViolation fn off false w) := by
  simp [hostRead, h]

theorem hostRead_four (hrec : inRecovery w = false) (h : off % 4 = 0) : hostRead fn off 4 w = hostRead4 fn off w := by
  simp [hostRead, hrec, accessShape_four h]

/-- A read of a LO register latches its HI half (R503). -/
theorem hostRead4_lo (hlo : isLo off = true) (hhi : isLo (off - 4) = false) :
    hostRead4 0 off w = (readReg w off, setLatch (.host 0) (off + 4) (readReg w (off + 4)) w) := by
  have h : ¬(4 ≤ off ∧ isLo (off - 4) = true) := fun h => Bool.noConfusion (hhi.symm.trans h.2)
  rw [hostRead4, if_neg (not_not_intro rfl), read4, if_neg h, if_pos hlo]

/-- A read of a HI register returns what was latched (R503). -/
theorem hostRead4_latched {x : W32} (h4 : 4 ≤ off) (hhi : isLo (off - 4) = true) (hlo : isLo off = false)
    (hx : tget w.m.h.pfLatch off = some x) : hostRead4 0 off w = (x.toNat, w) := by
  rw [hostRead4, if_neg (not_not_intro rfl), read4, if_pos ⟨h4, hhi⟩, hlo, latchesOf, hx]
  rfl

theorem hostRead4_own (hf : fn ≠ 0) : hostRead4 fn off w = (if off < 0x1000 then readHif w fn off else 0, w) := by
  rw [hostRead4, if_pos hf]

end

/-- What a read hands to the host interface: its completion and its bytes. -/
def completed (bs : List Byte) (h : HostSt) : HostSt := { h with cpl := 1, readBack := bs }

theorem exec_loReadLatch (fn : BitVec 5) (off n : Nat) (s : State) : exec (.loReadLatch fn off n) s =
    run (fun w => onH (completed (toBytes n (hostRead fn.toNat off n w).1)) (hostRead fn.toNat off n w).2) s := rfl

/-- Spec of a read that leaves the machine as it is, some HI halves apart that it latches. -/
theorem loReadLatch_next {s : State} {fn : BitVec 5} {off n x : Nat} {g : HostSt → HostSt} (hP : Powered s)
    (hr : hostRead fn.toNat off n (begin s) = (x, onH g (begin s))) :
    exec (.loReadLatch fn off n) s = .next { s with m := { s.m with h := completed (toBytes n x) (g s.m.h) } } := by
  refine exec_onM (g := fun m => { m with h := completed (toBytes n x) (g m.h) }) hP (exec_loReadLatch ..) ?_
  rw [hr]
  rfl

/-! ### DET, the lock, counters and probes -/

section
variable {w : Mach} {die : BitVec 1} (hr : tread false w.m.hw.dieReset die.toNat = false)
include hr

/-- The place of a probe entry's TAKE (R101). -/
theorem write4_take (slot : BitVec 12) : write4 (.host 0) (dieOffset die (0x40000 + 64 * slot.toNat)) 1 w =
    takeProbe (die.toNat * 4096 + slot.toNat) w := by
  have hk : slot.toNat < 4096 := slot.isLt
  have hi : 64 * slot.toNat / 64 = slot.toNat := by omega
  rw [dieOffset, write4_probe (blockOf_probe die.isLt (by omega)) hr, if_pos ⟨Nat.mul_mod_right .., rfl⟩, hi]

/-- A write of the CNT block's control word (R495, R497). -/
theorem write4_cntCtl (v : Nat) : write4 (.host 0) (dieOffset die 0x86000) v w =
    (let c := tread {} w.m.cnt die.toNat
     let c' : Cnt := { c with run := bit v 0, snap := c.snap || bit v 1, clear := c.clear || bit v 2 }
     onM (fun m => { m with cnt := twrite {} m.cnt die.toNat c' }) w) := by
  rw [dieOffset, write4_cnt (blockOf_cnt (o := 0) die.isLt (by decide)) hr, writeCnt, if_pos rfl]

end

end Sys2Proof.Machine
end

section
/-! The host's accesses of registers, kind by kind, and the statement about them. -/

namespace Sys2Proof.Machine
open Sys2Proof

/-! ### Register writes -/

/-- The registers that hold what is written to them, by their blocks: a write of `v` at `off` makes one read `r`. The
numbers `d` and `k` are those of its die and of its entry. -/
def HoldsWritten (w : Mach) (d k off v r : Nat) : Prop :=
  let base := 0x1000000 + d * 0x800000
  off = 0x1064 ∧ r = v ∨ off = 0x1068 ∧ r = v % 2 ^ 17 ∨
    (off = 0x1060 ∧ 1 ≤ v % 32 ∧ v % 32 ≤ 24 ∧ r = v % 32) ∨
    (off = 0x200C ∧ v % 65536 ≠ 0 ∧ r = v % 65536) ∨
    (∃ j, off = 0x4000 + 64 * k + 4 * j ∧ 1 ≤ k ∧ k < 64 ∧ j < 10 ∧ r = v % 2 ^ 20) ∨
    (off = 0x4000 + 64 * k + 40 ∧ 1 ≤ k ∧ k < 64 ∧ r = v % 4) ∨
    (off = 0x6000 + 4 * k ∧ k < 96 ∧ ringEmpty w k = true ∧ r = v % 32) ∨
    (off = 0x6500 + 4 * k ∧ k < 24 ∧ r = v % 64) ∨
    (off = base + 64 * k ∧ k < 4096 ∧ r = v) ∨
    (off = base + 0x80000 + 64 * k + 12 ∧ k < 256 ∧ (tread {} w.m.hw.channels (d * 256 + k)).busy = false ∧
      r = v &&& 0x013FFFFF) ∨
    (off = base + 0x84000 + 16 * k + 8 ∧ k < 5 ∧ r = v) ∨
    (off = base + 0x86100 + 32 * k ∧ k < 64 ∧ r = v &&& 0x80007FFF) ∨
    (off = base + 0x87004 ∧ r = v % 65536)

/-- A register that holds what is written to it reads so, in a die out of reset, once start-up has restored the kept
values. -/
theorem readsBack_of_holdsWritten {w : Mach} {who : Requester} {d k off v r : Nat} (h : HoldsWritten w d k off v r)
    (hd : d < 2) (hdie : tread false w.m.hw.dieReset d = false) (hboot : 5 < w.m.sec.bootPhase) (hv : v < 2 ^ 32) :
    off % 4 = 0 ∧ off ≠ 0 ∧ readReg (write4 who off v w) off = r := by
  obtain ⟨rfl, rfl⟩ | ⟨rfl, rfl⟩ | ⟨rfl, h1, h2, rfl⟩ | ⟨rfl, h0, rfl⟩ | ⟨j, rfl, h1, h2, hj, rfl⟩ | ⟨rfl, h1, h2, rfl⟩ |
    ⟨rfl, hk, he, rfl⟩ | ⟨rfl, hk, rfl⟩ | ⟨rfl, hk, rfl⟩ | ⟨rfl, hk, hidle, rfl⟩ | ⟨rfl, hk, rfl⟩ | ⟨rfl, hk, rfl⟩ |
    ⟨rfl, rfl⟩ := h
  · exact ⟨by decide, by decide, readsBack_cethresh hv hboot⟩
  · exact ⟨by decide, by decide, readsBack_servctl hboot⟩
  · exact ⟨by decide, by decide, readsBack_scrub hboot h1 h2⟩
  · exact ⟨by decide, by decide, readsBack_lagmax hboot h0⟩
  · exact ⟨by omega, by omega, readsBack_amount h1 h2 hj⟩
  · exact ⟨by omega, by omega, readsBack_flags h1 h2⟩
  · exact ⟨by omega, by omega, readsBack_ringFn hk he⟩
  · exact ⟨by omega, by omega, readsBack_route hk⟩
  · exact ⟨by omega, by omega, readsBack_tag hd hdie hv hk⟩
  · exact ⟨by omega, by omega, readsBack_mix hd hdie hk hidle⟩
  · exact ⟨by omega, by omega, readsBack_ways hd hdie hv hk⟩
  · exact ⟨by omega, by omega, readsBack_select hd hdie hk⟩
  · exact ⟨by omega, by omega, readsBack_traceMin hd hdie⟩

section
variable {s : State} {off : Nat} (value : BitVec 64) (hP : Powered s) (hrec : inRecovery (begin s) = false)
include hP hrec

/-- A function other than the physical one changes nothing beyond its notification block (R448). -/
theorem registerWrite_outside {fn : BitVec 5} (hfn : fn ≠ 0) (hoff : 0x1000 ≤ off) (h4 : off % 4 = 0) :
    exec (.registerWrite fn off 4 value) s = .next s :=
  exec_unchanged hP rfl ((hostWrite_four hrec h4).trans
    (hostWrite4_outside (Nat.ne_of_gt (BitVec.toNat_pos_of_ne_zero hfn)) hoff))

/-- A read-only register keeps its value (R8). -/
theorem registerWrite_readOnly (h : off ∈ [0x1004, 0x1010, 0x1014, 0x1018, 0x1020, 0x1044, 0x1058, 0x2004, 0x2008, 0x3000,
      0x3008, 0x10000, 0x5040]) : exec (.registerWrite 0 off 4 value) s = .next s := by
  have aligned : ∀ off ∈ [0x1004, 0x1010, 0x1014, 0x1018, 0x1020, 0x1044, 0x1058, 0x2004, 0x2008, 0x3000, 0x3008, 0x10000,
      0x5040], off % 4 = 0 ∧ off ≠ 0 := by decide
  exact registerWrite_ignored value hP hrec (aligned off h).1 (aligned off h).2 fun v => write4_readOnly h v _

/-- A write of a log is refused and logged (R8). -/
theorem registerWrite_log (hfull : ackFull s.m.violCount = false) (hlo : 0x20000 ≤ off) (hhi : off < 0xC0000)
    (h4 : off % 4 = 0) : Answers (.registerWrite 0 off 4 value) s (HostLogged 0x0004 0 off true s) := by
  refine answers_hostViolation hP hfull rfl ?_
  exact (hostWrite_four hrec h4).trans ((hostWrite4_physical (by omega)).trans (write4_log (blockOf_log hlo hhi)))

end

/-! ### Acknowledging writes -/

section
variable {s : State} (v : BitVec 32) (hP : Powered s)
include hP

/-- The count of violations is acknowledged (R10, R243). -/
theorem ackWrite_violations {c : AckCtr} (hc : ackWrite s.m.violCount v = some c) :
    exec (.ackWrite 0 0x1030 v) s = .next { s with m := { s.m with violCount := c } } := by
  obtain ⟨f, hx, hf⟩ := exec_ackWrite_physical (s := s) (off := 0x1030) v (by decide) (by decide) (by decide)
  exact exec_onM hP hx (hf.trans ((write4_keep (o := 0x30) (by decide)).trans (ackReg_taken hc)))

/-- The count of errors is acknowledged (R10, R422). -/
theorem ackWrite_errors {c : AckCtr} (hc : ackWrite s.m.errCount v = some c) :
    exec (.ackWrite 0 0x1038 v) s = .next { s with m := { s.m with errCount := c } } := by
  obtain ⟨f, hx, hf⟩ := exec_ackWrite_physical (s := s) (off := 0x1038) v (by decide) (by decide) (by decide)
  exact exec_onM hP hx (hf.trans ((write4_keep (o := 0x38) (by decide)).trans (ackReg_taken hc)))

/-- An acknowledgement of more errors than are outstanding is refused and logged (R10). -/
theorem ackWrite_errors_refused (hfull : ackFull s.m.violCount = false) (hc : ackWrite s.m.errCount v = none) :
    Answers (.ackWrite 0 0x1038 v) s (HostLogged 0x0004 0 0x1038 true s) := by
  obtain ⟨f, hx, hf⟩ := exec_ackWrite_physical (s := s) (off := 0x1038) v (by decide) (by decide) (by decide)
  exact answers_hostViolation hP hfull hx (hf.trans ((write4_keep (o := 0x38) (by decide)).trans (ackReg_refused hc)))

variable {fn : BitVec 5} {i : Nat} (hi : i < 96) (hfn : fn ≠ 0)
include hi hfn

theorem ackWrite_ring_foreign (hown : tread 0 s.m.ringFn i ≠ fn.toNat) : exec (.ackWrite fn (4 * i) v) s = .next s := by
  obtain ⟨f, hx, hf⟩ := exec_ackWrite_own (s := s) fn hfn hi v
  exact exec_unchanged hP hx (hf.trans (writeHif_foreign hi hown))

/-- The counter of a function's own ring is acknowledged (R10, R466). -/
theorem ackWrite_ring_owned {c : AckCtr} (hown : tread 0 s.m.ringFn i = fn.toNat)
    (hc : ackWrite (tread {} s.m.hifCtr i) v = some c) :
    ∃ x, exec (.ackWrite fn (4 * i) v) s =
      .next { s with m := { s.m with hifCtr := twrite {} s.m.hifCtr i c, msgsSent := x } } ∧
      (ackOut c = 0 → x = s.m.msgsSent) := by
  obtain ⟨f, hx, hf⟩ := exec_ackWrite_own (s := s) fn hfn hi v
  obtain ⟨x, hw, h0⟩ := writeHif_owned (w := begin s) (who := .host fn.toNat) (off := 4 * i) hi hown hc
  exact ⟨x, exec_onM hP hx (hf.trans hw), h0⟩

end

/-! ### Reads -/

section
variable {s : State} {fn : BitVec 5} {off : Nat} (hP : Powered s)
include hP

/-- A read of another shape is refused and logged, and returns zeros (R502). -/
theorem loReadLatch_misshapen {n : Nat} (hfull : ackFull s.m.violCount = false) (h : accessShape off n = false) :
    Answers (.loReadLatch fn off n) s fun s' => s'.m.h = completed (toBytes n 0) s.m.h ∧
      HostLogged 0x0012 fn.toNat off false { s with m := { s.m with h := completed (toBytes n 0) s.m.h } } s' :=
  answers_hostLogged hP hfull (exec_loReadLatch ..) (by rw [hostRead_misshapen h]; rfl)

variable (hrec : inRecovery (begin s) = false) (h4 : off % 4 = 0)
include hrec h4

/-- A read of a LO register latches its HI half (R31, R503). -/
theorem loReadLatch_lo (hlo : isLo off = true) (hhi : isLo (off - 4) = false) :
    exec (.loReadLatch 0 off 4) s = .next { s with m := { s.m with
      h := completed (toBytes 4 (readReg (begin s) off)) { s.m.h with
        pfLatch := tput s.m.h.pfLatch (off + 4) (BitVec.ofNat 32 (readReg (begin s) (off + 4))) } } } :=
  loReadLatch_next (fn := 0) (g := fun h => { h with
    pfLatch := tput h.pfLatch (off + 4) (BitVec.ofNat 32 (readReg (begin s) (off + 4))) }) hP
    ((hostRead_four hrec h4).trans (hostRead4_lo hlo hhi))

/-- A read of a HI register returns what was latched (R503). -/
theorem loReadLatch_hi {x : W32} (hfour : 4 ≤ off) (hhi : isLo (off - 4) = true) (hlo : isLo off = false)
    (hx : tget s.m.h.pfLatch off = some x) :
    exec (.loReadLatch 0 off 4) s = .next { s with m := { s.m with h := completed (toBytes 4 x.toNat) s.m.h } } :=
  loReadLatch_next (fn := 0) (g := id) hP ((hostRead_four hrec h4).trans (hostRead4_latched hfour hhi hlo hx))

/-- Another function reads its notification block alone (R448). -/
theorem loReadLatch_own (hfn : fn ≠ 0) :
    exec (.loReadLatch fn off 4) s = .next { s with m := { s.m with
      h := completed (toBytes 4 (if off < 0x1000 then readHif (begin s) fn.toNat off else 0)) s.m.h } } :=
  loReadLatch_next (g := id) hP ((hostRead_four hrec h4).trans
    (hostRead4_own (Nat.ne_of_gt (BitVec.toNat_pos_of_ne_zero hfn))))

end

/-! ### DET, the lock, counters and probes -/

section
variable {s : State} (hP : Powered s)
include hP

/-- DET outside a pair waits for the boundary (R352). -/
theorem detWrite_waits (v : Bool) (h : s.m.twin.mode ≠ 1) :
    exec (.detWrite v) s = .next { s with m := { s.m with detW := some v } } :=
  exec_onM (f := writeDet (.host 0) 0 v) (g := fun m => { m with detW := some v }) hP rfl (if_pos h)

theorem cfglockWrite_first (h1 : s.m.cfglock = false) (h2 : s.m.cfglockW = false) :
    exec (.cfglockWrite true) s = .next { s with m := { s.m with cfglockW := true } } := by
  have hclear : ¬((s.m.cfglock || s.m.cfglockW) = true) := by rw [h1, h2]; decide
  exact exec_onM (f := writeLock (.host 0) true) (g := fun m => { m with cfglockW := true }) hP rfl (by
    rw [writeLock, if_neg (by decide), begin_m, if_neg hclear])

theorem cfglockWrite_again (hfull : ackFull s.m.violCount = false) (h : s.m.cfglock = true ∨ s.m.cfglockW = true) :
    Answers (.cfglockWrite true) s (HostLogged 0x0004 0 0 true s) :=
  answers_hostViolation (f := writeLock (.host 0) true) hP hfull rfl (by
    rw [writeLock, if_neg (by decide), begin_m, if_pos (Bool.or_eq_true_iff.2 h)]
    rfl)

variable (die : BitVec 1) (hr : tread false s.m.hw.dieReset die.toNat = false)
include hr

theorem cntSnap_next :
    exec (.cntSnap die) s = .next { s with m := { s.m with
      cnt := twrite {} s.m.cnt die.toNat { (tread {} s.m.cnt die.toNat) with snap := true } } } := by
  obtain ⟨f, hx, hf⟩ : ∃ f, exec (.cntSnap die) s = run f s ∧ f (begin s) =
      write4 (.host 0) (dieOffset die 0x86000) (b2n (tread {} s.m.cnt die.toNat).run + 2) (begin s) :=
    ⟨_, show execCntSnap die s = run _ s from rfl, rfl⟩
  have h (b : Bool) : bit (b2n b + 2) 0 = b ∧ bit (b2n b + 2) 1 = true ∧ bit (b2n b + 2) 2 = false := by
    cases b <;> decide
  rw [write4_cntCtl (w := begin s) hr] at hf
  simp only [begin_m, h, Bool.or_true, Bool.or_false] at hf
  exact exec_onM hP hx hf

theorem cntClear_next :
    exec (.cntClear die) s = .next { s with m := { s.m with
      cnt := twrite {} s.m.cnt die.toNat { tread {} s.m.cnt die.toNat with clear := true } } } := by
  obtain ⟨f, hx, hf⟩ : ∃ f, exec (.cntClear die) s = run f s ∧ f (begin s) =
      write4 (.host 0) (dieOffset die 0x86000) (b2n (tread {} s.m.cnt die.toNat).run + 4) (begin s) :=
    ⟨_, show execCntClear die s = run _ s from rfl, rfl⟩
  have h (b : Bool) : bit (b2n b + 4) 0 = b ∧ bit (b2n b + 4) 1 = false ∧ bit (b2n b + 4) 2 = true := by
    cases b <;> decide
  rw [write4_cntCtl (w := begin s) hr] at hf
  simp only [begin_m, h, Bool.or_true, Bool.or_false] at hf
  exact exec_onM hP hx hf

theorem take_next (slot : BitVec 12) :
    let k := die.toNat * 4096 + slot.toNat
    let p : Probe := { live := {}, held := (tread {} s.m.probes k).live, taken := BitVec.ofNat 64 s.m.tick }
    exec (.take die slot) s = .next { s with m := { s.m with probes := twrite {} s.m.probes k p } } :=
  exec_onM hP rfl (write4_take hr slot)

end

/-! ### Traces -/

section
variable {s : State} {buffer : BitVec 2} {record : BitVec 512} (hP : Powered s)

/-- The record that is written: as given, its name from the decode table (R498; log 41). -/
def namedRecord (s : State) (buffer : BitVec 2) (record : BitVec 512) : Nat :=
  bits record.toNat 0 448 + traceName (begin s) buffer.toNat record.toNat <<< 448

/-- Where a trace record goes: nowhere, to its die's unit, or to the keeper's buffer (R498, R499). -/
theorem exec_traceRecordWrite (s : State) (buffer : BitVec 2) (record : BitVec 512) :
    let r := namedRecord s buffer record
    ∃ f, exec (.traceRecordWrite buffer record) s = run f s ∧ f (begin s) =
      if s.m.tick ≤ bits r 0 64 + 128 ∨ bits r 96 8 = 0 ∨ 11 < bits r 96 8 then begin s
      else if buffer.toNat < 2 then traceWrite buffer.toNat r (begin s)
      else if buffer.toNat = 2 ∧ bits r 96 8 = 11 ∧ s.m.k.ktrcLast < traceRank r then
        onK (fun k => { k with ktrc := tput k.ktrc (k.ktrcHead % 4096) r, ktrcHead := k.ktrcHead + 1,
                               ktrcLast := traceRank r }) (begin s)
      else begin s := ⟨_, show execTraceRecordWrite buffer record s = run _ s from rfl, rfl⟩

include hP

/-- A record of an unknown kind, or too young, is not written (R498, R499). -/
theorem traceRecordWrite_young (h : s.m.tick ≤ bits (namedRecord s buffer record) 0 64 + 128 ∨
      bits (namedRecord s buffer record) 96 8 = 0 ∨ 11 < bits (namedRecord s buffer record) 96 8) :
    exec (.traceRecordWrite buffer record) s = .next s := by
  obtain ⟨f, hx, hf⟩ := exec_traceRecordWrite s buffer record
  exact exec_unchanged hP hx (hf.trans (if_pos h))

/-- The keeper's buffer takes a gate-service wait that follows those before it (R498, R499). -/
theorem traceRecordWrite_keeper (hage : bits (namedRecord s buffer record) 0 64 + 128 < s.m.tick)
    (hb : buffer = 2) (hkind : bits (namedRecord s buffer record) 96 8 = 11)
    (hrank : s.m.k.ktrcLast < traceRank (namedRecord s buffer record)) :
    exec (.traceRecordWrite buffer record) s = .next { s with m := { s.m with k := { s.m.k with
      ktrc := tput s.m.k.ktrc (s.m.k.ktrcHead % 4096) (namedRecord s buffer record),
      ktrcHead := s.m.k.ktrcHead + 1, ktrcLast := traceRank (namedRecord s buffer record) } } } := by
  have htwo : buffer.toNat = 2 := by rw [hb]; rfl
  obtain ⟨f, hx, hf⟩ := exec_traceRecordWrite s buffer record
  rw [if_neg (by omega), if_neg (by omega), if_pos ⟨htwo, hkind, hrank⟩] at hf
  exact exec_onM hP hx hf

variable (hd : buffer.toNat < 2) (hage : bits (namedRecord s buffer record) 0 64 + 128 < s.m.tick)
  (h1 : 1 ≤ bits (namedRecord s buffer record) 96 8) (h11 : bits (namedRecord s buffer record) 96 8 ≤ 11)
include hd hage h1 h11

omit hP in
/-- A record that may be written goes to its die's trace unit. -/
theorem exec_traceRecordWrite_die :
    ∃ f, exec (.traceRecordWrite buffer record) s = run f s ∧
      f (begin s) = traceWrite buffer.toNat (namedRecord s buffer record) (begin s) := by
  obtain ⟨f, hx, hf⟩ := exec_traceRecordWrite s buffer record
  exact ⟨f, hx, hf.trans ((if_neg (by omega)).trans (if_pos hd))⟩

variable {b : TraceBuf} (hb : tread {} s.m.k.trc buffer.toNat = b)
include hb

theorem traceRecordWrite_untaken (ht : ¬ TraceTaken b (namedRecord s buffer record)) :
    exec (.traceRecordWrite buffer record) s = .next s := by
  obtain ⟨f, hx, hf⟩ := exec_traceRecordWrite_die hd hage h1 h11
  exact exec_unchanged hP hx (hf.trans (traceWrite_untaken hb ht))

variable (ht : TraceTaken b (namedRecord s buffer record))
include ht

/-- A full buffer that stops counts the record as dropped (R500). -/
theorem traceRecordWrite_dropped (hstop : b.ctl.getLsbD 1 = true) (hfull : b.size.toNat * 1024 ≤ b.head.toNat)
    (hdrop : ackFull b.drop = false) : Answers (.traceRecordWrite buffer record) s fun s' => s'.mem = s.mem ∧
      tread {} s'.m.k.trc buffer.toNat =
        { b with last := traceRank (namedRecord s buffer record), drop := ackEvent b.drop } := by
  obtain ⟨f, hx, hf⟩ := exec_traceRecordWrite_die hd hage h1 h11
  have hw := traceWrite_dropped (w := begin s) hb ht hstop hfull hdrop
  exact ⟨_, exec_onM hP hx (hf.trans hw), rfl, tread_twrite_same ..⟩

/-- Else the record is stored at the buffer's head (R499). -/
theorem traceRecordWrite_stored (hp : TracePlaced (begin s) b)
    (hroom : b.ctl.getLsbD 1 = false ∨ b.head.toNat < b.size.toNat * 1024) :
    Answers (.traceRecordWrite buffer record) s fun s' =>
      tread {} s'.m.k.trc buffer.toNat = { b with last := traceRank (namedRecord s buffer record), head := b.head + 1 } ∧
      ∀ x, storedByte s' x = if traceHead b ≤ x ∧ x < traceHead b + 64 then
        (toBytes 64 (namedRecord s buffer record)).getD (x - traceHead b) 0 else storedByte s x := by
  obtain ⟨f, hx, hf⟩ := exec_traceRecordWrite_die hd hage h1 h11
  obtain ⟨w', hw', hput⟩ := traceWrite_stored (w := begin s) hb ht hp hroom
  refine ⟨_, hx.trans ((run_powered hP f).trans (runAny_eq f s)), ?_, fun x => ?_⟩
  · rw [hf, hput]
    exact tread_twrite_same ..
  · have h := storedByte_put hw' (hf.trans hput) (runAny_eq f s) x
    rwa [length_toBytes] at h

end

/-! ### The statement -/

/-- Settles O51: a write of a block's register touches registers alone, so that what it reads is told by its block's read
and write; what is refused is one violation of the keeper's. -/
theorem hostRegisters : Obligations.HostRegisters := by
  unfold Obligations.HostRegisters
  refine ⟨?writes, ?acknowledgements, ?reads, ?dctl, ?counters, ?traces⟩
  case writes =>
    intro s fn off n value hP hfull w v i
    refine ⟨fun h => answers_hostViolation hP hfull rfl (hostWrite_refused h), fun hrec => ⟨?_, ?_, ?_⟩⟩
    · rintro hfn hoff h4 rfl
      exact registerWrite_outside value hP hrec hfn hoff h4
    · rintro h8 h0 rfl
      exact registerWrite_eight value hP hrec fn h8 h0
    · rintro rfl rfl
      refine ⟨registerWrite_readOnly value hP hrec, registerWrite_log value hP hrec hfull, ?_⟩
      intro r d k hd hr hboot base h
      obtain ⟨h4, h0, hread⟩ :=
        readsBack_of_holdsWritten (w := w) (who := .host 0) h hd hr hboot (Nat.mod_lt _ (by decide))
      exact registerWrite_answers value hP hrec h4 h0 hread
  case acknowledgements =>
    intro s v hP hfull
    refine ⟨fun c hc => ⟨_, ackWrite_violations v hP hc, rfl, rfl⟩, fun c hc => ⟨_, ackWrite_errors v hP hc, rfl, rfl⟩,
      ackWrite_errors_refused v hP hfull, fun fn off h => ackWrite_unaligned hP fn v h,
      fun fn i hi => ⟨fun hown hfn => ackWrite_ring_foreign v hP hi hfn hown, fun c hown hfn hc => ?_⟩⟩
    obtain ⟨x, hx, h0⟩ := ackWrite_ring_owned v hP hi hfn hown hc
    exact ⟨_, hx, rfl, tread_twrite_same .., rfl, h0⟩
  case reads =>
    intro s fn off n hP hfull w i
    refine ⟨fun h => (loReadLatch_misshapen hP hfull h).mono fun s' hs' => ⟨congrArg HostSt.readBack hs'.1, hs'.2⟩, ?_⟩
    rintro hrec h4 rfl
    refine ⟨?_, ?_, fun hfn => ⟨_, loReadLatch_own hP hrec h4 hfn, rfl, rfl⟩⟩
    · rintro rfl hlo hhi
      exact ⟨_, loReadLatch_lo hP hrec h4 hlo hhi, rfl, rfl, rfl, tget_tput_same ..⟩
    · rintro x rfl hfour hhi hlo hx
      exact ⟨_, loReadLatch_hi hP hrec h4 hfour hhi hlo hx, rfl, rfl, rfl⟩
  case dctl =>
    intro s v hP hfull
    refine ⟨detWrite_waits hP v, ?_, exec_unchanged hP rfl rfl, cfglockWrite_first hP, cfglockWrite_again hP hfull⟩
    rintro h rfl
    exact answers_hostViolation hP hfull rfl (if_neg (not_not_intro h))
  case counters =>
    intro s die hP hr c sets
    refine ⟨⟨_, cntSnap_next hP die hr, rfl, rfl, tread_twrite_same .., fun k hk => tread_twrite_ne _ _ _ hk⟩,
      ⟨_, cntClear_next hP die hr, rfl, rfl, tread_twrite_same .., fun k hk => tread_twrite_ne _ _ _ hk⟩, ?_⟩
    intro slot k
    exact ⟨_, take_next hP die hr slot, rfl, rfl, rfl, tread_twrite_same .., fun j hj => tread_twrite_ne _ _ _ hj⟩
  case traces =>
    intro s buffer record hP r kind i
    refine ⟨traceRecordWrite_young hP, fun hage h1 h11 => ⟨fun hb hkind hrank => ?_, fun hd => ?_⟩⟩
    · exact ⟨_, traceRecordWrite_keeper hP hage hb hkind hrank, rfl, tget_tput_same .., rfl⟩
    · exact ⟨traceRecordWrite_untaken hP hd hage h1 h11 rfl, fun ht hcap hfirst hlast =>
        ⟨traceRecordWrite_dropped hP hd hage h1 h11 rfl ht,
          traceRecordWrite_stored hP hd hage h1 h11 rfl ht ⟨hcap, hfirst, hlast⟩⟩⟩

end Sys2Proof.Machine
end

section
/-! The module after reset, by the parts of the statement: its threads, and the registers of each block. -/

namespace Sys2Proof.Machine
open Sys2Proof

/-- A table that lists nothing reads its default. -/
@[simp] theorem tread_nil {α : Type} (d : α) (k : Nat) : tread d [] k = d := rfl

/-- A choice between two values that are the same. -/
theorem ite_eq_of {α : Type} {c : Prop} [Decidable c] {a b x : α} (ha : a = x) (hb : b = x) :
    (if c then a else b) = x := by
  rw [ha, hb, ite_self]

/-- Every register of a new thread reads zero (R7; log 3). -/
theorem newThread_registers :
    (∀ r, getG ({} : Thread) r = 0) ∧ (∀ r, getV ({} : Thread) r = 0) ∧ (∀ r, getP ({} : Thread) r = 0) := by
  refine ⟨fun r => ?_, fun _ => rfl, fun _ => rfl⟩
  by_cases hr : r = 0
  · rw [hr]; rfl
  · rw [getG_eq rfl hr]; rfl

/-- The status of a new thread: supervisor level alone (R237, R255). -/
theorem tsrOf_new : tsrOf {} {} = 1 := by decide

/-- A value that start-up restores reads zero before it (R7, R509). -/
theorem kept_reset (step v : Nat) : kept (begin State.reset) step v = 0 := if_neg (Nat.not_lt_zero step)

/-- KEEP after reset: what start-up restores reads zero, and so do the time, the counts and the logs' indices. -/
theorem readKeep_reset (o : Nat) : readKeep (begin State.reset) o = 0 := by
  unfold readKeep
  simp only [kept_reset]
  split <;> rfl

/-- TWIN after reset: TWIN_LAGMAX too reads zero until it is restored (R443). -/
theorem readTwin_reset (o : Nat) : readTwin (begin State.reset) o = 0 := by
  unfold readTwin
  simp only [kept_reset]
  split <;> rfl

/-- A notification block after reset: no count is outstanding, no vector is set (R466). -/
theorem readHif_reset (o : Nat) : readHif (begin State.reset) 0 o = 0 := by
  have counters : (begin State.reset).m.hifCtr = [] := rfl
  have vectors : (begin State.reset).m.hifVec = [] := rfl
  unfold readHif
  simp only [counters, vectors, tread_nil, ite_self]
  split
  · exact ite_self _
  · exact ite_self _

/-- HIF_CFG after reset: the physical function owns every ring and word, and nothing is lent (R449). -/
theorem readHifCfg_reset (o : Nat) : readHifCfg (begin State.reset) o = 0 := by
  have owners : (begin State.reset).m.ringFn = [] := rfl
  have host : (begin State.reset).m.h = {} := rfl
  unfold readHifCfg
  simp only [owners, host, tread_nil]
  refine ite_eq_of rfl <| ite_eq_of rfl <| ite_eq_of rfl <| ite_eq_of ?functions <|
    ite_eq_of ?windows <| ite_eq_of rfl rfl
  case functions => split <;> rfl
  case windows => cases o % 8 == 4 <;> rfl

/-- The counters of a die after reset (R495). -/
theorem readCnt_new (o : Nat) : readCnt {} o = 0 := by
  unfold readCnt
  dsimp only [tread_nil]
  refine ite_eq_of rfl <| ite_eq_of rfl <| ite_eq_of rfl <| ite_eq_of ?entry rfl
  split <;> rfl

/-- The trace unit of a die after reset: its shortest wait is 256 ticks (R499). -/
theorem readTrc_new (o : Nat) : readTrc {} o = if o = 4 then 256 else 0 := by
  by_cases h : o = 4
  · rw [h]; rfl
  · rw [if_neg h]
    unfold readTrc
    split
    case h_2 => exact absurd rfl h
    all_goals rfl

/-- Settles O60: the parts are those of the state's defaults, and a kept value is gated by start-up's step. -/
theorem reset : Obligations.Reset := by
  unfold Obligations.Reset
  refine ⟨rfl, rfl, rfl, fun _ => rfl, rfl, rfl, fun t => ?threads, rfl, rfl, fun o _ => readKeep_reset o,
    fun o _ => readTwin_reset o, readHif_reset, fun o _ => readHifCfg_reset o, fun d o _ => readCnt_new o,
    fun d o _ => readTrc_new o, fun c _ => ⟨rfl, rfl⟩, rfl, rfl, rfl, rfl, rfl, rfl, rfl, rfl⟩
  obtain ⟨hg, hv, hp⟩ := newThread_registers
  exact ⟨tsrOf_new, rfl, rfl, rfl, rfl, rfl, rfl, rfl, rfl, rfl, rfl, rfl, rfl, hg, hv, hp, rfl, rfl⟩

end Sys2Proof.Machine
end

section
/-! One step of the block: what it does by the shape of the queue, and the tick that passes when the queue is empty. -/

namespace Sys2Proof.Machine
open Sys2Proof

/-! ### The tick of an empty queue (log 1, 44) -/

theorem idleTick_of_off {m : Module} (h : m.power.off = true) : idleTick m = m := if_pos h

/-- The bound is the last tick of the period that the tick lies in (R26). -/
theorem idleTick_of_on {m : Module} (h : m.power.off = false) :
    idleTick m = { m with tick := min (m.tick + 1) (m.tick / 4096 * 4096 + 4095) } := if_neg (ne_true_of_eq_false h)

/-! ### The step, by the queue -/

theorem step_of_pending_cons {c : Instr} {r : List Instr} {s : State} (h : s.pending = c :: r) :
    step s = exec c { s with pending := r } := by
  unfold step
  rw [h]

theorem step_of_pending_nil {s : State} (h : s.pending = []) : step s = .next { s with m := idleTick s.m } := by
  unfold step
  rw [h]

/-- Settles O1: the first clause is the step of a non-empty queue; the others are that of an empty one, by the power. -/
theorem stepRunsTheFrontCommand : Obligations.StepRunsTheFrontCommand := by
  unfold Obligations.StepRunsTheFrontCommand
  refine ⟨fun _ _ _ => step_of_pending_cons, fun s empty => ⟨fun off => ?off, fun on => ?on⟩⟩
  case off => rw [step_of_pending_nil empty, idleTick_of_off off]
  case on => rw [step_of_pending_nil empty, idleTick_of_on on]

end Sys2Proof.Machine
end

section
/-! SUPPORT. Rounding to nearest, and the encodings of floating-point formats: the fields of an encoding, and that a
finite value encodes back to the encoding it came from. -/

namespace Sys2Proof.Machine
open Sys2Proof FFmtOps

/-! ### Rounding (R64) -/

/-- A magnitude that is counted in the unit already is kept, whatever the mode. -/
theorem roundTo_self (rm : Rm) (m : Nat) (e : Int) : roundTo rm m e e = m := by
  simp [roundTo]

/-- Rounding to nearest, by what is left beyond the last place: up past half a unit, and up from half way
between an odd multiple and the next. -/
theorem roundTo_rne_of_lt {e q : Int} (h : e < q) (m : Nat) :
    roundTo .rne m e q =
      if 2 ^ ((q - e).toNat - 1) < m % 2 ^ (q - e).toNat ∨
          (m % 2 ^ (q - e).toNat = 2 ^ ((q - e).toNat - 1) ∧ m / 2 ^ (q - e).toNat % 2 = 1)
      then m / 2 ^ (q - e).toNat + 1 else m / 2 ^ (q - e).toNat := by
  simp only [roundTo, if_neg (Int.not_le.mpr h), Nat.shiftRight_eq_div_pow]

theorem roundTo_rne_nearest_even (m : Nat) {e q : Int} (h : e < q) :
    2 * ((roundTo .rne m e q : Int) * 2 ^ (q - e).toNat - m).natAbs ≤ 2 ^ (q - e).toNat ∧
    (2 * ((roundTo .rne m e q : Int) * 2 ^ (q - e).toNat - m).natAbs = 2 ^ (q - e).toNat →
      roundTo .rne m e q % 2 = 0) := by
  rw [roundTo_rne_of_lt h]
  generalize hd : (q - e).toNat = d
  have unit_eq : 2 ^ (d - 1) * 2 = 2 ^ d := Nat.two_pow_pred_mul_two (by omega)
  have unit_pos : 0 < 2 ^ d := Nat.two_pow_pos d
  have rest_lt : m % 2 ^ d < 2 ^ d := Nat.mod_lt m unit_pos
  have parts : (m : Int) = (m / 2 ^ d : Nat) * 2 ^ d + (m % 2 ^ d : Nat) := by
    exact_mod_cast (Nat.div_add_mod' m (2 ^ d)).symm
  -- from here the quotient and the rest stand for m
  generalize m / 2 ^ d = k at *
  generalize m % 2 ^ d = rest at *
  split
  case isTrue up =>
    have off : ((k + 1 : Nat) : Int) * 2 ^ d - m = (2 ^ d : Nat) - rest := by
      rw [parts, Int.natCast_succ, Int.add_mul, Int.one_mul, Int.add_sub_add_left, Int.natCast_pow, Int.cast_ofNat_Int]
    rw [off]
    omega
  case isFalse down =>
    have off : (k : Int) * 2 ^ d - m = -rest := by
      rw [parts, ← Int.sub_sub, Int.sub_self, Int.zero_sub]
    rw [off]
    omega

/-! ### The fields of an encoding (R49) -/

/-- An encoding without its sign: exponent and fraction. -/
def magCode (f : FFmt) (b : Nat) : Nat := b % 2 ^ (f.eb + f.fb)

theorem magCode_eq (f : FFmt) (b : Nat) : magCode f b = bits b f.fb f.eb * 2 ^ f.fb + b % 2 ^ f.fb := by
  unfold magCode bits
  rw [Nat.add_comm f.eb, Nat.pow_add, Nat.mod_mul, Nat.shiftRight_eq_div_pow, Nat.mul_comm, Nat.add_comm]

theorem withSign_magCode {f : FFmt} {b : Nat} (hb : b < 2 ^ (1 + f.eb + f.fb)) :
    withSign f (b.testBit (f.eb + f.fb)) (magCode f b) = b := by
  rw [Nat.add_assoc, Nat.add_comm 1, Nat.pow_succ] at hb
  have sign_lt : b / 2 ^ (f.eb + f.fb) < 2 := Nat.div_lt_of_lt_mul hb
  have parts := Nat.div_add_mod b (2 ^ (f.eb + f.fb))
  unfold withSign magCode
  rw [Nat.testBit_eq_decide_div_mod_eq, Nat.mod_eq_of_lt sign_lt]
  obtain zero | one := Nat.le_one_iff_eq_zero_or_eq_one.mp (Nat.le_of_lt_succ sign_lt)
  · rw [zero] at parts ⊢
    simpa using parts
  · rw [one] at parts ⊢
    simpa using parts

/-! ### Finite values encode back (R49, R51) -/

/-- The value of an encoding read as a finite one: a subnormal where the exponent field is zero, else a normal. -/
def finiteOf (f : FFmt) (b : Nat) : Num :=
  if bits b f.fb f.eb = 0 then .fin (b.testBit (f.eb + f.fb)) (b % 2 ^ f.fb) (1 - (bias f : Int) - f.fb)
  else .fin (b.testBit (f.eb + f.fb)) (2 ^ f.fb + b % 2 ^ f.fb) ((bits b f.fb f.eb : Int) - bias f - f.fb)

/-- A magnitude counted in units of its encoding's last place is encoded as it is. -/
theorem encodeFin_of_last_place {f : FFmt} {m c : Nat} {e : Int} (hm : m ≠ 0)
    (he : max (e + (m.log2 : Int)) (1 - (bias f : Int)) - f.fb = e)
    (hc : (e + f.fb + bias f - 1) * 2 ^ f.fb + m = (c : Int)) (hmax : c ≤ maxCode f) (rm : Rm) (sat neg : Bool) :
    (encodeFin f rm sat neg m e).1 = withSign f neg c := by
  have fits : ¬ (maxCode f : Int) < c := by omega
  simp only [encodeFin, if_neg hm, he, roundTo_self, hc, if_neg fits, Int.toNat_natCast]

theorem rneF_finiteOf {f : FFmt} {b : Nat} (hb : b < 2 ^ (1 + f.eb + f.fb)) (hmax : magCode f b ≤ maxCode f) :
    rneF f (finiteOf f b) = b := by
  have fraction_lt : b % 2 ^ f.fb < 2 ^ f.fb := Nat.mod_lt b (Nat.two_pow_pos _)
  have fields := magCode_eq f b
  refine Eq.trans ?_ (withSign_magCode hb)
  unfold finiteOf
  split
  case isTrue subnormal =>
    rw [subnormal, Nat.zero_mul, Nat.zero_add] at fields
    rw [fields] at hmax ⊢
    by_cases zero : b % 2 ^ f.fb = 0
    · rw [zero]; rfl
    · have log_lt : (b % 2 ^ f.fb).log2 < f.fb := (Nat.log2_lt zero).mpr fraction_lt
      refine encodeFin_of_last_place zero (by omega) ?_ hmax ..
      have field_zero : (1 - (bias f : Int) - f.fb + f.fb + bias f - 1) = 0 := by omega
      rw [field_zero, Int.zero_mul, Int.zero_add]
  case isFalse normal =>
    have leading : (2 ^ f.fb + b % 2 ^ f.fb).log2 = f.fb :=
      (Nat.log2_eq_iff (by omega)).mpr ⟨by omega, by omega⟩
    refine encodeFin_of_last_place (by omega) (by rw [leading]; omega) ?_ hmax ..
    have field_pred : (bits b f.fb f.eb : Int) - bias f - f.fb + f.fb + bias f - 1 = bits b f.fb f.eb - 1 := by omega
    rw [fields, field_pred, Int.sub_mul]
    push_cast
    omega

/-! ### Encodings by the special values of their format (R54, R55) -/

/-- Of the formats only E4M3 and E2M1 depart from IEEE's special values. -/
theorem special_of_format :
    ∀ f ∈ [b64, b32, b16, bf16, e4m3, e5m2, e2m1], f.sp = .ieee ∨ f = e4m3 ∨ f = e2m1 := by decide

theorem rneF_decodeF_ieee {f : FFmt} (ieee : f.sp = .ieee) {b : Nat} (hb : b < 2 ^ (1 + f.eb + f.fb))
    (number : decodeF f b ≠ .nan) : rneF f (decodeF f b) = b := by
  have fraction_lt : b % 2 ^ f.fb < 2 ^ f.fb := Nat.mod_lt b (Nat.two_pow_pos _)
  have exponent_lt : bits b f.fb f.eb < 2 ^ f.eb := Nat.mod_lt _ (Nat.two_pow_pos _)
  have fields := magCode_eq f b
  have decoded : decodeF f b =
      if bits b f.fb f.eb = 2 ^ f.eb - 1 then
        (if b % 2 ^ f.fb = 0 then .inf (b.testBit (f.eb + f.fb)) else .nan)
      else finiteOf f b := by
    unfold decodeF; rw [ieee]; rfl
  by_cases ones : bits b f.fb f.eb = 2 ^ f.eb - 1
  · rw [if_pos ones] at decoded
    by_cases zero : b % 2 ^ f.fb = 0
    · rw [decoded, if_pos zero]
      rw [ones, zero, Nat.add_zero] at fields
      refine Eq.trans ?_ (withSign_magCode hb)
      rw [fields]
      simp only [rneF, encodeF, ieee]
    · exact absurd (decoded.trans (if_neg zero)) number
  · rw [decoded, if_neg ones]
    apply rneF_finiteOf hb
    have exponent_le : (bits b f.fb f.eb + 1) * 2 ^ f.fb ≤ (2 ^ f.eb - 1) * 2 ^ f.fb :=
      Nat.mul_le_mul_right _ (by omega)
    rw [Nat.succ_mul] at exponent_le
    have largest : maxCode f = (2 ^ f.eb - 1) * 2 ^ f.fb - 1 := by
      unfold maxCode; rw [ieee]
    omega

theorem rneF_decodeF_e4m3 {b : Nat} (hb : b < 256) (number : decodeF e4m3 b ≠ .nan) :
    rneF e4m3 (decodeF e4m3 b) = b := by
  have fields : magCode e4m3 b = bits b 3 4 * 8 + b % 8 := magCode_eq e4m3 b
  have decoded : decodeF e4m3 b = if bits b 3 4 = 15 ∧ b % 8 = 7 then .nan else finiteOf e4m3 b := rfl
  have finite : ¬ (bits b 3 4 = 15 ∧ b % 8 = 7) := fun h => number (decoded.trans (if_pos h))
  have exponent_lt : bits b 3 4 < 16 := Nat.mod_lt _ (by decide)
  rw [decoded, if_neg finite]
  apply rneF_finiteOf hb
  change _ ≤ 0x7E
  omega

theorem rneF_decodeF_e2m1 {b : Nat} (hb : b < 16) : rneF e2m1 (decodeF e2m1 b) = b :=
  rneF_finiteOf (f := e2m1) hb (Nat.le_of_lt_succ (Nat.mod_lt b (by decide)))

end Sys2Proof.Machine
end

section
/-! The statement about number formats. -/

namespace Sys2Proof.Machine
open Sys2Proof

/-- Settles O7: rounding by the rest beyond the last place; the formats by their special values. -/
theorem numbersRoundAndEncode : Obligations.NumbersRoundAndEncode := by
  unfold Obligations.NumbersRoundAndEncode
  refine ⟨fun m _ _ h => roundTo_rne_nearest_even m h, fun f hf b hb number => ?_⟩
  obtain ieee | rfl | rfl := special_of_format f hf
  · exact rneF_decodeF_ieee ieee hb number
  · exact rneF_decodeF_e4m3 hb number
  · exact rneF_decodeF_e2m1 hb

end Sys2Proof.Machine
end
